-- ==== Sys2Proof/Word.lean ====
section
/-! DEFINITION. The word types of the SRN X960-A and the sparse tables that State is made of. -/

namespace Sys2Proof

/-- A byte of memory (00_scope.md R4). -/
abbrev Byte := BitVec 8

/-- A 32-bit register, parcel or memory word. -/
abbrev Word := BitVec 32

/-- A 64-bit register of management space, or a mask over the lanes of a group. -/
abbrev Word64 := BitVec 64

/-- A table by key. In canonical form its keys rise strictly, so equal tables are equal data. -/
abbrev Table (α : Type) := List (Nat × α)

/-- The canonical form of a table: keys strictly rising. -/
abbrev Table.wf {α : Type} (t : Table α) : Prop := t.Pairwise (fun x y => x.1 < y.1)

end Sys2Proof
end

