-- ==== Sys2Proof/Config.lean ====
section
/-! DEFINITION. What the spec leaves open: values that an instruction produces and the spec does not state, and values that only
another party can compute. None has a body: nothing can be proved of one but that it is some value. -/

namespace Sys2Proof.Config

/-- Of the two neighbouring results of FEXP2, FLOG2, FSIN, FCOS or FTANH that 256-bit bounds leave possible, whether the result is
the one of larger magnitude (R245 states the result; the bounds cannot decide it). By operation, type and operand. -/
opaque hardCase (op type bits : Nat) : Bool

/-- The next free value: bytes that the spec gives no value, by a counter that the step advances.
[DESIGN CHOICE, log 2] -/
opaque freeByte (n : Nat) : Byte
opaque freeWord (n : Nat) : Word
opaque freeWord64 (n : Nat) : Word64

/-- The signature bytes of an attestation quote (R433), by the counter and the byte number.
[DESIGN CHOICE, log 118] -/
opaque signature (n i : Nat) : Byte
/-- The SHA-512 measurement of a firmware image (R431, R433), and the version that an image states. -/
opaque imageDigest (bytes : List Byte) : BitVec 512
opaque imageVersion (bytes : List Byte) : BitVec 32

/-- The version and the measurement of the image that boot starts on each firmware core (R445). -/
opaque bootVersion (core : Nat) : BitVec 32
opaque bootDigest (core : Nat) : BitVec 512

/-- The measured module power in W (R443), by the millisecond.
[DESIGN CHOICE, log 75] -/
opaque modulePower (ms : Nat) : Nat

/-- The rows of a Gallery bank that this part's calibration gives as good at VP3 to VP5 (R136, R446), by (cluster * 32 + bank) * 8 + point. -/
opaque calibration (key : Nat) : BitVec 256
/-- The mode that the board configuration names for a Gallery bank at boot, coded as in R118, any other number for none (R119), by
cluster * 32 + bank.
[DESIGN CHOICE, log 126] -/
opaque bankMode (key : Nat) : Nat
/-- The L1 ways of a core that this part has good at VP3 to VP5 (R141, R446), by core * 8 + point.
[DESIGN CHOICE, log 38] -/
opaque goodWays (key : Nat) : Nat
/-- The size in bytes of the expander at each CXL port, 0 for none (R64).
[DESIGN CHOICE, log 14] -/
opaque expanderSize (port : Nat) : Nat

/-- Part number and serial number of the identity record, the VERSION of each record of the capability list, by ID, and the link width of
each far-tier port (R441). -/
opaque identity (k : Nat) : Word64
opaque capVersion (id : Nat) : Byte
opaque linkWidth (port : Nat) : Byte

/-- Which working sub-array computes a group of columns whose own is fenced, of the core and the fenced ones, counted among those that work
(R273, which does not say). -/
opaque standIn (core : Nat) (fenced : BitVec 8) (group : Nat) : Nat

/-- The two Reed–Solomon check symbols of a sector's 32 data bytes and 6 MARK bytes (R62), which the spec does not write out, and by how
much the stored symbols of an uncorrectable sector differ from them. -/
opaque checkCode (data : BitVec 256) (mark : BitVec 48) : BitVec 16
opaque checkError (sector : Nat) : BitVec 16

end Sys2Proof.Config
end

