-- ==== Sys2Proof/Syntax.lean ====
section
/-! DEFINITION. The instructions and steps of the SRN X960-A: one constructor of `Instr` for each row of
spec/opcode_table.json. The U-form, L-form and X-form instructions carry the decoded fields of
02_encoding.md; the steps of units, firmware and the outside world carry what says which unit, which
operation and which input they are about. -/

namespace Sys2Proof

/-- What every L-form and X-form carries (R28): stop bit, lookahead, guard negate and guard predicate. -/
structure Head where
  s : Bool
  la : BitVec 4
  neg : Bool
  guard : BitVec 3
  deriving DecidableEq, Repr

/-- Source codes of m13 (R29). Code 3 is reserved. -/
inductive Src where
  | reg | imm | unif
  deriving DecidableEq, Repr

/-- Integer types of m13 [2:0] (R48). -/
inductive ITy where
  | i32 | n32 | i64 | n64 | i16x2 | n16x2 | i8x4 | n8x4
  deriving DecidableEq, Repr

/-- Float types of m13 [2:0] (R49). -/
inductive FTy where
  | f32 | f64 | f16x2 | bf16x2 | f16 | bf16
  deriving DecidableEq, Repr

/-- Rounding field of m13 [5:3] (R49, R235). -/
inductive Rnd where
  | rne | rz | rdn | rup | dyn
  deriving DecidableEq, Repr

/-- Scopes (R27, R50, R171). -/
inductive Scope where
  | blk | team | die | dev | sys
  deriving DecidableEq, Repr

/-- Access classes (R50). -/
inductive Cls where
  | data | sync | add | logic | swap | peek
  deriving DecidableEq, Repr

/-- Access sizes (R50). -/
inductive Size where
  | n8 | i8 | n16 | i16 | b32 | b64 | b128
  deriving DecidableEq, Repr

/-- Fence kinds (R27). -/
inductive FenceKind where
  | acq | rel | ar
  deriving DecidableEq, Repr

/-- Gallery bank modes (R118). -/
inductive BankMode where
  | cache | scratch | fifo
  deriving DecidableEq, Repr

/-- The integer layout (R48) over an L-form (R28). -/
structure IForm where
  head : Head
  ops : BitVec 5
  vcs : Src
  vbs : Src
  sat : Bool
  ty : ITy
  vd : BitVec 8
  va : BitVec 8
  vb : BitVec 8
  vc : BitVec 8
  x32 : BitVec 32
  deriving DecidableEq, Repr

/-- The float layout (R49) over an L-form (R28). -/
structure FForm where
  head : Head
  clamp : Bool
  absB : Bool
  absA : Bool
  negB : Bool
  negA : Bool
  vbs : Src
  rnd : Rnd
  ty : FTy
  vd : BitVec 8
  va : BitVec 8
  vb : BitVec 8
  vc : BitVec 8
  x32 : BitVec 32
  deriving DecidableEq, Repr

/-- The memory layout and its x32 parcel (R50). -/
structure MForm where
  head : Head
  uidx : Bool
  nc : Bool
  z : Bool
  scope : Scope
  cls : Cls
  size : Size
  vd : BitVec 8
  va : BitVec 8
  vb : BitVec 8
  vc : BitVec 8
  buf : BitVec 4
  off : BitVec 24
  aop : BitVec 4
  deriving DecidableEq, Repr

/-- The Gallery layout (R130). Scope is blk or team. -/
structure GForm where
  head : Head
  uidx : Bool
  z : Bool
  team : Bool
  cls : Cls
  size : Size
  vd : BitVec 8
  va : BitVec 8
  vb : BitVec 8
  vc : BitVec 8
  off : BitVec 24
  aop : BitVec 4
  deriving DecidableEq, Repr

/-- The tile register layout (R267). -/
structure TForm where
  head : Head
  hi : Bool
  n : BitVec 2
  lb : BitVec 2
  vd : BitVec 8
  va : BitVec 8
  col : BitVec 5
  deriving DecidableEq, Repr

/-- The four shape words of an X-form (R30). -/
structure Shape where
  w0 : BitVec 32
  w1 : BitVec 32
  w2 : BitVec 32
  w3 : BitVec 32
  deriving DecidableEq, Repr

/-- MMA (R51, R256). -/
structure MmaForm where
  head : Head
  lb : BitVec 2
  noacc : Bool
  negb : Bool
  nega : Bool
  tile : BitVec 7
  shape : Shape
  deriving DecidableEq, Repr

/-- The tile transfer layout of TLOAD and TDRAIN (R269). -/
structure XferForm where
  head : Head
  mode : BitVec 3
  cvt : BitVec 4
  ti : Bool
  lb : BitVec 2
  mem : Bool
  rel : Bool
  acq : Bool
  tile : BitVec 7
  buf : BitVec 4
  shape : Shape
  deriving DecidableEq, Repr

/-- The copy layout (R187). -/
structure CopyForm where
  head : Head
  arv : Bool
  rel : Bool
  acq : Bool
  scope : Scope
  dir : BitVec 2
  rtype : BitVec 3
  vd : BitVec 8
  va : BitVec 8
  vb : BitVec 8
  vc : BitVec 8
  x32 : BitVec 32
  shape : Shape
  deriving DecidableEq, Repr

/-- U.M operands (R114): index register, buffer register and offset in 4-byte units. -/
structure UMem where
  sa : BitVec 6
  buf : BitVec 4
  off : BitVec 7
  deriving DecidableEq, Repr

/-- A mailbox request (R429, R464): whether the requester is the Ubpen link (the driver), the TAG of its
header and the words w0 to w6 of its body. -/
structure Request where
  driver : Bool
  tag : BitVec 16
  body : List (BitVec 64)
  deriving DecidableEq, Repr

/-- How the memory controller returns a sector (R62). -/
inductive SectorStatus where
  | good | corrected | uncorrectable
  deriving DecidableEq, Repr

/-- An entry of a structure that holds marks (R401, R405): an entry of the mark store or MARK, by sector; of a slice's stamp cache, by slot; a
scratch side record, by team and window sector; an entry of a cluster's overflow store, by its place. -/
inductive MarkPlace where
  | store (sector : Nat) | side (sector : Nat) | stamp (slice slot : Nat) | scratch (team sector : Nat) | overflow (cluster i : Nat)
  deriving DecidableEq, Repr

/-- What the companion processor or a peer device answers to an access sent to it (R184, R436, R440): performed, refused, or in conflict with
a live record there, by cause, class and stamp. -/
inductive PeerAnswer where
  | done | refused | conflict (cause : BitVec 8) (cls : BitVec 3) (stamp : BitVec 16)
  deriving DecidableEq, Repr

/-- What a write-back carries: an L1's dirty bytes to the home slice, or a slice's sector to its controller
(R70). -/
inductive WriteBackRef where
  | fromL1 (id : Nat)
  | fromSlice (sector : Nat)
  deriving DecidableEq, Repr

/-- The units of R392 that hold or drop tagged state. -/
inductive UnitRef where
  | core (n : Nat)
  | tlb (cluster : Nat)
  | gallery (cluster : Nat)
  | slice (n : Nat)
  | controller (stack : Nat)
  | copyEngine (cluster : Nat)
  | rollCall (die : Nat)
  | fjoven (port : Nat)
  | ubpen (link : Nat)
  deriving DecidableEq, Repr

/-- What a quarter notice goes to (R91). -/
inductive NoticeUnit where
  | slice (n : Nat)
  | gallery (cluster : Nat)
  deriving DecidableEq, Repr

/-- An access that arrives from a Ubpen host agent (R181, R435). -/
structure HostAccess where
  link : Nat
  write : Bool
  pa : Nat
  bytes : Nat
  data : Nat
  deriving DecidableEq, Repr

/-- The kind of a fabric request: an atomic by its op and type codes (R161). -/
inductive RemoteKind where
  | read | write | atomic (op type : Nat)
  deriving DecidableEq, Repr

/-- A word written to a register, and which of its bytes are written (R5). -/
structure MaskedWord where
  word : BitVec 64
  mask : BitVec 8
  deriving DecidableEq, Repr

/-- A fabric request that arrives from a peer (R440), with the window it was sent in (R184). -/
structure RemoteAccess where
  peer : Nat
  port : Nat
  peerCtx : Nat
  cls : Cls
  kind : RemoteKind
  pa : Nat
  bytes : Nat
  data : Nat
  data2 : Nat
  window : Nat
  deriving DecidableEq, Repr

/-- One migration command of the Prefect (R363): tasks between cores, or a waiting team to a cluster. -/
inductive Migration where
  | tasks (src dst count : Nat)
  | team (team cluster : Nat)
  deriving DecidableEq, Repr

/-- The instructions and steps: one constructor for each row of spec/opcode_table.json. -/
inductive Instr where
  -- U-form instructions (R25 to R27, R45)
  | nop (s : Bool)
  | sadd (s : Bool) (d a b : BitVec 6) (w : Bool)
  | ssub (s : Bool) (d a b : BitVec 6) (w : Bool)
  | smul (s : Bool) (d a b : BitVec 6) (sgn hi w : Bool)
  | sand (s : Bool) (d a b : BitVec 6) (w : Bool)
  | sor (s : Bool) (d a b : BitVec 6) (w : Bool)
  | sxor (s : Bool) (d a b : BitVec 6) (w : Bool)
  | sshl (s : Bool) (d a b : BitVec 6) (w : Bool)
  | sshr (s : Bool) (d a b : BitVec 6) (ar w : Bool)
  | smin (s : Bool) (d a b : BitVec 6) (sgn w : Bool)
  | smax (s : Bool) (d a b : BitVec 6) (sgn w : Bool)
  | scmp (s : Bool) (d : BitVec 3) (a b : BitVec 6) (w sgn : Bool) (c : BitVec 3)
  | ssel (s : Bool) (d a b : BitVec 6) (q : BitVec 3)
  | saddi (s : Bool) (d : BitVec 6) (i : BitVec 17)
  | smovi (s : Bool) (d : BitVec 6) (i : BitVec 17)
  | smovh (s : Bool) (d : BitVec 6) (i : BitVec 16)
  | sandi (s : Bool) (d : BitVec 6) (i : BitVec 17)
  | sori (s : Bool) (d : BitVec 6) (i : BitVec 17)
  | sxori (s : Bool) (d : BitVec 6) (i : BitVec 17)
  | sld (s : Bool) (d : BitVec 6) (m : UMem)
  | sst (s : Bool) (d : BitVec 6) (m : UMem)
  | movs (s : Bool) (d : BitVec 6) (sel : BitVec 8)
  | sets (s : Bool) (d : BitVec 6) (sel : BitVec 8)
  | sfmt (s : Bool) (a : BitVec 6) (f : BitVec 5)
  | brec (s : Bool) (d : BitVec 4) (m : UMem)
  | brecl (s : Bool) (d : BitVec 4) (a : BitVec 6)
  | brecx (s : Bool) (d : BitVec 4) (m : UMem)
  | qlog (s : Bool) (d a b : BitVec 3) (tt : BitVec 4)
  | bra (s : Bool) (g : BitVec 3) (neg : Bool) (o : BitVec 19)
  | call (s : Bool) (g : BitVec 3) (neg : Bool) (o : BitVec 19)
  | ret (s : Bool)
  | jmpi (s : Bool) (a : BitVec 6)
  | brp (s : Bool) (g : BitVec 3) (neg : Bool) (o : BitVec 19)
  | recv (s : Bool) (t : BitVec 16)
  | exit (s : Bool)
  | waitc (s : Bool) (p : BitVec 3) (n : BitVec 6)
  | sleep (s : Bool) (c : BitVec 20)
  | yield (s : Bool)
  | trap (s : Bool) (c : BitVec 8)
  | brk (s : Bool) (t : BitVec 16)
  | tret (s : Bool) (skip : Bool)
  | tinfo (s : Bool) (d n : BitVec 6)
  | dbgmark (s : Bool) (v : BitVec 16)
  | bar (land team : Bool)
  | barc (n : BitVec 6) (land team : Bool)
  | fence (s : Bool) (k : FenceKind) (c : Scope)
  | rollset (s : Bool) (n : BitVec 6) (d : BitVec 4)
  | rollarv (s : Bool) (n : BitVec 6) (d : BitVec 4)
  | rollwait (d : BitVec 4)
  | tspawn (s : Bool) (d : BitVec 6) (m : UMem)
  | twait (d : BitVec 6) (m : UMem)
  | tfill (s : Bool) (d : BitVec 6) (m : UMem)
  | tend (s : Bool)
  | lkacq (m : UMem)
  | lkrel (s : Bool) (m : UMem)
  | qpush (d : BitVec 6) (m : UMem)
  | qpop (d : BitVec 6) (m : UMem)
  | qreg (s : Bool) (m : UMem)
  | gmode (s : Bool) (m : BankMode) (b : BitVec 5)
  -- L-form integer, logic and cross-lane instructions (R205, R220)
  | vadd (f : IForm)
  | vsub (f : IForm)
  | vmul (f : IForm)
  | vmulh (f : IForm)
  | vmad (f : IForm)
  | vaddc (f : IForm)
  | vand (f : IForm)
  | vor (f : IForm)
  | vxor (f : IForm)
  | vshl (f : IForm)
  | vshr (f : IForm)
  | vfsh (f : IForm)
  | vmin (f : IForm)
  | vmax (f : IForm)
  | vabs (f : IForm)
  | vcmp (f : IForm)
  | vsel (f : IForm)
  | vmov (f : IForm)
  | vpopc (f : IForm)
  | vclz (f : IForm)
  | vbrev (f : IForm)
  | vbfe (f : IForm)
  | vbfi (f : IForm)
  | vlut3 (f : IForm)
  | vlut4 (f : IForm)
  | vdot4 (f : IForm)
  | vcvti (f : IForm)
  | vprm (f : IForm)
  | vlane (f : IForm)
  | plog (f : IForm)
  | vshfl (f : IForm)
  | vballot (f : IForm)
  | vvote (f : IForm)
  | vredux (f : IForm)
  | vmatch (f : IForm)
  | vscan (f : IForm)
  | vbcast (f : IForm)
  | vfirst (f : IForm)
  -- L-form float instructions (R241)
  | fadd (f : FForm)
  | fsub (f : FForm)
  | fmul (f : FForm)
  | ffma (f : FForm)
  | fmin (f : FForm)
  | fmax (f : FForm)
  | fcmp (f : FForm)
  | frcp (f : FForm)
  | frsq (f : FForm)
  | fsqrt (f : FForm)
  | fdiv (f : FForm)
  | fexp2 (f : FForm)
  | flog2 (f : FForm)
  | fsin (f : FForm)
  | fcos (f : FForm)
  | ftanh (f : FForm)
  | fcvt (f : FForm)
  | fcvti (f : FForm)
  | icvtf (f : FForm)
  | fclass (f : FForm)
  | frnd (f : FForm)
  | fscale (f : FForm)
  | fquant (f : FForm)
  | fdeq (f : FForm)
  | fflags (f : FForm)
  -- L-form memory, Gallery and tile instructions, X-forms (R46, R47)
  | ld (f : MForm)
  | st (f : MForm)
  | atom (f : MForm)
  | ldg (f : GForm)
  | stg (f : GForm)
  | atg (f : GForm)
  | pref (f : MForm)
  | trd (f : TForm)
  | twr (f : TForm)
  | tzero (f : TForm)
  | mma (f : MmaForm)
  | tload (f : XferForm)
  | tdrain (f : XferForm)
  | cpy (f : CopyForm)
  | cpymc (f : CopyForm)
  | cpyred (f : CopyForm)
  -- steps of the cores and their groups
  | recvResolve (gid : Nat)
  | groupWake (gid : Nat)
  | queueDeadlock (ctx : Nat)
  | taskAcknowledge (op : Nat)
  | producerComplete (op : Nat)
  | loadResponse (op : Nat)
  | writeIntentAnswer (op : Nat)
  | atomicResponse (op : Nat)
  | releaseWritebackAck (gid : Nat)
  | l1Eviction (core line : Nat)
  -- steps of the home slices, controllers and walkers
  | registration (req : Nat)
  | livenessProbe (req : Nat)
  | probeAnswer (req : Nat)
  | writeBack (w : WriteBackRef)
  | memoryResponse (sector : Nat) (st : SectorStatus)
  | quarterNotice (slot : Nat) (u : NoticeUnit)
  | quarterNoticeAck (slot : Nat) (u : NoticeUnit)
  | fabricQuarterNotice (slice : Nat)
  | windowAdvance
  | pagePurge (page count : Nat)
  | pageMove (src dst count : Nat)
  | pageTableWalk (walk : Nat)
  | shootdown (ctx va len : Nat)
  | faultRecordPost (ctx : Nat)
  | frheadWrite (master ctx : Nat) (v : BitVec 20)
  | replay (ctx : Nat)
  | convert (ctx : Nat) (slot : BitVec 16)
  | fabricResponseTimeout (op : Nat)
  -- steps of the copy engines, matrix engines, barriers and roll call
  | copyChunk (op : Nat)
  | copyComplete (op : Nat)
  | copyArrivalAccepted (op : Nat)
  | mmaBlock (op : Nat)
  | tloadComplete (op : Nat)
  | tdrainSnapshot (op : Nat)
  | tdrainComplete (op : Nat)
  | selfTestInjection (core sub : Nat) (pass : Bool)
  | barrierComplete (team : Bool) (id : Nat)
  | rollCallArrival (domain station : Nat)
  | phaseComplete (domain : Nat)
  | phaseMessage (domain dev : Nat) (phase : BitVec 32)
  | clockGate (gid : Nat)
  | coreRetention (core : Nat)
  | waitExceeded (gid split : Nat)
  | sleepEnd (gid split : Nat)
  | groupTimerThreshold (gid : Nat)
  | scratchScan (cluster : Nat)
  | gmodeDrainComplete (cluster : Nat)
  -- command queues, launches and scheduling
  | doorbell (master q : Nat) (v : BitVec 32)
  | cmdNop (q : Nat)
  | launch (q : Nat)
  | timetable (q : Nat)
  | chain (q : Nat)
  | wait (q : Nat)
  | waitReread (q : Nat)
  | signal (q : Nat)
  | copy (q : Nat)
  | marker (q : Nat)
  | kill (q : Nat)
  | reclaim (q : Nat)
  | reclaimComplete (ctx inc : Nat)
  | deadBroadcast (u : UnitRef) (ctx inc : Nat)
  | teamPlacement (lid : Nat)
  | windowClearComplete (team : Nat)
  | launchComplete (lid : Nat)
  | timetableNodeComplete (tt node : Nat)
  | prefectScan (moves : List Migration)
  -- contexts
  | preemptWithSave (ctx : Nat)
  | preemptWithDrain (ctx : Nat)
  | saveComplete (ctx : Nat)
  | restore (ctx : Nat)
  | revive (ctx : Nat)
  | openCtx (ctx : Nat)
  | preemptDeadline (ctx : Nat)
  -- reliability
  | rollback (block : Nat)
  | markStructureError (place : MarkPlace)
  | correctedError (struct unit addr : Nat)
  | pinRepair (stack : Nat)
  | channelResume (stack : Nat) (exhausted : Bool)
  | recalibrationComplete (cluster bank : Nat) (masks : List (BitVec 256))
  -- power, reset and boot
  | stepCheck
  | stepEvacuateDone
  | stepSwitchDone
  | thermalSample (t : BitVec 16)
  | reset
  | bootStageComplete (fail : BitVec 8)
  -- debug, trace and replay
  | breakpointHit (gid split : Nat)
  | watchpointHit (gid : Nat) (wp : Nat)
  | watchpointStop (gid : Nat)
  | traceSample (gid split : Nat)
  | trheadWrite (master ctx : Nat) (v : BitVec 20)
  | erheadWrite (master : Nat) (v : BitVec 20)
  | journalRelease (op : Nat)
  -- links, fabric, time
  | hostAccess (a : HostAccess)
  | companionResponse (op : Nat) (answer : PeerAnswer)
  | remoteRequest (a : RemoteAccess)
  | ptpMessage (offset : BitVec 64)
  | portFailure (port : Nat)
  | registerWrite (master addr : Nat) (v : MaskedWord)
  | fabricQuarterNoticeAck (slice : Nat)
  | causalTrialDelayEnd (gid split : Nat)
  | ubpenLinkFailure (link : Nat)
  | portTrained (port : Nat)
  | coreRecalibrationComplete (core : Nat) (ok : Bool)
  -- firmware requests
  | configureCommandQueue (r : Request)
  | assignRollCallDomain (r : Request)
  | releaseRollCallDomain (r : Request)
  | contextControl (r : Request)
  | mapPages (r : Request)
  | unmapPages (r : Request)
  | migratePages (r : Request)
  | setFaultRing (r : Request)
  | writeFrheadRequest (r : Request)
  | replayRequest (r : Request)
  | convertRequest (r : Request)
  | setHbase (r : Request)
  | setGmodeen (r : Request)
  | setTaskTable (r : Request)
  | setOverflowArea (r : Request)
  | setErrorControls (r : Request)
  | requestOperatingPoint (r : Request)
  | setPowerPolicy (r : Request)
  | recalibrateBank (r : Request)
  | writeAccessTableWindow (r : Request)
  | requestAttestationQuote (r : Request)
  | stageFirmwareImage (r : Request)
  | imageVerified (core : Nat) (ok : Bool)
  | handoverTransfer (core : Nat) (ok : Bool)
  | setCxlIdeKey (r : Request)
  | setQueuePriv (r : Request)
  | joinDomain (r : Request)
  | leaveDomain (r : Request)
  | writeImportEntry (r : Request)
  | removeImportEntry (r : Request)
  | attach (r : Request)
  | detach (r : Request)
  | haltRequest (r : Request)
  | resume (r : Request)
  | writeBreakpoint (r : Request)
  | writeDieWatchpoint (r : Request)
  | writeGalleryWatchpoint (r : Request)
  | writeTraceRegister (r : Request)
  | readHaltedState (r : Request)
  | writeHaltedState (r : Request)
  deriving DecidableEq, Repr

end Sys2Proof
end

