-- ==== Sys2Proof/WellFormed.lean ====
section
/-! DEFINITION. The field rules of each instruction that depend on the encoding alone (02_encoding.md R26 to
R29, R40, R48 to R53, and the field rules of the owning chapters). An instruction that breaks one traps with
0x02. Rules that depend on the group, the record or a shape word after substitution stand with the meanings. -/

namespace Sys2Proof

/-- Which lookahead an instruction may carry (R40). -/
inductive LaRule where
  | zero | window | path
  deriving DecidableEq, Repr

/-- Guard 7 may not be negated (R33), and LA follows R40. -/
def Head.ok (r : LaRule) (h : Head) : Bool :=
  !(h.neg && h.guard == 7) &&
  match r with
  | .zero => h.la == 0
  | .window => h.la != 15
  | .path => true

def even6 (r : BitVec 6) : Bool := r.toNat % 2 == 0
def quad6 (r : BitVec 6) : Bool := r.toNat % 4 == 0

/-- 64-bit types (R201). -/
def ITy.is64 : ITy → Bool
  | .i64 => true | .n64 => true | _ => false
/-- Signed types (R201). -/
def ITy.signed : ITy → Bool
  | .i32 => true | .i64 => true | .i16x2 => true | .i8x4 => true | _ => false
/-- Element width in bits (R201). -/
def ITy.width : ITy → Nat
  | .i32 => 32 | .n32 => 32 | .i64 => 64 | .n64 => 64 | .i16x2 => 16 | .n16x2 => 16 | .i8x4 => 8 | .n8x4 => 8
/-- Elements per register or pair (R201). -/
def ITy.count : ITy → Nat
  | .i32 => 1 | .n32 => 1 | .i64 => 1 | .n64 => 1 | .i16x2 => 2 | .n16x2 => 2 | .i8x4 => 4 | .n8x4 => 4

def FTy.is64 : FTy → Bool
  | .f64 => true | _ => false
/-- Elements per register (R240). -/
def FTy.count : FTy → Nat
  | .f16x2 => 2 | .bf16x2 => 2 | _ => 1

/-- The integer types by their code in m13 (R48). -/
def ITy.ofCode : Nat → ITy
  | 0 => .i32 | 1 => .n32 | 2 => .i64 | 3 => .n64 | 4 => .i16x2 | 5 => .n16x2 | 6 => .i8x4 | _ => .n8x4
/-- The float types by their code (R49); codes 6 and 7 are reserved. -/
def FTy.ofCode : Nat → Option FTy
  | 0 => some .f32 | 1 => some .f64 | 2 => some .f16x2 | 3 => some .bf16x2 | 4 => some .f16 | 5 => some .bf16
  | _ => none

/-- A lane register field; a pair starts at an even register (R29). -/
def laneOk (wide : Bool) (r : BitVec 8) : Bool := !wide || r.toNat % 2 == 0
/-- A field that names a uniform register, or a pair of them (R28, R29). -/
def unifOk (wide : Bool) (r : BitVec 8) : Bool := r.toNat < 64 && (!wide || r.toNat % 2 == 0)
/-- A field read by its source code (R29). -/
def srcOk (c : Src) (wide : Bool) (r : BitVec 8) : Bool :=
  match c with
  | .reg => laneOk wide r
  | .imm => r == 0
  | .unif => unifOk wide r
/-- A predicate that is read: p0 to p7 (R28). -/
def predSrc (r : BitVec 8) : Bool := r.toNat < 8
/-- A predicate that is written: p0 to p6 (R28). -/
def predDst (r : BitVec 8) : Bool := r.toNat < 7
/-- x32 is zero unless a source selects it (R28, R29). -/
def immZero (used : Bool) (x : BitVec 32) : Bool := used || x == 0
def Src.isImm : Src → Bool
  | .imm => true | _ => false
def Src.isReg : Src → Bool
  | .reg => true | _ => false
def Src.notImm : Src → Bool
  | .imm => false | _ => true

namespace IForm

/-- vd and va used, vb a source, vc unused. -/
def twoOk (f : IForm) : Bool :=
  laneOk f.ty.is64 f.vd && laneOk f.ty.is64 f.va && srcOk f.vbs f.ty.is64 f.vb && f.vcs.isReg && f.vc == 0 &&
  immZero f.vbs.isImm f.x32
/-- vd, va, vb and vc used, vb and vc sources. -/
def threeOk (f : IForm) : Bool :=
  laneOk f.ty.is64 f.vd && laneOk f.ty.is64 f.va && srcOk f.vbs f.ty.is64 f.vb && srcOk f.vcs f.ty.is64 f.vc &&
  immZero (f.vbs.isImm || f.vcs.isImm) f.x32
/-- vd and va used, vb, vc and x32 unused. -/
def oneOk (f : IForm) : Bool :=
  laneOk f.ty.is64 f.vd && laneOk f.ty.is64 f.va && f.vbs.isReg && f.vb == 0 && f.vcs.isReg && f.vc == 0 && f.x32 == 0
/-- Whole-register or pair types only (R205). -/
def wordTy (f : IForm) : Bool := f.ty.count == 1
def unsignedWord (f : IForm) : Bool := f.ty == .n32 || f.ty == .n64
def opBit (f : IForm) (i : Nat) : Bool := f.ops.getLsbD i
def opLow (f : IForm) : Nat := f.ops.toNat % 8
/-- Destination type of VCVTI, m13 [10:8] (R216). -/
def cvtTo (f : IForm) : ITy := ITy.ofCode f.opLow
/-- The legal pairs of VCVTI (R216): whether vb is used and whether HI is allowed; none when not legal. -/
def cvtPair (f : IForm) : Option (Bool × Bool) :=
  let s := f.ty; let d := f.cvtTo
  if s.count == 1 && d.count == 1 then some (false, false)
  else if (s == .i32 || s == .n32) && d.count == 2 then some (true, false)
  else if s.count == 2 && d.count == 4 then some (true, false)
  else if s.count == 2 && (d == .i32 || d == .n32) then some (false, true)
  else if s.count == 4 && d.count == 2 then some (false, true)
  else if s.count > 1 && s.count == d.count && s != d then some (false, false)
  else none

end IForm

/-- The field rules of the integer and cross-lane instructions (R203, R205, R220).
[DEDUCED, log 27] -/
def wfInt (i : Instr) : Bool :=
  match i with
  | .vadd f => f.head.ok .zero && f.twoOk && f.ops == 0
  | .vsub f => f.head.ok .zero && f.twoOk && f.ops == 0
  | .vmul f => f.head.ok .zero && f.twoOk && f.ops == 0
  | .vmulh f => f.head.ok .zero && f.twoOk && f.ops == 0 && !f.sat
  | .vmad f => f.head.ok .zero && f.threeOk && f.ops == 0
  | .vaddc f => f.head.ok .zero && f.unsignedWord && !f.sat && (f.opBit 4 || f.opLow == 0) &&
      laneOk f.ty.is64 f.vd && laneOk f.ty.is64 f.va && srcOk f.vbs f.ty.is64 f.vb && f.vcs.isReg && predSrc f.vc &&
      immZero f.vbs.isImm f.x32
  | .vand f => f.head.ok .zero && f.twoOk && f.ops.toNat < 4 && !f.sat
  | .vor f => f.head.ok .zero && f.twoOk && f.ops.toNat < 4 && !f.sat
  | .vxor f => f.head.ok .zero && f.twoOk && f.ops.toNat < 4 && !f.sat
  | .vshl f => f.head.ok .zero && f.twoOk && f.ops == 0
  | .vshr f => f.head.ok .zero && f.twoOk && f.ops.toNat < 2 && !f.sat
  | .vfsh f => f.head.ok .zero && f.threeOk && f.ty == .n32 && f.ops.toNat < 2 && !f.sat
  | .vmin f => f.head.ok .zero && f.twoOk && f.ops == 0 && !f.sat
  | .vmax f => f.head.ok .zero && f.twoOk && f.ops == 0 && !f.sat
  | .vabs f => f.head.ok .zero && f.oneOk && f.ty.signed && f.ops == 0
  | .vcmp f => f.head.ok .zero && f.wordTy && !f.sat && f.ops.toNat / 8 < 3 && f.opLow < 6 && predDst f.vd &&
      laneOk f.ty.is64 f.va && srcOk f.vbs f.ty.is64 f.vb && f.vcs.isReg && f.vc == 0 && immZero f.vbs.isImm f.x32
  | .vsel f => f.head.ok .zero && f.ops == 0 && !f.sat && laneOk f.ty.is64 f.vd && laneOk f.ty.is64 f.va &&
      srcOk f.vbs f.ty.is64 f.vb && f.vcs.isReg && predSrc f.vc && immZero f.vbs.isImm f.x32
  | .vmov f => f.head.ok .zero && f.twoOk && f.va == 0 && f.ops == 0 && !f.sat
  | .vpopc f => f.head.ok .zero && f.oneOk && f.ops == 0 && !f.sat
  | .vclz f => f.head.ok .zero && f.oneOk && f.ops == 0 && !f.sat
  | .vbrev f => f.head.ok .zero && f.oneOk && f.ops == 0 && !f.sat
  | .vbfe f => f.head.ok .zero && f.twoOk && f.wordTy && f.ops == 0 && !f.sat
  | .vbfi f => f.head.ok .zero && f.threeOk && f.unsignedWord && f.ops == 0 && !f.sat
  | .vlut3 f => f.head.ok .zero && f.ty == .n32 && !f.sat && f.ops.toNat < 2 && f.vbs.notImm && f.vcs.notImm &&
      srcOk f.vbs false f.vb && srcOk f.vcs false f.vc && f.x32.toNat < 256 && (!f.opBit 0 || (f.vbs.isReg && f.vcs.isReg))
  | .vlut4 f => f.head.ok .zero && f.ty == .n32 && !f.sat && f.ops.toNat < 2 && f.vbs.notImm && f.vcs.notImm &&
      srcOk f.vbs false f.vb && srcOk f.vcs false f.vc && f.x32.toNat < (if f.opBit 0 then 256 else 65536) &&
      (!f.opBit 0 || (f.vbs.isReg && f.vcs.isReg))
  | .vdot4 f => f.head.ok .zero && f.ty.count > 1 && f.ops.toNat < 2 && (!f.opBit 0 || f.ty.signed) && f.threeOk
  | .vcvti f => f.head.ok .zero && !f.opBit 4 && laneOk f.cvtTo.is64 f.vd && laneOk f.ty.is64 f.va && f.vcs.isReg && f.vc == 0 &&
      match f.cvtPair with
      | none => false
      | some (useB, useHi) => (useHi || !f.opBit 3) &&
          (if useB then srcOk f.vbs f.ty.is64 f.vb && immZero f.vbs.isImm f.x32 else f.vbs.isReg && f.vb == 0 && f.x32 == 0)
  | .vprm f => f.head.ok .zero && f.ty == .n32 && f.ops == 0 && !f.sat && srcOk f.vbs false f.vb && f.vcs.isReg &&
      immZero f.vbs.isImm f.x32
  | .vlane f => f.head.ok .zero && f.unsignedWord && f.ops.toNat < 4 && !f.sat && f.oneOk && f.va == 0
  | .plog f => f.head.ok .zero && f.ty == .i32 && !f.opBit 4 && !f.sat && predDst f.vd && predSrc f.va && predSrc f.vb &&
      f.vbs.isReg && f.vcs.isReg && f.vc == 0 && f.x32 == 0
  | .vshfl f => f.head.ok .zero && f.unsignedWord && !f.sat && f.ops.toNat / 4 < 7 && laneOk f.ty.is64 f.vd &&
      laneOk f.ty.is64 f.va && srcOk f.vbs false f.vb && f.vcs.isReg && predSrc f.vc && immZero f.vbs.isImm f.x32
  | .vballot f => f.head.ok .zero && f.unsignedWord && !f.sat && f.ops.toNat < 2 && (!f.opBit 0 || f.ty == .n32) &&
      laneOk f.ty.is64 f.vd && predSrc f.va && f.vbs.isReg && f.vb == 0 && f.vcs.isReg && f.vc == 0 && f.x32 == 0
  | .vvote f => f.head.ok .zero && f.ty == .i32 && !f.sat && f.ops.toNat % 16 < 3 && predDst f.vd && predSrc f.va &&
      f.vbs.isReg && f.vb == 0 && f.vcs.isReg && f.vc == 0 && f.x32 == 0
  | .vredux f => f.head.ok .window && f.wordTy && f.oneOk && f.opLow < 6 && (!f.sat || f.opLow == 0)
  | .vmatch f => f.head.ok .zero && f.unsignedWord && f.oneOk && f.ops.toNat < 2 && (!f.opBit 0 || f.ty == .n32) && !f.sat
  | .vscan f => f.head.ok .window && f.wordTy && f.oneOk && f.opLow < 6 && (!f.sat || f.opLow == 0)
  | .vbcast f => f.head.ok .zero && f.unsignedWord && !f.sat && f.ops.toNat < 2 && laneOk f.ty.is64 f.va &&
      (if f.opBit 0 then unifOk f.ty.is64 f.vd else laneOk f.ty.is64 f.vd) && !f.vbs.isReg && srcOk f.vbs false f.vb &&
      f.vcs.isReg && f.vc == 0 && immZero f.vbs.isImm f.x32
  | .vfirst f => f.head.ok .zero && f.ty == .n32 && !f.sat && f.ops.toNat &&& 14 == 0 &&
      (if f.opBit 4 then unifOk false f.vd else true) && predSrc f.va &&
      f.vbs.isReg && f.vb == 0 && f.vcs.isReg && f.vc == 0 && f.x32 == 0
  | _ => false

namespace FForm

def noRnd (f : FForm) : Bool := f.rnd == .rne
def noA (f : FForm) : Bool := !f.negA && !f.absA
def noB (f : FForm) : Bool := !f.negB && !f.absB
def twoRegs (f : FForm) : Bool := laneOk f.ty.is64 f.vd && laneOk f.ty.is64 f.va
/-- An x32 immediate of a 16-bit type has its upper half zero (R29). -/
def immOk (f : FForm) : Bool :=
  match f.vbs with
  | .imm => (f.ty != .f16 && f.ty != .bf16) || f.x32.toNat < 65536
  | _ => f.x32 == 0
def srcB (f : FForm) : Bool := srcOk f.vbs f.ty.is64 f.vb && f.immOk
def noVb (f : FForm) : Bool := f.vbs.isReg && f.vb == 0
def scalar (f : FForm) : Bool := f.ty.count == 1
/-- Types of FEXP2 to FTANH: every type but f64 (R241). -/
def notDouble (f : FForm) : Bool := !f.ty.is64

end FForm

/-- Elements per register of an element format code (R247); 0 for a reserved code. -/
def fmtPerReg (c : Nat) : Nat :=
  match c with
  | 0 => 4 | 1 => 4 | 2 => 8 | 3 => 8 | 4 => 4 | 5 => 4 | 6 => 8 | 7 => 4 | 8 => 2 | 9 => 2 | _ => 0

/-- PART is in range, and vb is used only when packing (R247). `es`, `ed`: elements per register. -/
def partOk (es ed part : Nat) (vbs : Src) (wide : Bool) (vb : BitVec 8) : Bool :=
  if es < ed then part < ed / (2 * es) && vbs.notImm && srcOk vbs wide vb
  else if ed == es then part == 0 && vbs.isReg && vb == 0
  else part < es / ed && vbs.isReg && vb == 0

/-- The x32 fields of FCVT (R248). -/
structure CvtFields where
  sat : Bool
  part : Nat
  sn : Bool
  st : Nat
  dn : Bool
  dt : Nat
  deriving DecidableEq, Repr

def CvtFields.ofWord (x : BitVec 32) : CvtFields :=
  { sat := x.getLsbD 13, part := (x.extractLsb' 10 3).toNat, sn := x.getLsbD 9, st := (x.extractLsb' 5 4).toNat,
    dn := x.getLsbD 4, dt := (x.extractLsb' 0 4).toNat }

def narrowCode (c : Nat) : Bool := c == 4 || c == 5 || c == 6

/-- Whether a format code of FCVT that is used is a reserved one: the instruction traps with 0x32 (R227). -/
def CvtFields.reserved (c : CvtFields) : Bool := (c.sn && 10 ≤ c.st) || (c.dn && 10 ≤ c.dt)
def FForm.cvtOk (f : FForm) : Bool :=
  let c := CvtFields.ofWord f.x32
  f.x32.toNat < 16384 && !(c.sn && c.dn) && (!c.sat || c.dn) &&
  (if c.sn then (narrowCode c.st || c.reserved) && f.ty == .f32 else c.st == 0) &&
  (if c.dn then narrowCode c.dt || c.reserved else (FTy.ofCode c.dt).isSome) &&
  (c.sn || c.dn || FTy.ofCode c.dt != some f.ty) &&
  (let es := if c.sn then fmtPerReg c.st else f.ty.count
   let ed := if c.dn then fmtPerReg c.dt else (match FTy.ofCode c.dt with | some t => t.count | none => 1)
   let dWide := !c.dn && FTy.ofCode c.dt == some .f64
   let sWide := !c.sn && f.ty.is64
   laneOk dWide f.vd && laneOk sWide f.va && (if c.reserved then f.vbs.notImm else partOk es ed c.part f.vbs sWide f.vb))

/-- The field rules of the float instructions (R240, R241, R244, R247 to R252). -/
def wfFloat (i : Instr) : Bool :=
  match i with
  | .fadd f => f.head.ok .zero && f.twoRegs && f.srcB && f.vc == 0
  | .fsub f => f.head.ok .zero && f.twoRegs && f.srcB && f.vc == 0
  | .fmul f => f.head.ok .zero && f.twoRegs && f.srcB && f.vc == 0
  | .ffma f => f.head.ok .zero && f.twoRegs && f.srcB && laneOk f.ty.is64 f.vc
  | .fmin f => f.head.ok .zero && f.twoRegs && f.srcB && f.vc == 0 && f.noRnd && !f.clamp
  | .fmax f => f.head.ok .zero && f.twoRegs && f.srcB && f.vc == 0 && f.noRnd && !f.clamp
  | .fcmp f => f.head.ok .zero && f.scalar && f.noRnd && !f.clamp && predDst f.vd && laneOk f.ty.is64 f.va &&
      f.vbs.notImm && srcOk f.vbs f.ty.is64 f.vb && f.vc == 0 && f.x32.toNat < 8
  | .frcp f => f.head.ok .window && f.twoRegs && f.noB && f.noVb && f.vc == 0 && f.x32 == 0
  | .frsq f => f.head.ok .window && f.twoRegs && f.noB && f.noVb && f.vc == 0 && f.x32 == 0
  | .fsqrt f => f.head.ok .window && f.twoRegs && f.noB && f.noVb && f.vc == 0 && f.x32 == 0
  | .fdiv f => f.head.ok .window && f.scalar && f.twoRegs && f.srcB && f.vc == 0
  | .fexp2 f => f.head.ok .window && f.notDouble && f.noB && f.noVb && f.vc == 0 && f.x32 == 0
  | .flog2 f => f.head.ok .window && f.notDouble && f.noB && f.noVb && f.vc == 0 && f.x32 == 0
  | .fsin f => f.head.ok .window && f.notDouble && f.noB && f.noVb && f.vc == 0 && f.x32 == 0
  | .fcos f => f.head.ok .window && f.notDouble && f.noB && f.noVb && f.vc == 0 && f.x32 == 0
  | .ftanh f => f.head.ok .window && f.notDouble && f.noB && f.noVb && f.vc == 0 && f.x32 == 0
  | .fcvt f => f.head.ok .zero && f.noB && !f.clamp && f.vc == 0 && f.cvtOk
  | .fcvti f => f.head.ok .zero && f.noB && !f.clamp && f.vc == 0 && f.x32 &&& 0xFFFFFF88#32 == 0 &&
      (let it := ITy.ofCode (f.x32.toNat % 8)
       laneOk it.is64 f.vd && laneOk f.ty.is64 f.va &&
       partOk f.ty.count it.count (f.x32.toNat / 16) f.vbs f.ty.is64 f.vb)
  | .icvtf f => f.head.ok .zero && f.noA && f.noB && !f.clamp && f.vc == 0 && f.x32 &&& 0xFFFFFF88#32 == 0 &&
      (let it := ITy.ofCode (f.x32.toNat % 8)
       laneOk f.ty.is64 f.vd && laneOk it.is64 f.va &&
       partOk it.count f.ty.count (f.x32.toNat / 16) f.vbs it.is64 f.vb)
  | .fclass f => f.head.ok .zero && f.scalar && f.noRnd && f.noA && f.noB && !f.clamp && predDst f.vd &&
      laneOk f.ty.is64 f.va && f.noVb && f.vc == 0 && f.x32.toNat < 1024
  | .frnd f => f.head.ok .zero && f.twoRegs && f.noB && !f.clamp && f.noVb && f.vc == 0 && f.x32 == 0
  | .fscale f => f.head.ok .zero && f.twoRegs && f.noB && srcOk f.vbs false f.vb && immZero f.vbs.isImm f.x32 && f.vc == 0
  | .fquant f => f.head.ok .zero && f.ty == .f32 && !f.clamp && f.vbs.notImm && srcOk f.vbs false f.vb && f.x32.toNat < 64 &&
      (fmtPerReg (f.x32.toNat % 16) == 0 || f.x32.toNat / 16 < fmtPerReg (f.x32.toNat % 16) / 2)
  | .fdeq f => f.head.ok .zero && (f.ty == .f32 || f.ty == .f16x2 || f.ty == .bf16x2) && f.noA && f.noB && !f.clamp && f.noVb &&
      f.x32.toNat < 128 &&
      (fmtPerReg (f.x32.toNat % 16) == 0 || f.x32.toNat / 16 + f.ty.count ≤ fmtPerReg (f.x32.toNat % 16))
  | .fflags f => f.head.ok .zero && f.ty == .f32 && f.noRnd && f.noA && f.noB && !f.clamp && f.va == 0 && f.noVb && f.vc == 0 &&
      f.x32 &&& 0xFFFFC0FC#32 == 0 &&
      (match f.x32.toNat % 4 with
       | 0 => f.x32.toNat / 256 == 0
       | 1 => f.vd == 0
       | 2 => f.vd == 0
       | _ => false)
  | _ => false

/-- Access size in bytes (R50). -/
def Size.bytes : Size → Nat
  | .n8 => 1 | .i8 => 1 | .n16 => 2 | .i16 => 2 | .b32 => 4 | .b64 => 8 | .b128 => 16

/-- A data field of the access size: even for b64, a multiple of 4 for b128 (R157). -/
def sizeReg (z : Size) (r : BitVec 8) : Bool :=
  match z with
  | .b64 => r.toNat % 2 == 0
  | .b128 => r.toNat % 4 == 0
  | _ => true

/-- The legal ops, classes, sizes and vc values of ATOM and ATG (R161). -/
def atomOk (op : BitVec 4) (cls : Cls) (z : Size) (vc : BitVec 8) : Bool :=
  let word := z == .b32 || z == .b64
  match op.toNat with
  | 0 => cls == .add && word && vc.toNat < 2
  | 1 => cls == .add && ((z == .b32 && (vc == 2 || vc == 4 || vc == 5)) || (z == .b64 && vc == 3))
  | 2 => cls == .add && word && vc == 0
  | 3 => cls == .logic && word && vc == 0
  | 4 => cls == .logic && word && vc == 0
  | 5 => cls == .logic && word && vc == 0
  | 6 => cls == .logic && word && vc.toNat < 2
  | 7 => cls == .logic && word && vc.toNat < 2
  | 8 => (cls == .swap || cls == .sync) && (word || z == .b128) && vc == 0
  | 9 => (cls == .swap || cls == .sync) && (word || z == .b128) && sizeReg z vc
  | _ => false

def idxOk (uidx : Bool) (va : BitVec 8) : Bool := !uidx || va.toNat < 64

/-- A shape word: bits [30:6] of a substitution marker are zero (R30). -/
def markerOk (w : BitVec 32) : Bool := !w.getLsbD 31 || w.toNat % 2147483648 < 64
def Shape.ok (w : Shape) : Bool := markerOk w.w0 && markerOk w.w1 && markerOk w.w2 && markerOk w.w3

/-- The field rules of the memory, Gallery, tile and copy instructions (R130, R157, R161, R187, R256, R267, R269). -/
def wfMem (i : Instr) : Bool :=
  match i with
  | .ld f => f.head.ok .path && idxOk f.uidx f.va && sizeReg f.size f.vd && f.vb == 0 && f.vc == 0 && f.aop == 0 &&
      (f.cls == .data || f.cls == .sync || f.cls == .peek)
  | .st f => f.head.ok .zero && idxOk f.uidx f.va && sizeReg f.size f.vb && f.vd == 0 && f.vc == 0 && f.aop == 0 &&
      (f.cls == .data || f.cls == .sync)
  | .atom f => f.head.ok (if f.vd == 255 then .zero else .path) && idxOk f.uidx f.va && atomOk f.aop f.cls f.size f.vc &&
      (f.vd == 255 || sizeReg f.size f.vd) && sizeReg f.size f.vb
  | .pref f => f.head.ok .zero && idxOk f.uidx f.va && f.cls == .data && f.size == .n8 && f.scope == .blk && !f.z &&
      f.vd == 0 && f.vb == 0 && f.vc == 0 && f.aop == 0
  | .ldg f => f.head.ok .path && idxOk f.uidx f.va && sizeReg f.size f.vd && f.vb == 0 && f.vc == 0 && f.aop == 0 &&
      (f.cls == .data || f.cls == .sync || f.cls == .peek)
  | .stg f => f.head.ok .zero && idxOk f.uidx f.va && sizeReg f.size f.vb && f.vd == 0 && f.vc == 0 && f.aop == 0 &&
      (f.cls == .data || f.cls == .sync)
  | .atg f => f.head.ok (if f.vd == 255 then .zero else .path) && idxOk f.uidx f.va && atomOk f.aop f.cls f.size f.vc &&
      (f.vd == 255 || sizeReg f.size f.vd) && sizeReg f.size f.vb
  | .trd f => f.head.ok .window && f.vd.toNat % 2 ^ f.n.toNat == 0 && f.va.toNat < 128 && f.col.toNat % 2 ^ f.n.toNat == 0
  | .twr f => f.head.ok .zero && f.va.toNat % 2 ^ f.n.toNat == 0 && f.vd.toNat < 128 && f.col.toNat % 2 ^ f.n.toNat == 0
  | .tzero f => f.head.ok .zero && f.n == 0 && !f.hi && f.vd.toNat < 128 && f.va == 0 && f.col == 0
  | .mma f => f.head.ok .zero && f.shape.ok
  | .tload f => f.head.ok .zero && f.mode == 0 && f.cvt == 0 && !f.ti && !f.rel && !f.acq && (f.mem || f.buf == 0) && f.shape.ok
  | .tdrain f => f.head.ok .zero && f.mode.toNat < 5 && (f.mode == 1 || f.cvt == 0) && (!f.ti || f.mode == 1 || f.mode == 2) &&
      (f.mem || f.buf == 0) && (f.mode != 3 || f.mem) && f.shape.ok
  | .cpy f => f.head.ok .zero && f.scope != .blk && f.rtype == 0 && f.x32 == 0 && copyRegs f false && f.shape.ok
  | .cpymc f => f.head.ok .zero && f.scope != .blk && f.rtype == 0 && f.x32 != 0 && f.dir != 1 && copyRegs f true && f.shape.ok
  | .cpyred f => f.head.ok .zero && f.scope != .blk && f.rtype.toNat < 6 && f.x32 == 0 && copyRegs f false && f.shape.ok
  | _ => false
where
  /-- Operand fields of a copy (R187): buffer numbers on memory sides, sT for a multicast into windows, and the
  domain and station register of ARV. -/
  copyRegs (f : CopyForm) (mc : Bool) : Bool :=
    let memSrc := f.dir == 0 || f.dir == 2
    let memDst := f.dir == 1 || f.dir == 2
    (if memSrc then f.va.toNat < 16 else f.va == 0) &&
    (if memDst then f.vd.toNat < 16 else if mc then f.vd.toNat < 64 else f.vd == 0) &&
    (if f.arv then f.vb.toNat < 16 && f.vc.toNat < 64 else f.vb == 0 && f.vc == 0)

/-- The field rules of the U-form instructions (R26, R27 and their chapters). -/
def wfUniform (i : Instr) : Bool :=
  match i with
  | .nop _ => true
  | .sadd _ d a b w => !w || (even6 d && even6 a && even6 b)
  | .ssub _ d a b w => !w || (even6 d && even6 a && even6 b)
  | .smul _ d a b sgn hi w => (!sgn || hi) && (!hi || !w) && (!w || (even6 d && even6 a && even6 b))
  | .sand _ d a b w => !w || (even6 d && even6 a && even6 b)
  | .sor _ d a b w => !w || (even6 d && even6 a && even6 b)
  | .sxor _ d a b w => !w || (even6 d && even6 a && even6 b)
  | .sshl _ d a _ w => !w || (even6 d && even6 a)
  | .sshr _ d a _ _ w => !w || (even6 d && even6 a)
  | .smin _ d a b _ w => !w || (even6 d && even6 a && even6 b)
  | .smax _ d a b _ w => !w || (even6 d && even6 a && even6 b)
  | .scmp _ d a b w _ c => d != 7 && c.toNat < 6 && (!w || (even6 a && even6 b))
  | .ssel _ _ _ _ _ => true
  | .saddi _ _ _ => true
  | .smovi _ _ _ => true
  | .smovh _ _ _ => true
  | .sandi _ _ _ => true
  | .sori _ _ _ => true
  | .sxori _ _ _ => true
  | .sld _ _ _ => true
  | .sst _ _ _ => true
  | .movs _ _ sel => 1 ≤ sel.toNat && sel.toNat ≤ 30
  | .sets _ _ sel => 1 ≤ sel.toNat && sel.toNat ≤ 30
  | .sfmt _ _ f => f.toNat < 3
  | .brec _ _ _ => true
  | .brecl _ _ a => quad6 a
  | .brecx _ _ _ => true
  | .qlog _ d _ _ _ => d != 7
  | .bra _ g neg _ => !(neg && g == 7)
  | .call _ g neg _ => !(neg && g == 7)
  | .ret _ => true
  | .jmpi _ _ => true
  | .brp _ g _ _ => g != 7
  | .recv _ _ => true
  | .exit _ => true
  | .waitc _ p _ => p.toNat < 6
  | .sleep _ _ => true
  | .yield _ => true
  | .trap _ _ => true
  | .brk _ _ => true
  | .tret _ _ => true
  | .tinfo _ _ _ => true
  | .dbgmark _ _ => true
  | .bar _ _ => true
  | .barc _ _ _ => true
  | .fence _ _ _ => true
  | .rollset _ _ _ => true
  | .rollarv _ _ _ => true
  | .rollwait _ => true
  | .tspawn _ _ _ => true
  | .twait d _ => even6 d
  | .tfill _ d _ => even6 d
  | .tend _ => true
  | .lkacq _ => true
  | .lkrel _ _ => true
  | .qpush d _ => quad6 d
  | .qpop d _ => quad6 d
  | .qreg _ _ => true
  | .gmode _ _ _ => true
  | _ => false

/-- An instruction that has an encoding and whose fields its chapter defines. A step without an encoding is not
well-formed: no bytes stand for it. -/
def Instr.wf (i : Instr) : Bool := wfUniform i || wfInt i || wfFloat i || wfMem i

end Sys2Proof
end

