-- ==== Sys2Proof/Decode.lean ====
section
/-! DEFINITION. The encoder and the decoder of the U-form, L-form and X-form instructions (02_encoding.md R23 to
R31, R45 to R53), both written from the field tables of the spec. A parcel word is read into fields, and an
instruction is accepted when its fields are well-formed and it encodes to the very parcels that were read: a
nonzero bit that no field covers makes them differ. -/

namespace Sys2Proof

/-- Why bytes are not an instruction. The first two trap with 0x01, the last with 0x02 (R53). -/
inductive Reject where
  | reservedOpcode
  | truncated
  | reservedField
  deriving DecidableEq, Repr

/-- The trap cause of a rejection (R53). -/
def Reject.cause : Reject → BitVec 8
  | .reservedOpcode => 0x01
  | .truncated => 0x01
  | .reservedField => 0x02

/-! ## Codes of the fields -/

def Src.code : Src → BitVec 2
  | .reg => 0 | .imm => 1 | .unif => 2
def Src.ofCode : Nat → Option Src
  | 0 => some .reg | 1 => some .imm | 2 => some .unif | _ => none
def ITy.code : ITy → BitVec 3
  | .i32 => 0 | .n32 => 1 | .i64 => 2 | .n64 => 3 | .i16x2 => 4 | .n16x2 => 5 | .i8x4 => 6 | .n8x4 => 7
def FTy.code : FTy → BitVec 3
  | .f32 => 0 | .f64 => 1 | .f16x2 => 2 | .bf16x2 => 3 | .f16 => 4 | .bf16 => 5
def Rnd.code : Rnd → BitVec 3
  | .rne => 0 | .rz => 1 | .rdn => 2 | .rup => 3 | .dyn => 4
def Rnd.ofCode : Nat → Option Rnd
  | 0 => some .rne | 1 => some .rz | 2 => some .rdn | 3 => some .rup | 4 => some .dyn | _ => none
def Scope.code : Scope → BitVec 3
  | .blk => 0 | .team => 1 | .die => 2 | .dev => 3 | .sys => 4
def Scope.ofCode : Nat → Option Scope
  | 0 => some .blk | 1 => some .team | 2 => some .die | 3 => some .dev | 4 => some .sys | _ => none
def Cls.code : Cls → BitVec 3
  | .data => 0 | .sync => 1 | .add => 2 | .logic => 3 | .swap => 4 | .peek => 5
def Cls.ofCode : Nat → Option Cls
  | 0 => some .data | 1 => some .sync | 2 => some .add | 3 => some .logic | 4 => some .swap | 5 => some .peek | _ => none
def Size.code : Size → BitVec 4
  | .n8 => 0 | .i8 => 1 | .n16 => 2 | .i16 => 3 | .b32 => 4 | .b64 => 5 | .b128 => 6
def Size.ofCode : Nat → Option Size
  | 0 => some .n8 | 1 => some .i8 | 2 => some .n16 | 3 => some .i16 | 4 => some .b32 | 5 => some .b64 | 6 => some .b128
  | _ => none
def FenceKind.code : FenceKind → BitVec 2
  | .acq => 1 | .rel => 2 | .ar => 3
def FenceKind.ofCode : Nat → Option FenceKind
  | 1 => some .acq | 2 => some .rel | 3 => some .ar | _ => none
def BankMode.code : BankMode → BitVec 2
  | .cache => 0 | .scratch => 1 | .fifo => 2
def BankMode.ofCode : Nat → Option BankMode
  | 0 => some .cache | 1 => some .scratch | 2 => some .fifo | _ => none

/-! ## The encoder -/

/-- One Boolean bit of a parcel. -/
def bit (b : Bool) : BitVec 1 := BitVec.ofBool b

/-- A U-form parcel (R25). -/
def parcelU (op : BitVec 7) (s : Bool) (body : BitVec 23) : BitVec 32 := 0#1 ++ op ++ bit s ++ body
/-- U.RRR (R25). -/
def rrr (op : BitVec 7) (s : Bool) (d a b : BitVec 6) (f5 : BitVec 5) : List (BitVec 32) :=
  [parcelU op s (d ++ a ++ b ++ f5)]
/-- U.RI (R25). -/
def ri (op : BitVec 7) (s : Bool) (d : BitVec 6) (i : BitVec 17) : List (BitVec 32) := [parcelU op s (d ++ i)]
/-- U.M (R25). -/
def um (op : BitVec 7) (s : Bool) (d : BitVec 6) (m : UMem) : List (BitVec 32) :=
  [parcelU op s (d ++ m.sa ++ m.buf ++ m.off)]
/-- U.BR (R25). -/
def ubr (op : BitVec 7) (s : Bool) (g : BitVec 3) (n : Bool) (o : BitVec 19) : List (BitVec 32) :=
  [parcelU op s (g ++ bit n ++ o)]
/-- U.SY (R27). -/
def usy (op : BitVec 7) (s : Bool) (body : BitVec 23) : List (BitVec 32) := [parcelU op s body]

/-- Parcel 0 of an L-form (`form` 0b10) or an X-form (`form` 0b11) (R28). -/
def parcelL (form : BitVec 2) (op : BitVec 8) (h : Head) (m13 : BitVec 13) : BitVec 32 :=
  form ++ op ++ bit h.s ++ h.la ++ bit h.neg ++ h.guard ++ m13
/-- Parcel 1 (R28). -/
def parcelR (vd va vb vc : BitVec 8) : BitVec 32 := vd ++ va ++ vb ++ vc

def encI (op : BitVec 8) (f : IForm) : List (BitVec 32) :=
  [parcelL 2 op f.head (f.ops ++ f.vcs.code ++ f.vbs.code ++ bit f.sat ++ f.ty.code), parcelR f.vd f.va f.vb f.vc, f.x32]
def encF (op : BitVec 8) (f : FForm) : List (BitVec 32) :=
  [parcelL 2 op f.head (bit f.clamp ++ bit f.absB ++ bit f.absA ++ bit f.negB ++ bit f.negA ++ f.vbs.code ++ f.rnd.code ++
    f.ty.code), parcelR f.vd f.va f.vb f.vc, f.x32]
def encM (op : BitVec 8) (f : MForm) : List (BitVec 32) :=
  [parcelL 2 op f.head (bit f.uidx ++ bit f.nc ++ bit f.z ++ f.scope.code ++ f.cls.code ++ f.size.code),
    parcelR f.vd f.va f.vb f.vc, f.buf ++ f.off ++ f.aop]
def encG (op : BitVec 8) (f : GForm) : List (BitVec 32) :=
  [parcelL 2 op f.head (bit f.uidx ++ 0#1 ++ bit f.z ++ (0#2 ++ bit f.team : BitVec 3) ++ f.cls.code ++ f.size.code),
    parcelR f.vd f.va f.vb f.vc, 0#4 ++ f.off ++ f.aop]
def encT (op : BitVec 8) (f : TForm) : List (BitVec 32) :=
  [parcelL 2 op f.head (0#4 ++ bit f.hi ++ f.n ++ 0#1 ++ f.lb ++ 0#3), parcelR f.vd f.va 0 0, 0#27 ++ f.col]
def Shape.words (w : Shape) : List (BitVec 32) := [w.w0, w.w1, w.w2, w.w3]
def encMma (f : MmaForm) : List (BitVec 32) :=
  [parcelL 3 0xC0 f.head (0#8 ++ f.lb ++ bit f.noacc ++ bit f.negb ++ bit f.nega), parcelR (0#1 ++ f.tile) 0 0 0, 0] ++
    f.shape.words
def encX (op : BitVec 8) (f : XferForm) : List (BitVec 32) :=
  [parcelL 3 op f.head (f.mode ++ f.cvt ++ bit f.ti ++ f.lb ++ bit f.mem ++ bit f.rel ++ bit f.acq),
    parcelR (0#1 ++ f.tile) (0#4 ++ f.buf) 0 0, 0] ++ f.shape.words
def encC (op : BitVec 8) (f : CopyForm) : List (BitVec 32) :=
  [parcelL 3 op f.head (bit f.arv ++ bit f.rel ++ bit f.acq ++ f.scope.code ++ f.dir ++ f.rtype ++ 0#2),
    parcelR f.vd f.va f.vb f.vc, f.x32] ++ f.shape.words

/-- The parcels of an instruction; none for a step that has no encoding. -/
def encode : Instr → List (BitVec 32)
  | .nop s => usy 0x00 s 0
  | .sadd s d a b w => rrr 0x01 s d a b (0#4 ++ bit w)
  | .ssub s d a b w => rrr 0x02 s d a b (0#4 ++ bit w)
  | .smul s d a b sgn hi w => rrr 0x03 s d a b (0#2 ++ bit sgn ++ bit hi ++ bit w)
  | .sand s d a b w => rrr 0x04 s d a b (0#4 ++ bit w)
  | .sor s d a b w => rrr 0x05 s d a b (0#4 ++ bit w)
  | .sxor s d a b w => rrr 0x06 s d a b (0#4 ++ bit w)
  | .sshl s d a b w => rrr 0x07 s d a b (0#4 ++ bit w)
  | .sshr s d a b n w => rrr 0x08 s d a b (0#3 ++ bit n ++ bit w)
  | .smin s d a b n w => rrr 0x09 s d a b (0#3 ++ bit n ++ bit w)
  | .smax s d a b n w => rrr 0x0a s d a b (0#3 ++ bit n ++ bit w)
  | .scmp s d a b w sgn c => rrr 0x0B s (0#3 ++ d) a b (bit w ++ bit sgn ++ c)
  | .ssel s d a b q => rrr 0x0C s d a b (0#2 ++ q)
  | .saddi s d i => ri 0x0d s d i
  | .smovi s d i => ri 0x0e s d i
  | .smovh s d i => ri 0x0F s d (0#1 ++ i)
  | .sandi s d i => ri 0x10 s d i
  | .sori s d i => ri 0x11 s d i
  | .sxori s d i => ri 0x12 s d i
  | .sld s d m => um 0x13 s d m
  | .sst s d m => um 0x14 s d m
  | .movs s d e => ri 0x15 s d (0#9 ++ e)
  | .sets s d e => ri 0x16 s d (0#9 ++ e)
  | .sfmt s a f => rrr 0x17 s 0 a 0 f
  | .brec s d m => um 0x18 s (0#2 ++ d) m
  | .brecl s d a => um 0x19 s (0#2 ++ d) { sa := a, buf := 0, off := 0 }
  | .brecx s d m => um 0x1A s (0#2 ++ d) m
  | .qlog s d a b tt => rrr 0x1B s (0#3 ++ d) (0#3 ++ a) (0#3 ++ b) (0#1 ++ tt)
  | .bra s g n o => ubr 0x20 s g n o
  | .call s g n o => ubr 0x21 s g n o
  | .brp s g n o => ubr 0x24 s g n o
  | .ret s => usy 0x22 s 0
  | .jmpi s a => rrr 0x23 s 0 a 0 0
  | .recv s t => usy 0x25 s (0#7 ++ t)
  | .exit s => usy 0x26 s 0
  | .waitc s p n => usy 0x27 s (p ++ n ++ 0#14)
  | .sleep s c => usy 0x28 s (0#3 ++ c)
  | .yield s => usy 0x29 s 0
  | .trap s c => usy 0x2A s (0#15 ++ c)
  | .brk s t => usy 0x2B s (0#7 ++ t)
  | .tret s k => usy 0x2C s (0#22 ++ bit k)
  | .tinfo s d n => ri 0x2D s d (0#11 ++ n)
  | .dbgmark s v => usy 0x2E s (0#7 ++ v)
  | .bar l t => usy 0x30 true (0#21 ++ bit l ++ bit t)
  | .barc n l t => usy 0x31 true (n ++ 0#15 ++ bit l ++ bit t)
  | .fence s k c => usy 0x32 s (0#18 ++ k.code ++ c.code)
  | .rollset s n d => usy 0x33 s (n ++ 0#13 ++ d)
  | .rollarv s n d => usy 0x34 s (n ++ 0#13 ++ d)
  | .rollwait d => usy 0x35 true (0#19 ++ d)
  | .tspawn s d m => um 0x36 s d m
  | .twait d m => um 0x37 true d m
  | .tfill s d m => um 0x38 s d m
  | .tend s => usy 0x39 s 0
  | .lkacq m => um 0x3A true 0 m
  | .lkrel s m => um 0x3B s 0 m
  | .qpush d m => um 0x3C true d m
  | .qpop d m => um 0x3D true d m
  | .qreg s m => um 0x3E s 0 m
  | .gmode s m b => usy 0x3F s (0#16 ++ m.code ++ b)
  | .vadd f => encI 0x00 f
  | .vsub f => encI 0x01 f
  | .vmul f => encI 0x02 f
  | .vmulh f => encI 0x03 f
  | .vmad f => encI 0x04 f
  | .vaddc f => encI 0x05 f
  | .vand f => encI 0x06 f
  | .vor f => encI 0x07 f
  | .vxor f => encI 0x08 f
  | .vshl f => encI 0x09 f
  | .vshr f => encI 0x0a f
  | .vfsh f => encI 0x0b f
  | .vmin f => encI 0x0c f
  | .vmax f => encI 0x0d f
  | .vabs f => encI 0x0e f
  | .vcmp f => encI 0x0f f
  | .vsel f => encI 0x10 f
  | .vmov f => encI 0x11 f
  | .vpopc f => encI 0x12 f
  | .vclz f => encI 0x13 f
  | .vbrev f => encI 0x14 f
  | .vbfe f => encI 0x15 f
  | .vbfi f => encI 0x16 f
  | .vlut3 f => encI 0x17 f
  | .vlut4 f => encI 0x18 f
  | .vdot4 f => encI 0x19 f
  | .vcvti f => encI 0x1a f
  | .vprm f => encI 0x1b f
  | .vlane f => encI 0x1c f
  | .plog f => encI 0x1d f
  | .vshfl f => encI 0x30 f
  | .vballot f => encI 0x31 f
  | .vvote f => encI 0x32 f
  | .vredux f => encI 0x33 f
  | .vmatch f => encI 0x34 f
  | .vscan f => encI 0x35 f
  | .vbcast f => encI 0x36 f
  | .vfirst f => encI 0x37 f
  | .fadd f => encF 0x40 f
  | .fsub f => encF 0x41 f
  | .fmul f => encF 0x42 f
  | .ffma f => encF 0x43 f
  | .fmin f => encF 0x44 f
  | .fmax f => encF 0x45 f
  | .fcmp f => encF 0x46 f
  | .frcp f => encF 0x47 f
  | .frsq f => encF 0x48 f
  | .fsqrt f => encF 0x49 f
  | .fdiv f => encF 0x4a f
  | .fexp2 f => encF 0x4b f
  | .flog2 f => encF 0x4c f
  | .fsin f => encF 0x4d f
  | .fcos f => encF 0x4e f
  | .ftanh f => encF 0x4f f
  | .fcvt f => encF 0x50 f
  | .fcvti f => encF 0x51 f
  | .icvtf f => encF 0x52 f
  | .fclass f => encF 0x53 f
  | .frnd f => encF 0x54 f
  | .fscale f => encF 0x55 f
  | .fquant f => encF 0x56 f
  | .fdeq f => encF 0x57 f
  | .fflags f => encF 0x58 f
  | .ld f => encM 0x80 f
  | .st f => encM 0x81 f
  | .atom f => encM 0x82 f
  | .pref f => encM 0x86 f
  | .ldg f => encG 0x83 f
  | .stg f => encG 0x84 f
  | .atg f => encG 0x85 f
  | .trd f => encT 0xa0 f
  | .twr f => encT 0xa1 f
  | .tzero f => encT 0xa2 f
  | .mma f => encMma f
  | .tload f => encX 0xc1 f
  | .tdrain f => encX 0xc2 f
  | .cpy f => encC 0xc8 f
  | .cpymc f => encC 0xc9 f
  | .cpyred f => encC 0xca f
  | _ => []

/-! ## The decoder -/

/-- The U.M operands of a parcel (R25). -/
def umem (p : BitVec 32) : UMem := { sa := p.extractLsb' 11 6, buf := p.extractLsb' 7 4, off := p.extractLsb' 0 7 }

/-- The fields of a U-form parcel, by its opcode (R25 to R27, R45). None for a reserved opcode; some none for a
reserved code in a field. -/
def fieldsU (p : BitVec 32) : Option (Option Instr) :=
  let s := p.getLsbD 23
  let d : BitVec 6 := p.extractLsb' 17 6
  let a : BitVec 6 := p.extractLsb' 11 6
  let b : BitVec 6 := p.extractLsb' 5 6
  let i17 : BitVec 17 := p.extractLsb' 0 17
  let d3 : BitVec 3 := p.extractLsb' 17 3
  let d4 : BitVec 4 := p.extractLsb' 17 4
  let g : BitVec 3 := p.extractLsb' 20 3
  let n := p.getLsbD 19
  let o : BitVec 19 := p.extractLsb' 0 19
  let i16 : BitVec 16 := p.extractLsb' 0 16
  let b0 := p.getLsbD 0
  let b1 := p.getLsbD 1
  let dom : BitVec 4 := p.extractLsb' 0 4
  match (p.extractLsb' 24 7).toNat with
  | 0x00 => some (some (.nop s))
  | 0x01 => some (some (.sadd s d a b b0))
  | 0x02 => some (some (.ssub s d a b b0))
  | 0x03 => some (some (.smul s d a b (p.getLsbD 2) b1 b0))
  | 0x04 => some (some (.sand s d a b b0))
  | 0x05 => some (some (.sor s d a b b0))
  | 0x06 => some (some (.sxor s d a b b0))
  | 0x07 => some (some (.sshl s d a b b0))
  | 0x08 => some (some (.sshr s d a b b1 b0))
  | 0x09 => some (some (.smin s d a b b1 b0))
  | 0x0a => some (some (.smax s d a b b1 b0))
  | 0x0b => some (some (.scmp s d3 a b (p.getLsbD 4) (p.getLsbD 3) (p.extractLsb' 0 3)))
  | 0x0c => some (some (.ssel s d a b (p.extractLsb' 0 3)))
  | 0x0d => some (some (.saddi s d i17))
  | 0x0e => some (some (.smovi s d i17))
  | 0x0f => some (some (.smovh s d i16))
  | 0x10 => some (some (.sandi s d i17))
  | 0x11 => some (some (.sori s d i17))
  | 0x12 => some (some (.sxori s d i17))
  | 0x13 => some (some (.sld s d (umem p)))
  | 0x14 => some (some (.sst s d (umem p)))
  | 0x15 => some (some (.movs s d (p.extractLsb' 0 8)))
  | 0x16 => some (some (.sets s d (p.extractLsb' 0 8)))
  | 0x17 => some (some (.sfmt s a (p.extractLsb' 0 5)))
  | 0x18 => some (some (.brec s d4 (umem p)))
  | 0x19 => some (some (.brecl s d4 a))
  | 0x1a => some (some (.brecx s d4 (umem p)))
  | 0x1b => some (some (.qlog s d3 (p.extractLsb' 11 3) (p.extractLsb' 5 3) (p.extractLsb' 0 4)))
  | 0x20 => some (some (.bra s g n o))
  | 0x21 => some (some (.call s g n o))
  | 0x22 => some (some (.ret s))
  | 0x23 => some (some (.jmpi s a))
  | 0x24 => some (some (.brp s g n o))
  | 0x25 => some (some (.recv s i16))
  | 0x26 => some (some (.exit s))
  | 0x27 => some (some (.waitc s g (p.extractLsb' 14 6)))
  | 0x28 => some (some (.sleep s (p.extractLsb' 0 20)))
  | 0x29 => some (some (.yield s))
  | 0x2a => some (some (.trap s (p.extractLsb' 0 8)))
  | 0x2b => some (some (.brk s i16))
  | 0x2c => some (some (.tret s b0))
  | 0x2d => some (some (.tinfo s d (p.extractLsb' 0 6)))
  | 0x2e => some (some (.dbgmark s i16))
  | 0x30 => some (some (.bar b1 b0))
  | 0x31 => some (some (.barc d b1 b0))
  | 0x32 => some (match FenceKind.ofCode (p.extractLsb' 3 2).toNat, Scope.ofCode (p.extractLsb' 0 3).toNat with
    | some k, some c => some (.fence s k c)
    | _, _ => none)
  | 0x33 => some (some (.rollset s d dom))
  | 0x34 => some (some (.rollarv s d dom))
  | 0x35 => some (some (.rollwait dom))
  | 0x36 => some (some (.tspawn s d (umem p)))
  | 0x37 => some (some (.twait d (umem p)))
  | 0x38 => some (some (.tfill s d (umem p)))
  | 0x39 => some (some (.tend s))
  | 0x3a => some (some (.lkacq (umem p)))
  | 0x3b => some (some (.lkrel s (umem p)))
  | 0x3c => some (some (.qpush d (umem p)))
  | 0x3d => some (some (.qpop d (umem p)))
  | 0x3e => some (some (.qreg s (umem p)))
  | 0x3f => some ((BankMode.ofCode (p.extractLsb' 5 2).toNat).map fun m => .gmode s m (p.extractLsb' 0 5))
  | _ => none

/-- The head of an L-form or X-form (R28). -/
def headOf (p : BitVec 32) : Head :=
  { s := p.getLsbD 21, la := p.extractLsb' 17 4, neg := p.getLsbD 16, guard := p.extractLsb' 13 3 }

def iform (p r x : BitVec 32) : Option IForm :=
  match Src.ofCode (p.extractLsb' 6 2).toNat, Src.ofCode (p.extractLsb' 4 2).toNat with
  | some vcs, some vbs => some
    { head := headOf p, ops := p.extractLsb' 8 5, vcs := vcs, vbs := vbs, sat := p.getLsbD 3,
      ty := ITy.ofCode (p.extractLsb' 0 3).toNat, vd := r.extractLsb' 24 8, va := r.extractLsb' 16 8,
      vb := r.extractLsb' 8 8, vc := r.extractLsb' 0 8, x32 := x }
  | _, _ => none

def fform (p r x : BitVec 32) : Option FForm :=
  match Src.ofCode (p.extractLsb' 6 2).toNat, Rnd.ofCode (p.extractLsb' 3 3).toNat, FTy.ofCode (p.extractLsb' 0 3).toNat with
  | some vbs, some rnd, some ty => some
    { head := headOf p, clamp := p.getLsbD 12, absB := p.getLsbD 11, absA := p.getLsbD 10, negB := p.getLsbD 9,
      negA := p.getLsbD 8, vbs := vbs, rnd := rnd, ty := ty, vd := r.extractLsb' 24 8, va := r.extractLsb' 16 8,
      vb := r.extractLsb' 8 8, vc := r.extractLsb' 0 8, x32 := x }
  | _, _, _ => none

def mform (p r x : BitVec 32) : Option MForm :=
  match Scope.ofCode (p.extractLsb' 7 3).toNat, Cls.ofCode (p.extractLsb' 4 3).toNat, Size.ofCode (p.extractLsb' 0 4).toNat with
  | some sc, some c, some z => some
    { head := headOf p, uidx := p.getLsbD 12, nc := p.getLsbD 11, z := p.getLsbD 10, scope := sc, cls := c, size := z,
      vd := r.extractLsb' 24 8, va := r.extractLsb' 16 8, vb := r.extractLsb' 8 8, vc := r.extractLsb' 0 8,
      buf := x.extractLsb' 28 4, off := x.extractLsb' 4 24, aop := x.extractLsb' 0 4 }
  | _, _, _ => none

def gform (p r x : BitVec 32) : Option GForm :=
  match Cls.ofCode (p.extractLsb' 4 3).toNat, Size.ofCode (p.extractLsb' 0 4).toNat with
  | some c, some z => some
    { head := headOf p, uidx := p.getLsbD 12, z := p.getLsbD 10, team := p.getLsbD 7, cls := c, size := z,
      vd := r.extractLsb' 24 8, va := r.extractLsb' 16 8, vb := r.extractLsb' 8 8, vc := r.extractLsb' 0 8,
      off := x.extractLsb' 4 24, aop := x.extractLsb' 0 4 }
  | _, _ => none

def tform (p r x : BitVec 32) : TForm :=
  { head := headOf p, hi := p.getLsbD 8, n := p.extractLsb' 6 2, lb := p.extractLsb' 3 2, vd := r.extractLsb' 24 8,
    va := r.extractLsb' 16 8, col := x.extractLsb' 0 5 }

def mmaForm (p r : BitVec 32) (w : Shape) : MmaForm :=
  { head := headOf p, lb := p.extractLsb' 3 2, noacc := p.getLsbD 2, negb := p.getLsbD 1, nega := p.getLsbD 0,
    tile := r.extractLsb' 24 7, shape := w }

def xferForm (p r : BitVec 32) (w : Shape) : XferForm :=
  { head := headOf p, mode := p.extractLsb' 10 3, cvt := p.extractLsb' 6 4, ti := p.getLsbD 5, lb := p.extractLsb' 3 2,
    mem := p.getLsbD 2, rel := p.getLsbD 1, acq := p.getLsbD 0, tile := r.extractLsb' 24 7, buf := r.extractLsb' 16 4,
    shape := w }

def copyForm (p r x : BitVec 32) (w : Shape) : Option CopyForm :=
  (Scope.ofCode (p.extractLsb' 7 3).toNat).map fun sc =>
    { head := headOf p, arv := p.getLsbD 12, rel := p.getLsbD 11, acq := p.getLsbD 10, scope := sc, dir := p.extractLsb' 5 2,
      rtype := p.extractLsb' 2 3, vd := r.extractLsb' 24 8, va := r.extractLsb' 16 8, vb := r.extractLsb' 8 8,
      vc := r.extractLsb' 0 8, x32 := x, shape := w }

/-- The integer and cross-lane instructions by opcode (R46). -/
def intOp : Nat → Option (IForm → Instr)
  | 0x00 => some .vadd
  | 0x01 => some .vsub
  | 0x02 => some .vmul
  | 0x03 => some .vmulh
  | 0x04 => some .vmad
  | 0x05 => some .vaddc
  | 0x06 => some .vand
  | 0x07 => some .vor
  | 0x08 => some .vxor
  | 0x09 => some .vshl
  | 0x0a => some .vshr
  | 0x0b => some .vfsh
  | 0x0c => some .vmin
  | 0x0d => some .vmax
  | 0x0e => some .vabs
  | 0x0f => some .vcmp
  | 0x10 => some .vsel
  | 0x11 => some .vmov
  | 0x12 => some .vpopc
  | 0x13 => some .vclz
  | 0x14 => some .vbrev
  | 0x15 => some .vbfe
  | 0x16 => some .vbfi
  | 0x17 => some .vlut3
  | 0x18 => some .vlut4
  | 0x19 => some .vdot4
  | 0x1a => some .vcvti
  | 0x1b => some .vprm
  | 0x1c => some .vlane
  | 0x1d => some .plog
  | 0x30 => some .vshfl
  | 0x31 => some .vballot
  | 0x32 => some .vvote
  | 0x33 => some .vredux
  | 0x34 => some .vmatch
  | 0x35 => some .vscan
  | 0x36 => some .vbcast
  | 0x37 => some .vfirst
  | _ => none

/-- The float instructions by opcode (R46). -/
def floatOp : Nat → Option (FForm → Instr)
  | 0x40 => some .fadd
  | 0x41 => some .fsub
  | 0x42 => some .fmul
  | 0x43 => some .ffma
  | 0x44 => some .fmin
  | 0x45 => some .fmax
  | 0x46 => some .fcmp
  | 0x47 => some .frcp
  | 0x48 => some .frsq
  | 0x49 => some .fsqrt
  | 0x4a => some .fdiv
  | 0x4b => some .fexp2
  | 0x4c => some .flog2
  | 0x4d => some .fsin
  | 0x4e => some .fcos
  | 0x4f => some .ftanh
  | 0x50 => some .fcvt
  | 0x51 => some .fcvti
  | 0x52 => some .icvtf
  | 0x53 => some .fclass
  | 0x54 => some .frnd
  | 0x55 => some .fscale
  | 0x56 => some .fquant
  | 0x57 => some .fdeq
  | 0x58 => some .fflags
  | _ => none

/-- The fields of an L-form (R46). None for a reserved opcode; some none for a reserved code in a field. -/
def fieldsL (p r x : BitVec 32) : Option (Option Instr) :=
  let op := (p.extractLsb' 22 8).toNat
  match intOp op with
  | some c => some ((iform p r x).map c)
  | none =>
  match floatOp op with
  | some c => some ((fform p r x).map c)
  | none =>
  match op with
  | 0x80 => some ((mform p r x).map .ld)
  | 0x81 => some ((mform p r x).map .st)
  | 0x82 => some ((mform p r x).map .atom)
  | 0x83 => some ((gform p r x).map .ldg)
  | 0x84 => some ((gform p r x).map .stg)
  | 0x85 => some ((gform p r x).map .atg)
  | 0x86 => some ((mform p r x).map .pref)
  | 0xa0 => some (some (.trd (tform p r x)))
  | 0xa1 => some (some (.twr (tform p r x)))
  | 0xa2 => some (some (.tzero (tform p r x)))
  | _ => none

/-- The fields of an X-form (R47). -/
def fieldsX (p r x : BitVec 32) (w : Shape) : Option (Option Instr) :=
  match (p.extractLsb' 22 8).toNat with
  | 0xc0 => some (some (.mma (mmaForm p r w)))
  | 0xc1 => some (some (.tload (xferForm p r w)))
  | 0xc2 => some (some (.tdrain (xferForm p r w)))
  | 0xc8 => some ((copyForm p r x w).map .cpy)
  | 0xc9 => some ((copyForm p r x w).map .cpymc)
  | 0xca => some ((copyForm p r x w).map .cpyred)
  | _ => none

/-- Four bytes as a little-endian parcel (R4, R23). -/
def parcelOf (a b c d : Byte) : BitVec 32 := d ++ c ++ b ++ a
/-- The parcels at the head of a text, at most `k`. -/
def parcelsOf : Nat → List Byte → List (BitVec 32)
  | 0, _ => []
  | k + 1, a :: b :: c :: d :: rest => parcelOf a b c d :: parcelsOf k rest
  | _ + 1, _ => []
/-- The bytes of a parcel, lowest address first (R4). -/
def parcelBytes (p : BitVec 32) : List Byte :=
  [p.extractLsb' 0 8, p.extractLsb' 8 8, p.extractLsb' 16 8, p.extractLsb' 24 8]
/-- The bytes of an instruction. -/
def encodeBytes (i : Instr) : List Byte := (encode i).flatMap parcelBytes

/-- Accept fields that are well-formed and encode to the parcels they were read from.
[DEDUCED, log 96] -/
def accept (ps : List (BitVec 32)) : Option (Option Instr) → Except Reject Instr
  | none => .error .reservedOpcode
  | some none => .error .reservedField
  | some (some i) => if i.wf && encode i == ps then .ok i else .error .reservedField

/-- Whether an opcode of the form that bits [31:30] give is in R45 to R47. -/
def knownOpcode (p : BitVec 32) : Bool :=
  if !p.getLsbD 31 then (fieldsU p).isSome
  else if !p.getLsbD 30 then (fieldsL p 0 0).isSome
  else (fieldsX p 0 0 { w0 := 0, w1 := 0, w2 := 0, w3 := 0 }).isSome

/-- Decode the instruction at the head of a text: the instruction and its length in bytes, or why there is none
(R23, R24, R53). -/
def decode (text : List Byte) : Except Reject (Instr × Nat) :=
  match parcelsOf 7 text with
  | [] => .error .truncated
  | p :: rest =>
    if !knownOpcode p then .error .reservedOpcode
    else if !p.getLsbD 31 then (accept [p] (fieldsU p)).map fun i => (i, 4)
    else if !p.getLsbD 30 then
      match rest with
      | r :: x :: _ => (accept [p, r, x] (fieldsL p r x)).map fun i => (i, 12)
      | _ => .error .truncated
    else
      match rest with
      | r :: x :: w0 :: w1 :: w2 :: w3 :: _ =>
        (accept [p, r, x, w0, w1, w2, w3] (fieldsX p r x { w0 := w0, w1 := w1, w2 := w2, w3 := w3 })).map fun i => (i, 28)
      | _ => .error .truncated

/-- The `n` bytes of a number, least significant first. -/
def bytesOfNat : Nat → Nat → List Byte
  | 0, _ => []
  | n + 1, w => BitVec.ofNat 8 w :: bytesOfNat n (w / 256)

/-- The bytes of an instruction whose bits are `w`, least significant first, and zero above `nbits`, up to the
longest instruction (R23). -/
def tableBytes (nbits w : Nat) : List Byte := bytesOfNat 28 (w % 2 ^ nbits)

/-- The instruction that the decoder reads from an instruction whose bits are `w`. -/
def decodeTableWord (nbits w : Nat) : Option Instr :=
  match decode (tableBytes nbits w) with
  | .ok (i, _) => some i
  | .error _ => none

/-- The head of an L-form or X-form. -/
def Instr.head? : Instr → Option Head
  | .vadd f => some f.head
  | .vsub f => some f.head
  | .vmul f => some f.head
  | .vmulh f => some f.head
  | .vmad f => some f.head
  | .vaddc f => some f.head
  | .vand f => some f.head
  | .vor f => some f.head
  | .vxor f => some f.head
  | .vshl f => some f.head
  | .vshr f => some f.head
  | .vfsh f => some f.head
  | .vmin f => some f.head
  | .vmax f => some f.head
  | .vabs f => some f.head
  | .vcmp f => some f.head
  | .vsel f => some f.head
  | .vmov f => some f.head
  | .vpopc f => some f.head
  | .vclz f => some f.head
  | .vbrev f => some f.head
  | .vbfe f => some f.head
  | .vbfi f => some f.head
  | .vlut3 f => some f.head
  | .vlut4 f => some f.head
  | .vdot4 f => some f.head
  | .vcvti f => some f.head
  | .vprm f => some f.head
  | .vlane f => some f.head
  | .plog f => some f.head
  | .vshfl f => some f.head
  | .vballot f => some f.head
  | .vvote f => some f.head
  | .vredux f => some f.head
  | .vmatch f => some f.head
  | .vscan f => some f.head
  | .vbcast f => some f.head
  | .vfirst f => some f.head
  | .fadd f => some f.head
  | .fsub f => some f.head
  | .fmul f => some f.head
  | .ffma f => some f.head
  | .fmin f => some f.head
  | .fmax f => some f.head
  | .fcmp f => some f.head
  | .frcp f => some f.head
  | .frsq f => some f.head
  | .fsqrt f => some f.head
  | .fdiv f => some f.head
  | .fexp2 f => some f.head
  | .flog2 f => some f.head
  | .fsin f => some f.head
  | .fcos f => some f.head
  | .ftanh f => some f.head
  | .fcvt f => some f.head
  | .fcvti f => some f.head
  | .icvtf f => some f.head
  | .fclass f => some f.head
  | .frnd f => some f.head
  | .fscale f => some f.head
  | .fquant f => some f.head
  | .fdeq f => some f.head
  | .fflags f => some f.head
  | .ld f => some f.head
  | .st f => some f.head
  | .atom f => some f.head
  | .ldg f => some f.head
  | .stg f => some f.head
  | .atg f => some f.head
  | .pref f => some f.head
  | .trd f => some f.head
  | .twr f => some f.head
  | .tzero f => some f.head
  | .mma f => some f.head
  | .tload f => some f.head
  | .tdrain f => some f.head
  | .cpy f => some f.head
  | .cpymc f => some f.head
  | .cpyred f => some f.head
  | _ => none

/-- The stop bit: whether the instruction is a safe point (R34, R35). -/
def Instr.stop (i : Instr) : Bool :=
  match i.head? with
  | some h => h.s
  | none =>
    match encode i with
    | [p] => p.getLsbD 23
    | _ => false

/-- The lookahead of an instruction (R40); 0 for a U-form. -/
def Instr.lookahead (i : Instr) : Nat :=
  match i.head? with
  | some h => h.la.toNat
  | none => 0

end Sys2Proof
end

