-- ==== Sys2Proof/Machine/State.lean ====
section
/-! DEFINITION. The state of the SRN X960-A as plain data: memory and its marks, caches, translation, contexts,
launches, teams, blocks, groups, splits and the operations in flight, the Gallery, tiles, queues, roll call,
firmware, fabric, debug and power; the reasons a step can stop; and the machine right after reset. -/

namespace Sys2Proof.Machine

open Sys2Proof

/-! ## Why a step can stop -/

/-- The machine's own faults. The spec gives every bad address and every bad operand a trap, a park or an event,
so the machine has one fault only. -/
inductive Fault where
  /-- Raised by `step` when the module holds itself in reset after a thermal shutdown (R443) and nothing releases
  it. Safe: no state follows. -/
  | heldInReset
  deriving DecidableEq, Repr

/-- Why an instruction has no meaning in a state. -/
inductive Refusal where
  /-- Raised by the dispatcher for an instruction that has no meaning yet. Safe. -/
  | notModelled (mnemonic : String)
  /-- Raised by `exec` when no split is issuing: an encoded instruction acts for a split (R279). `step` never calls
  `exec` so. Safe. -/
  | noIssuer
  deriving DecidableEq, Repr

/-! ## Memory, slices and caches -/

/-- A mark record (R81). Bits [2:0] of the stored record are zero. -/
structure MarkRec where
  slot : BitVec 16
  stamp : BitVec 16
  mask : BitVec 8
  cls : BitVec 3
  ovf : Bool
  valid : Bool
  deriving DecidableEq, Repr

/-- A mark-store entry (R82): the tag of its sector's context, two records and their origin ordinals. -/
structure MarkEntry where
  ctx : Nat
  inc : Nat
  r0 : MarkRec
  r1 : MarkRec
  o0 : Option (BitVec 24)
  o1 : Option (BitVec 24)
  age : Nat
  deriving DecidableEq, Repr

/-- One sector of an L1 line (R140): bytes, valid, dirty and pending masks, generation stamp. -/
structure L1Sector where
  data : BitVec 256
  valid : BitVec 32
  dirty : BitVec 32
  pending : BitVec 32
  stamp : Nat
  deriving DecidableEq, Repr

/-- An L1 line (R140). -/
structure L1Line where
  ctx : Nat
  inc : Nat
  ro : Bool
  s0 : L1Sector
  s1 : L1Sector
  s2 : L1Sector
  s3 : L1Sector
  age : Nat
  deriving DecidableEq, Repr

/-- A sector in the cache ways of a Gallery (R118, R152), the bank that holds it, and when it came. -/
structure GWay where
  ctx : Nat
  inc : Nat
  data : BitVec 256
  bank : Nat
  age : Nat
  deriving DecidableEq, Repr

/-- A 128-byte line of a core's instruction cache (R10, R118), its tag, and when it came. -/
structure ILine where
  ctx : Nat
  inc : Nat
  data : BitVec 1024
  age : Nat
  deriving DecidableEq, Repr

/-- A sector held by its home slice (R70, R72).
[DEDUCED, log 41] -/
structure L2Sector where
  ctx : Nat
  inc : Nat
  data : BitVec 256
  dirty : Bool
  poison : BitVec 32
  deriving DecidableEq, Repr

/-- A byte-masked write-back on its way from an L1 to a home slice (R70, R151). -/
structure WriteBk where
  core : Nat
  sector : Nat
  mask : BitVec 32
  data : BitVec 256
  ctx : Nat
  inc : Nat
  deriving DecidableEq, Repr

/-- The head and tail of a slice's spill log (R90).
[DESIGN CHOICE, log 6] -/
structure Spill where
  head : Nat
  tail : Nat
  deriving DecidableEq, Repr

/-- A registration at a home slice (R79, R85), and how far its check has come (R84). `record` numbers the record
whose party is being probed. -/
inductive ReqPhase where
  | sent
  | probing (slot stamp : BitVec 16)
  | answered (slot stamp : BitVec 16) (live : Bool) (cur : BitVec 16)
  deriving DecidableEq, Repr

structure Req where
  op : Nat
  sector : Nat
  slot : BitVec 16
  stamp : BitVec 16
  cls : BitVec 3
  mask : BitVec 8
  ctx : Nat
  inc : Nat
  origin : Option (BitVec 24)
  phase : ReqPhase
  deriving DecidableEq, Repr

/-- A quarter notice not yet acknowledged by every unit (R91, R92): the units still to acknowledge, and those of them that have
done their part. -/
structure Notice where
  slot : Nat
  quarter : Nat
  left : List NoticeUnit
  handled : List NoticeUnit
  deriving DecidableEq, Repr

/-- A translation held in a TLB (R104). `size` is the log2 of the page size. -/
structure TlbEnt where
  inc : Nat
  pa : Nat
  size : Nat
  rd : Bool
  wr : Bool
  ex : Bool
  deriving DecidableEq, Repr

/-- A page-table walk in flight (R105), on the 4 KiB region `page` of a context. -/
structure Walk where
  die : Nat
  core : Nat
  ctx : Nat
  inc : Nat
  page : Nat
  deriving DecidableEq, Repr

/-- An access-table window (R112). -/
structure AccWin where
  wbase : BitVec 40
  limit : BitVec 40
  at_ : Bool
  wr : Bool
  rd : Bool
  deriving DecidableEq, Repr

/-- A physical page that the memory core has mapped (R73): owner and virtual page. -/
structure PageMap where
  ctx : Nat
  inc : Nat
  va : Nat
  size : Nat
  deriving DecidableEq, Repr

/-! ## Contexts -/

/-- A pre-emption in progress (R381 to R383). -/
structure Preempt where
  drain : Bool
  start : Nat
  deriving DecidableEq, Repr

/-- A block in a save image (R387), with what the image has no room for: its adoption stack, which stays (R387), and its landing area
with what stands in it (R397), and the words of its tiles that are poisoned (R273). `at_` is its place in the image. -/
structure SavedBlock where
  lid : Nat
  team : Nat
  linear : Nat
  at_ : Nat
  stack : Option (Nat × Nat)
  landSlot : Option Nat
  rowsCopied : List Nat
  rowsWritten : List Nat
  notes : List (Nat × Nat)
  poison : List Nat
  deriving DecidableEq, Repr

/-- A team in a save image (R386), its place there, and its window rows. -/
structure SavedTeam where
  lid : Nat
  index : Nat
  at_ : Nat
  rows : Nat
  deriving DecidableEq, Repr

/-- A context: its control registers (R380), page-table root (R101), fault ring and handler area (R108, R372),
GMODEEN (R135), task table and adoption pool (R302), overflow area (R89), trace and causal trial (R418, R421),
breakpoints (R412), and what the firmware cores hold for it. -/
structure Ctx where
  cstate : BitVec 3
  unrecl : BitVec 8
  lastkill : BitVec 8
  cinc : BitVec 8
  savebase : BitVec 64
  deadline : BitVec 32
  pstat : BitVec 8
  savesize : BitVec 64
  root : BitVec 52
  frbase : BitVec 64
  frsize : BitVec 5
  frhead : BitVec 20
  frtail : BitVec 20
  hbase : BitVec 45
  gmodeen : Bool
  ttbase : BitVec 64
  ttsize : BitVec 5
  ttused : BitVec 21
  aspool : BitVec 64
  assize : BitVec 40
  oabase : BitVec 64
  oasets : BitVec 5
  trbase : BitVec 64
  tren : Bool
  sper : BitVec 20
  trsize : BitVec 5
  trhead : BitVec 20
  trtail : BitVec 20
  perturb : BitVec 64
  ctLo : BitVec 32
  ctHi : BitVec 32
  ctObj : BitVec 16
  ctEn : Bool
  ctDelay : BitVec 32
  pmatch : BitVec 64
  prog0 : BitVec 32
  prog1 : BitVec 32
  prog2 : BitVec 32
  prog3 : BitVec 32
  bps : List (BitVec 64)
  attached : Bool
  preempt : Option Preempt
  unreclaimed : List (BitVec 8)
  qdead : Option Nat
  tracePost : List (List (BitVec 32))
  savedTeams : List SavedTeam
  savedBlocks : List SavedBlock
  savedNotes : List (Nat × Nat)
  deriving DecidableEq, Repr

/-- A context that nothing has set up: the reset values of its registers.
[DESIGN CHOICE, log 8] -/
def Ctx.init : Ctx :=
  { cstate := 0, unrecl := 0, lastkill := 0, cinc := 0, savebase := 0, deadline := 1000, pstat := 0, savesize := 0, root := 0,
    frbase := 0, frsize := 0, frhead := 0, frtail := 0, hbase := 0, gmodeen := false, ttbase := 0, ttsize := 0, ttused := 0,
    aspool := 0, assize := 0, oabase := 0, oasets := 0, trbase := 0, tren := false, sper := 0, trsize := 0, trhead := 0,
    trtail := 0, perturb := 0, ctLo := 0, ctHi := 0, ctObj := 0, ctEn := false, ctDelay := 0, pmatch := 0, prog0 := 0, prog1 := 0,
    prog2 := 0, prog3 := 0, bps := [0, 0, 0, 0, 0, 0, 0, 0], attached := false, preempt := none, unreclaimed := [],
    qdead := none, tracePost := [], savedTeams := [], savedBlocks := [], savedNotes := [] }

/-- A kill or a reclaim in progress: the units that have not acknowledged, and what was asked (R390, R393); `revive` when a REVIVE waits for
the end of a kill (R395). -/
structure Ending where
  cause : BitVec 8
  left : List UnitRef
  cmd : Option Nat
  revive : Bool
  deriving DecidableEq, Repr

/-! ## Launches, teams, blocks, groups and splits -/

/-- What a launch belongs to: a command of a queue, or a Timetable node (R351, R359). -/
inductive LaunchSrc where
  | cmd (id : Nat)
  | node (tt index : Nat)
  deriving DecidableEq, Repr

/-- A launch: its descriptor (R354), its code object header (R356) and its progress (R357, R360). -/
structure Launch where
  ctx : Nat
  inc : Nat
  src : LaunchSrc
  code : Nat
  entry : Nat
  gridx : Nat
  gridy : Nat
  gridz : Nat
  gpb : Nat
  width : Nat
  vregs : Nat
  tiles : Nat
  gal : Nat
  team : Nat
  land : Bool
  floor : Nat
  prio : Nat
  adopt : Nat
  place : Nat
  flags : BitVec 16
  fmt : BitVec 32
  param : Nat
  psize : Nat
  landarea : Nat
  journal : Nat
  doneaddr : Nat
  doneval : BitVec 64
  codeId : BitVec 16
  textOff : Nat
  textSize : Nat
  spOff : Nat
  spCount : Nat
  handler : Nat
  nextTeam : Nat
  running : Nat
  cause : BitVec 8
  deriving DecidableEq, Repr

/-- A barrier (R332, R334, R335): the arrivals of the open instance, its fixed count, whether it has a BAR arrival,
and the groups whose arrival carries LAND. -/
structure Barrier where
  arrived : List Nat
  fixed : Option Nat
  bar : Bool
  land : List Nat
  deriving DecidableEq, Repr

def Barrier.open_ : Barrier := { arrived := [], fixed := none, bar := false, land := [] }

/-- States of a team (R139). Its tag is context * 256 + incarnation (R122). -/
inductive TeamState where
  | pending | clearing | resident
  deriving DecidableEq, Repr

structure Team where
  lid : Nat
  tag : Nat
  index : Nat
  cluster : Nat
  rows : Nat
  bankRows : List Nat
  state : TeamState
  blocks : List Nat
  bar : Barrier
  deriving DecidableEq, Repr

structure Block where
  lid : Nat
  tid : Nat
  linear : Nat
  core : Nat
  gids : List Nat
  bar : Barrier
  escaped : Bool
  landSlot : Option Nat
  rowsCopied : List Nat
  rowsWritten : List Nat
  adopt : Option Nat
  seq : Nat
  rolled : Bool
  landed : Bool
  deriving DecidableEq, Repr

/-- An entry of the join table (R280): the join mask and entry that the divergence replaced. -/
structure JoinEnt where
  oldJ : BitVec 64
  oldEnt : Option Nat
  deriving DecidableEq, Repr

inductive StackState where
  | unserved | waiting
  deriving DecidableEq, Repr

/-- A serial stack entry (R285), since when its path is held in µs, and whether that was reported (R347). -/
structure StackEnt where
  mask : BitVec 64
  fmt : BitVec 32
  pc : BitVec 32
  token : BitVec 16
  state : StackState
  since : Nat
  told : Bool
  deriving DecidableEq, Repr

/-- An outstanding producer of a split and its remaining window; none for LA = 15 (R40, R41). -/
structure Out where
  op : Nat
  rem : Option Nat
  deriving DecidableEq, Repr

/-- What a split waits for. `ready` is a split that may issue; every other constructor but `recv` and
`stopped` re-issues its instruction when its condition holds. -/
inductive Wait where
  | ready
  | recv
  | producers
  | registrations
  | writebacks
  | window (n : Nat)
  | windowRule (n : Nat)
  | counter (path : Nat)
  | waitc (path n : Nat) (site : Bool)
  | sleep (until_ : Nat)
  | yield
  | engine
  | drained
  | barrier (team land : Bool) (count : Option Nat)
  | roll (domain : Nat) (phase : BitVec 32)
  | parkedTask
  | quarter
  | op (id : Nat)
  | journal
  | gmode
  | trace
  | delay (until_ : Nat)
  | stopped
  deriving DecidableEq, Repr

/-- A split (R279). The model's own: the cycle after that of its last issue (`last`), how far its instruction has come (`stage`), and what has been done before it issues (`pre`: bit 0 a
breakpoint, bit 1 a trial's delay; bit 3 says that its place comes from a save image, R24). -/
structure Split where
  pc : BitVec 32
  mask : BitVec 64
  fmt : BitVec 32
  j : BitVec 64
  jent : Option Nat
  stack : List StackEnt
  outs : List Out
  wait : Wait
  skid : Nat
  last : Nat
  stage : Nat
  pre : Nat
  deriving DecidableEq, Repr

/-- The trap shadow (R371, R373): the split, the resume point and what TRET restores, the record of R109 as eight
words, and the words of TINFO. -/
structure Shadow where
  split : Nat
  resume : BitVec 32
  mask : BitVec 64
  fmt : BitVec 32
  q : BitVec 7
  b15 : Option (BitVec 128)
  kind : Nat
  op : Option Nat
  length : Nat
  frame : List (BitVec 32)
  words : List (BitVec 32)
  code : BitVec 32
  origin : BitVec 32
  codeId : BitVec 16
  since : Nat
  dead : Bool
  deriving DecidableEq, Repr

/-- Why and how a group is halted for the debug core (R410, R411). -/
structure Halt where
  cause : BitVec 8
  tag : BitVec 32
  split : Nat
  frame : List (BitVec 32)
  deriving DecidableEq, Repr

/-- A stop for the debug core that a group takes at its next safe point (R410, R415): cause, word 17, scope, the frame of a watchpoint
hit (empty for the others), and a second cluster that the stop reaches. -/
structure HaltReq where
  cause : BitVec 8
  tag : BitVec 32
  scope : Nat
  frame : List (BitVec 32)
  also : Option Nat
  deriving DecidableEq, Repr

/-- The spawner of a task, for the journal (R423). -/
structure Spawner where
  linear : Nat
  gidx : Nat
  jseq : Nat
  deriving DecidableEq, Repr

/-- What a group parked on a task object waits for (R303, R313). Kind 1 future, 2 lock, 3 queue push, 4 queue pop. -/
structure Blocker where
  kind : Nat
  va : Nat
  pa : Nat
  owner : BitVec 32
  woken : Bool
  deriving DecidableEq, Repr

/-- A group (R276, R288). `hit` is a watchpoint hit that is still to be recorded, when its operation `hitOp` has completed (R415), `step` allows one instruction of a single step
(R416). -/
structure Group where
  bid : Nat
  gidx : Nat
  live : BitVec 64
  q : BitVec 7
  flags : BitVec 6
  timer : Nat
  gtthr : BitVec 32
  cychi : BitVec 32
  gthi : BitVec 32
  va : Nat
  overflowed : Bool
  locks : Nat
  thandle : BitVec 32
  depth : Nat
  join0 : Option JoinEnt
  join1 : Option JoinEnt
  join2 : Option JoinEnt
  nlast : Option Nat
  shadow : Option Shadow
  halt : Option Halt
  stop : Bool
  haltReq : Option HaltReq
  hit : Option HaltReq
  hitOp : Option Nat
  step : Bool
  gttPending : Bool
  capPending : Bool
  waitStart : Option Nat
  gated : Bool
  hung : Bool
  resTime : Nat
  blocker : Option Blocker
  jseq : Nat
  relPending : Bool
  placed : Nat
  deriving DecidableEq, Repr

/-- A registration filter entry (R143). -/
structure FilterEnt where
  r : BitVec 8
  w : BitVec 8
  k : BitVec 8
  deriving DecidableEq, Repr

/-! ## Operations in flight -/

/-- One executing lane of a memory operation: where it accesses and its captured operands. -/
structure LaneAcc where
  lane : Nat
  va : Nat
  b : Nat
  c : Nat
  deriving DecidableEq, Repr

/-- The translation of one 128-byte line of an operation (R100, R101, R106). -/
inductive LineTr where
  | walking (walk : Nat)
  | ok (line : Nat)
  | park (cause : BitVec 8) (malformed posted : Bool)
  deriving DecidableEq, Repr

/-- What a sector of an operation has been answered (R85, R94). -/
inductive SecAns where
  | none
  | sent
  | ack
  | conflict (cause : BitVec 8) (slot : BitVec 16) (cls : BitVec 3) (stamp : BitVec 16) (words : BitVec 8)
      (origin : Option (BitVec 24))
  | capacity (cause : BitVec 8)
  deriving DecidableEq, Repr

/-- One physical sector of an operation: the words it touches and the words that register. -/
structure SecAcc where
  sector : Nat
  vsector : Nat
  words : BitVec 8
  need : BitVec 8
  ans : SecAns
  deriving DecidableEq, Repr

/-- How far an operation in flight has come. `walking` waits for translations, `checking` for registrations,
`responding` for its response, `parked` for a replay, `failed` for its trap to be taken; `done` operations wait for
earlier operations of their path to leave (R44). -/
inductive OpPhase where
  | walking | checking | responding | parked | failed | done | running | waiting
  deriving DecidableEq, Repr

/-- A register that a producer writes, and the value for one lane. -/
structure RegVal where
  reg : Nat
  lane : Nat
  val : BitVec 32
  deriving DecidableEq, Repr

/-- A failure found after issue: the record of R109 as eight words, words 8 to 11 and 17, and the origin word. -/
structure Failure where
  cause : BitVec 8
  frame : List (BitVec 32)
  words : List (BitVec 32)
  origin : BitVec 32
  deriving DecidableEq, Repr

/-- An operation in flight (R40 to R44, R107, R389). -/
structure Op where
  gid : Nat
  split : Nat
  bid : Nat
  ctx : Nat
  inc : Nat
  slot : BitVec 16
  stamp : BitVec 16
  instr : Instr
  pc : BitVec 32
  site : BitVec 32
  fmt : BitVec 32
  path : Option Nat
  dest : Option (Nat × Nat)
  phase : OpPhase
  blocking : Bool
  exec : BitVec 64
  unf : BitVec 64
  zeroed : BitVec 64
  brec : BitVec 128
  brec2 : BitVec 128
  lanes : List LaneAcc
  lines : List (Nat × LineTr)
  secs : List SecAcc
  results : List RegVal
  flags : BitVec 6
  fail : Option Failure
  shape : Shape
  regs : List Nat
  prog : Nat
  rows : BitVec 16
  snap : List (BitVec 32)
  sent : List Nat
  seq : Nat
  remote : Bool
  jseq : Nat
  deriving DecidableEq, Repr

/-- An operation that a save image records (R389), with the operands it took at issue, and the splits that have it outstanding with
their windows (R41).
[DEDUCED, log 86] -/
structure SavedOp where
  ctx : Nat
  lid : Nat
  linear : Nat
  gidx : Nat
  op : Op
  outs : List (Nat × Option Nat)
  deriving DecidableEq, Repr

/-! ## Cores, Gallery, tiles, roll call -/

/-- A core: service, retention, L1 registers (R142), matrix status (R274), task queue (R309) with the tag of each handle,
and by context the period of its last trace sample (R419). -/
structure CoreRec where
  service : Bool
  retention : Bool
  gen : Nat
  fovf : BitVec 32
  relwb : BitVec 32
  fenced : BitVec 8
  rate : BitVec 4
  tests : BitVec 16
  sinceTest : Nat
  testAt : Nat
  tasks : List (Nat × BitVec 32)
  roCtx : List Nat
  retired : List (Nat × Nat × Nat)
  samples : List (Nat × Nat)
  deriving DecidableEq, Repr

def CoreRec.init : CoreRec :=
  { service := true, retention := false, gen := 1, fovf := 0, relwb := 0, fenced := 0, rate := 8, tests := 0, sinceTest := 256, testAt := 0,
    tasks := [], roCtx := [], retired := [], samples := [] }

/-- A scratch side record (R124); a MASK of 0 means no record. -/
structure SideRec where
  tslot : BitVec 9
  tstamp : BitVec 12
  mask : BitVec 8
  cls : BitVec 3
  deriving DecidableEq, Repr

def SideRec.init : SideRec := { tslot := 0, tstamp := 0, mask := 0, cls := 0 }

/-- An entry of a scratch overflow store (R125, R127), for sector `sector` of a team's window: a further side record, or the
foreign record of a party of another team with its context. -/
inductive ScratchRec where
  | own (team sector : Nat) (r : SideRec)
  | foreign (team sector : Nat) (r : MarkRec) (ctx inc : Nat)
  deriving DecidableEq, Repr

/-- A GMODE in progress on a bank (R135). -/
structure GmodeJob where
  bank : Nat
  mode : BankMode
  gid : Nat
  ctx : Nat
  deriving DecidableEq, Repr

/-- A cluster's Gallery (R118, R119, R123, R125, R135): bank modes, the GBMODE counters, the scratch overflow store,
FIFO rows assigned to queues (bank, context * 256 + incarnation, descriptor address, rows) and to cores' task queues (bank, 2^20 + core, 0, 1), the banks under recalibration (R447), and the splits
whose GMODEs wait, in the order they arrived. -/
structure Cluster where
  modes : List BankMode
  short : BitVec 16
  refused : Bool
  step : BitVec 3
  target : BitVec 3
  overflow : List ScratchRec
  gmode : Option GmodeJob
  fifo : List (Nat × Nat × Nat × Nat)
  recal : List Nat
  gwait : List Nat
  deriving DecidableEq, Repr

def Cluster.init : Cluster :=
  { modes := List.replicate 32 .scratch, short := 0, refused := false, step := 0, target := 0, overflow := [], gmode := none,
    fifo := [], recal := [], gwait := [] }

/-- A roll-call domain (R338). `gen` is the model's own: how often the domain has been assigned or given up (R193). -/
structure Domain where
  quorum : BitVec 13
  span : Bool
  en : Bool
  inc : BitVec 8
  ctx : BitVec 12
  phase : BitVec 32
  memb0 : BitVec 64
  memb1 : BitVec 64
  memb2 : BitVec 64
  sentAt : Option Nat
  got : List (Nat × BitVec 32)
  gen : Nat
  deriving DecidableEq, Repr

def Domain.init : Domain :=
  { quorum := 0, span := false, en := false, inc := 0, ctx := 0, phase := 0, memb0 := 0, memb1 := 0, memb2 := 0, sentAt := none,
    got := [], gen := 0 }

/-- A station of a domain (R340). -/
structure Station where
  reg : Bool
  e : Nat
  c : Nat
  x : Nat
  deriving DecidableEq, Repr

def Station.init : Station := { reg := false, e := 0, c := 0, x := 0 }

/-! ## Command queues -/

/-- A command queue (R348). -/
structure Queue where
  qbase : BitVec 64
  en : Bool
  priv : Bool
  prio : BitVec 3
  size : BitVec 4
  inc : BitVec 8
  ctx : BitVec 12
  qhead : BitVec 32
  qtail : BitVec 32
  qdone : BitVec 32
  qoff : BitVec 32
  qstat : BitVec 8
  chains : List (Nat × Nat × Nat)
  barrier : Bool
  deriving DecidableEq, Repr

def Queue.init : Queue :=
  { qbase := 0, en := false, priv := false, prio := 0, size := 0, inc := 0, ctx := 0, qhead := 0, qtail := 0, qdone := 0, qoff := 0,
    qstat := 0, chains := [], barrier := false }

/-- What a started command does. -/
inductive CmdKind where
  | nop | launch | timetable | chain | wait (va : Nat) (v : BitVec 32) (atLeast failed : Bool) | signal | copy | marker
  | kill (ctx : Nat) | reclaim (ctx inc : Nat)
  deriving DecidableEq, Repr

/-- A command that has started (R349): its queue, its place in ring order, the chain it stands in. -/
structure Cmd where
  q : Nat
  ringIndex : Nat
  parent : Option Nat
  irq : Bool
  kind : CmdKind
  done : Bool
  open_ : Bool
  deriving DecidableEq, Repr

/-- A Timetable in progress (R358, R359). -/
structure Timetable where
  cmd : Nat
  ctx : Nat
  inc : Nat
  va : Nat
  nodes : Nat
  running : Nat
  deriving DecidableEq, Repr

/-! ## Firmware, fabric, debug, power -/

/-- A mailbox (R429). While BUSY: the TAG and FUNC of the request in service, and what its response waits for. -/
structure Mailbox where
  busy : Bool
  done : Bool
  req : List (BitVec 64)
  resp : List (BitVec 64)
  tag : BitVec 16
  func : Nat
  arg : Nat
  deriving DecidableEq, Repr

def Mailbox.init : Mailbox :=
  { busy := false, done := false, req := List.replicate 8 0, resp := List.replicate 8 0, tag := 0, func := 0, arg := 0 }

/-- What waits for a firmware core during a TRANSFER (R431): a request by its FUNC, or a doorbell. -/
inductive Held where
  | request (func : Nat) (r : Request)
  | doorbell (q : Nat) (v : BitVec 32)
  deriving DecidableEq, Repr

/-- A firmware core: hand-over state HOSTAT (R431), versions and measurements of the active and the pending image (R433), and what is
held for it during a TRANSFER, in order. -/
structure FwCore where
  hand : BitVec 3
  active : BitVec 32
  pending : BitVec 32
  mActive : BitVec 512
  mPending : BitVec 512
  held : List Held
  deriving DecidableEq, Repr

def FwCore.init : FwCore := { hand := 0, active := 0, pending := 0, mActive := 0, mPending := 0, held := [] }

/-- An import table entry (R440): a peer and its context, and the local context they stand for. -/
structure Import where
  peer : Nat
  peerCtx : Nat
  ctx : Nat
  deriving DecidableEq, Repr

/-- A watchpoint (R413), as its two words. -/
structure WatchPt where
  w0 : BitVec 64
  w1 : BitVec 64
  deriving DecidableEq, Repr

def WatchPt.init : WatchPt := { w0 := 0, w1 := 0 }

/-- What the outside world does next: one event, the issue of one split, or the passing of time in ac.
[DESIGN CHOICE, log 1] -/
inductive Directive where
  | event (i : Instr)
  | issue (gid split : Nat)
  | pass (ac : Nat)
  deriving DecidableEq, Repr

/-- The device's registers that exist once, its clocks, and the model's own bookkeeping. `tables` are the 4 KiB pages that hold page tables
(R67), `pointsOff` the first operating point that calibration has disabled (R136), 6 for none, `clockAdj` what the fabric core has added to
the local clock, in ns (R439), `slots` the split that each issue slot issued last (R361), `irqs` how many interrupts the companion processor
has been given (R350). -/
structure Dev where
  agenda : List Directive
  due : List Instr
  cur : Option Nat
  nextId : Nat
  freeCtr : Nat
  turn : Nat
  cycle : BitVec 64
  ticks : Nat
  window : Nat
  stage : BitVec 4
  bootFail : BitVec 8
  point : Nat
  stepState : BitVec 3
  stepTarget : Nat
  stepWish : Option Nat
  stepForce : Bool
  stepEnd : Nat
  preemptPolicy : Bool
  tmax : BitVec 16
  hot : Bool
  resetHeld : Bool
  capGen : Nat
  erbase : BitVec 64
  ersize : BitVec 5
  erhead : BitVec 20
  ertail : BitVec 20
  uekill : Bool
  cethr : BitVec 16
  lost : BitVec 64
  erPost : List (List (BitVec 32))
  hangthr : BitVec 32
  devnum : BitVec 8
  domen : Bool
  wk : BitVec 3
  epoch : BitVec 64
  offset : BitVec 64
  clockAdj : Int
  syncok : Bool
  ports : BitVec 18
  ubpen : BitVec 2
  peers : List Nat
  nextLaunch : BitVec 32
  wholeMarks : Bool
  lastQ : Nat
  tables : List Nat
  pointsOff : Nat
  slots : List (Nat × Nat)
  irqs : Nat
  deriving DecidableEq, Repr

/-- The machine. Tables are in canonical form: keys strictly rising, and where an unlisted key has a value, no entry equal
to it. -/
structure State where
  /-- bytes by physical address (R66); companion memory and peer windows included. -/
  mem : Table Byte
  /-- the bytes of a poisoned sector that have not been rewritten (R62), by sector address / 32; none when the sector is good. -/
  poison : Table (BitVec 32)
  /-- MARK of the side word (R61), by sector. -/
  side : Table (BitVec 48)
  /-- sectors held by their home slices (R70), by sector. -/
  l2 : Table L2Sector
  /-- L1 lines (R140), by core * 2^45 + physical line. -/
  l1 : Table L1Line
  /-- sectors in the cache ways of the Galleries (R118), by cluster * 2^47 + sector. -/
  gways : Table GWay
  /-- instruction-cache lines (R10), by core * 2^45 + physical line. -/
  icache : Table ILine
  /-- write-backs in flight, by id. -/
  wbs : Table WriteBk
  /-- mark-store entries (R82), by sector. -/
  marks : Table MarkEntry
  /-- spill-log pointers (R90), by slice. -/
  spills : Table Spill
  /-- stamp caches (R84), by slice * 2^16 + slot. -/
  stamps : Table (BitVec 16)
  /-- registrations at the slices (R85), by id. -/
  reqs : Table Req
  /-- quarter notices not yet acknowledged (R91), by slot * 4 + quarter. -/
  notices : Table Notice
  /-- fabric quarter notices not yet acknowledged (R93), by slice * 4 + quarter: 0 none, 2 * (window + 1) for the window that began the
  quarter, 1 more once the slice has done its part. -/
  fnotices : Table Nat
  /-- interval counters (R78), by slot. -/
  icount : Table (BitVec 32)
  /-- first-level TLBs (R104), by (core * 4096 + context) * 2^45 + virtual page. -/
  tlb1 : Table TlbEnt
  /-- second-level TLBs (R104), by (cluster * 4096 + context) * 2^45 + virtual page. -/
  tlb2 : Table TlbEnt
  /-- page-table walks in flight (R105), by id. -/
  walks : Table Walk
  /-- access-table windows (R112), by master * 4 + window. -/
  access : Table AccWin
  /-- owning context of an access-table row (R430), by master; 0 shared. -/
  accOwner : Table Nat
  /-- mapped physical pages (R73), by first 4 KiB page number. -/
  pages : Table PageMap
  /-- retired physical pages (R406). -/
  badPages : Table Bool
  /-- contexts (R380), by number. -/
  ctxs : Table Ctx
  /-- live incarnations as broadcast (R390, R395), by context * 256 + incarnation. -/
  tags : Table Bool
  /-- units that have been told a tag is dead (R391), by unit * 2^20 + context * 256 + incarnation. -/
  deadAt : Table Bool
  /-- kills in progress (R390), by context * 256 + incarnation. -/
  kills : Table Ending
  /-- reclaims in progress (R393), by context * 256 + incarnation. -/
  reclaims : Table Ending
  /-- launches (R354), by launch id. -/
  launches : Table Launch
  /-- teams (R139), by id. -/
  teams : Table Team
  /-- resident blocks, by id. -/
  blocks : Table Block
  /-- groups, by device core * 96 + local index. -/
  groups : Table Group
  /-- splits (R279), by group * 4 + number. -/
  splits : Table Split
  /-- s0 to s62 (R32), by group * 64 + number. -/
  sregs : Table (BitVec 32)
  /-- p0 to p6 (R32), by group * 8 + number. -/
  pregs : Table (BitVec 64)
  /-- b0 to b15 (R32), by group * 16 + number. -/
  bregs : Table (BitVec 128)
  /-- lane registers (R32), by (group * 256 + number) * 64 + lane. -/
  vregs : Table (BitVec 32)
  /-- registration filters (R143), by group * 2^47 + sector. -/
  filter : Table FilterEnt
  /-- roll-call wait records (R343), by group * 16 + domain; those of an adoption frame by 2^60 + its address * 16 + domain. -/
  wps : Table (Option (BitVec 32))
  /-- operations in flight, by id; ids rise in issue order. -/
  ops : Table Op
  /-- operations in save images (R389), in issue order. -/
  savedOps : Table SavedOp
  /-- cores, by device core number. -/
  cores : Table CoreRec
  /-- team windows (R120), by team * 2^24 + offset. -/
  win : Table Byte
  /-- scratch side records (R124), by team * 2^19 + window sector. -/
  gside : Table SideRec
  /-- team-local counters (R124), by team * 512 + team-local slot. -/
  teamCnt : Table (BitVec 16)
  /-- whether a full scan has run since a team-local counter entered its quarter (R128), keyed as teamCnt. -/
  tscan : Table Bool
  /-- clusters, by device cluster number. -/
  clusters : Table Cluster
  /-- physical rows good (R136), by (cluster * 32 + bank) * 8 + point. -/
  rowMasks : Table (BitVec 256)
  /-- tile words (R253), by (block * 128 + tile) * 512 + 32 * row + column. -/
  tiles : Table (BitVec 32)
  /-- poisoned tile words (R273). -/
  tpoison : Table Bool
  /-- which sub-arrays have computed which groups of four columns of a tile row since their last passing injection (R273), as bits 8 * sub-array + group, by
(block * 128 + tile) * 16 + row. -/
  tsince : Table (BitVec 64)
  /-- roll-call domains (R338). -/
  domains : Table Domain
  /-- stations (R340), by domain * 4096 + number. -/
  stations : Table Station
  /-- command queues (R348). -/
  queues : Table Queue
  /-- commands started and not yet counted in QDONE (R349), by id. -/
  cmds : Table Cmd
  /-- Timetables in progress (R358), by id. -/
  tts : Table Timetable
  /-- die watchpoints (R413) at die * 16 + n, and Gallery watchpoints at 64 + cluster * 8 + n. -/
  watch : Table WatchPt
  /-- mailboxes (R429), by firmware core. -/
  boxes : Table Mailbox
  /-- firmware cores (R428), by number. -/
  fws : Table FwCore
  /-- import table (R440), by entry. -/
  imports : Table Import
  /-- CXL IDE keys set (R464), by port. -/
  keys : Table Bool
  /-- corrected errors of the hour by unit (R406). -/
  ecount : Table Nat
  /-- size of the expander at each CXL port (R64). -/
  expander : Table Nat
  /-- queue entries that stand in FIFO rows (R123, R307), by (tag * 2^57 + descriptor address) * 2^64 + entry number. -/
  fifo : Table (BitVec 128)
  /-- spawners of tasks under a journal (R423), by context * 2^20 + index. -/
  spawns : Table Spawner
  /-- journal records performed in a replay (R425), by launch id * 2^40 + record number; and, from 2^300, the objects whose records are
  enforced no more. -/
  jdone : Table Bool
  /-- HBM channels paused for pin repair (R408), by stack; 0 running. -/
  paused : Table Nat
  /-- registers that exist once, clocks, bookkeeping. -/
  dev : Dev
  deriving DecidableEq, Repr

/-- The device registers at reset: WK 3 (R437), CETHR 64 (R406), HANGTHR 1,000,000 (R347), every other
register 0; the model's own fields empty.
[DESIGN CHOICE, log 1; DESIGN CHOICE, log 2; DESIGN CHOICE, log 3; DESIGN CHOICE, log 10; DESIGN CHOICE, log 12; DESIGN CHOICE, log 13] -/
def Dev.reset : Dev :=
  { agenda := [], due := [], cur := none, nextId := 1, freeCtr := 0, turn := 0, cycle := 0, ticks := 0, window := 0, stage := 0,
    bootFail := 0, point := 0, stepState := 0, stepTarget := 0, stepWish := none, stepForce := false, stepEnd := 0, preemptPolicy := false, tmax := 0,
    hot := false, resetHeld := false, capGen := 0, erbase := 0, ersize := 0, erhead := 0, ertail := 0, uekill := false, cethr := 64, lost := 0,
    erPost := [], hangthr := 1000000, devnum := 0, domen := false, wk := 3, epoch := 0, offset := 0, clockAdj := 0, syncok := false, ports := 0,
    ubpen := 3, peers := [], nextLaunch := 0, wholeMarks := false, lastQ := 0, tables := [], pointsOff := 6, slots := [], irqs := 0 }

/-- Right after reset (R445 and the reset columns of the register tables): no boot stage completed, nothing resident, nothing cached,
every register at its reset value.
[DESIGN CHOICE, log 12] -/
def State.reset : State :=
  { mem := [], poison := [], side := [], l2 := [], l1 := [], gways := [], icache := [], wbs := [], marks := [], spills := [], stamps := [],
    reqs := [], notices := [], fnotices := [], icount := [], tlb1 := [], tlb2 := [], walks := [], access := [],
    accOwner := [], pages := [], badPages := [], ctxs := [], tags := [], deadAt := [], kills := [], reclaims := [],
    launches := [], teams := [], blocks := [], groups := [], splits := [], sregs := [], pregs := [], bregs := [],
    vregs := [], filter := [], wps := [], ops := [], savedOps := [], cores := [], win := [], gside := [], teamCnt := [], tscan :=
    [], clusters := [], rowMasks := [], tiles := [], tpoison := [], tsince := [], domains := [], stations := [],
    queues := [], cmds := [], tts := [], watch := [], boxes := [], fws := [], imports := [], keys := [], ecount :=
    [], expander := [], fifo := [], spawns := [], jdone := [], paused := [],     dev := Dev.reset }

end Sys2Proof.Machine
end

