-- ==== Sys2Proof/Machine/Act.lean ====
section
/-! DEFINITION. The changes a step makes. Every meaning is an `Act`: single writes of a table's entry, changes of the device
registers, sequences, and choices read from the state. `Act.run` performs one. Whatever holds of every single write holds of
every step. -/

namespace Sys2Proof.Machine

open Sys2Proof

/-! ## Sparse tables -/

/-- The entry of a key. -/
def Sparse.get {α : Type} (k : Nat) : Table α → Option α
  | [] => none
  | (a, x) :: rest => if a == k then some x else Sparse.get k rest

/-- Set the entry of a key, in key order. -/
def Sparse.insert {α : Type} (k : Nat) (v : α) : Table α → Table α
  | [] => [(k, v)]
  | (a, x) :: rest =>
    if k < a then (k, v) :: (a, x) :: rest
    else if a == k then (k, v) :: rest
    else (a, x) :: Sparse.insert k v rest

/-- Remove the keys from `lo` up to, not including, `hi`. -/
def Sparse.erase {α : Type} (lo hi : Nat) (t : Table α) : Table α :=
  t.filter fun e => e.1 < lo || hi ≤ e.1

/-- The entries with keys from `lo` up to, not including, `hi`. -/
def Sparse.range {α : Type} (lo hi : Nat) (t : Table α) : Table α :=
  t.filter fun e => lo ≤ e.1 && e.1 < hi

/-- The tables of State, by the type of their entries. -/
inductive Tab : Type → Type where
  | mem : Tab Byte
  | poison : Tab (BitVec 32)
  | side : Tab (BitVec 48)
  | l2 : Tab L2Sector
  | l1 : Tab L1Line
  | wbs : Tab WriteBk
  | marks : Tab MarkEntry
  | spills : Tab Spill
  | stamps : Tab (BitVec 16)
  | reqs : Tab Req
  | notices : Tab Notice
  | fnotices : Tab Nat
  | icount : Tab (BitVec 32)
  | tlb1 : Tab TlbEnt
  | tlb2 : Tab TlbEnt
  | walks : Tab Walk
  | access : Tab AccWin
  | accOwner : Tab Nat
  | pages : Tab PageMap
  | badPages : Tab Bool
  | ctxs : Tab Ctx
  | tags : Tab Bool
  | deadAt : Tab Bool
  | kills : Tab Ending
  | reclaims : Tab Ending
  | launches : Tab Launch
  | teams : Tab Team
  | blocks : Tab Block
  | groups : Tab Group
  | splits : Tab Split
  | sregs : Tab (BitVec 32)
  | pregs : Tab (BitVec 64)
  | bregs : Tab (BitVec 128)
  | vregs : Tab (BitVec 32)
  | filter : Tab FilterEnt
  | wps : Tab (Option (BitVec 32))
  | ops : Tab Op
  | savedOps : Tab SavedOp
  | cores : Tab CoreRec
  | win : Tab Byte
  | gside : Tab SideRec
  | teamCnt : Tab (BitVec 16)
  | tscan : Tab Bool
  | clusters : Tab Cluster
  | rowMasks : Tab (BitVec 256)
  | tiles : Tab (BitVec 32)
  | tpoison : Tab Bool
  | tsince : Tab (BitVec 64)
  | domains : Tab Domain
  | stations : Tab Station
  | queues : Tab Queue
  | cmds : Tab Cmd
  | tts : Tab Timetable
  | watch : Tab WatchPt
  | boxes : Tab Mailbox
  | fws : Tab FwCore
  | imports : Tab Import
  | keys : Tab Bool
  | ecount : Tab Nat
  | expander : Tab Nat
  | fifo : Tab (BitVec 128)
  | spawns : Tab Spawner
  | jdone : Tab Bool
  | paused : Tab Nat
  | gways : Tab GWay
  | icache : Tab ILine

/-- The table that a name stands for. -/
def Tab.get {α : Type} : Tab α → State → Table α
  | .mem, s => s.mem
  | .poison, s => s.poison
  | .side, s => s.side
  | .l2, s => s.l2
  | .l1, s => s.l1
  | .wbs, s => s.wbs
  | .marks, s => s.marks
  | .spills, s => s.spills
  | .stamps, s => s.stamps
  | .reqs, s => s.reqs
  | .notices, s => s.notices
  | .fnotices, s => s.fnotices
  | .icount, s => s.icount
  | .tlb1, s => s.tlb1
  | .tlb2, s => s.tlb2
  | .walks, s => s.walks
  | .access, s => s.access
  | .accOwner, s => s.accOwner
  | .pages, s => s.pages
  | .badPages, s => s.badPages
  | .ctxs, s => s.ctxs
  | .tags, s => s.tags
  | .deadAt, s => s.deadAt
  | .kills, s => s.kills
  | .reclaims, s => s.reclaims
  | .launches, s => s.launches
  | .teams, s => s.teams
  | .blocks, s => s.blocks
  | .groups, s => s.groups
  | .splits, s => s.splits
  | .sregs, s => s.sregs
  | .pregs, s => s.pregs
  | .bregs, s => s.bregs
  | .vregs, s => s.vregs
  | .filter, s => s.filter
  | .wps, s => s.wps
  | .ops, s => s.ops
  | .savedOps, s => s.savedOps
  | .cores, s => s.cores
  | .win, s => s.win
  | .gside, s => s.gside
  | .teamCnt, s => s.teamCnt
  | .tscan, s => s.tscan
  | .clusters, s => s.clusters
  | .rowMasks, s => s.rowMasks
  | .tiles, s => s.tiles
  | .tpoison, s => s.tpoison
  | .tsince, s => s.tsince
  | .domains, s => s.domains
  | .stations, s => s.stations
  | .queues, s => s.queues
  | .cmds, s => s.cmds
  | .tts, s => s.tts
  | .watch, s => s.watch
  | .boxes, s => s.boxes
  | .fws, s => s.fws
  | .imports, s => s.imports
  | .keys, s => s.keys
  | .ecount, s => s.ecount
  | .expander, s => s.expander
  | .fifo, s => s.fifo
  | .spawns, s => s.spawns
  | .jdone, s => s.jdone
  | .paused, s => s.paused
  | .gways, s => s.gways
  | .icache, s => s.icache

/-- Replace a table. -/
def Tab.set {α : Type} : Tab α → Table α → State → State
  | .mem, x, s => { s with mem := x }
  | .poison, x, s => { s with poison := x }
  | .side, x, s => { s with side := x }
  | .l2, x, s => { s with l2 := x }
  | .l1, x, s => { s with l1 := x }
  | .wbs, x, s => { s with wbs := x }
  | .marks, x, s => { s with marks := x }
  | .spills, x, s => { s with spills := x }
  | .stamps, x, s => { s with stamps := x }
  | .reqs, x, s => { s with reqs := x }
  | .notices, x, s => { s with notices := x }
  | .fnotices, x, s => { s with fnotices := x }
  | .icount, x, s => { s with icount := x }
  | .tlb1, x, s => { s with tlb1 := x }
  | .tlb2, x, s => { s with tlb2 := x }
  | .walks, x, s => { s with walks := x }
  | .access, x, s => { s with access := x }
  | .accOwner, x, s => { s with accOwner := x }
  | .pages, x, s => { s with pages := x }
  | .badPages, x, s => { s with badPages := x }
  | .ctxs, x, s => { s with ctxs := x }
  | .tags, x, s => { s with tags := x }
  | .deadAt, x, s => { s with deadAt := x }
  | .kills, x, s => { s with kills := x }
  | .reclaims, x, s => { s with reclaims := x }
  | .launches, x, s => { s with launches := x }
  | .teams, x, s => { s with teams := x }
  | .blocks, x, s => { s with blocks := x }
  | .groups, x, s => { s with groups := x }
  | .splits, x, s => { s with splits := x }
  | .sregs, x, s => { s with sregs := x }
  | .pregs, x, s => { s with pregs := x }
  | .bregs, x, s => { s with bregs := x }
  | .vregs, x, s => { s with vregs := x }
  | .filter, x, s => { s with filter := x }
  | .wps, x, s => { s with wps := x }
  | .ops, x, s => { s with ops := x }
  | .savedOps, x, s => { s with savedOps := x }
  | .cores, x, s => { s with cores := x }
  | .win, x, s => { s with win := x }
  | .gside, x, s => { s with gside := x }
  | .teamCnt, x, s => { s with teamCnt := x }
  | .tscan, x, s => { s with tscan := x }
  | .clusters, x, s => { s with clusters := x }
  | .rowMasks, x, s => { s with rowMasks := x }
  | .tiles, x, s => { s with tiles := x }
  | .tpoison, x, s => { s with tpoison := x }
  | .tsince, x, s => { s with tsince := x }
  | .domains, x, s => { s with domains := x }
  | .stations, x, s => { s with stations := x }
  | .queues, x, s => { s with queues := x }
  | .cmds, x, s => { s with cmds := x }
  | .tts, x, s => { s with tts := x }
  | .watch, x, s => { s with watch := x }
  | .boxes, x, s => { s with boxes := x }
  | .fws, x, s => { s with fws := x }
  | .imports, x, s => { s with imports := x }
  | .keys, x, s => { s with keys := x }
  | .ecount, x, s => { s with ecount := x }
  | .expander, x, s => { s with expander := x }
  | .fifo, x, s => { s with fifo := x }
  | .spawns, x, s => { s with spawns := x }
  | .jdone, x, s => { s with jdone := x }
  | .paused, x, s => { s with paused := x }
  | .gways, x, s => { s with gways := x }
  | .icache, x, s => { s with icache := x }

/-- A number for each table. -/
def Tab.num {α : Type} : Tab α → Nat
  | .mem => 0
  | .poison => 1
  | .side => 2
  | .l2 => 3
  | .l1 => 4
  | .wbs => 5
  | .marks => 6
  | .spills => 7
  | .stamps => 8
  | .reqs => 9
  | .notices => 10
  | .fnotices => 11
  | .icount => 12
  | .tlb1 => 13
  | .tlb2 => 14
  | .walks => 15
  | .access => 16
  | .accOwner => 17
  | .pages => 18
  | .badPages => 19
  | .ctxs => 20
  | .tags => 21
  | .deadAt => 22
  | .kills => 23
  | .reclaims => 24
  | .launches => 25
  | .teams => 26
  | .blocks => 27
  | .groups => 28
  | .splits => 29
  | .sregs => 30
  | .pregs => 31
  | .bregs => 32
  | .vregs => 33
  | .filter => 34
  | .wps => 35
  | .ops => 36
  | .savedOps => 37
  | .cores => 38
  | .win => 39
  | .gside => 40
  | .teamCnt => 41
  | .tscan => 42
  | .clusters => 43
  | .rowMasks => 44
  | .tiles => 45
  | .tpoison => 46
  | .tsince => 47
  | .domains => 48
  | .stations => 49
  | .queues => 50
  | .cmds => 51
  | .tts => 52
  | .watch => 53
  | .boxes => 54
  | .fws => 55
  | .imports => 56
  | .keys => 57
  | .ecount => 58
  | .expander => 59
  | .fifo => 60
  | .spawns => 61
  | .jdone => 62
  | .paused => 63
  | .gways => 64
  | .icache => 65

/-- Whether a value is what an unlisted key of the table reads as; never so for a table whose unlisted keys have no value. -/
def Tab.isDefault {α : Type} : Tab α → α → Bool
  | .mem, v => v == 0
  | .poison, v => v == 0
  | .side, v => v == 0
  | .l2, _ => false
  | .l1, _ => false
  | .wbs, _ => false
  | .marks, _ => false
  | .spills, v => v == ({ head := 0, tail := 0 } : Spill)
  | .stamps, _ => false
  | .reqs, _ => false
  | .notices, _ => false
  | .fnotices, v => v == 0
  | .icount, v => v == 0
  | .tlb1, _ => false
  | .tlb2, _ => false
  | .walks, _ => false
  | .access, v => v == ({ wbase := 0, limit := 0, at_ := false, wr := false, rd := false } : AccWin)
  | .accOwner, v => v == 0
  | .pages, _ => false
  | .badPages, v => v == false
  | .ctxs, v => v == Ctx.init
  | .tags, v => v == false
  | .deadAt, v => v == false
  | .kills, _ => false
  | .reclaims, _ => false
  | .launches, _ => false
  | .teams, _ => false
  | .blocks, _ => false
  | .groups, _ => false
  | .splits, _ => false
  | .sregs, v => v == 0
  | .pregs, v => v == 0
  | .bregs, v => v == 0
  | .vregs, v => v == 0
  | .filter, _ => false
  | .wps, v => v == none
  | .ops, _ => false
  | .savedOps, _ => false
  | .cores, v => v == CoreRec.init
  | .win, v => v == 0
  | .gside, v => v == SideRec.init
  | .teamCnt, v => v == 0
  | .tscan, v => v == false
  | .clusters, v => v == Cluster.init
  | .rowMasks, v => v == BitVec.allOnes 256
  | .tiles, v => v == 0
  | .tpoison, v => v == false
  | .tsince, v => v == 0
  | .domains, v => v == Domain.init
  | .stations, v => v == Station.init
  | .queues, v => v == Queue.init
  | .cmds, _ => false
  | .tts, _ => false
  | .watch, v => v == WatchPt.init
  | .boxes, v => v == Mailbox.init
  | .fws, v => v == FwCore.init
  | .imports, _ => false
  | .keys, v => v == false
  | .ecount, v => v == 0
  | .expander, v => v == 0
  | .fifo, _ => false
  | .spawns, _ => false
  | .jdone, v => v == false
  | .paused, v => v == 0
  | .gways, _ => false
  | .icache, _ => false

/-- The canonical form of a table: keys strictly rise, and no entry equals what an unlisted key reads as. -/
abbrev Tab.wf {α : Type} (t : Tab α) (xs : Table α) : Prop := Table.wf xs ∧ ∀ e ∈ xs, t.isDefault e.2 = false
/-- The canonical form of memory.
[DESIGN CHOICE, log 4] -/
abbrev Memory.wf (m : Table Byte) : Prop := Tab.mem.wf m

/-- One entry of a table. -/
def Tab.at {α : Type} (t : Tab α) (k : Nat) (s : State) : Option α := Sparse.get k (t.get s)
/-- One entry of a table whose unlisted keys read `d`. -/
def Tab.val {α : Type} (t : Tab α) (d : α) (k : Nat) (s : State) : α := (t.at k s).getD d

/-- Write one entry, keeping the canonical form: the value of an unlisted key removes the entry.
[DESIGN CHOICE, log 15] -/
def Tab.put {α : Type} (t : Tab α) (k : Nat) (v : α) (s : State) : State :=
  if t.isDefault v then t.set (Sparse.erase k (k + 1) (t.get s)) s else t.set (Sparse.insert k v (t.get s)) s
/-- Remove the entries with keys from `lo` up to, not including, `hi`. -/
def Tab.clear {α : Type} (t : Tab α) (lo hi : Nat) (s : State) : State := t.set (Sparse.erase lo hi (t.get s)) s

/-- A change of the state. -/
inductive Act : Type 1 where
  | skip
  | put {α : Type} (t : Tab α) (k : Nat) (v : α)
  | clear {α : Type} (t : Tab α) (lo hi : Nat)
  | dev (f : Dev → Dev)
  | seq (a b : Act)
  | read (k : State → Act)

/-- Perform a change. -/
def Act.run : Act → State → State
  | .skip, s => s
  | .put t k v, s => t.put k v s
  | .clear t lo hi, s => t.clear lo hi s
  | .dev f, s => { s with dev := f s.dev }
  | .seq a b, s => b.run (a.run s)
  | .read k, s => (k s).run s

namespace Act

/-- Remove one entry. -/
def del {α : Type} (t : Tab α) (k : Nat) : Act := .clear t k (k + 1)
/-- Change an entry that is there. -/
def upd {α : Type} (t : Tab α) (k : Nat) (f : α → α) : Act :=
  .read fun s => match t.at k s with
    | some v => .put t k (f v)
    | none => .skip
/-- Change the entry of a table whose unlisted keys read `d`. -/
def updD {α : Type} (t : Tab α) (d : α) (k : Nat) (f : α → α) : Act :=
  .read fun s => .put t k (f (t.val d k s))
/-- The acts in order. -/
def all (xs : List Act) : Act := xs.foldr Act.seq .skip
/-- One act for each element, in order. -/
def each {β : Type} (xs : List β) (f : β → Act) : Act := xs.foldr (fun x a => .seq (f x) a) .skip
/-- An act when a condition holds. -/
def when (c : Bool) (a : Act) : Act := if c then a else .skip
/-- An act on a value that is there. -/
def with? {β : Type} (o : Option β) (f : β → Act) : Act :=
  match o with
  | some x => f x
  | none => .skip
/-- The first of a list of guarded acts whose guard holds, else the last. -/
def first (xs : List (Bool × Act)) (e : Act) : Act := xs.foldr (fun x a => if x.1 then x.2 else a) e

end Act

end Sys2Proof.Machine
end

