-- ==== Sys2Proof/Machine/Bits.lean ====
section
/-! DEFINITION. Bit fields, signed readings, byte order, lane masks, and the numbering of cores, groups, slots, slices and
page keys. -/

namespace Sys2Proof.Machine

open Sys2Proof

/-! ## Numbers as bits -/

/-- Bits [lo + len - 1 : lo] of a number. -/
def fld (w lo len : Nat) : Nat := w / 2 ^ lo % 2 ^ len
/-- One bit of a number. -/
def bitAt (w i : Nat) : Bool := w / 2 ^ i % 2 == 1
/-- The signed reading of the low `w` bits. -/
def sext (w v : Nat) : Int :=
  let x := v % 2 ^ w
  if x < 2 ^ (w - 1) then Int.ofNat x else Int.ofNat x - Int.ofNat (2 ^ w)
/-- An integer modulo 2^w. -/
def wrap (w : Nat) (i : Int) : Nat := (i % Int.ofNat (2 ^ w)).toNat
/-- A Boolean as a bit. -/
def b2n (b : Bool) : Nat := if b then 1 else 0
/-- Whether a number is even. -/
def isEven (n : Nat) : Bool := n % 2 == 0
def word (n : Nat) : BitVec 32 := BitVec.ofNat 32 n
/-- The number of set bits of the low `w` bits. -/
def popCount (w x : Nat) : Nat := ((List.range w).filter (bitAt x)).length

/-- A number from its bytes, least significant first (R4). -/
def natOfBytes : List Byte → Nat
  | [] => 0
  | b :: rest => b.toNat + 256 * natOfBytes rest

/-- The lanes of a mask below a width, ascending. -/
def lanesOf (width : Nat) (m : BitVec 64) : List Nat := (List.range width).filter fun l => m.getLsbD l
/-- The mask of one lane. -/
def laneBit (l : Nat) : BitVec 64 := BitVec.ofNat 64 (2 ^ l)
/-- The mask of a list of lanes. -/
def maskOf (ls : List Nat) : BitVec 64 := ls.foldl (fun m l => m ||| laneBit l) 0
/-- The mask of the lanes below a width. -/
def fullMask (width : Nat) : BitVec 64 := BitVec.ofNat 64 (2 ^ width - 1)
/-- The lowest lane of a mask, 0 when there is none. -/
def lowLane (m : BitVec 64) : Nat := ((lanesOf 64 m).head?).getD 0

/-- The words of a sector that bytes from `off` on, `n` of them, touch, as an 8-bit mask (R79, R180). -/
def wordMask (off n : Nat) : BitVec 8 :=
  if n == 0 then 0 else BitVec.ofNat 8 ((2 ^ ((off + n - 1) / 4 + 1) - 2 ^ (off / 4)) % 256)
/-- A 32-bit byte mask: `n` bytes from `off`. -/
def byteMask (off n : Nat) : BitVec 32 := BitVec.ofNat 32 ((2 ^ (off + n) - 2 ^ off) % 2 ^ 32)
/-- The 256-bit mask of a byte mask. -/
def spread (m : BitVec 32) : BitVec 256 :=
  (List.range 32).foldl (fun a i => if m.getLsbD i then a ||| (BitVec.ofNat 256 (0xff * 256 ^ i)) else a) 0
/-- Merge the masked bytes of `new` into `old`. -/
def mergeBytes (m : BitVec 32) (old new : BitVec 256) : BitVec 256 := (old &&& ~~~(spread m)) ||| (new &&& spread m)
/-- Byte `i` of a sector. -/
def sectorByte (d : BitVec 256) (i : Nat) : Byte := d.extractLsb' (8 * i) 8

/-- Numbers in ascending order. -/
def insertNat (n : Nat) : List Nat → List Nat
  | [] => [n]
  | m :: rest => if n ≤ m then n :: m :: rest else m :: insertNat n rest
def sortNat (xs : List Nat) : List Nat := xs.foldr insertNat []

/-! ## Numbering (R9, R66, R68, R77) -/

/-- The device core of a group. -/
def coreOf (gid : Nat) : Nat := gid / 96
/-- The local index of a group. -/
def localOf (gid : Nat) : Nat := gid % 96
def dieOf (core : Nat) : Nat := core / 64
/-- The device cluster of a core (R9: 8 cores to a cluster). -/
def clusterOf (core : Nat) : Nat := core / 8
/-- The slot of a local index on a device core (R77). -/
def slotAt (core li : Nat) : Nat := (dieOf core) * 8192 + (core % 64) * 128 + li
/-- The slot of a group (R77, R276). -/
def slotOf (gid : Nat) : Nat := slotAt (coreOf gid) (localOf gid)
/-- The device core that a group or engine slot names. -/
def coreOfSlot (slot : Nat) : Nat := slot / 8192 % 4 * 64 + slot / 128 % 64
/-- The local index that a group or engine slot names. -/
def localOfSlot (slot : Nat) : Nat := slot % 128
/-- The group that a slot names, when its local index is below 96. -/
def gidOfSlot (slot : Nat) : Nat := coreOfSlot slot * 96 + localOfSlot slot
def splitKey (gid n : Nat) : Nat := gid * 4 + n

/-- The sector of a physical address. -/
def sectorOf (pa : Nat) : Nat := pa / 32
/-- HBM or far tier: addresses with a home slice (R66, R69). -/
def isHbm (pa : Nat) : Bool := pa < 0x8000000000
def isFar (pa : Nat) : Bool := 0x10000000000 ≤ pa && pa < 0x90000000000
def isHomed (pa : Nat) : Bool := isHbm pa || isFar pa
def isCompanion (pa : Nat) : Bool := 0x1000000000000 ≤ pa && pa < 0x2000000000000
/-- The fabric peer whose window holds the address (R66). -/
def peerOf (pa : Nat) : Option Nat :=
  if 0x2000000000000 ≤ pa && pa < 0xB000000000000 then some ((pa - 0x2000000000000) / 0x100000000000) else none
def peerOffset (pa : Nat) : Nat := (pa - 0x2000000000000) % 0x100000000000
def isManagement (pa : Nat) : Bool := 0xF000000000000 ≤ pa && pa < 0x10000000000000

/-- The stack of an HBM address (R68). -/
def stackOf (pa : Nat) : Nat := (fld pa 12 3) ^^^ (fld pa 21 3) ^^^ (fld pa 30 3)
/-- The index within its stack of the sector of an HBM address (R68): `local`, pa[38:15] above pa[11:5]. -/
def stackSector (pa : Nat) : Nat := fld pa 15 24 * 2 ^ 7 + fld pa 5 7
/-- The HBM address of a stack's sector: what `stackOf` and `stackSector` take apart (R68). -/
def stackAddr (stack sector : Nat) : Nat :=
  let hi := sector / 2 ^ 7 * 2 ^ 15
  hi + ((stack ^^^ fld hi 21 3 ^^^ fld hi 30 3) % 8) * 2 ^ 12 + sector % 2 ^ 7 * 2 ^ 5
/-- The home slice of a line (R68). -/
def homeSlice (pa : Nat) : Nat :=
  let die := if isHbm pa then stackOf pa / 2 else (fld pa 40 4 - 1) / 2
  16 * die + ((fld pa 7 4) ^^^ (fld pa 16 4) ^^^ (fld pa 25 4))

/-- The key of an L1 line. -/
def lineKey (core line : Nat) : Nat := core * 2 ^ 45 + line
/-- The key of a sector in the cache ways of a cluster. -/
def wayKey (cluster sector : Nat) : Nat := cluster * 2 ^ 47 + sector
/-- The key of a TLB entry. -/
def tlbKey (unit ctx vpn : Nat) : Nat := (unit * 4096 + ctx) * 2 ^ 45 + vpn
/-- The key of a context's incarnation. -/
def tagKey (ctx inc : Nat) : Nat := ctx * 256 + inc
def vKey (gid r l : Nat) : Nat := (gid * 256 + r) * 64 + l

/-- A number for each unit of R392. -/
def unitCode : UnitRef → Nat
  | .core n => n
  | .tlb c => 256 + c
  | .gallery c => 288 + c
  | .slice n => 320 + n
  | .controller n => 384 + n
  | .copyEngine c => 392 + c
  | .rollCall d => 424 + d
  | .fjoven p => 428 + p
  | .ubpen l => 446 + l
/-- Every unit of R392. -/
def allUnits : List UnitRef :=
  (List.range 256).map .core ++ (List.range 32).map .tlb ++ (List.range 32).map .gallery ++ (List.range 64).map .slice ++
  (List.range 8).map .controller ++ (List.range 32).map .copyEngine ++ (List.range 4).map .rollCall ++
  (List.range 18).map .fjoven ++ (List.range 2).map .ubpen

/-- Ticks of 1/35581 ns in one ac at each operating point (R2, R16): the periods of VP0 to VP5 in that unit. -/
def acTicks (point : Nat) : Nat :=
  match point with
  | 0 => 25415 | 1 => 27370 | 2 => 30940 | 3 => 35581 | 4 => 41860 | _ => 50830
/-- Ticks in one ns. -/
def nsTicks : Nat := 35581
/-- Ticks in one µs. -/
def usTicks : Nat := 35581000

end Sys2Proof.Machine
end

