-- ==== Sys2Proof/Machine/Flags.lean ====
section
/-! DEFINITION. Number formats and every flag computation of the float instructions (10_formats_and_float.md R227 to R252): values,
rounding, subnormals, NaNs, the exact arithmetic and its one rounding. Results are pairs of bits and sticky flags. -/

namespace Sys2Proof.Machine

open Sys2Proof

/-! ## Sticky flags (R238) -/

def fNV : Nat := 1
def fDZ : Nat := 2
def fOF : Nat := 4
def fUF : Nat := 8
def fNX : Nat := 16
def fFXS : Nat := 32

/-- Bits and flags. -/
abbrev FRes := Nat × Nat

/-! ## Formats (R227, R228) -/

/-- Which encodings are not finite numbers. -/
inductive FKind where
  | ieee | e4m3 | allFinite
  deriving DecidableEq, Repr

/-- A float format: exponent bits, mantissa bits, bias, kind, largest finite magnitude as bits, flush class (R232: narrow 0, half 1,
single 2, double 3). -/
structure FFmt where
  eb : Nat
  mb : Nat
  bias : Nat
  kind : FKind
  top : Nat
  cls : Nat
  deriving DecidableEq, Repr

def fp32 : FFmt := { eb := 8, mb := 23, bias := 127, kind := .ieee, top := 0x7F7FFFFF, cls := 2 }
def fp64 : FFmt := { eb := 11, mb := 52, bias := 1023, kind := .ieee, top := 0x7FEFFFFFFFFFFFFF, cls := 3 }
def fp16 : FFmt := { eb := 5, mb := 10, bias := 15, kind := .ieee, top := 0x7BFF, cls := 1 }
def bf16 : FFmt := { eb := 8, mb := 7, bias := 127, kind := .ieee, top := 0x7F7F, cls := 1 }
def e4m3 : FFmt := { eb := 4, mb := 3, bias := 7, kind := .e4m3, top := 0x7E, cls := 0 }
def e5m2 : FFmt := { eb := 5, mb := 2, bias := 15, kind := .ieee, top := 0x7B, cls := 0 }
def e2m1 : FFmt := { eb := 2, mb := 1, bias := 1, kind := .allFinite, top := 7, cls := 0 }

/-- The element format of a type field (R49, R229). -/
def fmtOf : FTy → FFmt
  | .f32 => fp32 | .f64 => fp64 | .f16x2 => fp16 | .bf16x2 => bf16 | .f16 => fp16 | .bf16 => bf16
/-- The bits of one element of a type. -/
def elBits : FTy → Nat
  | .f32 => 32 | .f64 => 64 | _ => 16
def FFmt.bits (f : FFmt) : Nat := 1 + f.eb + f.mb

/-- A float value: a NaN with its payload aligned at the top of 52 bits, an infinity, or the exact number ± m × 2^e. -/
inductive FV where
  | nan (s quiet : Bool) (pay : Nat)
  | inf (s : Bool)
  | fin (s : Bool) (m : Nat) (e : Int)
  deriving DecidableEq, Repr

def FV.sign : FV → Bool
  | .nan s _ _ => s | .inf s => s | .fin s _ _ => s
def FV.isNan : FV → Bool
  | .nan _ _ _ => true | _ => false
def FV.isSNan : FV → Bool
  | .nan _ q _ => !q | _ => false
def FV.isInf : FV → Bool
  | .inf _ => true | _ => false
def FV.isZero : FV → Bool
  | .fin _ m _ => m == 0 | _ => false
def FV.setSign (t : Bool) : FV → FV
  | .nan _ q p => .nan t q p | .inf _ => .inf t | .fin _ m e => .fin t m e
def FV.neg (x : FV) : FV := x.setSign (!x.sign)

/-- The exponent of the smallest normal. -/
def FFmt.emin (f : FFmt) : Int := 1 - Int.ofNat f.bias
/-- The quantum of subnormals. -/
def FFmt.umin (f : FFmt) : Int := f.emin - Int.ofNat f.mb

/-- The value of an encoding (R228). -/
def FFmt.value (f : FFmt) (w : Nat) : FV :=
  let s := bitAt w (f.eb + f.mb)
  let e := fld w f.mb f.eb
  let m := fld w 0 f.mb
  let finite : FV := if e == 0 then .fin s m f.umin else .fin s (2 ^ f.mb + m) (f.umin + Int.ofNat (e - 1))
  match f.kind with
  | .ieee => if e == 2 ^ f.eb - 1 then (if m == 0 then .inf s else .nan s (bitAt m (f.mb - 1)) (m * 2 ^ (52 - f.mb))) else finite
  | .e4m3 => if e == 15 && m == 7 then .nan s true 0 else finite
  | .allFinite => finite

/-- Whether an encoding is subnormal. -/
def FFmt.isSub (f : FFmt) (w : Nat) : Bool := fld w f.mb f.eb == 0 && fld w 0 f.mb != 0

/-- Input flush (R236): bit 14 + 2 × class of fmt. -/
def flushIn (f : FFmt) (fmt : Nat) : Bool := bitAt fmt (14 + 2 * f.cls)
def flushOut (f : FFmt) (fmt : Nat) : Bool := bitAt fmt (15 + 2 * f.cls)
/-- An operand as an instruction reads it: flushed, then made absolute, then negated (R236, R240). -/
def readF (f : FFmt) (fmt : Nat) (negate absolute : Bool) (w : Nat) : FV :=
  let v := f.value w
  let v := if flushIn f fmt && f.isSub w then .fin v.sign 0 f.umin else v
  let v := if absolute then v.setSign false else v
  if negate then v.neg else v

/-! ## Encodings of results -/

def FFmt.signBit (f : FFmt) (s : Bool) : Nat := if s then 2 ^ (f.eb + f.mb) else 0
def FFmt.zero (f : FFmt) (s : Bool) : Nat := f.signBit s
def FFmt.infBits (f : FFmt) (s : Bool) : Nat := f.signBit s + (2 ^ f.eb - 1) * 2 ^ f.mb
def FFmt.maxBits (f : FFmt) (s : Bool) : Nat := f.signBit s + f.top
/-- The default NaN (R237). -/
def FFmt.dnan (f : FFmt) : Nat := (2 ^ f.eb - 1) * 2 ^ f.mb + 2 ^ (f.mb - 1)
/-- A NaN quieted in a format (R237). -/
def FFmt.nanBits (f : FFmt) (s : Bool) (pay : Nat) : Nat :=
  let m := pay / 2 ^ (52 - f.mb)
  f.infBits s + (if bitAt m (f.mb - 1) then m else m + 2 ^ (f.mb - 1))

/-- The first NaN of a list of operands, quieted; the default NaN when there is none (R237). -/
def nanOf (f : FFmt) : List FV → Nat
  | [] => f.dnan
  | .nan s _ p :: _ => f.nanBits s p
  | _ :: rest => nanOf f rest
/-- NV when an operand is signalling. -/
def snanFlag (xs : List FV) : Nat := if xs.any FV.isSNan then fNV else 0

/-! ## Rounding (R235) -/

inductive RMode where
  | rne | rz | rdn | rup
  deriving DecidableEq, Repr

/-- The rounding mode of an instruction under fmt (R49, R232). -/
def modeOf (r : Rnd) (fmt : Nat) : RMode :=
  match r with
  | .rne => .rne | .rz => .rz | .rdn => .rdn | .rup => .rup
  | .dyn => match fld fmt 12 2 with | 0 => .rne | 1 => .rz | 2 => .rdn | _ => .rup

/-- Round ± m × 2^e to a multiple of 2^u: the multiple, and whether it is inexact. -/
def roundQ (md : RMode) (s : Bool) (m : Nat) (e u : Int) : Nat × Bool :=
  if u ≤ e then (m * 2 ^ (e - u).toNat, false)
  else
    let d := (u - e).toNat
    let q := m / 2 ^ d
    let r := m % 2 ^ d
    let up := match md with
      | .rne => 2 ^ d < 2 * r || (2 * r == 2 ^ d && q % 2 == 1)
      | .rz => false
      | .rdn => s && r != 0
      | .rup => !s && r != 0
    (if up then q + 1 else q, r != 0)

/-- A result rounded to a format: its magnitude as q × 2^u, whether it is inexact, tiny, and beyond the largest finite value. -/
structure Rounded where
  q : Nat
  u : Int
  inexact : Bool
  tiny : Bool
  overflow : Bool

/-- m × 2^e ≤ n × 2^k. -/
def leScaled (m : Nat) (e : Int) (n : Nat) (k : Int) : Bool :=
  if e ≤ k then m ≤ n * 2 ^ (k - e).toNat else m * 2 ^ (e - k).toNat ≤ n

/-- Round the nonzero number ± m × 2^e to a format (R235). -/
def FFmt.round (f : FFmt) (md : RMode) (s : Bool) (m : Nat) (e : Int) : Rounded :=
  let uu := Int.ofNat (Nat.log2 m) + e - Int.ofNat f.mb
  let free := (roundQ md s m e uu).1
  let u := if uu < f.umin then f.umin else uu
  let r := roundQ md s m e u
  let big := match f.value f.top with | .fin _ n k => !leScaled free uu n k | _ => false
  { q := r.1, u := u, inexact := r.2, tiny := !leScaled (2 ^ f.mb) f.umin free uu, overflow := big }

/-- The encoding of a rounded magnitude. -/
def FFmt.encode (f : FFmt) (s : Bool) (r : Rounded) : Nat := f.signBit s + (r.u - f.umin).toNat * 2 ^ f.mb + r.q

/-- Whether overflow gives the infinity (R235). -/
def overToInf (md : RMode) (s : Bool) : Bool :=
  match md with | .rne => true | .rz => false | .rdn => s | .rup => !s

/-- The nonzero number ± m × 2^e, rounded once and flushed, with its flags (R235, R236). -/
def FFmt.finish (f : FFmt) (fo : Bool) (md : RMode) (s : Bool) (m : Nat) (e : Int) : FRes :=
  let r := f.round md s m e
  if r.overflow then (if overToInf md s then f.infBits s else f.maxBits s, fOF + fNX)
  else if r.tiny && fo then (f.zero s, fUF + fNX)
  else (f.encode s r, (if r.inexact then fNX else 0) + (if r.tiny && r.inexact then fUF else 0))

/-- As `finish`, for a number strictly between m × 2^e and (m + 1) × 2^e when `sticky`. -/
def FFmt.finishS (f : FFmt) (fo : Bool) (md : RMode) (s : Bool) (m : Nat) (e : Int) (sticky : Bool) : FRes :=
  if sticky then f.finish fo md s (4 * m + 1) (e - 2) else f.finish fo md s m e

/-- A number that may be zero; an exact zero has the given sign. -/
def FFmt.finishZ (f : FFmt) (fo : Bool) (md : RMode) (zs : Bool) (s : Bool) (m : Nat) (e : Int) : FRes :=
  if m == 0 then (f.zero zs, 0) else f.finish fo md s m e

/-! ## FADD, FSUB, FMUL, FFMA (R242) -/

/-- The exact sum of two finite numbers as sign, magnitude, exponent. -/
def sumFin (s1 : Bool) (m1 : Nat) (e1 : Int) (s2 : Bool) (m2 : Nat) (e2 : Int) : Bool × Nat × Int :=
  let e := if e1 ≤ e2 then e1 else e2
  let a : Int := Int.ofNat (m1 * 2 ^ (e1 - e).toNat)
  let b : Int := Int.ofNat (m2 * 2 ^ (e2 - e).toNat)
  let t := (if s1 then -a else a) + (if s2 then -b else b)
  (t < 0, t.natAbs, e)

/-- The sign of an exact zero sum (R242). -/
def zeroSign (md : RMode) (s1 s2 : Bool) : Bool := if s1 == s2 then s1 else md == .rdn

/-- x + y where neither is a NaN. -/
def addF (f : FFmt) (fo : Bool) (md : RMode) (x y : FV) : FRes :=
  match x, y with
  | .inf s, .inf t => if s == t then (f.infBits s, 0) else (f.dnan, fNV)
  | .inf s, _ => (f.infBits s, 0)
  | _, .inf t => (f.infBits t, 0)
  | .fin s1 m1 e1, .fin s2 m2 e2 =>
    let t := sumFin s1 m1 e1 s2 m2 e2
    f.finishZ fo md (zeroSign md s1 s2) t.1 t.2.1 t.2.2
  | _, _ => (f.dnan, fNV)

def fpAdd (f : FFmt) (fo : Bool) (md : RMode) (x y : FV) : FRes :=
  if x.isNan || y.isNan then (nanOf f [x, y], snanFlag [x, y]) else addF f fo md x y

def fpMul (f : FFmt) (fo : Bool) (md : RMode) (x y : FV) : FRes :=
  if x.isNan || y.isNan then (nanOf f [x, y], snanFlag [x, y])
  else
    let s := x.sign != y.sign
    match x, y with
    | .fin _ m1 e1, .fin _ m2 e2 => f.finishZ fo md s s (m1 * m2) (e1 + e2)
    | _, _ => if x.isZero || y.isZero then (f.dnan, fNV) else (f.infBits s, 0)

def fpFma (f : FFmt) (fo : Bool) (md : RMode) (x y z : FV) : FRes :=
  let bad := (x.isInf && y.isZero) || (x.isZero && y.isInf)
  if x.isNan || y.isNan || z.isNan then (nanOf f [x, y, z], if bad then fNV else snanFlag [x, y, z])
  else if bad then (f.dnan, fNV)
  else
    let s := x.sign != y.sign
    match x, y with
    | .fin _ m1 e1, .fin _ m2 e2 => addF f fo md (.fin s (m1 * m2) (e1 + e2)) z
    | _, _ => addF f fo md (.inf s) z

/-- The order of two numbers that are not NaN: -1, 0 or 1; zeros equal. -/
def cmpF (x y : FV) : Int :=
  match x, y with
  | .inf s, .inf t => if s == t then 0 else if s then -1 else 1
  | .inf s, _ => if s then -1 else 1
  | _, .inf t => if t then 1 else -1
  | .fin s1 m1 e1, .fin s2 m2 e2 =>
    let t := sumFin s1 m1 e1 (!s2) m2 e2
    if t.2.1 == 0 then 0 else if t.1 then -1 else 1
  | _, _ => 0

/-- Clamp to [0, 1] (R242). -/
def clampF (f : FFmt) (r : Nat) : Nat :=
  let one := f.bias * 2 ^ f.mb
  match f.value r with
  | .nan _ _ _ => 0
  | v => if v.sign || v.isZero then 0 else if cmpF v (f.value one) == 1 then one else r

/-- FMIN and FMAX on operands as read, with the encodings to return (R243).
[DEDUCED, log 28] -/
def fpMinMax (f : FFmt) (max : Bool) (x y : FV) (bx bb : Nat) : FRes :=
  let fl := snanFlag [x, y]
  if x.isNan && y.isNan then (nanOf f [x, y], fl)
  else if x.isNan then (bb, fl)
  else if y.isNan then (bx, fl)
  else
    let c := cmpF x y
    let xLess := c == -1 || (c == 0 && x.sign && !y.sign)
    (if xLess != max then bx else if c == 0 && x.sign == y.sign then bx else bb, fl)

/-- FCMP: the predicate and NV (R244).
[DEDUCED, log 134] -/
def fpCmp (c : Nat) (x y : FV) : Bool × Nat :=
  let un := x.isNan || y.isNan
  let k := cmpF x y
  let r := match c with
    | 0 => !un && k == 0
    | 1 => un || k != 0
    | 2 => !un && k == -1
    | 3 => !un && k != 1
    | 4 => !un && k == 1
    | 5 => !un && k != -1
    | 6 => un
    | _ => !un
  (r, if 2 ≤ c && c ≤ 5 then (if un then fNV else 0) else snanFlag [x, y])

/-! ## FRCP, FRSQ, FSQRT, FDIV (R245) -/

/-- The integer square root by binary digits, from bit `i` down. -/
def isqrtFrom (n : Nat) : Nat → Nat → Nat
  | 0, r => r
  | i + 1, r => let t := r + 2 ^ i; isqrtFrom n i (if t * t ≤ n then t else r)
/-- The integer square root of a number below 2^(2k). -/
def isqrt (k n : Nat) : Nat := isqrtFrom n k 0

/-- m1 × 2^e1 / (m2 × 2^e2), rounded once. -/
def divFin (f : FFmt) (fo : Bool) (md : RMode) (s : Bool) (m1 : Nat) (e1 : Int) (m2 : Nat) (e2 : Int) : FRes :=
  let n := m1 * 2 ^ 128
  f.finishS fo md s (n / m2) (e1 - e2 - 128) (n % m2 != 0)

def fpDiv (f : FFmt) (fo : Bool) (md : RMode) (x y : FV) : FRes :=
  if x.isNan || y.isNan then (nanOf f [x, y], snanFlag [x, y])
  else
    let s := x.sign != y.sign
    match x, y with
    | .inf _, .inf _ => (f.dnan, fNV)
    | .inf _, _ => (f.infBits s, 0)
    | _, .inf _ => (f.zero s, 0)
    | .fin _ m1 e1, .fin _ m2 e2 =>
      if m2 == 0 then (if m1 == 0 then (f.dnan, fNV) else (f.infBits s, fDZ))
      else if m1 == 0 then (f.zero s, 0)
      else divFin f fo md s m1 e1 m2 e2
    | _, _ => (f.dnan, fNV)

def fpRcp (f : FFmt) (fo : Bool) (md : RMode) (x : FV) : FRes := fpDiv f fo md (.fin false 1 0) x

def fpSqrt (f : FFmt) (fo : Bool) (md : RMode) (x : FV) : FRes :=
  match x with
  | .nan _ _ _ => (nanOf f [x], snanFlag [x])
  | .inf s => if s then (f.dnan, fNV) else (f.infBits false, 0)
  | .fin s m e =>
    if m == 0 then (f.zero s, 0) else if s then (f.dnan, fNV)
    else
      let odd := e % 2 != 0
      let n := (if odd then 2 * m else m) * 2 ^ 240
      let r := isqrt 160 n
      f.finishS fo md false r ((if odd then e - 1 else e) / 2 - 120) (r * r != n)

def fpRsq (f : FFmt) (fo : Bool) (md : RMode) (x : FV) : FRes :=
  match x with
  | .nan _ _ _ => (nanOf f [x], snanFlag [x])
  | .inf s => if s then (f.dnan, fNV) else (f.zero false, 0)
  | .fin s m e =>
    if m == 0 then (f.infBits s, fDZ) else if s then (f.dnan, fNV)
    else
      let odd := e % 2 != 0
      let d := if odd then 2 * m else m
      let r := isqrt 160 (2 ^ 300 / d)
      f.finishS fo md false r (-(if odd then e - 1 else e) / 2 - 150) (r * r * d != 2 ^ 300)

/-! ## FEXP2, FLOG2, FSIN, FCOS, FTANH (R245)

Each is evaluated with 256 fraction bits and bounds on the error; the result is the rounding on which both bounds agree. -/

/-- Fraction bits. -/
def xp : Nat := 256
/-- π, ln 2 and log2 e times 2^256, rounded down. -/
def xPi : Nat := 363771576891766324280234942777729862653393377328392429958772151117938894466185
def xLn2 : Nat := 80260960185991308862233904206310070533990667611589946606122867505419956976171
def xLog2e : Nat := 167052672916848388242985626561247531987276682633131050150846402744536260568209
/-- The bound on the error of a series below, in units of 2^-256. -/
def xErr : Nat := 2 ^ 12

/-- Σ t^k / k! from k on, where `term` is t^(k-1)/(k-1)! and every number has 256 fraction bits. -/
def expTerms (t : Nat) : Nat → Nat → Nat → Nat
  | 0, _, _ => 0
  | n + 1, k, term => let x := term * t / 2 ^ xp / k; x + expTerms t n (k + 1) x
/-- 2^g for a fraction g. -/
def exp2Frac (g : Nat) : Nat := 2 ^ xp + expTerms (g * xLn2 / 2 ^ xp) 80 1 (2 ^ xp)

/-- Σ z^(2j+1)/(2j+1), where `pow` is z^(2j+1). -/
def atanhTerms (z2 : Nat) : Nat → Nat → Nat → Nat
  | 0, _, _ => 0
  | n + 1, k, pow => pow / k + atanhTerms z2 n (k + 2) (pow * z2 / 2 ^ xp)
/-- log2 of m / 2^p in [1, 2). -/
def log2Frac (m p : Nat) : Nat :=
  let z := (m - 2 ^ p) * 2 ^ xp / (m + 2 ^ p)
  2 * atanhTerms (z * z / 2 ^ xp) 90 1 z * xLog2e / 2 ^ xp

/-- Alternating series: Σ (-1)^j term_j, terms divided by (k+1)(k+2). -/
def sinTerms (x2 : Nat) : Nat → Nat → Nat → Int
  | 0, _, _ => 0
  | n + 1, k, term => Int.ofNat term - sinTerms x2 n (k + 2) (term * x2 / 2 ^ xp / ((k + 1) * (k + 2)))
/-- sin(π r) for r in [0, 1/2] with 256 fraction bits. -/
def sinFrac (r : Nat) : Nat :=
  let x := r * xPi / 2 ^ xp
  (sinTerms (x * x / 2 ^ xp) 60 1 x).toNat

/-- Round a value known to lie strictly between `lo` and `hi` times 2^e.
[DESIGN CHOICE, log 33] -/
def finishBounds (f : FFmt) (fo : Bool) (md : RMode) (s : Bool) (lo hi : Nat) (e : Int) (op type bits : Nat) : FRes :=
  let a := f.finishS fo md s lo e true
  let b := f.finishS fo md s (hi - 1) e true
  if a == b then a else if Config.hardCase op type bits then b else a

/-- Round a value known to `xErr` with 256 fraction bits, scaled by 2^k.
[DESIGN CHOICE, log 33] -/
def finishX (f : FFmt) (fo : Bool) (md : RMode) (s : Bool) (v : Nat) (k : Int) (op type bits : Nat) : FRes :=
  finishBounds f fo md s (v - xErr) (v + xErr) (k - Int.ofNat xp) op type bits

/-- A finite value split into its integer part (floor) and a fraction with 256 bits, when its quantum allows; `big` when the integer part
has more than 20 bits. -/
def floorFrac (s : Bool) (m : Nat) (e : Int) : Int × Nat :=
  let t := if 0 ≤ e then m * 2 ^ (e.toNat + xp) else m * 2 ^ xp / 2 ^ (-e).toNat
  let n := Int.ofNat (t / 2 ^ xp)
  let r := t % 2 ^ xp
  if s then (if r == 0 then (-n, 0) else (-n - 1, 2 ^ xp - r)) else (n, r)

/-- The magnitude m × 2^e is at least 2^k. -/
def atLeast (m : Nat) (e : Int) (k : Int) : Bool := m != 0 && k ≤ Int.ofNat (Nat.log2 m) + e

def fpExp2 (f : FFmt) (fo : Bool) (md : RMode) (type bits : Nat) (x : FV) : FRes :=
  match x with
  | .nan _ _ _ => (nanOf f [x], snanFlag [x])
  | .inf s => if s then (f.zero false, 0) else (f.infBits false, 0)
  | .fin s m e =>
    if m == 0 then f.finish fo md false 1 0
    else if atLeast m e 12 then f.finishS fo md false 1 (if s then -4096 else 4096) true
    else if !atLeast m e (-60) then
      (if s then f.finishS fo md false (2 ^ 200 - 1) (-200) true else f.finishS fo md false (2 ^ 200) (-200) true)
    else
      let g := floorFrac s m e
      if g.2 == 0 then f.finish fo md false 1 g.1 else finishX f fo md false (exp2Frac g.2) g.1 0 type bits

def fpLog2 (f : FFmt) (fo : Bool) (md : RMode) (type bits : Nat) (x : FV) : FRes :=
  match x with
  | .nan _ _ _ => (nanOf f [x], snanFlag [x])
  | .inf s => if s then (f.dnan, fNV) else (f.infBits false, 0)
  | .fin s m e =>
    if m == 0 then (f.infBits true, fDZ) else if s then (f.dnan, fNV)
    else
      let p := Nat.log2 m
      let n := Int.ofNat p + e
      if m == 2 ^ p then f.finishZ fo md false (n < 0) n.natAbs 0
      else
        let v := log2Frac m p
        if 0 ≤ n then finishX f fo md false (n.toNat * 2 ^ xp + v) 0 1 type bits
        else finishX f fo md true ((-n).toNat * 2 ^ xp - v) 0 1 type bits

/-- sin(π |x|) by quadrants: the sign and r in [0, 1/2] of sin(π r). Values from 2^40 on are even integers in every type. -/
def quadrant (m : Nat) (e : Int) : Bool × Nat :=
  if atLeast m e 40 then (false, 0)
  else
    let t := (if 0 ≤ e then m * 2 ^ (e.toNat + xp) else m * 2 ^ xp / 2 ^ (-e).toNat) % 2 ^ (xp + 1)
    let h := t % 2 ^ xp
    (2 ^ xp ≤ t, if h ≤ 2 ^ (xp - 1) then h else 2 ^ xp - h)

def fpSin (f : FFmt) (fo : Bool) (md : RMode) (type bits : Nat) (x : FV) : FRes :=
  match x with
  | .nan _ _ _ => (nanOf f [x], snanFlag [x])
  | .inf _ => (f.dnan, fNV)
  | .fin s m e =>
    let g := quadrant m e
    if g.2 == 0 then (f.zero s, 0)
    else if g.2 == 2 ^ (xp - 1) then f.finish fo md (s != g.1) 1 0
    else finishX f fo md (s != g.1) (sinFrac g.2) 0 2 type bits

def fpCos (f : FFmt) (fo : Bool) (md : RMode) (type bits : Nat) (x : FV) : FRes :=
  match x with
  | .nan _ _ _ => (nanOf f [x], snanFlag [x])
  | .inf _ => (f.dnan, fNV)
  | .fin _ m e =>
    if m == 0 then f.finish fo md false 1 0
    else if !atLeast m e (-60) then f.finishS fo md false (2 ^ 200 - 1) (-200) true
    else if atLeast m e 40 then f.finish fo md false 1 0
    else
      let t := ((if 0 ≤ e then m * 2 ^ (e.toNat + xp) else m * 2 ^ xp / 2 ^ (-e).toNat) + 2 ^ (xp - 1)) % 2 ^ (xp + 1)
      let h := t % 2 ^ xp
      let r := if h ≤ 2 ^ (xp - 1) then h else 2 ^ xp - h
      if r == 0 then (f.zero false, 0)
      else if r == 2 ^ (xp - 1) then f.finish fo md (2 ^ xp ≤ t) 1 0
      else finishX f fo md (2 ^ xp ≤ t) (sinFrac r) 0 3 type bits

def fpTanh (f : FFmt) (fo : Bool) (md : RMode) (type bits : Nat) (x : FV) : FRes :=
  match x with
  | .nan _ _ _ => (nanOf f [x], snanFlag [x])
  | .inf s => f.finish fo md s 1 0
  | .fin s m e =>
    if m == 0 then (f.zero s, 0)
    else if !atLeast m e (-20) then f.finishS fo md s (m * 2 ^ 16 - 1) (e - 16) true
    else if atLeast m e 6 then f.finishS fo md s (2 ^ 100 - 1) (-100) true
    else
      let a := if 0 ≤ e then m * 2 ^ (e.toNat + xp) else m * 2 ^ xp / 2 ^ (-e).toNat
      let y := 2 * a * xLog2e / 2 ^ xp
      let n := y / 2 ^ xp
      let ex := exp2Frac (2 ^ xp - 1 - y % 2 ^ xp) / 2 ^ (n + 1)
      finishX f fo md s ((2 ^ xp - ex) * 2 ^ xp / (2 ^ xp + ex)) 0 4 type bits

/-! ## FRND, FSCALE (R246), FCLASS (R250) -/

def fpRnd (f : FFmt) (md : RMode) (x : FV) : FRes :=
  match x with
  | .nan _ _ _ => (nanOf f [x], snanFlag [x])
  | .inf s => (f.infBits s, 0)
  | .fin s m e =>
    let q := if 0 ≤ e then m * 2 ^ e.toNat else (roundQ md s m e 0).1
    if q == 0 then (f.zero s, 0) else ((f.finish false .rz s q 0).1, 0)

def fpScale (f : FFmt) (fo : Bool) (md : RMode) (n : Int) (x : FV) : FRes :=
  match x with
  | .nan _ _ _ => (nanOf f [x], snanFlag [x])
  | .inf s => (f.infBits s, 0)
  | .fin s m e =>
    let k := if n < -8192 then -8192 else if 8192 < n then 8192 else n
    f.finishZ fo md s s m (e + k)

def fpClass (f : FFmt) (w : Nat) : Nat :=
  match f.value w with
  | .nan _ q _ => if q then 9 else 8
  | .inf s => if s then 0 else 7
  | .fin s m _ => if m == 0 then (if s then 3 else 4) else if f.isSub w then (if s then 2 else 5) else (if s then 1 else 6)

/-! ## Conversions (R248, R249) -/

/-- To an IEEE format of a register type. -/
def cvtWide (f : FFmt) (fo : Bool) (md : RMode) (x : FV) : FRes :=
  match x with
  | .nan s _ p => (f.nanBits s p, snanFlag [x])
  | .inf s => (f.infBits s, 0)
  | .fin s m e => f.finishZ fo md s s m e

/-- A NaN in a narrow format, by its code (R248). -/
def narrowNan (code : Nat) (s : Bool) : Nat :=
  match code with | 4 => (if s then 0xFF else 0x7F) | 5 => (if s then 0xFE else 0x7E) | _ => 0

/-- The format of a narrow code. -/
def narrowFmt (code : Nat) : FFmt := match code with | 4 => e4m3 | 5 => e5m2 | _ => e2m1

/-- To a narrow format (R248). -/
def cvtNarrow (code : Nat) (sat fo : Bool) (md : RMode) (x : FV) : FRes :=
  let f := narrowFmt code
  match x with
  | .nan s _ _ => (narrowNan code s, if code == 6 then fNV else snanFlag [x])
  | .inf s =>
    if code == 6 then (f.maxBits s, fNV)
    else if code == 4 then (if sat then f.maxBits s else narrowNan 4 s, fNV)
    else (if sat then f.maxBits s else f.infBits s, 0)
  | .fin s m e =>
    if m == 0 then (f.zero s, 0)
    else
      let r := f.round md s m e
      if r.overflow then
        (if sat || code == 6 || !overToInf md s then f.maxBits s else if code == 4 then narrowNan 4 s else f.infBits s, fOF + fNX)
      else if r.tiny && fo then (f.zero s, fUF + fNX)
      else (f.encode s r, (if r.inexact then fNX else 0) + (if r.tiny && r.inexact then fUF else 0))

/-- The bounds of an integer type. -/
def ityMin (t : ITy) : Int := if t.signed then -(Int.ofNat (2 ^ (t.width - 1))) else 0
def ityMax (t : ITy) : Int := if t.signed then Int.ofNat (2 ^ (t.width - 1)) - 1 else Int.ofNat (2 ^ t.width) - 1

/-- FCVTI of one element (R249). -/
def cvtInt (t : ITy) (md : RMode) (x : FV) : FRes :=
  match x with
  | .nan _ _ _ => (0, fNV)
  | .inf s => (wrap t.width (if s then ityMin t else ityMax t), fNV)
  | .fin s m e =>
    if m != 0 && 0 ≤ e && 80 ≤ Nat.log2 m + e.toNat then (wrap t.width (if s then ityMin t else ityMax t), fNV)
    else
      let r := roundQ md s m e 0
      let q : Int := if s then -(Int.ofNat r.1) else Int.ofNat r.1
      if q < ityMin t then (wrap t.width (ityMin t), fNV)
      else if ityMax t < q then (wrap t.width (ityMax t), fNV)
      else (wrap t.width q, if r.2 then fNX else 0)

/-- ICVTF of one element (R249). -/
def intCvt (f : FFmt) (fo : Bool) (md : RMode) (t : ITy) (v : Nat) : FRes :=
  let i : Int := if t.signed then sext t.width v else Int.ofNat v
  f.finishZ fo md false (i < 0) i.natAbs 0

/-! ## Element formats by code, block scales (R227, R230, R231, R251) -/

/-- Bits of an element of a format code. -/
def codeBits (c : Nat) : Nat :=
  match c with | 0 => 8 | 1 => 8 | 2 => 4 | 3 => 4 | 4 => 8 | 5 => 8 | 6 => 4 | 7 => 8 | _ => 16

/-- An SP2 byte times 64 (R230). -/
def sp2Times64 (w : Nat) : Int :=
  let term (s : Bool) (c : Nat) : Int := if c == 7 then 0 else (if s then -1 else 1) * Int.ofNat (2 ^ (6 - c))
  term (bitAt w 7) (fld w 4 3) + term (bitAt w 3) (fld w 0 3)

def FV.ofInt (i : Int) (e : Int) : FV := .fin (i < 0) i.natAbs e

/-- The value of an element by its format code (R227). -/
def codeValue (c w : Nat) : FV :=
  match c with
  | 0 => .ofInt (sext 8 w) 0
  | 1 => .ofInt (Int.ofNat (w % 256)) 0
  | 2 => .ofInt (sext 4 w) 0
  | 3 => .ofInt (Int.ofNat (w % 16)) 0
  | 4 => e4m3.value w
  | 5 => e5m2.value w
  | 6 => e2m1.value w
  | 7 => .ofInt (sp2Times64 w) (-6)
  | 8 => fp16.value w
  | _ => bf16.value w

/-- The float format of a code, for its flush bits. -/
def codeFmt (c : Nat) : Option FFmt :=
  match c with | 4 => some e4m3 | 5 => some e5m2 | 6 => some e2m1 | 8 => some fp16 | 9 => some bf16 | _ => none

/-- An element of a format code as it is read under fmt: subnormals flushed (R236). -/
def readCode (c fmt w : Nat) : FV :=
  match codeFmt c with
  | some f => readF f fmt false false w
  | none => codeValue c w

/-- The canonical SP2 encodings in the order of R230: least c1, then least c2, a zero term with sign 0. -/
def sp2Candidates : List Nat :=
  (List.range 8).flatMap fun c1 => (List.range 8).flatMap fun c2 =>
    (if c1 == 7 then [false] else [false, true]).flatMap fun s1 => (if c2 == 7 then [false] else [false, true]).map fun s2 =>
      b2n s1 * 128 + c1 * 16 + b2n s2 * 8 + c2
/-- The canonical encoding of a value times 64, if it is an SP2 value. -/
def sp2Encode (v : Int) : Option Nat := if v == 0 then some 0x77 else sp2Candidates.find? fun w => sp2Times64 w == v
/-- The magnitudes of SP2 times 64, ascending, extended in steps of 0.5 up to `n` steps beyond 2 (R251). -/
def sp2Mags : List Nat := ((List.range 129).filter fun v => (sp2Encode (Int.ofNat v)).isSome) ++ [160]

/-- Choose between neighbouring magnitudes a < x < b for a value x given as the comparison of 2x with a + b (R251): RNE takes the nearer,
and the smaller on a tie. -/
def pickMag (md : RMode) (s : Bool) (a b : Nat) (above : Bool) : Nat :=
  match md with
  | .rne => if above then b else a
  | .rz => a
  | .rdn => if s then b else a
  | .rup => if s then a else b

/-- Round num / den (times 64) to an SP2 magnitude on the extended grid: the magnitude times 64, and whether it is inexact. -/
def sp2Round (md : RMode) (s : Bool) (num den : Nat) : Nat × Bool :=
  if 160 * den ≤ num then (160, true)
  else
    let lo := ((sp2Mags.filter fun v => v * den ≤ num).getLast?).getD 0
    if lo * den == num then (lo, false)
    else
      let hi := ((sp2Mags.filter fun v => num < v * den).head?).getD 160
      (pickMag md s lo hi ((lo + hi) * den < 2 * num), true)

/-- A block scale record: (256 + M) × 2^(E − 8) (R231). -/
def scaleM (rec : Nat) : Nat := 256 + fld rec 10 8
def scaleE (rec : Nat) : Int := sext 10 rec - 8
/-- Whether a record may scale elements of a format (R231). -/
def scaleOk (rec code : Nat) : Bool := fld rec 24 8 == code && fld rec 18 6 == 0

/-- The NaN result of FQUANT (R251). -/
def quantNan (c : Nat) : Nat :=
  match c with | 4 => 0x7F | 5 => 0x7E | 6 => 0 | 7 => 0x77 | 8 => 0x7E00 | 9 => 0x7FC0 | _ => 0

/-- ± num × 2^e with num an exact quotient n / d, as a dyadic with a sticky bit folded in. -/
def foldQuot (n d : Nat) (e : Int) : Nat × Int :=
  let t := n * 2 ^ 64
  if t % d == 0 then (t / d, e - 64) else (4 * (t / d) + 1, e - 66)

/-- FQUANT of one value (R251). -/
def quantize (c : Nat) (fo : Bool) (md : RMode) (rec : Nat) (x : FV) : FRes :=
  match x with
  | .nan _ _ _ => (quantNan c, fNV)
  | .inf s =>
    (match c with
     | 0 => wrap 8 (if s then -128 else 127)
     | 1 => if s then 0 else 255
     | 2 => wrap 4 (if s then -8 else 7)
     | 3 => if s then 0 else 15
     | 7 => if s then 0x88 else 0
     | _ => match codeFmt c with | some f => f.maxBits s | none => 0, fOF + fNX)
  | .fin s m e =>
    if m == 0 then (if c == 7 then 0x77 else match codeFmt c with | some f => f.zero s | none => 0, 0)
    else
      let q := foldQuot m (scaleM rec) (e - scaleE rec)
      match codeFmt c with
      | some f =>
        let r := f.round md s q.1 q.2
        if r.overflow then (f.maxBits s, fOF + fNX)
        else if r.tiny && fo then (f.zero s, fUF + fNX)
        else (f.encode s r, (if r.inexact then fNX else 0) + (if r.tiny && r.inexact then fUF else 0))
      | none =>
        if c == 7 then
          let big := 80 ≤ Int.ofNat (Nat.log2 q.1) + q.2
          let r := if big then (160, true)
            else if 0 ≤ q.2 then sp2Round md s (q.1 * 2 ^ q.2.toNat * 64) 1 else sp2Round md s (q.1 * 64) (2 ^ (-q.2).toNat)
          if 128 < r.1 then (if s then 0x88 else 0, fOF + fNX)
          else ((sp2Encode (if s then -(Int.ofNat r.1) else Int.ofNat r.1)).getD 0x77, if r.2 then fNX else 0)
        else
          let w := codeBits c
          let lo : Int := if c == 0 || c == 2 then -(Int.ofNat (2 ^ (w - 1))) else 0
          let hi : Int := if c == 0 || c == 2 then Int.ofNat (2 ^ (w - 1)) - 1 else Int.ofNat (2 ^ w) - 1
          let big := 80 ≤ Int.ofNat (Nat.log2 q.1) + q.2
          let r := if big then (2 ^ 80, true) else roundQ md s q.1 q.2 0
          let i : Int := if s then -(Int.ofNat r.1) else Int.ofNat r.1
          if i < lo then (wrap w lo, fOF + fNX) else if hi < i then (wrap w hi, fOF + fNX)
          else (wrap w i, if r.2 then fNX else 0)

/-- FDEQ of one element (R251). -/
def dequantize (f : FFmt) (fo : Bool) (md : RMode) (rec : Nat) (x : FV) : FRes :=
  match x with
  | .nan s _ p => (f.nanBits s p, snanFlag [x])
  | .inf s => (f.infBits s, 0)
  | .fin s m e => f.finishZ fo md s s (m * scaleM rec) (e + scaleE rec)

end Sys2Proof.Machine
end

