-- ==== Sys2Proof/Machine/Ops.lean ====
section
/-! DEFINITION. The named operations that every family uses: reading and writing registers, the issuing split, time, stamps,
memory at the home slices and the targets without one, page-table translation, the code text, records of faults, taking a trap
into the handler and returning from it, events of the error core. -/

namespace Sys2Proof.Machine

open Sys2Proof

/-! ## Registers (R32) -/

namespace State

/-- s0 to s62; s63 reads zero. -/
def sreg (s : State) (g r : Nat) : BitVec 32 := if r == 63 then 0 else Tab.sregs.val 0 (g * 64 + r) s
/-- A uniform pair: the even register is bits [31:0] (R29). -/
def spair (s : State) (g r : Nat) : BitVec 64 := s.sreg g (r + 1) ++ s.sreg g r
/-- p0 to p6; p7 reads all ones. -/
def preg (s : State) (g p : Nat) : BitVec 64 := if p == 7 then BitVec.allOnes 64 else Tab.pregs.val 0 (g * 8 + p) s
def breg (s : State) (g b : Nat) : BitVec 128 := Tab.bregs.val 0 (g * 16 + b) s
/-- A lane register in one lane. -/
def vreg (s : State) (g r l : Nat) : BitVec 32 := Tab.vregs.val 0 (vKey g r l) s
/-- A lane pair: the even register is bits [31:0] (R29). -/
def vpair (s : State) (g r l : Nat) : BitVec 64 := s.vreg g (r + 1) l ++ s.vreg g r l
/-- `n` consecutive lane registers as one number, the first least significant. -/
def vwide (s : State) (g r l : Nat) : Nat → Nat
  | 0 => 0
  | n + 1 => (s.vreg g r l).toNat + 2 ^ 32 * vwide s g (r + 1) l n

end State

/-- q0 to q6; q7 reads true. -/
def Group.qreg (x : Group) (n : Nat) : Bool := n == 7 || x.q.getLsbD n

/-- Write a uniform register; a write to s63 is discarded (R32). -/
def wrS (g r : Nat) (v : BitVec 32) : Act := if r == 63 then .skip else .put .sregs (g * 64 + r) v
/-- Write a uniform pair. -/
def wrSD (g r : Nat) (v : BitVec 64) : Act := .seq (wrS g r (v.extractLsb' 0 32)) (wrS g (r + 1) (v.extractLsb' 32 32))
/-- Write a uniform predicate. -/
def wrQ (g n : Nat) (v : Bool) : Act :=
  .upd .groups g fun x => { x with q := if v then x.q ||| BitVec.ofNat 7 (2 ^ n) else x.q &&& ~~~(BitVec.ofNat 7 (2 ^ n)) }
/-- Write a lane register in one lane. -/
def wrV (g r l : Nat) (v : BitVec 32) : Act := .put .vregs (vKey g r l) v
/-- Write consecutive lane registers with the words of a number, least significant first. -/
def wrVs (g r l : Nat) : Nat → Nat → Act
  | 0, _ => .skip
  | n + 1, v => .seq (wrV g r l (BitVec.ofNat 32 v)) (wrVs g (r + 1) l n (v / 2 ^ 32))
/-- Write the bits of a lane predicate in the lanes of `m`, and leave the other lanes (R279). -/
def wrP (g p : Nat) (m v : BitVec 64) : Act := .updD .pregs 0 (g * 8 + p) fun x => (x &&& ~~~m) ||| (v &&& m)
def wrB (g b : Nat) (v : BitVec 128) : Act := .put .bregs (g * 16 + b) v
/-- Set sticky flags (R238). -/
def orFlags (g : Nat) (f : BitVec 6) : Act := if f == 0 then .skip else .upd .groups g fun x => { x with flags := x.flags ||| f }

/-! ## Steps to come, free values, identifiers -/

/-- Append internal steps to those due.
[DESIGN CHOICE, log 1] -/
def Act.due (xs : List Instr) : Act := if xs.isEmpty then .skip else .dev fun d => { d with due := d.due ++ xs }
/-- Take a fresh identifier. -/
def Act.fresh (k : Nat → Act) : Act := .read fun s => .seq (.dev fun d => { d with nextId := d.nextId + 1 }) (k s.dev.nextId)
/-- Take the counter of a free value.
[DESIGN CHOICE, log 2] -/
def Act.free (k : Nat → Act) : Act := .read fun s => .seq (.dev fun d => { d with freeCtr := d.freeCtr + 1 }) (k s.dev.freeCtr)

/-! ## Time -/

/-- The low 32 bits of the window counter. -/
def State.window32 (s : State) : BitVec 32 := BitVec.ofNat 32 s.dev.window
/-- Absolute time in µs since the end of boot stage 1. -/
def State.us (s : State) : Nat := s.dev.ticks / usTicks

/-! ## The containers of a group -/

namespace State

def group? (s : State) (g : Nat) : Option Group := Tab.groups.at g s
def split? (s : State) (g n : Nat) : Option Split := Tab.splits.at (splitKey g n) s
def block? (s : State) (b : Nat) : Option Block := Tab.blocks.at b s
def team? (s : State) (t : Nat) : Option Team := Tab.teams.at t s
def launch? (s : State) (l : Nat) : Option Launch := Tab.launches.at l s
def core (s : State) (c : Nat) : CoreRec := Tab.cores.val CoreRec.init c s
def ctx (s : State) (c : Nat) : Ctx := Tab.ctxs.val Ctx.init c s
def cluster (s : State) (c : Nat) : Cluster := Tab.clusters.val Cluster.init c s

def blockOf (s : State) (g : Nat) : Option Block := (s.group? g).bind fun x => s.block? x.bid
def launchOf (s : State) (g : Nat) : Option Launch := (s.blockOf g).bind fun b => s.launch? b.lid
def teamOf (s : State) (g : Nat) : Option Team := (s.blockOf g).bind fun b => s.team? b.tid

/-- The split numbers that a group holds, ascending. -/
def splitsOf (s : State) (g : Nat) : List Nat := (List.range 4).filter fun n => (s.split? g n).isSome
/-- The operations of a group, oldest first. -/
def opsOf (s : State) (g : Nat) : List (Nat × Op) := s.ops.filter fun e => e.2.gid == g
/-- The operations of a path that its counter still counts, in issue order: those behind the ones that have ended or failed, each in its turn
(R44, R196). -/
def pathOps (s : State) (g path : Nat) : List (Nat × Op) :=
  ((s.opsOf g).filter fun e => e.2.path == some path).dropWhile fun e => e.2.phase == .done || e.2.phase == .failed
/-- The in-flight counter of a path (R44).
[DESIGN CHOICE, log 7] -/
def counter (s : State) (g path : Nat) : Nat := (s.pathOps g path).length
/-- A slot's interval counter and stamp (R78). -/
def icountOf (s : State) (slot : Nat) : BitVec 32 := Tab.icount.val 0 slot s
def stampOf (s : State) (slot : Nat) : BitVec 16 := (s.icountOf slot).extractLsb' 0 16

end State

/-- Whether an operation has ended or parked, so that its split may stop (R43). -/
def OpPhase.settled : OpPhase → Bool
  | .parked => true | .failed => true | .done => true | _ => false

/-- Whether a tag is stale at a unit (R71): not broadcast as live, or told dead there. Context 0 is always live (R380). -/
def State.stale (s : State) (u : UnitRef) (ctx inc : Nat) : Bool :=
  ctx != 0 && (!(Tab.tags.val false (tagKey ctx inc) s) || Tab.deadAt.val false (unitCode u * 2 ^ 20 + tagKey ctx inc) s)

/-! ## The issuing split -/

/-- A split with everything it stands in. `len` is the length of the instruction it issues, in bytes. -/
structure Iss where
  gid : Nat
  n : Nat
  grp : Group
  sp : Split
  bid : Nat
  blk : Block
  lau : Launch
  len : Nat

def Iss.of (s : State) (g n : Nat) (i : Instr) : Option Iss :=
  match s.group? g, s.split? g n with
  | some grp, some sp =>
    match s.block? grp.bid with
    | some blk =>
      match s.launch? blk.lid with
      | some lau => some { gid := g, n := n, grp := grp, sp := sp, bid := grp.bid, blk := blk, lau := lau,
                           len := 4 * (encode i).length }
      | none => none
    | none => none
  | _, _ => none

/-- The split that issues, and the instruction it issues. -/
def State.issuer (s : State) (i : Instr) : Option Iss :=
  match s.dev.cur with
  | some k => Iss.of s (k / 4) (k % 4) i
  | none => none

namespace Iss

def key (c : Iss) : Nat := splitKey c.gid c.n
def slot (c : Iss) : Nat := slotOf c.gid
def core (c : Iss) : Nat := coreOf c.gid
def tid (c : Iss) : Nat := c.blk.tid
def inHandler (c : Iss) : Bool := c.grp.shadow.isSome

/-- The lanes that execute an L-form or X-form: in the split's mask and passed by the guard (R33). -/
def execMask (c : Iss) (s : State) (h : Head) : BitVec 64 :=
  let p := s.preg c.gid h.guard.toNat
  c.sp.mask &&& (if h.neg then ~~~p else p)
def execLanes (c : Iss) (s : State) (h : Head) : List Nat := lanesOf c.lau.width (c.execMask s h)

/-- The split after an instruction has issued: past it, every window one shorter (R41), completed producers dropped. -/
def past (c : Iss) (s : State) : Split :=
  { c.sp with
    pc := c.sp.pc + BitVec.ofNat 32 c.len
    outs := (c.sp.outs.filter fun o => match Tab.ops.at o.op s with
        | some x => x.phase != .done
        | none => false).map fun o => { o with rem := o.rem.map (· - 1) }
    wait := .ready
    skid := c.sp.skid + 1
    last := s.dev.cycle.toNat + 1
    stage := 0
    pre := 0 }
/-- Issue: the split moves past the instruction. -/
def advance (c : Iss) : Act := .read fun s => .put .splits c.key (c.past s)
/-- The tag of the issuer's context and incarnation. -/
def tag (c : Iss) : Nat := tagKey c.lau.ctx c.lau.inc
/-- The instruction does not issue now: the split stays before it and waits. -/
def stall (c : Iss) (w : Wait) : Act := .put .splits c.key { c.sp with wait := w }
/-- As `stall`, remembering how much of the instruction is done. -/
def stallAt (c : Iss) (stage : Nat) (w : Wait) : Act := .put .splits c.key { c.sp with wait := w, stage := stage }
/-- Move the split to a target. -/
def jump (c : Iss) (pc : BitVec 32) : Act := .upd .splits c.key fun x => { x with pc := pc }

end Iss

/-! ## Memory at home (R66 to R72) -/

namespace State

/-- The context that owns a physical page (R73); context 0 when it is mapped to none. -/
def ownerOf (s : State) (pa : Nat) : Nat × Nat :=
  match (s.pages.find? fun e => e.1 * 4096 ≤ pa && pa < e.1 * 4096 + 2 ^ e.2.size) with
  | some e => (e.2.ctx, e.2.inc)
  | none => (0, 0)

/-- 32 bytes of memory cells. -/
def cells (s : State) (sector : Nat) : BitVec 256 :=
  (List.range 32).foldl
    (fun a i => a ||| (BitVec.ofNat 256 ((Tab.mem.val 0 (sector * 32 + i) s).toNat * 256 ^ i))) 0

/-- A sector as its home slice or target holds it: the L2 line unless its tag is stale (R72), else memory. -/
def sectorAt (s : State) (sector : Nat) : BitVec 256 :=
  match Tab.l2.at sector s with
  | some e => if s.stale (.slice (homeSlice (sector * 32))) e.ctx e.inc then s.cells sector else e.data
  | none => s.cells sector
/-- The bytes of a poisoned sector that have not been rewritten (R62). -/
def poisonOf (s : State) (sector : Nat) : BitVec 32 :=
  match Tab.l2.at sector s with
  | some e => if s.stale (.slice (homeSlice (sector * 32))) e.ctx e.inc then Tab.poison.val 0 sector s else e.poison
  | none => Tab.poison.val 0 sector s
/-- Whether a sector is delivered poisoned (R62). -/
def poisoned (s : State) (sector : Nat) : Bool := s.poisonOf sector != 0

/-- One byte at its home. -/
def homeByte (s : State) (pa : Nat) : Byte :=
  match (if isHomed pa then Tab.l2.at (sectorOf pa) s else none) with
  | some e => if s.stale (.slice (homeSlice pa)) e.ctx e.inc then Tab.mem.val 0 pa s else sectorByte e.data (pa % 32)
  | none => Tab.mem.val 0 pa s
/-- `n` bytes at home as a number. -/
def homeNat (s : State) (pa : Nat) : Nat → Nat
  | 0 => 0
  | n + 1 => (s.homeByte pa).toNat + 256 * homeNat s (pa + 1) n
def homeWord (s : State) (pa : Nat) : BitVec 32 := BitVec.ofNat 32 (s.homeNat pa 4)
def homeQuad (s : State) (pa : Nat) : Nat := s.homeNat pa 8

end State

/-- CHECK of a sector's side word (R61 to R63): the memory controller computes it on every write and at initialisation, so it is the code of
the data and the MARK that memory holds; an uncorrectable sector is one whose CHECK does not fit.
[DESIGN CHOICE, log 42] -/
def State.checkOf (s : State) (sector : Nat) : BitVec 16 :=
  let code := Config.checkCode (s.cells sector) (Tab.side.val 0 sector s)
  if Tab.poison.val 0 sector s == 0 then code else code ^^^ Config.checkError sector
/-- The side word of an HBM sector (R61): MARK above CHECK.
[DESIGN CHOICE, log 42] -/
def State.sideWord (s : State) (sector : Nat) : BitVec 64 := Tab.side.val 0 sector s ++ s.checkOf sector

/-- Whether the home slice of a sector holds it (R70, R72). -/
def State.held? (s : State) (sector : Nat) : Bool :=
  match Tab.l2.at sector s with
  | some e => !s.stale (.slice (homeSlice (sector * 32))) e.ctx e.inc
  | none => false
/-- The tag of the context that owns a sector, as its home slice writes it on a line (R72); that of context 0 for an owner that is gone. -/
def State.lineTag (s : State) (sector : Nat) : Nat × Nat :=
  let own := s.ownerOf (sector * 32)
  if s.stale (.slice (homeSlice (sector * 32))) own.1 own.2 then (0, 0) else own
/-- Whether the channel of a sector's stack is paused, so that its controller holds new requests (R408). -/
def State.pausedAt (s : State) (pa : Nat) : Bool := isHbm pa && Tab.paused.val 0 (stackOf pa) s != 0
/-- A read reaches a sector's home slice, which fetches the sector when it does not hold it (R70). -/
def fetchSector (sector : Nat) : Act := .read fun s =>
  if !isHomed (sector * 32) || s.held? sector then .skip
  else .put .l2 sector { ctx := (s.lineTag sector).1, inc := (s.lineTag sector).2, data := s.cells sector, dirty := false,
                         poison := Tab.poison.val 0 sector s }
/-- A slice writes a sector to its controller, where it is dropped when its tag is stale (R72). -/
def storeLine (sector : Nat) (e : L2Sector) : Act := .read fun s =>
  .when (!s.stale (.controller (stackOf (sector * 32))) e.ctx e.inc)
    (.seq (.each (List.range 32) fun i => .put .mem (sector * 32 + i) (sectorByte e.data i)) (.put .poison sector e.poison))
/-- A slice lets go of a sector: a dirty one goes to its controller, unless its tag is stale (R70, R72).
[DESIGN CHOICE, log 37] -/
def letGo (sector : Nat) : Act := .read fun s =>
  .with? (Tab.l2.at sector s) fun e =>
    .seq (.when (e.dirty && !s.stale (.slice (homeSlice (sector * 32))) e.ctx e.inc) (storeLine sector e)) (.del .l2 sector)
/-- The slices fetch the sectors of `n` bytes that are read at home. -/
def fetchRange (pa n : Nat) : Act := .each (List.range ((pa % 32 + n + 31) / 32)) fun i => fetchSector (sectorOf pa + i)

/-- Write one byte of a target without a home slice. -/
def putCell (pa : Nat) (b : Byte) : Act := .put .mem pa b

/-- Write the masked bytes of a sector at its home: the slice's copy becomes dirty, and the sector is good again when every byte
has been rewritten (R62, R70). -/
def writeSector (sector : Nat) (m : BitVec 32) (d : BitVec 256) : Act := .read fun s =>
  if m == 0 then .skip
  else if isHomed (sector * 32) then
    .put .l2 sector { ctx := (s.lineTag sector).1, inc := (s.lineTag sector).2, data := mergeBytes m (s.sectorAt sector) d, dirty := true,
                      poison := s.poisonOf sector &&& ~~~m }
  else .each ((List.range 32).filter fun i => m.getLsbD i) fun i => putCell (sector * 32 + i) (sectorByte d i)

/-- Write bytes at their homes, lowest address first. -/
def writeHome (pa : Nat) : List Byte → Act
  | [] => .skip
  | b :: rest =>
    .seq (writeSector (sectorOf pa) (byteMask (pa % 32) 1) (BitVec.ofNat 256 (b.toNat * 256 ^ (pa % 32)))) (writeHome (pa + 1) rest)
/-- Write `n` bytes of a number at home (R4). -/
def writeHomeNat (pa n v : Nat) : Act := writeHome pa (bytesOfNat n v)
def writeHomeWord (pa : Nat) (v : BitVec 32) : Act := writeHomeNat pa 4 v.toNat
/-- Write words at consecutive addresses. -/
def writeHomeWords (pa : Nat) : List (BitVec 32) → Act
  | [] => .skip
  | v :: rest => .seq (writeHomeWord pa v) (writeHomeWords (pa + 4) rest)

/-! ## Translation (R101 to R103) -/

/-- A translation: physical address, log2 of the page size, rights. -/
structure Xlat where
  pa : Nat
  size : Nat
  rd : Bool
  wr : Bool
  ex : Bool
  deriving DecidableEq, Repr

/-- A translation that ends in 0x10 or 0x11, and whether an entry was malformed (R103). -/
structure XFail where
  cause : BitVec 8
  malformed : Bool
  deriving DecidableEq, Repr

/-- The page size of a leaf at a level of R101, none where a leaf is not allowed or SZ is not. -/
def leafSize (level sz : Nat) : Option Nat :=
  match level with
  | 3 => if sz == 0 then some 30 else none
  | 2 => if sz == 0 then some 21 else none
  | 1 => if sz == 0 then some 12 else if sz == 1 then some 16 else none
  | _ => none

/-- Walk the tables from `level` down, with the table at `base` (R101 to R103). -/
def walkFrom (s : State) (va base : Nat) : Nat → Except XFail Xlat
  | 0 => .error { cause := 0x10, malformed := true }
  | level + 1 =>
    let e := s.homeQuad (base + 8 * fld va (12 + 9 * level) 9)
    let bad : Except XFail Xlat := .error { cause := 0x10, malformed := true }
    if !bitAt e 0 then .error { cause := 0x10, malformed := false }
    else if fld e 56 8 != 0 || fld e 6 4 != 0 || bitAt e 1 then bad
    else if bitAt e 2 then
      match leafSize (level + 1) (fld e 10 2) with
      | none => bad
      | some size =>
        let pa := fld e 12 40 * 4096
        if pa % 2 ^ size != 0 || (bitAt e 4 && !bitAt e 3) then bad
        else .ok { pa := pa + va % 2 ^ size, size := size, rd := bitAt e 3, wr := bitAt e 4, ex := bitAt e 5 }
    else if fld e 10 2 != 0 || fld e 3 3 != 0 then bad
    else walkFrom s va (fld e 12 40 * 4096) level

/-- The rights an access needs (R103). -/
structure Need where
  rd : Bool
  wr : Bool
  ex : Bool
  deriving DecidableEq, Repr

def Need.load : Need := { rd := true, wr := false, ex := false }
def Need.store : Need := { rd := false, wr := true, ex := false }
def Need.atomic : Need := { rd := true, wr := true, ex := false }
def Need.fetch : Need := { rd := false, wr := false, ex := true }
def Need.met (n : Need) (x : Xlat) : Bool := (!n.rd || x.rd) && (!n.wr || x.wr) && (!n.ex || x.ex)

/-- Translate through the page tables of a context. -/
def State.translate (s : State) (ctx va : Nat) : Except XFail Xlat := walkFrom s (va % 2 ^ 57) (s.ctx ctx).root.toNat 5
/-- Translate and check rights (R103). -/
def State.translateFor (s : State) (ctx : Nat) (n : Need) (va : Nat) : Except XFail Nat :=
  match s.translate ctx va with
  | .error e => .error e
  | .ok x => if n.met x then .ok x.pa else .error { cause := 0x11, malformed := false }

/-- Read `n` bytes by virtual address at home, page by page; fails on the first byte that does not translate. -/
def State.readVirt (s : State) (ctx va : Nat) : Nat → Except XFail (List Byte)
  | 0 => .ok []
  | n + 1 =>
    match s.translateFor ctx .load va with
    | .error e => .error e
    | .ok pa =>
      match s.readVirt ctx (va + 1) n with
      | .error e => .error e
      | .ok rest => .ok (s.homeByte pa :: rest)

/-- Write bytes by virtual address at home; a byte that does not translate for writing is dropped. -/
def writeVirt (ctx va : Nat) : List Byte → Act
  | [] => .skip
  | b :: rest => .seq (.read fun s => match s.translateFor ctx .store va with
      | .ok pa => writeHome pa [b]
      | .error _ => .skip) (writeVirt ctx (va + 1) rest)
/-- A number read by virtual address; 0 where it does not translate. -/
def State.virtNat (s : State) (ctx va n : Nat) : Nat :=
  match s.readVirt ctx va n with
  | .ok bs => natOfBytes bs
  | .error _ => 0

/-! ## Access tables (R111 to R113) -/

/-- The rights a request asks an access table for. -/
structure Ask where
  rd : Bool
  wr : Bool
  at_ : Bool
  deriving DecidableEq, Repr

def Ask.load : Ask := { rd := true, wr := false, at_ := false }
def Ask.store : Ask := { rd := false, wr := true, at_ := false }
def Ask.atomic : Ask := { rd := false, wr := false, at_ := true }

def AccWin.grants (w : AccWin) (q : Ask) (pa n : Nat) : Bool :=
  w.wbase.toNat ≤ pa / 4096 && (pa + n - 1) / 4096 ≤ w.limit.toNat && (!q.rd || w.rd) && (!q.wr || w.wr) && (!q.at_ || w.at_)

def AccWin.closed : AccWin := { wbase := 0, limit := 0, at_ := false, wr := false, rd := false }

/-- Whether one window of the master's row covers the bytes with the rights (R112). Rows from 324 on grant nothing (R111).
[DEDUCED, log 40] -/
def State.granted (s : State) (master : Nat) (q : Ask) (pa n : Nat) : Bool :=
  master < 324 && (List.range 4).any fun w => (Tab.access.val AccWin.closed (master * 4 + w) s).grants q pa n

/-- An address that stands in no target: reserved ranges, unpopulated far offsets, reserved peer offsets, the device's own
fabric window (R66, R113). -/
def State.unmapped (s : State) (pa : Nat) : Bool :=
  if isHbm pa then false
  else if isFar pa then Tab.expander.val 0 (fld pa 40 4 - 1) s ≤ pa % 0x10000000000
  else if isCompanion pa || isManagement pa then false
  else match peerOf pa with
    | some p => 0x90000000000 ≤ peerOffset pa || p == s.dev.devnum.toNat
    | none => true

/-- The live port that a remote request to a sector takes (R438): chosen by address bits from the live ports in ascending order. -/
def State.portOf (s : State) (pa : Nat) : Option Nat :=
  let live := (List.range 18).filter fun n => s.dev.ports.getLsbD n
  live[(fld pa 7 9 ^^^ fld pa 16 9) % live.length]?
/-- Whether a request may be sent to an address of a peer: in the domain, some port live (R113), time within bounds (R439). -/
def State.reachable (s : State) (p pa : Nat) : Bool := s.dev.domen && s.dev.peers.contains p && (s.portOf pa).isSome && s.dev.syncok

/-- The access check of the fourth stage on one physical line (R111 to R113): the cause that fails, if any. -/
def State.accessFault (s : State) (master : Nat) (q : Ask) (pa n : Nat) : Option (BitVec 8) :=
  if s.unmapped pa then some 0x14
  else if isManagement pa && q.at_ then some 0x14
  else if !(s.granted master q pa n) then some 0x14
  else match peerOf pa with
    | some p => if s.reachable p pa then none else some 0x17
    | none => none

/-- Whether the row of a firmware core grants it an access to bytes of memory (R111, R112, R428).
[DEDUCED, log 85] -/
def State.fwMay (s : State) (core : Nat) (q : Ask) (pa n : Nat) : Bool := (s.accessFault (288 + core) q pa n).isNone
/-- Bytes of a context that a firmware core reads, or the cause that a byte does not translate with, or that its row refuses it with
(R112, R353).
[DEDUCED, log 79] -/
def State.readBy (s : State) (core ctx va n : Nat) : Except (BitVec 8) (List Byte) :=
  match s.readVirt ctx va n with
  | .error e => .error e.cause
  | .ok bs =>
    if (List.range ((n + 63) / 64)).all fun i => match s.translateFor ctx .load (va + 64 * i) with
        | .ok pa => s.fwMay core .load (pa / 64 * 64) 64
        | .error _ => true
    then .ok bs else .error 0x14

/-! ## The code text (R24, R38, R39, R356) -/

/-- A line in a core's instruction cache; one with a stale tag never hits (R10, R118).
[DESIGN CHOICE, log 52] -/
def State.codeLine (s : State) (core line : Nat) : Option ILine :=
  match Tab.icache.at (lineKey core line) s with
  | some l => if s.stale (.core core) l.ctx l.inc then none else some l
  | none => none
/-- A sector in the cache ways of a core's cluster; one with a stale tag never hits (R118).
[DESIGN CHOICE, log 51] -/
def State.wayHit (s : State) (core sector : Nat) : Option GWay :=
  match Tab.gways.at (wayKey (clusterOf core) sector) s with
  | some w => if s.stale (.gallery (clusterOf core)) w.ctx w.inc then none else some w
  | none => none
/-- Whether a fetch of a core finds a byte without its home slice (R118). -/
def State.codeHeld (s : State) (core pa : Nat) : Bool := (s.codeLine core (pa / 128)).isSome || (s.wayHit core (sectorOf pa)).isSome
/-- A byte of the text as a core fetches it: from its instruction cache, the cache ways of its cluster, or home (R118); with no core, at
home.
[DESIGN CHOICE, log 52] -/
def State.codeByte (s : State) (core : Option Nat) (pa : Nat) : Byte :=
  match core with
  | none => s.homeByte pa
  | some c => match s.codeLine c (pa / 128) with
    | some l => l.data.extractLsb' (8 * (pa % 128)) 8
    | none => match s.wayHit c (sectorOf pa) with
      | some w => sectorByte w.data (pa % 32)
      | none => s.homeByte pa

/-- `n` bytes of the text from byte offset `pc`, fewer at its end and where a page after the first does not translate for fetch; none when
the first does not. -/
def fetchBytes (s : State) (core : Option Nat) (lau : Launch) (pc n : Nat) : Except XFail (List Byte) :=
  let va := lau.code + lau.textOff + pc
  let n := min n (lau.textSize - pc)
  let k := min n (4096 - va % 4096)
  if n == 0 then .ok []
  else match s.translateFor lau.ctx .fetch va with
    | .error e => .error e
    | .ok pa =>
      let head := (List.range k).map fun i => s.codeByte core (pa + i)
      if k == n then .ok head
      else match s.translateFor lau.ctx .fetch (va + k) with
        | .error _ => .ok head
        | .ok pb => .ok (head ++ (List.range (n - k)).map fun i => s.codeByte core (pb + i))

/-- The instruction length that the first parcel at a text offset gives (R23); 4 where it cannot be read. -/
def lengthAt (s : State) (core : Option Nat) (lau : Launch) (pc : Nat) : Nat :=
  match fetchBytes s core lau (pc + 3) 1 with
  | .ok [b] => if b.toNat < 128 then 4 else if b.toNat < 192 then 12 else 28
  | _ => 4

/-- Instructions in address order from `pc` to `target`, at most `fuel` (R38). -/
def countTo (s : State) (lau : Launch) (target : Nat) : Nat → Nat → Nat
  | 0, _ => 0
  | fuel + 1, pc => if target ≤ pc then 0 else 1 + countTo s lau target fuel (pc + lengthAt s none lau pc)

/-- Entry `k` of the safe-point table (R39): a 4-byte word of it. -/
def spWord (s : State) (lau : Launch) (k w : Nat) : Nat :=
  match s.readVirt lau.ctx (lau.code + lau.spOff + 64 * k + 4 * w) 4 with
  | .ok bs => natOfBytes bs
  | .error _ => 0

/-- The last safe point at or before `pc`, by its ordinal (R38). -/
def ordinalAt (s : State) (lau : Launch) (pc : Nat) : Option Nat :=
  ((List.range lau.spCount).filter fun k => spWord s lau k 0 ≤ pc).getLast?

/-- Ordinal in [23:0] and offset in [31:24] of an instruction (R38, R109). -/
def siteOf (s : State) (lau : Launch) (pc : Nat) : BitVec 32 :=
  match ordinalAt s lau pc with
  | some k => word (min (countTo s lau pc 256 (spWord s lau k 0)) 255 * 2 ^ 24 + k % 2 ^ 24)
  | none => word (min (countTo s lau pc 256 0) 255 * 2 ^ 24 + 0xFFFFFF)

/-- Whether a text offset is a marked entry point (R39). -/
def isEntry (s : State) (lau : Launch) (pc : Nat) : Bool :=
  (List.range lau.spCount).any fun k => spWord s lau k 0 == pc && bitAt (spWord s lau k 1) 1

/-! ## Records of faults (R109, R369) -/

/-- What a record says about the access and the other party. -/
structure Blame where
  kind : Nat
  cause : BitVec 8
  write : Bool
  cls : Nat
  lane : Nat
  size : Nat
  va : Nat
  oslot : Nat
  ocls : Nat
  ostamp : Nat
  deriving DecidableEq, Repr

/-- A trap that no access caused (R369). -/
def Blame.plain (kind : Nat) (cause : BitVec 8) (lane : Nat) : Blame :=
  { kind := kind, cause := cause, write := false, cls := 0, lane := lane, size := 0, va := 0, oslot := 0xFFFF, ocls := 0,
    ostamp := 0 }

/-- The eight words of a record (R109).
[DEDUCED, log 26] -/
def recordOf (b : Blame) (ctx inc slot stamp : Nat) (site win : BitVec 32) : List (BitVec 32) :=
  [ word (b.kind * 2 ^ 28 + ctx * 2 ^ 16 + inc * 256 + b.cause.toNat),
    word (b2n b.write * 2 ^ 25 + b.cls * 2 ^ 22 + b.lane * 2 ^ 16 + slot),
    word (b.va % 2 ^ 32), word (b.size * 2 ^ 26 + b.va % 2 ^ 57 / 2 ^ 32), site,
    word (b.ocls * 2 ^ 16 + b.oslot), word (b.ostamp * 2 ^ 16 + stamp), win ]

/-- The record of a trap of a group at a text offset. -/
def groupRecord (s : State) (g : Nat) (lau : Launch) (pc : Nat) (b : Blame) : List (BitVec 32) :=
  recordOf b lau.ctx lau.inc (slotOf g) (s.stampOf (slotOf g)).toNat (siteOf s lau pc) s.window32

/-! ## Events of the error core (R406, R407) -/

/-- Whether a ring of 2^n records is enabled (R108, R406, R418). -/
def ringOn (n : Nat) : Bool := 8 ≤ n && n ≤ 20

/-- Post a 32-byte event: write it at ERTAIL when there is room, else hold it back (R406), as when the error core's row refuses the write
(R112). -/
def postEvent (ws : List (BitVec 32)) : Act := .read fun s =>
  let d := s.dev
  let n := d.ersize.toNat
  if ringOn n && d.erPost.isEmpty && (d.ertail.toNat + 1) % 2 ^ n != d.erhead.toNat % 2 ^ n &&
      s.fwMay 3 .store (d.erbase.toNat + 32 * (d.ertail.toNat % 2 ^ n)) 32 then
    .seq (writeHomeWords (d.erbase.toNat + 32 * (d.ertail.toNat % 2 ^ n)) ws)
      (.dev fun d => { d with ertail := BitVec.ofNat 20 ((d.ertail.toNat + 1) % 2 ^ n) })
  else if d.erPost.length < 64 then .dev fun d => { d with erPost := d.erPost ++ [ws] }
  else .dev fun d => { d with lost := d.lost + 1 }

/-- A RAS event (R407). -/
structure Ras where
  kind : Nat
  ctx : Nat
  inc : Nat
  cause : Nat
  struct : Nat
  slot : Nat
  pa : Nat
  site : BitVec 32
  unit : Nat
  count : Nat

/-- An event about a structure of a unit, with no access and no context. -/
def Ras.unitOf (kind struct unit count : Nat) : Ras :=
  { kind := kind, ctx := 0, inc := 0, cause := 0, struct := struct, slot := 0xFFFF, pa := 0, site := 0, unit := unit, count := count }
def postRas (r : Ras) : Act := .read fun s =>
  postEvent [word (r.kind * 2 ^ 28 + r.ctx * 2 ^ 16 + r.inc * 256 + r.cause), word (r.struct * 2 ^ 24 + r.slot), word (r.pa % 2 ^ 32),
             word (r.pa / 2 ^ 32), r.site, word r.unit, word r.count, s.window32]

/-! ## Trace (R418 to R420) -/

/-- Whether a context is traced: its trace is enabled, and the debug core holds it (R466). -/
def Ctx.tracing (x : Ctx) : Bool := x.attached && x.tren
def Ctx.traceFull (x : Ctx) : Bool :=
  !ringOn x.trsize.toNat || (x.trtail.toNat + 1) % 2 ^ x.trsize.toNat == x.trhead.toNat % 2 ^ x.trsize.toNat
/-- Whether the next record has no room, or the debug core's row refuses its write (R112). -/
def State.traceShut (s : State) (ctx : Nat) : Bool :=
  let x := s.ctx ctx
  x.traceFull || !s.fwMay 7 .store (x.trbase.toNat + 32 * (x.trtail.toNat % 2 ^ x.trsize.toNat)) 32
/-- Whether a split of the context that would write a record does not issue (R420). -/
def State.traceHeld (s : State) (ctx : Nat) : Bool := let x := s.ctx ctx; x.tracing && (!x.tracePost.isEmpty || s.traceShut ctx)
/-- Write a trace record at TRTAIL. -/
def writeTrace (ctx : Nat) (ws : List (BitVec 32)) : Act := .read fun s =>
  let x := s.ctx ctx
  let n := 2 ^ x.trsize.toNat
  .seq (writeHomeWords (x.trbase.toNat + 32 * (x.trtail.toNat % n)) ws)
    (.updD .ctxs Ctx.init ctx fun x => { x with trtail := BitVec.ofNat 20 ((x.trtail.toNat + 1) % n) })
/-- Post a record, behind those that wait for room: trace is lossless (R420). -/
def postTrace (ctx : Nat) (ws : List (BitVec 32)) : Act := .read fun s =>
  let x := s.ctx ctx
  if !x.tracing then .skip
  else if x.tracePost.isEmpty && !s.traceShut ctx then writeTrace ctx ws
  else .updD .ctxs Ctx.init ctx fun x => { x with tracePost := x.tracePost ++ [ws] }
/-- Write the records that waited, as far as there is room. -/
def flushTrace (ctx : Nat) : Act := .read fun s =>
  .each (s.ctx ctx).tracePost fun ws => .read fun s =>
    if (s.ctx ctx).tracePost.isEmpty || s.traceShut ctx then .skip
    else .seq (.updD .ctxs Ctx.init ctx fun x => { x with tracePost := x.tracePost.tail }) (writeTrace ctx ws)
/-- The words of a trace record (R419). -/
def traceWords (s : State) (kind ctx inc cause core slot : Nat) (site : BitVec 32) (obj value : Nat) : List (BitVec 32) :=
  [s.dev.cycle.extractLsb' 0 32, s.dev.cycle.extractLsb' 32 32, word (kind * 2 ^ 28 + ctx * 2 ^ 16 + inc * 256 + cause),
   word (core * 2 ^ 16 + slot), site, word obj, word value, s.window32]
/-- A record about a group at a text offset. -/
def traceGroup (kind g : Nat) (cause : BitVec 8) (pc value : Nat) : Act := .read fun s =>
  match s.launchOf g with
  | some l => .when (s.ctx l.ctx).tracing
      (postTrace l.ctx (traceWords s kind l.ctx l.inc cause.toNat (coreOf g) (slotOf g) (siteOf s l pc) l.codeId.toNat value))
  | none => .skip

/-! ## Taking a trap and returning from it (R364 to R379) -/

/-- Everything that a trap brings: the stop kind, the failed operation of a late fault, the record, the words of TINFO. -/
structure TrapInfo where
  kind : Nat
  op : Option Nat
  length : Nat
  frame : List (BitVec 32)
  words : List (BitVec 32)
  code : BitVec 32
  origin : BitVec 32

/-- TINFO words 8 to 11 without a task cause (R321). -/
def taskWords (x : Group) : List (BitVec 32) := [x.thandle, word (x.depth % 4), 0xFFFFFFFF, 0]

/-- b15 at entry to a handler (R372). -/
def handlerRecord (h : BitVec 45) (gid : Nat) : BitVec 128 :=
  BitVec.ofNat 128 ((h.toNat * 4096 + 4096 * gid) % 2 ^ 57 + 2 * 2 ^ 60 + 4096 * 2 ^ 64)

/-- Post an event of an error-core cause: kind 3, the record of the trap follows (R407). -/
def postTrapEvent (cause : BitVec 8) (frame : List (BitVec 32)) : Act :=
  postEvent (match frame with
    | w0 :: rest => (word (3 * 2 ^ 28) ||| (w0 &&& 0x0FFFFF00#32) ||| cause.setWidth 32) :: rest
    | [] => [word (3 * 2 ^ 28) ||| cause.setWidth 32])

/-- Start counting the skid of every other split of the block: the hold has reached its core (R375). -/
def startHold (b : Block) (g n : Nat) : Act :=
  .each b.gids fun g' => .each (List.range 4) fun n' =>
    if g' == g && n' == n then .skip else .upd .splits (splitKey g' n') fun x => { x with skid := 0 }

/-- TAKING A TRAP (R370 to R377). Split `n` of group `g`, which would resume at `sp.pc`, enters the handler of its code object:
the shadow saves what TRET restores, b15 is exchanged when HBASE is not zero, the rest of the block is held, and the handler
starts once the split's producers have completed or parked. In a handler it records 0x08 instead; with no handler it stays held.
Either way the error core reports it. -/
def takeTrap (g n : Nat) (sp : Split) (t : TrapInfo) : Act := .read fun s =>
  match s.group? g, s.blockOf g, s.launchOf g with
  | some x, some b, some lau =>
    match x.shadow with
    | some sh =>
      .all [ .put .groups g { x with shadow := some { sh with dead := true } },
             .put .splits (splitKey g n) { sp with wait := .stopped },
             postTrapEvent 0x08 sh.frame, postTrapEvent ((t.frame.headD 0).setWidth 8) t.frame ]
    | none =>
      let hbase := (s.ctx lau.ctx).hbase
      let unhandled := lau.handler == 0xFFFFFFFF
      let swap := hbase != 0 && !unhandled
      let sh : Shadow :=
        { split := n, resume := sp.pc, mask := sp.mask, fmt := sp.fmt, q := x.q,
          b15 := if swap then some (s.breg g 15) else none, kind := t.kind, op := t.op, length := t.length, frame := t.frame,
          words := t.words, code := t.code, origin := t.origin, codeId := lau.codeId, since := s.dev.nextId, dead := unhandled }
      .all [ .put .groups g { x with shadow := some sh },
             .put .splits (splitKey g n)
               (if unhandled then { sp with wait := .stopped }
                else { sp with pc := word lau.handler, wait := .producers, skid := 0, stage := 0, pre := 0 }),
             .when swap (wrB g 15 (handlerRecord hbase g)),
             startHold b g n, traceGroup 3 g ((t.frame.headD 0).setWidth 8) sp.pc.toNat 0,
             .when unhandled (postTrapEvent ((t.frame.headD 0).setWidth 8) t.frame) ]
  | _, _, _ => .skip

namespace Iss

/-- The issuing split traps at its own instruction, with a record of `b` (R364, R371). -/
def trapWith (c : Iss) (b : Blame) (words : List (BitVec 32)) (code origin : BitVec 32) : Act := .read fun s =>
  takeTrap c.gid c.n c.sp
    { kind := 0, op := none, length := c.len, frame := groupRecord s c.gid c.lau c.sp.pc.toNat b, words := words, code := code,
      origin := origin }
/-- A trap that no access caused, at its own instruction (R369). -/
def trap (c : Iss) (cause : BitVec 8) (lane : Nat) : Act :=
  c.trapWith (.plain (if c.len == 4 then 1 else 0) cause lane) (taskWords c.grp) 0 0

end Iss

/-- Whether a group is held because some group of its block is in a handler, or stays stopped after a trap that nobody resumes
(R375). The split that runs the handler is not held. -/
def State.held (s : State) (g n : Nat) : Bool :=
  match s.blockOf g with
  | some b => b.gids.any fun g' => match s.group? g' with
      | some x => match x.shadow with
        | some sh => sh.dead || !(g' == g && sh.split == n)
        | none => false
      | none => false
  | none => false

/-- A context that is pre-empted with save (R381). -/
def State.saving (s : State) (ctx : Nat) : Bool :=
  let x := s.ctx ctx
  x.cstate == 2 && (match x.preempt with | some p => !p.drain | none => false)
/-- Every split of the group must stop: a halt, or a pre-emption. -/
def State.stopping (s : State) (g : Nat) : Bool :=
  match s.group? g, s.launchOf g with
  | some x, some l => x.stop || (x.haltReq.isSome && !x.step) || x.hit.isSome || s.saving l.ctx
  | _, _ => false
def State.mustStop (s : State) (g n : Nat) : Bool := s.held g n || s.stopping g

/-- A wait in which a stop finds its split and leaves it (R300, R322, R337, R375); a WAITC with S clear is none (R199). -/
def Wait.long : Wait → Bool
  | .recv => true
  | .barrier _ _ _ => true
  | .waitc _ _ site => site
  | .roll _ _ => true
  | .parkedTask => true
  | .sleep _ => true
  | .stopped => true
  | _ => false
/-- Whether every split of a group stands in a wait that a stop leaves. -/
def State.allStill (s : State) (g : Nat) : Bool :=
  (s.splitsOf g).all fun n => match s.split? g n with | some x => x.wait.long | none => true
/-- A stop for a save image has reached a group: its copies and tile instructions go no further (R198, R266). -/
def State.frozen (s : State) (g : Nat) : Bool :=
  (match s.launchOf g with | some l => s.saving l.ctx | none => false) && s.allStill g

/-- RETURNING FROM A TRAP (R371, R374): what the shadow saved is restored and the split continues at `pc`. -/
def leaveHandler (c : Iss) (sh : Shadow) (pc : BitVec 32) : Act :=
  .all [ .upd .groups c.gid fun x => { x with shadow := none, q := sh.q },
         .upd .splits c.key fun x => { x with 
           pc := pc, mask := sh.mask, fmt := sh.fmt, wait := .ready,
           pre := if sh.kind == 2 && (sh.frame.headD 0).setWidth 8 == 0x50#8 then 1 else 0 },
         .with? sh.b15 fun b => wrB c.gid 15 b ]

end Sys2Proof.Machine
end

