-- ==== Sys2Proof/Machine/Regs.lean ====
section
/-! DEFINITION. Management space (03_stacks_and_home_slices.md R66, 00_scope.md R5): what its registers read, and where a write of a
master that is granted goes; and the capacities that the registers show (05_gallery.md R118, R119, R134, R136, 00_scope.md R13). -/

namespace Sys2Proof.Machine

open Sys2Proof

/-! ## Rows and capacity (R118, R119, R134, R136) -/

def BankMode.toCode : BankMode → Nat
  | .cache => 0 | .scratch => 1 | .fifo => 2

/-- Rows of a bank that are good at a point (R136).
[DESIGN CHOICE, log 9] -/
def State.goodRows (s : State) (cl bank point : Nat) : Nat :=
  popCount 256 (Tab.rowMasks.val (BitVec.allOnes 256) ((cl * 32 + bank) * 8 + point) s).toNat
/-- The governing point: the point in force, or the lower of the two while a step is in progress (R134). -/
def State.governing (s : State) : Nat := if s.dev.stepState == 0 then s.dev.point else max s.dev.point s.dev.stepTarget

def Cluster.modeOf (c : Cluster) (bank : Nat) : BankMode := (c.modes[bank]?).getD .scratch
def Cluster.scratchBanks (c : Cluster) : List Nat := (List.range 32).filter fun b => c.modeOf b == .scratch

/-- Teams whose windows stand in a cluster. -/
def State.teamsIn (s : State) (cl : Nat) : List (Nat × Team) := s.teams.filter fun e => e.2.cluster == cl && e.2.state != .pending
/-- Allocated rows of a bank. -/
def State.bankAlloc (s : State) (cl bank : Nat) : Nat := ((s.teamsIn cl).map fun e => (e.2.bankRows[bank]?).getD 0).foldl (· + ·) 0
/-- ALLOC, USABLE and FREE in rows (R119, R134). -/
def State.allocRows (s : State) (cl : Nat) : Nat := ((s.teamsIn cl).map fun e => e.2.rows).foldl (· + ·) 0
def State.usableAt (s : State) (cl point : Nat) : Nat :=
  ((s.cluster cl).scratchBanks.map fun b => s.goodRows cl b point).foldl (· + ·) 0
/-- PTCAP: good rows of every bank at a point (R119). -/
def State.ptcap (s : State) (cl point : Nat) : Nat := ((List.range 32).map fun b => s.goodRows cl b point).foldl (· + ·) 0
def State.usable (s : State) (cl : Nat) : Nat := s.usableAt cl s.governing
/-- Free good rows of one bank. -/
def State.bankFree (s : State) (cl bank : Nat) : Nat := s.goodRows cl bank s.governing - s.bankAlloc cl bank
/-- The scratch bank that a GMODE in progress takes out of scratch (R135).
[DESIGN CHOICE, log 55] -/
def State.leavingBank (s : State) (cl : Nat) : Option Nat :=
  (s.cluster cl).gmode.bind fun j => if (s.cluster cl).modeOf j.bank == .scratch && j.mode != .scratch then some j.bank else none
/-- Rows reserved for the evacuation of the bank that a GMODE takes out of scratch (R119, R135). -/
def State.reservedRows (s : State) (cl : Nat) : Nat := match s.leavingBank cl with | some b => s.bankAlloc cl b | none => 0
def State.freeRows (s : State) (cl : Nat) : Nat := s.usable cl - s.allocRows cl - s.reservedRows cl
/-- Rows that a new window may take: free ones, but for those of a bank that leaves scratch. -/
def State.windowRoom (s : State) (cl : Nat) : Nat :=
  s.freeRows cl - (match s.leavingBank cl with | some b => s.bankFree cl b | none => 0)

/-! ## What the blocks of a core hold (R13) -/

def State.blocksOn (s : State) (core : Nat) : List (Nat × Block) := s.blocks.filter fun e => e.2.core == core
/-- Sum over the blocks of a core. -/
def State.sumOn (s : State) (core : Nat) (f : Launch → Nat) : Nat :=
  ((s.blocksOn core).map fun e => match s.launch? e.2.lid with | some l => f l | none => 0).foldl (· + ·) 0
def State.freeLanes (s : State) (core : Nat) : Nat := 4096 - s.sumOn core fun l => l.gpb * l.width
def State.freeLregs (s : State) (core : Nat) : Nat := 131072 - s.sumOn core fun l => l.vregs * l.width * l.gpb
def State.freeTiles (s : State) (core : Nat) : Nat := 128 - s.sumOn core fun l => l.tiles

/-! ## Registers, by offset in management space

Each function gives the 64-bit word at an offset of its block; an offset without a register reads zero, as a reserved field does. -/

/-- Fault ring, GMODEEN and handler area of a context (R108, R135, R372). The replay and convert registers read zero. -/
def Ctx.faultReg (x : Ctx) (o : Nat) : Nat :=
  match o with
  | 0x00 => x.frbase.toNat | 0x08 => x.frsize.toNat | 0x10 => x.frhead.toNat | 0x18 => x.frtail.toNat
  | 0x30 => b2n x.gmodeen | 0x38 => x.hbase.toNat * 4096 | _ => 0
/-- Task table and adoption pool (R302). -/
def Ctx.taskReg (x : Ctx) (o : Nat) : Nat :=
  match o with
  | 0x00 => x.ttbase.toNat | 0x08 => x.ttsize.toNat | 0x10 => x.ttused.toNat | 0x18 => x.aspool.toNat | 0x20 => x.assize.toNat | _ => 0
/-- Context control (R380). -/
def Ctx.controlReg (x : Ctx) (o : Nat) : Nat :=
  match o with
  | 0x00 => x.cstate.toNat * 2 ^ 24 + x.unrecl.toNat * 2 ^ 16 + x.lastkill.toNat * 256 + x.cinc.toNat
  | 0x08 => x.savebase.toNat | 0x10 => x.deadline.toNat | 0x20 => x.pstat.toNat | 0x28 => x.savesize.toNat | _ => 0
/-- The debug block (R412, R418, R421). -/
def Ctx.debugReg (x : Ctx) (o : Nat) : Nat :=
  match o with
  | 0x00 => x.trbase.toNat
  | 0x08 => b2n x.tren * 2 ^ 31 + x.sper.toNat * 256 + x.trsize.toNat
  | 0x10 => x.trhead.toNat | 0x18 => x.trtail.toNat | 0x20 => x.perturb.toNat
  | 0x28 => x.ctLo.toNat % 2 ^ 24 * 2 ^ 40 + x.ctHi.toNat % 2 ^ 24 * 2 ^ 16 + x.ctObj.toNat
  | 0x30 => b2n x.ctEn * 2 ^ 63 + x.ctDelay.toNat % 2 ^ 16
  | 0x38 => x.pmatch.toNat
  | 0x40 => x.prog1.toNat * 2 ^ 32 + x.prog0.toNat
  | 0x48 => x.prog3.toNat * 2 ^ 32 + x.prog2.toNat
  | _ => if 0x80 ≤ o && o < 0xC0 then (x.bps.getD ((o - 0x80) / 8) 0).toNat else 0

/-- Gallery control (R119). -/
def State.galleryReg (s : State) (cl o : Nat) : Nat :=
  let c := s.cluster cl
  match o with
  | 0x000 => (List.range 32).foldl (fun a b => a + (BankMode.toCode (c.modeOf b)) * 4 ^ b) 0
  | 0x008 => s.freeRows cl * 2 ^ 32 + s.allocRows cl * 2 ^ 16 + s.usable cl
  | 0x010 => c.short.toNat * 2 ^ 16 + b2n c.refused * 128 + c.target.toNat * 16 + c.step.toNat
  | _ => if 0x40 ≤ o && o < 0x70 then s.ptcap cl ((o - 0x40) / 8) else 0
/-- Blocks of waiting teams placed toward a core: the Prefect places a team on a cluster (R363), and its blocks count toward the cluster's cores in turn.
[DESIGN CHOICE, log 121] -/
def State.waitingBlocks (s : State) (core : Nat) : Nat :=
  ((s.teams.filter fun e => e.2.state == .pending && e.2.cluster == core / 8).map fun e => match s.launch? e.2.lid with
    | some l => let total := l.gridx * l.gridy * l.gridz
                let n := max l.team 1
                let size := min n (total - e.2.index * n)
                (size + 7 - core % 8) / 8
    | none => 0).sum
/-- The occupancy vector (R362).
[DESIGN CHOICE, log 121] -/
def State.vector (s : State) (core : Nat) : Nat :=
  let k := s.core core
  if !k.service then 0
  else
    let groups := 96 - (Sparse.range (core * 96) (core * 96 + 96) s.groups).length - (k.retired.filter fun r => r.1 < 96).length
    k.tasks.length * 2 ^ 96 + s.waitingBlocks core % 2 ^ 16 * 2 ^ 80 + s.freeTiles core * 2 ^ 72 + s.freeLregs core / 64 * 2 ^ 56 + s.freeLanes core * 2 ^ 40 + groups * 2 ^ 32
/-- Good L1 ways of a core at a point (R141): 16 down to VP2, below it the part's own number, at least the table's.
[DESIGN CHOICE, log 38] -/
def waysAt (core point : Nat) : Nat :=
  match point with
  | 0 | 1 | 2 => 16
  | 3 => max 15 (min 16 (Config.goodWays (core * 8 + 3)))
  | 4 => max 14 (min 16 (Config.goodWays (core * 8 + 4)))
  | p => max 12 (min 16 (Config.goodWays (core * 8 + p)))
/-- L1, matrix status and vector of a core (R142, R274, R362). -/
def State.coreReg (s : State) (core o : Nat) : Nat :=
  let k := s.core core
  match o with
  | 0x00 => k.gen % 2 ^ 24 * 2 ^ 24 + waysAt core s.dev.point
  | 0x08 => k.fovf.toNat * 2 ^ 32 + k.relwb.toNat
  | 0x20 => k.tests.toNat * 2 ^ 32 + k.rate.toNat * 256 + k.fenced.toNat
  | 0x30 => s.vector core % 2 ^ 64
  | 0x38 => s.vector core / 2 ^ 64
  | _ => 0
/-- A roll-call domain (R338). -/
def State.domainReg (s : State) (d o : Nat) : Nat :=
  let x := Tab.domains.val Domain.init d s
  match o with
  | 0x00 => x.quorum.toNat * 2 ^ 32 + b2n x.span * 2 ^ 21 + b2n x.en * 2 ^ 20 + x.inc.toNat * 4096 + x.ctx.toNat
  | 0x08 => x.phase.toNat
  | 0x10 => ((Sparse.range (d * 4096) (d * 4096 + 4096) s.stations).filter fun e => e.2.reg).length
  | 0x20 => x.memb0.toNat | 0x28 => x.memb1.toNat | 0x30 => x.memb2.toNat | _ => 0
/-- A command queue (R348). -/
def Queue.reg (k : Queue) (o : Nat) : Nat :=
  match o with
  | 0x00 => k.qbase.toNat
  | 0x08 => b2n k.en * 2 ^ 31 + b2n k.priv * 2 ^ 30 + k.prio.toNat * 2 ^ 27 + k.size.toNat * 2 ^ 20 + k.inc.toNat * 4096 + k.ctx.toNat
  | 0x10 => k.qhead.toNat | 0x18 => k.qtail.toNat | 0x20 => k.qdone.toNat
  | 0x28 => k.qoff.toNat * 2 ^ 32 + k.qstat.toNat | _ => 0
/-- The error core (R406). -/
def Dev.errorReg (d : Dev) (o : Nat) : Nat :=
  match o with
  | 0x00 => d.erbase.toNat | 0x08 => d.ersize.toNat | 0x10 => d.erhead.toNat | 0x18 => d.ertail.toNat
  | 0x20 => b2n d.uekill * 2 ^ 16 + d.cethr.toNat | 0x28 => d.lost.toNat | _ => 0
/-- A mailbox page (R429). -/
def Mailbox.reg (m : Mailbox) (o : Nat) : Nat :=
  if o == 8 then b2n m.done * 2 + b2n m.busy
  else if 0x100 ≤ o && o < 0x140 then (m.req.getD ((o - 0x100) / 8) 0).toNat
  else if 0x200 ≤ o && o < 0x240 then (m.resp.getD ((o - 0x200) / 8) 0).toNat
  else 0
/-- The fabric (R437). -/
def Dev.fabricReg (d : Dev) (o : Nat) : Nat :=
  match o with
  | 0x00 => b2n d.syncok * 2 ^ 19 + d.wk.toNat * 2 ^ 16 + b2n d.domen * 256 + d.devnum.toNat
  | 0x08 => d.epoch.toNat | 0x10 => d.offset.toNat | 0x18 => d.ports.toNat | _ => 0
/-- The most that the module draws at a point, in W (R442).
[DESIGN CHOICE, log 75] -/
def powerLimit (point : Nat) : Nat :=
  match point with | 0 => 3200 | 1 => 2700 | 2 => 2150 | 3 => 1700 | 4 => 1350 | _ => 1050
/-- Power status and BOOTSTAT (R443, R445).
[DESIGN CHOICE, log 75] -/
def State.powerReg (s : State) (o : Nat) : Nat :=
  match o with
  | 0x000 => (if s.us < 1000 then 0 else min (Config.modulePower (s.us / 1000)) (powerLimit s.dev.point)) * 2 ^ 32 + s.dev.tmax.toNat * 2 ^ 16 + s.dev.point
  | 0x008 => b2n s.dev.hot
  | 0x100 => s.dev.bootFail.toNat * 256 + s.dev.stage.toNat
  | _ => 0
/-- Where the firmware reservations of HBM begin and end (R67): the spill logs, and below them the memory core's tables, 1 GiB.
[DESIGN CHOICE, log 127] -/
def spillBase : Nat := 0x7FE0000000
def spillBytes : Nat := 0x20000000
def tablesBase : Nat := 0x7FA0000000
def tablesBytes : Nat := 0x40000000

/-- Numbers of `w` bits packed into 64-bit words, the first least significant. -/
def packed (w : Nat) (xs : List Nat) : List Nat :=
  let n := 64 / w
  (List.range ((xs.length + n - 1) / n)).map fun i => ((xs.drop (i * n)).take n).foldr (fun x a => x % 2 ^ w + 2 ^ w * a) 0
/-- The bodies of the records of the capability list, by ID (R441): the facts that the spec lists for each, in words of the model's own
layout.
[DEDUCED, log 74] -/
def State.capBody (s : State) (id : Nat) : List Nat :=
  let cores := List.range 256
  match id with
  | 1 => [(Config.identity 0).toNat, (Config.identity 1).toNat, 1, s.dev.devnum.toNat]
  | 2 => ((List.range 6).filter (· < s.dev.pointsOff)).foldl (fun a p => a + 2 ^ p) 0 ::
      packed 16 ((List.range 192).map fun i => s.ptcap (i / 6) (i % 6))
  | 3 => packed 8 ((List.range 1536).map fun i => waysAt (i / 6) (i % 6))
  | 4 => [spillBase, spillBytes, tablesBase, tablesBytes]
  | 5 => packed 1 (cores.map fun c => b2n (s.core c).service) ++ packed 1 ((List.range 32).map fun c =>
        b2n ((List.range 8).any fun k => (s.core (c * 8 + k)).service)) ++
      [s.dev.ports.toNat * 4 + s.dev.ubpen.toNat] ++ packed 4 (cores.map fun c => (s.core c).rate.toNat)
  | 6 => (List.range 8).map fun f => let x := Tab.fws.val FwCore.init f s; x.active.toNat * 2 ^ 32 + x.hand.toNat
  | 7 => (List.range 8).map fun p => (Config.linkWidth p).toNat * 2 ^ 56 + Tab.expander.val 0 p s
  | _ => [s.dev.ports.toNat * 2 ^ 32 + s.dev.wk.toNat * 2 ^ 16 + (s.dev.peers.length + b2n s.dev.domen)]
/-- A record of the list at an offset: its header, then its body.
[DEDUCED, log 74] -/
def capRecord (id at_ : Nat) (last : Bool) (body : List Nat) : List Nat :=
  (id + (Config.capVersion id).toNat * 2 ^ 16 + body.length * 2 ^ 24 + (if last then 0 else at_ + 8 + 8 * body.length) * 2 ^ 32) :: body
/-- The records from an offset on. -/
def capRecords (s : State) : List Nat → Nat → List Nat
  | [], _ => []
  | id :: rest, at_ =>
    let body := s.capBody id
    capRecord id at_ rest.isEmpty body ++ capRecords s rest (at_ + 8 + 8 * body.length)
/-- The capability list (R441): empty until boot has written it (R445); GEN is even, as each change of the list is one step.
[DEDUCED, log 74] -/
def State.capabilityWord (s : State) (o : Nat) : Nat :=
  if s.dev.stage.toNat < 7 then 0
  else if o == 0 then s.dev.capGen % 2 ^ 32 * 2 ^ 32 + 8
  else ((capRecords s [1, 2, 3, 4, 5, 6, 7, 8] 8)[(o - 8) / 8]?).getD 0

/-- The 64-bit register at an offset of management space, a multiple of 8.
[DEDUCED, log 73] -/
def State.register (s : State) (a : Nat) : Nat :=
  let o := a % 2 ^ 24
  match a / 2 ^ 24 with
  | 0x10 => if o < 2 ^ 18 then (s.ctx (o / 64)).faultReg (o % 64) else 0
  | 0x11 =>
    let x := s.ctx (o / 16)
    if o < 2 ^ 16 then (if o % 16 == 0 then x.oabase.toNat else x.oasets.toNat) else 0
  | 0x20 => if o < 32 * 4096 then s.galleryReg (o / 4096) (o % 4096) else 0
  | 0x30 => if o < 256 * 256 then s.coreReg (o / 256) (o % 256) else 0
  | 0x40 => if o < 2 ^ 18 then (s.ctx (o / 64)).taskReg (o % 64) else 0
  | 0x50 => if o < 1024 then s.domainReg (o / 64) (o % 64) else if o == 0x1000 then s.dev.hangthr.toNat else 0
  | 0x60 => if o < 2 ^ 16 then (Tab.queues.val Queue.init (o / 64) s).reg (o % 64) else 0
  | 0x70 => if 64 ≤ o && o < 2 ^ 18 then (s.ctx (o / 64)).controlReg (o % 64) else 0
  | 0x80 => s.dev.errorReg o
  | 0x90 => if o < 2 ^ 20 then (s.ctx (o / 256)).debugReg (o % 256) else 0
  | 0x91 => watchReg s (o / 4096 < 4 && o % 4096 < 256) (o / 4096 * 16 + o % 4096 / 16) o
  | 0x92 => watchReg s (o / 4096 < 32 && o % 4096 < 128) (64 + o / 4096 * 8 + o % 4096 / 16) o
  | 0xA0 => if o < 0x8000 then (Tab.boxes.val Mailbox.init (o / 4096) s).reg (o % 4096)
            else if o < 0x8040 then (Tab.fws.val FwCore.init ((o - 0x8000) / 8) s).hand.toNat else 0
  | 0xB0 => s.dev.fabricReg o
  | 0xC0 => s.powerReg o
  | 0 => s.capabilityWord a
  | _ => 0
where
  /-- A word of a watchpoint (R413). -/
  watchReg (s : State) (ok : Bool) (k o : Nat) : Nat :=
    let w := Tab.watch.val WatchPt.init k s
    if !ok then 0 else if o % 16 == 0 then w.w0.toNat else w.w1.toNat

def mgmtBase : Nat := 0xF000000000000

/-- A byte as a read of its target sees it. -/
def State.outerByte (s : State) (pa : Nat) : Byte :=
  if isManagement pa then BitVec.ofNat 8 (s.register ((pa - mgmtBase) / 8 * 8) / 256 ^ (pa % 8)) else s.homeByte pa
/-- A sector of a target without a home slice: registers of management space, else memory. -/
def State.outerSector (s : State) (sector : Nat) : BitVec 256 :=
  if isManagement (sector * 32) then
    (List.range 4).foldl (fun a i => a ||| BitVec.ofNat 256 (s.register (sector * 32 - mgmtBase + 8 * i) % 2 ^ 64 * 2 ^ (64 * i))) 0
  else s.sectorAt sector

/-! ## Writes to management space -/

/-- The bits of the masked bytes of a register. -/
def byteBits (m : BitVec 8) : BitVec 64 :=
  (List.range 8).foldl (fun a i => if m.getLsbD i then a ||| BitVec.ofNat 64 (0xFF * 256 ^ i) else a) 0
/-- A register after a write of some of its bytes. -/
def putBytes (old v : BitVec 64) (m : BitVec 8) : BitVec 64 := (old &&& ~~~(byteBits m)) ||| (v &&& byteBits m)

/-- The step that a write of the masked bytes of a register by a master is. Registers that only a firmware core writes drop it (R5). -/
def registerEvent (master a : Nat) (v : BitVec 64) (m : BitVec 8) : Instr :=
  let o := a % 2 ^ 24
  let whole (n : Nat) : Bool := m.setWidth n == BitVec.allOnes n
  let w := v &&& byteBits m
  match a / 2 ^ 24 with
  | 0x10 =>
    if 2 ^ 18 ≤ o then .registerWrite master a ⟨v, m⟩
    else match o % 64 with
    | 0x10 => if whole 3 then .frheadWrite master (o / 64) (v.setWidth 20) else .registerWrite master a ⟨v, m⟩
    | 0x20 => if w.getLsbD 0 then .replay (o / 64) else .registerWrite master a ⟨v, m⟩
    | 0x28 => .convert (o / 64) (w.setWidth 16)
    | _ => .registerWrite master a ⟨v, m⟩
  | 0x60 => if o < 2 ^ 16 && o % 64 == 0x18 && whole 4 then .doorbell master (o / 64) (v.setWidth 32) else .registerWrite master a ⟨v, m⟩
  | 0x80 => if o == 0x10 && whole 3 then .erheadWrite master (v.setWidth 20) else .registerWrite master a ⟨v, m⟩
  | 0x90 => if o < 2 ^ 20 && o % 256 == 0x10 && whole 3 then .trheadWrite master (o / 256) (v.setWidth 20) else .registerWrite master a ⟨v, m⟩
  | _ => .registerWrite master a ⟨v, m⟩

/-- A master writes `n` bytes at an address of management space, within one register.
[DEDUCED, log 73] -/
def writeMgmt (master pa n v : Nat) : Act :=
  .due [registerEvent master ((pa - mgmtBase) / 8 * 8) (BitVec.ofNat 64 (v % 2 ^ (8 * n) * 256 ^ (pa % 8)))
    (BitVec.ofNat 8 ((2 ^ n - 1) * 2 ^ (pa % 8)))]

/-- A master writes the masked bytes of a sector of a target without a home slice: the registers of management space one by one, else
memory. -/
def writeOuter (master sector : Nat) (m : BitVec 32) (d : BitVec 256) : Act :=
  if isManagement (sector * 32) then
    .each (List.range 4) fun i =>
      let bytes := (List.range 8).filter fun b => m.getLsbD (8 * i + b)
      match bytes.head? with
      | some b => writeMgmt master (sector * 32 + 8 * i + b) bytes.length (d.toNat / 2 ^ (8 * (8 * i + b)))
      | none => .skip
  else writeSector sector m d

/-- Write bytes at physical addresses, in order; those of one register of management space at once.
[DEDUCED, log 5] -/
def writeBytesAt (master : Nat) (xs : List (Nat × Byte)) : Act :=
  let regs := xs.filter fun x => isManagement x.1
  .seq (.each (xs.filter fun x => !isManagement x.1) fun x => writeHome x.1 [x.2])
    (.each (regs.filter fun x => !(regs.any fun y => y.1 / 8 == x.1 / 8 && y.1 < x.1)) fun x =>
      let mine := regs.filter fun y => y.1 / 8 == x.1 / 8
      writeMgmt master x.1 mine.length (mine.foldl (fun a y => a + y.2.toNat * 256 ^ (y.1 - x.1)) 0))

end Sys2Proof.Machine
end

