-- ==== Sys2Proof/Machine/Record.lean ====
section
/-! DEFINITION. What an access leaves beside its effect: escapes (18_reliability.md R400), watchpoint hits (19_debug_and_replay.md R413 to
R415), and the replay journal (R423 to R426). -/

namespace Sys2Proof.Machine

open Sys2Proof

/-! ## Escapes (R400) -/

/-- The block of a group has escaped since its last landing. -/
def escape (g : Nat) : Act := .read fun s =>
  match s.group? g with
  | some x => .upd .blocks x.bid fun b => { b with escaped := true }
  | none => .skip

/-! ## Watchpoints (R413 to R415) -/

/-- The kind of an access: read, write or atomic. -/
inductive Touch where
  | read | write | atomic
  deriving DecidableEq, Repr

/-- One access of a lane: lane, address or window offset, bytes. -/
structure Span where
  lane : Nat
  va : Nat
  n : Nat
  deriving DecidableEq, Repr

def WatchPt.scope (w : WatchPt) : Nat := let c := fld w.w1.toNat 61 2; if c == 3 then 0 else c
def WatchPt.len (w : WatchPt) : Nat := fld w.w1.toNat 0 5
/-- Enabled, of the context, for this kind of access, and aligned. -/
def WatchPt.armed (w : WatchPt) (ctx maxLen addr : Nat) (t : Touch) : Bool :=
  w.w1.getLsbD 63 && fld w.w1.toNat 32 12 == ctx && w.len ≤ maxLen && addr % 2 ^ w.len == 0 &&
  (match t with | .read => w.w1.getLsbD 58 | .write => w.w1.getLsbD 59 | .atomic => w.w1.getLsbD 60)
/-- The lowest lane that touches a byte of a range. -/
def firstSpan (base len : Nat) : List Span → Option Span
  | [] => none
  | x :: rest =>
    let r := firstSpan base len rest
    if x.va < base + 2 ^ len && base < x.va + x.n then
      (match r with | some y => if y.lane < x.lane then some y else some x | none => some x)
    else r

/-- A stop for the debug core that a group takes at its next safe point; a group that is halted records it without a second stop
(R415). -/
def requestHalt (g : Nat) (q : HaltReq) : Act :=
  .upd .groups g fun x => match x.halt with
    | some h => { x with halt := some { h with cause := q.cause, tag := q.tag, frame := if q.frame.isEmpty then h.frame else q.frame } }
    | none => if x.haltReq.isSome then x else { x with haltReq := some q }

/-- An access of a group, of operation `op`, has hit a watchpoint (R415): one instruction reports one hit, the lowest-numbered die watchpoint
before any Gallery watchpoint.
[DEDUCED, log 114] -/
def noteHit (g : Nat) (op : Option Nat) (q : HaltReq) : Act :=
  .upd .groups g fun x => match x.hit with
    | some old => if op.isSome && x.hitOp == op && q.tag.toNat < old.tag.toNat then { x with hit := some q } else x
    | none => { x with hit := some q, hitOp := op }
/-- The instruction of a hit has completed (R415). -/
def State.hitEnded (s : State) (x : Group) : Bool :=
  match x.hitOp.bind fun id => Tab.ops.at id s with
  | some o => o.phase == .done || o.phase == .failed
  | none => true

/-- The lowest-numbered die watchpoint that accesses hit, in a context that the debug core holds (R466). -/
def State.dieHit (s : State) (die ctx : Nat) (t : Touch) (xs : List Span) : Option (Nat × WatchPt × Span) :=
  if !(s.ctx ctx).attached then none else (List.range 16).findSome? fun n =>
    let w := Tab.watch.val WatchPt.init (die * 16 + n) s
    let base := fld w.w0.toNat 0 57
    if w.armed ctx 21 base t then (firstSpan base w.len xs).map fun x => (n, w, x) else none

/-- Accesses of a group's operation by virtual address have been performed by a unit of a die (R414). `frame` gives the record for a lane and
an address. -/
def watchDie (g : Nat) (op : Option Nat) (die ctx : Nat) (t : Touch) (xs : List Span) (frame : Nat → Nat → List (BitVec 32)) : Act := .read fun s =>
  match s.dieHit die ctx t xs with
  | some (n, w, x) => noteHit g op { cause := 0x51, tag := word n, scope := w.scope, frame := frame x.lane x.va, also := none }
  | none => .skip

/-- Accesses of a group's operation to a team's window have been performed at a cluster's Gallery control (R414). -/
def watchGallery (g : Nat) (op : Option Nat) (t : Nat) (k : Touch) (xs : List Span) (frame : Nat → Nat → List (BitVec 32)) : Act := .read fun s =>
  match s.team? t with
  | none => .skip
  | some team =>
    match s.launch? team.lid with
    | none => .skip
    | some l =>
      let hit := (List.range 8).findSome? fun n =>
        let w := Tab.watch.val WatchPt.init (64 + team.cluster * 8 + n) s
        let base := fld w.w0.toNat 0 23
        if (s.ctx l.ctx).attached && w.armed l.ctx 10 base k && fld w.w1.toNat 24 8 == team.lid % 256 && fld w.w0.toNat 24 33 == team.index then
          (firstSpan base w.len xs).map fun x => (n, w, x)
        else none
      match hit with
      | some (n, w, x) => noteHit g op { cause := 0x51, tag := word (0x20 + n), scope := w.scope, frame := frame x.lane x.va,
                                         also := some team.cluster }
      | none => .skip

/-! ## The replay journal (R423 to R426) -/

/-- Whether a launch keeps a journal. -/
def Launch.journals (l : Launch) : Bool := l.flags.getLsbD 2
/-- Read a field of the journal's header.
[DEDUCED, log 48] -/
def jField (s : State) (l : Launch) (off n : Nat) : Nat := s.virtNat l.ctx (l.journal + off) n
/-- Whether the journal is replayed. -/
def State.replays (s : State) (l : Launch) : Bool := l.journals && jField s l 0 4 == 1

/-- A journaled event: bytes 0 to 7, actor, sequence number, bytes 16 to 23. -/
structure JEvent where
  head : Nat
  linear : Nat
  gidx : Nat
  jseq : Nat
  w16 : Nat
  w20 : Nat
  deriving DecidableEq, Repr

/-- Record `i` of a journal. -/
def jRead (s : State) (l : Launch) (i : Nat) : JEvent :=
  let p := l.journal + jField s l 32 8 + 32 * i
  let w12 := s.virtNat l.ctx (p + 12) 4
  { head := s.virtNat l.ctx p 8, linear := s.virtNat l.ctx (p + 8) 4, gidx := fld w12 28 4, jseq := fld w12 0 28,
    w16 := s.virtNat l.ctx (p + 16) 4, w20 := s.virtNat l.ctx (p + 20) 4 }
/-- The bytes of a record. -/
def JEvent.bytes (e : JEvent) : List Byte :=
  bytesOfNat 8 e.head ++ bytesOfNat 4 e.linear ++ bytesOfNat 4 (e.gidx * 2 ^ 28 + e.jseq % 2 ^ 28) ++ bytesOfNat 4 e.w16 ++
  bytesOfNat 4 e.w20 ++ bytesOfNat 8 0
/-- Two records of one object: for a task claim the object is the TSPAWN that created it. -/
def JEvent.sameObject (a b : JEvent) : Bool :=
  a.head == b.head && (a.head / 2 ^ 60 != 2 || (a.w16 == b.w16 && a.w20 == b.w20)) && (a.head / 2 ^ 60 != 3 || a.w16 == b.w16)
def JEvent.sameActor (a b : JEvent) : Bool := a.linear == b.linear && a.gidx == b.gidx && a.jseq == b.jseq

/-- Append a record, or set FULL (R424). -/
def jAppend (l : Launch) (e : JEvent) : Act := .read fun s =>
  let used := jField s l 16 8
  if used < jField s l 8 8 then
    .seq (writeVirt l.ctx (l.journal + jField s l 32 8 + 32 * used) e.bytes)
      (writeVirt l.ctx (l.journal + 16) (bytesOfNat 8 (used + 1)))
  else writeVirt l.ctx (l.journal + 40) [BitVec.ofNat 8 (jField s l 40 1) ||| 1]

/-- The records of a replayed journal that have not been performed. -/
def jPending (s : State) (l : Launch) (lid : Nat) : List Nat :=
  (List.range (jField s l 16 8)).filter fun i => !(Tab.jdone.val false (lid * 2 ^ 40 + i) s)

/-- Whether the actor of a record can still produce it: it has not ended, and its sequence has not passed (R425). -/
def State.canProduce (s : State) (lid : Nat) (l : Launch) (e : JEvent) : Bool :=
  match s.blocks.find? fun b => b.2.lid == lid && b.2.linear == e.linear with
  | some b => b.2.gids.any fun g => match s.group? g with
      | some x => x.gidx == e.gidx &&
          (x.jseq ≤ e.jseq || (s.opsOf g).any fun o => o.2.phase != .done && o.2.jseq ≤ e.jseq && e.jseq < o.2.jseq + 64)
      | none => false
  | none => l.nextTeam ≤ e.linear / max l.team 1 || (s.ctx l.ctx).savedBlocks.any fun b => b.lid == lid && b.linear == e.linear

/-- The key of an object of a launch's journal that is enforced no more (R425). -/
def stoppedKey (lid : Nat) (e : JEvent) : Nat :=
  2 ^ 300 + (lid * 2 ^ 64 + e.head) * 2 ^ 64 + (match e.head / 2 ^ 60 with | 2 => e.w16 * 2 ^ 32 + e.w20 | 3 => e.w16 | _ => 0)
/-- DIVERGED is set and reported, and the object's records are enforced no more (R425). -/
def jDiverge (l : Launch) (lid : Nat) (e : JEvent) : Act := .read fun s =>
  .all [ .put .jdone (stoppedKey lid e) true,
         .each ((jPending s l lid).filter fun i => (jRead s l i).sameObject e) fun i => .put .jdone (lid * 2 ^ 40 + i) true,
         writeVirt l.ctx (l.journal + 40) [BitVec.ofNat 8 (jField s l 40 1) ||| 2],
         postEvent [word (12 * 2 ^ 28 + l.ctx * 2 ^ 16 + l.inc * 256), 0xFFFF, word (l.journal % 2 ^ 32), word (l.journal / 2 ^ 32), 0, 0, 0,
                    s.window32] ]

/-- May an event be performed now? -/
inductive JAns where
  | go (a : Act)
  | hold

/-- A journaled event at its home: recorded, or held until its turn (R424, R425). -/
def journalAsk (s : State) (lid : Nat) (l : Launch) (e : JEvent) : JAns :=
  if !l.journals then .go .skip
  else if !s.replays l then .go (jAppend l e)
  else match (jPending s l lid).find? fun i => (jRead s l i).sameObject e with
    | none => if jField s l 40 1 % 2 != 0 || e.head / 2 ^ 60 == 3 || Tab.jdone.val false (stoppedKey lid e) s then .go .skip
      else .go (jDiverge l lid e)
    | some i =>
      if (jRead s l i).sameActor e then .go (.put .jdone (lid * 2 ^ 40 + i) true)
      else if s.canProduce lid l (jRead s l i) then .hold
      else .go (jDiverge l lid e)

end Sys2Proof.Machine
end

