-- ==== Sys2Proof/Machine/Intervals.lean ====
section
/-! DEFINITION. Interval ends (R147, R168 to R170), what a release and an acquire do to the L1 (R148 to R152), quarters of
stamps (R91, R92, R128), the window rule (R183), and late faults (R43, R197). -/

namespace Sys2Proof.Machine

open Sys2Proof

/-! ## L1 lines (R140) -/

def L1Sector.empty : L1Sector := { data := 0, valid := 0, dirty := 0, pending := 0, stamp := 0 }

def L1Line.sec (l : L1Line) (i : Nat) : L1Sector :=
  match i with | 0 => l.s0 | 1 => l.s1 | 2 => l.s2 | _ => l.s3
def L1Line.setSec (l : L1Line) (i : Nat) (x : L1Sector) : L1Line :=
  match i with | 0 => { l with s0 := x } | 1 => { l with s1 := x } | 2 => { l with s2 := x } | _ => { l with s3 := x }
def L1Line.mapSec (l : L1Line) (f : L1Sector → L1Sector) : L1Line :=
  { l with s0 := f l.s0, s1 := f l.s1, s2 := f l.s2, s3 := f l.s3 }

/-- The lines of a core, with their physical line numbers. -/
def State.l1Lines (s : State) (core : Nat) : List (Nat × L1Line) :=
  (Sparse.range (lineKey core 0) (lineKey (core + 1) 0) s.l1).map fun e => (e.1 - lineKey core 0, e.2)

/-- The dirty sectors of a line that is not stale: sector, dirty bytes, data (R140). -/
def dirtySectors (s : State) (core line : Nat) (l : L1Line) : List (Nat × BitVec 32 × BitVec 256) :=
  if s.stale (.core core) l.ctx l.inc then []
  else ((List.range 4).map fun i => (line * 4 + i, (l.sec i).dirty, (l.sec i).data)).filter fun x => x.2.1 != 0

/-- Send the dirty bytes of a line towards their home slices; they stay valid and become clean (R151). -/
def writeBackLine (core line : Nat) (l : L1Line) : Act := .read fun s =>
  .seq
    (.each (dirtySectors s core line l) fun x => .fresh fun id =>
      .seq (.put .wbs id { core := core, sector := x.1, mask := x.2.1, data := x.2.2, ctx := l.ctx, inc := l.inc })
        (.due [.writeBack (.fromL1 id)]))
    (.put .l1 (lineKey core line) (l.mapSec fun x => { x with dirty := 0 }))

/-- Write back every dirty byte of a core's L1 (R151). -/
def writeBackCore (core : Nat) : Act := .read fun s =>
  .each ((s.l1Lines core).filter fun e => !(dirtySectors s core e.1 e.2).isEmpty) fun e => writeBackLine core e.1 e.2

/-- How many dirty sectors a core's L1 holds. -/
def State.dirtyCount (s : State) (core : Nat) : Nat :=
  ((s.l1Lines core).map fun e => (dirtySectors s core e.1 e.2).length).foldl (· + ·) 0

/-- A write-back reaches its home slice, which merges its bytes, or drops them when their tag is stale there (R70 to R72). -/
def landWriteBack (id : Nat) (b : WriteBk) : Act := .read fun s =>
  .seq (.when (!s.stale (.slice (homeSlice (b.sector * 32))) b.ctx b.inc) (writeSector b.sector b.mask b.data)) (.del .wbs id)
/-- Whether a core has a write-back in flight. -/
def State.writingBack (s : State) (core : Nat) : Bool := s.wbs.any fun e => e.2.core == core
/-- Every write-back of a core reaches its home. -/
def landCore (core : Nat) : Act := .read fun s => .each (s.wbs.filter fun e => e.2.core == core) fun e => landWriteBack e.1 e.2

/-! ## Acquire (R148 to R150) -/

/-- The generation would pass 0xFF_FFFF: write back every dirty byte at once, behind the write-backs in flight, drop every line without the RO flag, and start
again at generation 0 with every resident group's valid-after at 0 (R150).
[DEDUCED, log 39] -/
def generationWrap (core : Nat) : Act := .read fun s =>
  .all [ landCore core, .each (s.l1Lines core) fun e => .each (dirtySectors s core e.1 e.2) fun x => .read fun s =>
           .when (!s.stale (.slice (homeSlice (x.1 * 32))) e.2.ctx e.2.inc) (writeSector x.1 x.2.1 x.2.2),
         .each (s.l1Lines core) fun e =>
           if e.2.ro then .put .l1 (lineKey core e.1) (e.2.mapSec fun x => { x with dirty := 0 }) else .del .l1 (lineKey core e.1),
         .updD .cores CoreRec.init core fun k => { k with gen := 0 },
         .each (Sparse.range (core * 96) (core * 96 + 96) s.groups) fun e => .put .groups e.1 { e.2 with va := 0 } ]

/-- An acquire at scope team or wider: G := G + 1, then VA := G for the group (R148). -/
def acquireAct (g : Nat) : Act := .read fun s =>
  let core := coreOf g
  .seq (.when ((s.core core).gen == 0xFFFFFF) (generationWrap core))
    (.read fun s =>
      let gen := (s.core core).gen + 1
      .seq (.put .cores core { s.core core with gen := gen }) (.upd .groups g fun x => { x with va := gen }))

def Scope.wide : Scope → Bool
  | .blk => false | _ => true

def acquireAt (g : Nat) (sc : Option Scope) : Act :=
  match sc with
  | some c => .when (Scope.wide c) (acquireAct g)
  | none => .skip

/-! ## Interval counters and their quarters (R78, R91, R92, R124, R128) -/

/-- The units that a quarter notice goes to: every slice and every Gallery control (R91). -/
def noticeUnits : List NoticeUnit := (List.range 64).map .slice ++ (List.range 32).map .gallery

/-- Advance a slot's interval counter; a stamp that enters a new quarter sends its notice (R91).
[DEDUCED, log 47] -/
def advanceSlot (slot : Nat) : Act := .read fun s =>
  let v := s.icountOf slot + 1
  let st := v.toNat % 65536
  .seq (.put .icount slot v)
    (if st % 16384 == 0 then
      .seq (.put .notices (slot * 4 + st / 16384) { slot := slot, quarter := st / 16384, left := noticeUnits, handled := [] })
        (.due (noticeUnits.map fun u => .quarterNotice slot u))
     else .skip)

/-- Whether the slot's next stamp may be entered: no notice of the opposite quarter is unacknowledged (R92).
[DEDUCED, log 47] -/
def State.mayAdvance (s : State) (slot : Nat) : Bool :=
  let st := ((s.icountOf slot).toNat + 1) % 65536
  st % 16384 != 0 || (Tab.notices.at (slot * 4 + (st / 16384 + 2) % 4) s).isNone

/-- The team-local slot of a group (R124). -/
def tslotOf (l : Launch) (b : Block) (x : Group) : Nat := b.linear % (max l.team 1) % 8 * 64 + x.gidx % 32
/-- The team-local slot of an engine slot of a block (R124). -/
def tslotOfEngine (l : Launch) (b : Block) (slot : Nat) : Nat := b.linear % (max l.team 1) % 8 * 64 + 32 + (localOfSlot slot - 96) % 32

/-- Advance a team-local counter (R124). -/
def advanceTslot (t k : Nat) : Act := .read fun s =>
  let v := Tab.teamCnt.val 0 (t * 512 + k) s
  let w := BitVec.ofNat 16 ((v.toNat + 1) % 4096)
  .seq (.put .teamCnt (t * 512 + k) w) (.when (w.toNat % 1024 == 0) (.put .tscan (t * 512 + k) false))

/-- Whether a team-local counter may advance (R128). -/
def State.mayAdvanceT (s : State) (t k : Nat) : Bool :=
  (Tab.teamCnt.val 0 (t * 512 + k) s).toNat % 1024 != 1023 || Tab.tscan.val false (t * 512 + k) s

/-- END OF A GROUP'S INTERVAL (R147): the filter is cleared and the counters advance.
[DEDUCED, log 24; DEDUCED, log 46] -/
def endInterval (g : Nat) : Act := .read fun s =>
  match s.group? g, s.blockOf g, s.launchOf g with
  | some x, some b, some l =>
    .all [ .clear .filter (g * 2 ^ 47) ((g + 1) * 2 ^ 47),
           .when x.overflowed (.updD .cores CoreRec.init (coreOf g) fun k => { k with fovf := k.fovf + 1 }),
           .put .groups g { x with overflowed := false },
           advanceSlot (slotOf g),
           advanceTslot b.tid (tslotOf l b x) ]
  | _, _, _ => .skip

/-! ## What an interval end waits for -/

/-- Whether an operation still has an access or a registration without an answer: `waiting` for one that the journal holds at its home
(R425), or that is to be rolled back; an MMA until its checks are done (R259), a TLOAD until it has read (R271). -/
def Op.unanswered (o : Op) : Bool :=
  match o.phase with
  | .walking => o.path != some 3 && o.path != some 4
  | .waiting => o.path != some 3 && o.path != some 4
  | .checking => o.path != some 3
  | .responding => true
  | .running => (match o.instr with | .tload _ => o.unf != 0 | _ => false)
  | _ => false

/-- A tile instruction that a failed one of its block keeps from beginning: it has no access yet that an interval end could wait for (R265). -/
def State.tileHeld (s : State) (id : Nat) (o : Op) : Bool :=
  o.path == some 4 && s.ops.any fun e => e.1 < id && e.2.bid == o.bid && e.2.path == some 4 && e.2.phase == .failed
/-- Whether an operation is a parked access of the group's program: a release comes after it (R154). -/
def Op.unperformed (o : Op) : Bool :=
  o.phase == .parked && o.path != some 3 && (match o.instr with | .tdrain _ => false | _ => true)

/-- Whether a late fault is kept until TRET: the operation was issued before its group entered its handler (R377). -/
def State.kept (s : State) (g id : Nat) : Bool :=
  match (s.group? g).bind (·.shadow) with
  | some sh => id < sh.since
  | none => false

/-- The oldest failed operation of a group that an interval end, or a stop, must report.
[DEDUCED, log 46] -/
def State.failedOp (s : State) (g : Nat) : Option (Nat × Op) := (s.opsOf g).find? fun e => e.2.phase == .failed && !s.kept g e.1

/-- What stands between an instruction and its interval end. -/
inductive Gate where
  | go
  | late (id : Nat) (o : Op)
  | flush
  | stall (w : Wait)

/-- The gate of an interval end (R147, R92, R128) with a release at `rel` (R151, R172, R183). `stage` 1 means that the write-backs
of the release have been sent; those of the core that are in flight already are waited for too.
[DEDUCED, log 24; DEDUCED, log 39; DEDUCED, log 44] -/
def State.gate (s : State) (c : Iss) (rel : Option Scope) : Gate :=
  match s.failedOp c.gid with
  | some (id, o) => .late id o
  | none =>
    if (s.opsOf c.gid).any fun e => (e.2.unanswered && !s.tileHeld e.1 e.2) || (rel.isSome && e.2.unperformed) then .stall .registrations
    else
      let wide := match rel with | some x => Scope.wide x | none => false
      if wide && c.sp.stage == 0 && (s.dirtyCount c.core != 0 || s.writingBack c.core) then .flush
      else if wide && c.sp.stage == 1 && c.grp.relPending then .stall .writebacks
      else if !s.mayAdvance c.slot || !s.mayAdvanceT c.tid (tslotOf c.lau c.blk c.grp) then .stall .quarter
      else match rel, c.grp.nlast with
        | some .sys, some n => if s.dev.window < n + 2 then .stall (.windowRule n) else .go
        | _, _ => .go

/-- A late fault: the split stops before its instruction with stop kind 1 (R43, R373).
[DEDUCED, log 46; DEDUCED, log 109] -/
def lateTrap (c : Iss) (id : Nat) (o : Op) : Act :=
  match o.fail with
  | some f => takeTrap c.gid c.n c.sp { kind := 1, op := some id, length := 0, frame := f.frame, words := f.words, code := 0,
                                        origin := f.origin }
  | none => .skip

namespace Iss

/-- Do `k` when the gate of an interval end is open; else wait, send the write-backs, or take a late fault. -/
def gated (c : Iss) (rel : Option Scope) (k : Act) : Act := .read fun s =>
  match s.gate c rel with
  | .go => k
  | .late id o => lateTrap c id o
  | .flush =>
    .all [ .updD .cores CoreRec.init c.core fun x => { x with relwb := x.relwb + BitVec.ofNat 32 (s.dirtyCount c.core) },
           writeBackCore c.core, .upd .groups c.gid fun x => { x with relPending := true },
           .due [.releaseWritebackAck c.gid], c.stallAt 1 .writebacks ]
  | .stall w => .seq (c.stall w) (.when (w == .quarter) (.due [.scratchScan (clusterOf c.core)]))

/-- An instruction that ends the interval: gate, issue, release and acquire effects, then its own effect. A sys release clears
N_last (R183). -/
def ending (c : Iss) (rel acq : Option Scope) (k : Act) : Act :=
  c.gated rel
    (.all [ c.advance, endInterval c.gid, acquireAt c.gid acq,
            .when (match rel with | some x => Scope.wide x | none => false) (escape c.gid),
            .when (rel == some .sys) (.upd .groups c.gid fun x => { x with nlast := none }), k ])

end Iss

/-- RELEASE_WRITEBACK_ACK (R151): when no write-back of the group's core is in flight, the release may go on.
[DEDUCED, log 39] -/
def releaseAck (g : Nat) : Act := .read fun s =>
  if s.writingBack (coreOf g) then .due [.releaseWritebackAck g]
  else .upd .groups g fun x => { x with relPending := false }

end Sys2Proof.Machine
end

