-- ==== Sys2Proof/Machine/Slice.lean ====
section
/-! DEFINITION. The home slices: mark records, liveness and probes, the registration check and its merge, spill and overflow,
quarter reclaim, page purge and page move (R77 to R95). -/

namespace Sys2Proof.Machine

open Sys2Proof

/-! ## Mark classes (R79, R80, R166) -/

def mcRead : BitVec 3 := 0
def mcWrite : BitVec 3 := 1
def mcSync : BitVec 3 := 2
def mcAdd : BitVec 3 := 3
def mcLogic : BitVec 3 := 4
def mcSwap : BitVec 3 := 5
def mcPeek : BitVec 3 := 6

/-- The mark class of an access by its class field, and whether it writes (R166). -/
def markClass (c : Cls) (write : Bool) : BitVec 3 :=
  match c with
  | .data => if write then mcWrite else mcRead
  | .sync => mcSync
  | .add => mcAdd
  | .logic => mcLogic
  | .swap => mcSwap
  | .peek => mcPeek

/-- The table of R80: the cause of a conflict between a new and a recorded class, none for a compatible pair. -/
def clash (new old : Nat) : Option (BitVec 8) :=
  match new, old with
  | 0, 0 => none | 0, 1 => some 0x20 | 0, 6 => none | 0, _ => some 0x21
  | 1, 0 => some 0x20 | 1, 1 => some 0x20 | 1, _ => some 0x21
  | 2, 0 => some 0x21 | 2, 1 => some 0x21 | 2, 2 => none | 2, 6 => none | 2, _ => some 0x23
  | 3, 0 => some 0x21 | 3, 1 => some 0x21 | 3, 2 => some 0x23 | 3, 3 => none | 3, 6 => none | 3, _ => some 0x22
  | 4, 0 => some 0x21 | 4, 1 => some 0x21 | 4, 2 => some 0x23 | 4, 4 => none | 4, 6 => none | 4, _ => some 0x22
  | 5, 0 => some 0x21 | 5, 1 => some 0x21 | 5, 2 => some 0x23 | 5, 5 => none | 5, 6 => none | 5, _ => some 0x22
  | 6, 1 => some 0x21 | 6, _ => none
  | _, _ => none

/-! ## Mark records as bits (R81) -/

def MarkRec.empty : MarkRec := { slot := 0, stamp := 0, mask := 0, cls := 0, ovf := false, valid := false }
def MarkRec.bits (r : MarkRec) : BitVec 48 :=
  r.slot ++ r.stamp ++ r.mask ++ r.cls ++ BitVec.ofBool r.ovf ++ BitVec.ofBool r.valid ++ 0#3
def MarkRec.ofBits (w : BitVec 48) : MarkRec :=
  { slot := w.extractLsb' 32 16, stamp := w.extractLsb' 16 16, mask := w.extractLsb' 8 8, cls := w.extractLsb' 5 3,
    ovf := w.getLsbD 4, valid := w.getLsbD 3 }

/-- Whether a slot is a fabric peer's (R77). -/
def isPeerSlot (slot : Nat) : Bool := 0x8100 ≤ slot && slot < 0x8100 + 144

/-! ## Liveness (R83, R84) -/

/-- What the owner of a group or engine slot answers a probe: live when its occupant belongs to the context under its live
incarnation and its counter's low 16 bits are the stamp (R83). -/
def State.slotLive (s : State) (ctx slot : Nat) (stamp : BitVec 16) : Bool :=
  s.stampOf slot == stamp &&
  (if localOfSlot slot < 96 then
    match s.launchOf (gidOfSlot slot) with
    | some l => l.ctx == ctx && !s.stale (.core (coreOfSlot slot)) l.ctx l.inc
    | none => false
   else s.ops.any fun e => e.2.slot.toNat == slot && e.2.ctx == ctx && e.2.phase != .failed && e.2.phase != .done && e.2.phase != .checking && !s.stale (.core (coreOfSlot slot)) e.2.ctx e.2.inc)

/-- What `State.fnotices` holds for a quarter that began with a window (R93). -/
def fnote (window : Nat) : Nat := 2 * (window + 1)
/-- A slice has not acknowledged a fabric quarter notice whose quarter began at least `k` windows ago (R93). -/
def State.owesQuarter (s : State) (slice k : Nat) : Bool :=
  (List.range 4).any fun q => let n := Tab.fnotices.val 0 (slice * 4 + q) s; n != 0 && n / 2 - 1 + k ≤ s.dev.window
/-- Whether a record is live now (R83). A slice that holds back remote accesses treats peer records as dead from two windows on (R93). -/
def State.recLive (s : State) (ctx slice : Nat) (r : MarkRec) : Bool :=
  if isPeerSlot r.slot.toNat then
    (s.dev.window % 65536 + 65536 - r.stamp.toNat) % 65536 < 2 && !s.owesQuarter slice 32770
  else s.slotLive ctx r.slot.toNat r.stamp

/-! ## The overflow area and the spill log (R87 to R90) -/

/-- The sets of a context's overflow area, none when it has no area (R89). -/
def State.oaSets (s : State) (ctx : Nat) : Option Nat :=
  let n := (s.ctx ctx).oasets.toNat
  if 10 ≤ n && n ≤ 24 then some (2 ^ n) else none

/-- Addresses of the eight entries of a sector's overflow set (R88). -/
def State.ovfSlots (s : State) (ctx sector : Nat) : List Nat :=
  match s.oaSets ctx with
  | some sets =>
    let x := sector % 2 ^ 39
    (List.range 8).map fun i => (s.ctx ctx).oabase.toNat + 128 * ((x ^^^ (x / 2 ^ 19)) % sets) + 16 * i
  | none => []

/-- An overflow entry: record, sector, origin (R88). -/
def State.ovfEntry (s : State) (pa : Nat) : MarkRec × Nat × Option (BitVec 24) :=
  (MarkRec.ofBits (BitVec.ofNat 48 (s.homeNat pa 6)), s.homeNat (pa + 6) 6 % 2 ^ 47,
   if s.homeNat (pa + 15) 1 % 2 == 1 then some (BitVec.ofNat 24 (s.homeNat (pa + 12) 3)) else none)

/-- The 16-byte entries of a physical range of which a byte is listed: every other one is zero. -/
def State.listedEntries (s : State) (pa n : Nat) : List Nat :=
  (sortNat ((Sparse.range pa (pa + n) s.mem).map (fun e => e.1 / 16 * 16) ++
    (Sparse.range (pa / 32) ((pa + n) / 32) s.l2).flatMap fun e => [e.1 * 32, e.1 * 32 + 16])).eraseDups
/-- Write an overflow entry. -/
def writeOvf (pa : Nat) (r : MarkRec) (sector : Nat) (o : Option (BitVec 24)) : Act :=
  writeHome pa (bytesOfNat 6 r.bits.toNat ++ bytesOfNat 6 (sector % 2 ^ 47) ++ bytesOfNat 3 (match o with | some v => v.toNat | none => 0) ++
    bytesOfNat 1 (b2n o.isSome))

/-- The overflow entries that hold a record of a sector, in ascending address order. -/
def State.ovfOf (s : State) (ctx sector : Nat) : List (Nat × MarkRec × Option (BitVec 24)) :=
  (s.ovfSlots ctx sector).filterMap fun pa =>
    let e := s.ovfEntry pa
    if e.1.valid && e.2.1 == sector then some (pa, e.1, e.2.2) else none

/-- Whether an entry of a sector's overflow set is free: VALID clear or its record dead (R88). -/
def State.ovfFree (s : State) (ctx sector pa : Nat) : Bool :=
  let e := s.ovfEntry pa
  !e.1.valid || !s.recLive ctx (homeSlice (sector * 32)) e.1

def spillOf (s : State) (slice : Nat) : Spill := Tab.spills.val { head := 0, tail := 0 } slice s
def spillFull (s : State) (slice : Nat) : Bool := 2 ^ 20 ≤ (spillOf s slice).tail - (spillOf s slice).head
/-- Where entry `i` of a slice's spill log stands (R67, R90). -/
def spillAddr (slice i : Nat) : Nat := 0x7FE0000000 + slice * 0x800000 + 8 * (i % 2 ^ 20)
/-- Append a sector to its slice's spill log (R90). -/
def logSector (slice ctx inc sector : Nat) : Act := .read fun s =>
  let p := spillOf s slice
  .seq (writeHomeNat (spillAddr slice p.tail) 8 (2 ^ 63 + ctx * 2 ^ 47 + inc * 2 ^ 39 + sector % 2 ^ 39))
    (.put .spills slice { p with tail := p.tail + 1 })

/-! ## Finding and installing an entry (R82, R87) -/

/-- The set of a sector in its slice's mark store (R82). -/
def markSet (sector : Nat) : Nat := sector % 4096 ^^^ (sector / 4096 % 4096)

def MarkEntry.recs (e : MarkEntry) : List MarkRec := [e.r0, e.r1]
/-- Whether an entry of a sector has a live record in the overflow area (R82, R83). -/
def MarkEntry.liveBeyond (s : State) (sector : Nat) (e : MarkEntry) : Bool :=
  (s.ovfOf e.ctx sector).any fun x => s.recLive e.ctx (homeSlice (sector * 32)) x.2.1
/-- Whether every record of a sector's entry is dead, those in the overflow area too. -/
def MarkEntry.allDead (s : State) (sector : Nat) (e : MarkEntry) : Bool :=
  (e.recs.all fun r => !r.valid || !s.recLive e.ctx (homeSlice (sector * 32)) r) && !e.liveBeyond s sector

/-- The entries that share a sector's set. -/
def State.setMates (s : State) (sector : Nat) : List (Nat × MarkEntry) :=
  s.marks.filter fun e => homeSlice (e.1 * 32) == homeSlice (sector * 32) && markSet e.1 == markSet sector

/-- The least recently used of a list of entries. -/
def oldestEntry : List (Nat × MarkEntry) → Option (Nat × MarkEntry)
  | [] => none
  | e :: rest => match oldestEntry rest with
    | some f => some (if e.2.age ≤ f.2.age then e else f)
    | none => some e

/-- Write records to the overflow area, first-come (R88); fails with 0x25 when a set has no room. -/
def ovfInsertAll (s : State) (ctx sector : Nat) : List (MarkRec × Option (BitVec 24)) → List Nat → Except (BitVec 8) (List Act)
  | [], _ => .ok []
  | (r, o) :: rest, used =>
    match (s.ovfSlots ctx sector).find? fun pa => !used.contains pa && s.ovfFree ctx sector pa with
    | none => .error 0x25
    | some pa => match ovfInsertAll s ctx sector rest (pa :: used) with
      | .error c => .error c
      | .ok as => .ok (writeOvf pa r sector o :: as)

/-- Spill an entry (R87): dead records are left; the first live record of an untracked HBM sector goes to MARK, the others to the
overflow area, where those that stand there already stay; a sector that keeps a live record is logged. -/
def spillEntry (s : State) (sector : Nat) (e : MarkEntry) : Except (BitVec 8) Act :=
  let slice := homeSlice (sector * 32)
  let live := ((e.r0, e.o0) :: (e.r1, e.o1) :: []).filter fun x => x.1.valid && s.recLive e.ctx slice x.1
  let ovf := e.liveBeyond s sector
  let toSide := isHbm (sector * 32) && (live.all fun x => x.2.isNone)
  match live with
  | [] => .ok (.all [ .del .marks sector, .when (isHbm (sector * 32)) (.put .side sector ({ MarkRec.empty with ovf := ovf }).bits),
      .when ovf (logSector slice e.ctx e.inc sector) ])
  | x :: rest =>
    match ovfInsertAll s e.ctx sector (if toSide then rest else x :: rest) [] with
    | .error c => .error c
    | .ok as => .ok (.all [ .all as,
        .when (isHbm (sector * 32))
          (.put .side sector (if toSide then { x.1 with ovf := ovf || !rest.isEmpty } else { MarkRec.empty with ovf := true }).bits),
        .del .marks sector, logSector slice e.ctx e.inc sector ])

/-- FIND OR INSTALL (R85, R87, R94): touch the sector's entry, or make room and reinstall it from MARK and the overflow area. -/
def findOrInstall (s : State) (sector ctx inc : Nat) : Except (BitVec 8) Act :=
  match Tab.marks.at sector s with
  | some e => .ok (.put .marks sector { e with age := s.dev.cycle.toNat })
  | none =>
    let slice := homeSlice (sector * 32)
    let side := MarkRec.ofBits (Tab.side.val 0 sector s)
    let ovf := if isHbm (sector * 32) then side.ovf else !(s.ovfOf ctx sector).isEmpty
    let fresh : MarkEntry := { ctx := ctx, inc := inc, r0 := { side with ovf := ovf }, r1 := { MarkRec.empty with ovf := ovf },
                               o0 := none, o1 := none, age := s.dev.cycle.toNat }
    let install : Act := .put .marks sector fresh
    let mates := s.setMates sector
    if mates.length < 16 then .ok install
    else match mates.find? fun e => e.2.allDead s e.1 with
      | some e => match spillEntry s e.1 e.2 with
        | .ok a => .ok (.seq a install)
        | .error c => .error c
      | none =>
        if spillFull s slice then .error 0x24
        else match oldestEntry mates with
          | some e => match spillEntry s e.1 e.2 with
            | .ok a => .ok (.seq a install)
            | .error c => .error c
          | none => .ok install

/-! ## The check (R85) and the merge (R86) -/

/-- Where a record of a sector stands. -/
inductive RecLoc where
  | first | second | ovf (pa : Nat)
  deriving DecidableEq, Repr

structure Rec where
  loc : RecLoc
  r : MarkRec
  o : Option (BitVec 24)

/-- The records of a sector in the order of R85. -/
def State.recsOf (s : State) (sector : Nat) : List Rec :=
  match Tab.marks.at sector s with
  | some e => [{ loc := .first, r := e.r0, o := e.o0 }, { loc := .second, r := e.r1, o := e.o1 }] ++
      (if e.r0.ovf || e.r1.ovf || !isHbm (sector * 32) then
        (s.ovfOf e.ctx sector).map fun x => { loc := .ovf x.1, r := x.2.1, o := x.2.2 } else [])
  | none => []

/-- Write one record of a sector. -/
def putRec (sector : Nat) (l : RecLoc) (r : MarkRec) (o : Option (BitVec 24)) : Act :=
  match l with
  | .first => .upd .marks sector fun e => { e with r0 := { r with ovf := e.r0.ovf }, o0 := o }
  | .second => .upd .marks sector fun e => { e with r1 := { r with ovf := e.r1.ovf }, o1 := o }
  | .ovf pa => writeOvf pa r sector o

def clearRec (sector : Nat) (x : Rec) : Act := putRec sector x.loc { x.r with valid := false } none

/-- What a slice knows of a record without asking (R84), or with the probe answer it has. -/
inductive Known where
  | dead | live | ask
  deriving DecidableEq, Repr

def knownOf (s : State) (q : Req) (r : MarkRec) : Known :=
  let slice := homeSlice (q.sector * 32)
  if isPeerSlot r.slot.toNat then (if s.recLive q.ctx slice r then .live else .dead)
  else
    let unsure := match Tab.stamps.at (slice * 65536 + r.slot.toNat) s with
      | some c => let d := (c.toNat + 65536 - r.stamp.toNat) % 65536
                  if 1 ≤ d && d ≤ 32767 then Known.dead else Known.ask
      | none => Known.ask
    match q.phase with
    | .answered sl st live _ => if sl == r.slot && st == r.stamp then (if live then .live else .dead) else unsure
    | _ => unsure

/-- The outcome of one look through the records. -/
inductive Verdict where
  | pass (dead : List Rec)
  | conflict (dead : List Rec) (x : Rec) (cause : BitVec 8)
  | probe (dead : List Rec) (x : Rec)

def scanRecs (s : State) (q : Req) : List Rec → List Rec → Verdict
  | [], dead => .pass dead
  | x :: rest, dead =>
    if x.r.valid && x.r.slot != q.slot && (x.r.mask &&& q.mask) != 0 then
      match clash q.cls.toNat x.r.cls.toNat with
      | none => scanRecs s q rest dead
      | some cause => match knownOf s q x.r with
        | .dead => scanRecs s q rest (dead ++ [x])
        | .live => .conflict dead x cause
        | .ask => .probe dead x
    else scanRecs s q rest dead

/-- Steps 1 and 2 of the merge (R86) on one record; none when it is cleared. -/
def mergeKeep (slot : BitVec 16) (stamp : BitVec 16) (cls : BitVec 3) (mask : BitVec 8) (r : MarkRec) : Option MarkRec :=
  if !r.valid || r.slot != slot then some r
  else if r.stamp != stamp then none
  else if cls == mcWrite && r.cls == mcRead then
    (let m := r.mask &&& ~~~mask
     if m == 0 then none else some { r with mask := m })
  else some r

/-- THE MERGE (R86): leave the requester's mark in the smallest number of records. Fails with 0x25 when a new record finds no
room. -/
def mergeMark (s : State) (q : Req) : Except (BitVec 8) Act :=
  let recs := s.recsOf q.sector
  let kept := recs.map fun x => (x, mergeKeep q.slot q.stamp q.cls q.mask x.r)
  let clean : Act := .each kept fun x => match x.2 with
    | none => clearRec q.sector x.1
    | some r => if r == x.1.r then .skip else putRec q.sector x.1.loc r x.1.o
  let mine := kept.filterMap fun x => match x.2 with
    | some r => if r.valid && r.slot == q.slot && r.stamp == q.stamp then some (x.1, r) else none
    | none => none
  if q.cls == mcRead && (mine.any fun x => x.2.cls == mcWrite && (x.2.mask &&& q.mask) == q.mask) then .ok clean
  else match mine.find? fun x => x.2.cls == q.cls with
    | some x => .ok (.seq clean (putRec q.sector x.1.loc { x.2 with mask := x.2.mask ||| q.mask } x.1.o))
    | none =>
      let new : MarkRec := { slot := q.slot, stamp := q.stamp, mask := q.mask, cls := q.cls, ovf := false, valid := true }
      let free := kept.find? fun x => (x.1.loc == .first || x.1.loc == .second) && (match x.2 with | none => true | some r => !r.valid)
      let cleared := kept.any fun x => x.2.isNone
      let gone (pa : Nat) : Bool := cleared && kept.any fun x => x.2.isNone && x.1.loc == .ovf pa
      match free with
      | some x => .ok (.seq clean (putRec q.sector x.1.loc new q.origin))
      | none => match (s.ovfSlots q.ctx q.sector).find? fun pa => gone pa || s.ovfFree q.ctx q.sector pa with
        | none => .error 0x25
        | some pa => .ok (.all [clean, writeOvf pa new q.sector q.origin,
            .upd .marks q.sector fun e => { e with r0 := { e.r0 with ovf := true }, r1 := { e.r1 with ovf := true } }])

/-- Learn a slot's latest stamp (R84): the cache holds 1,024 slots; the lowest is replaced. -/
def learnStamp (slice : Nat) (slot stamp : BitVec 16) : Act := .read fun s =>
  let mine := Sparse.range (slice * 65536) ((slice + 1) * 65536) s.stamps
  let k := slice * 65536 + slot.toNat
  .seq (.when (1024 ≤ mine.length && (Tab.stamps.at k s).isNone) (.with? mine.head? fun e => .del .stamps e.1))
    (.put .stamps k stamp)

/-- Give an operation the answer for one sector. -/
def answerSector (op sector : Nat) (a : SecAns) : Act :=
  .upd .ops op fun o => { o with secs := o.secs.map fun x => if x.sector == sector then { x with ans := a } else x }

/-- Another check of the same sector is under way: a registration is handled as one indivisible step (R85). -/
def sectorHeld (s : State) (id : Nat) (q : Req) : Bool :=
  s.reqs.any fun e => e.1 != id && e.2.sector == q.sector && e.2.phase != .sent

/-- Clear the records of a sector that satisfy a test, wherever they stand at the slice. -/
def clearMatching (sector : Nat) (p : Nat → MarkRec → Bool) : Act := .read fun s =>
  .seq (.each ((s.recsOf sector).filter fun x => x.r.valid && p (match Tab.marks.at sector s with | some e => e.ctx | none => 0) x.r)
      (clearRec sector))
    (let side := MarkRec.ofBits (Tab.side.val 0 sector s)
     let own := (s.ownerOf (sector * 32)).1
     .seq (.when (side.valid && p own side) (.put .side sector { side with valid := false }.bits))
       (.each ((s.ovfOf own sector).filter fun x => p own x.2.1) fun x => writeOvf x.1 { x.2.1 with valid := false } sector none))

/-- Whether a sector that stands in the spill log still has a valid spilled record. -/
def stillMarked (s : State) (sector : Nat) : Bool :=
  (MarkRec.ofBits (Tab.side.val 0 sector s)).valid || !(s.ovfOf (s.ownerOf (sector * 32)).1 sector).isEmpty

/-- Entry `i` of a slice's spill log, none once it is retired (R90). -/
def logEntry (s : State) (slice i : Nat) : Option Nat :=
  let w := s.homeQuad (spillAddr slice i)
  if bitAt w 63 then some w else none
/-- Retire entry `i` of a slice's spill log: its VALID is cleared (R90). -/
def retireEntry (slice i : Nat) : Act := .read fun s =>
  writeHomeNat (spillAddr slice i + 7) 1 (s.homeNat (spillAddr slice i + 7) 1 % 128)

/-- Walk a slice's spill log as it stands (step 2 of R91): clear matching records of each logged sector, append again a sector that
keeps a record, retire the walked entries. -/
def walkLog (slice : Nat) (p : Nat → MarkRec → Bool) : Act := .read fun s =>
  let sp := spillOf s slice
  .seq (.each (List.range (sp.tail - sp.head)) fun i => .read fun s => .with? (logEntry s slice (sp.head + i)) fun w =>
      let sector := w % 2 ^ 39
      .all [ retireEntry slice (sp.head + i), clearMatching sector p, .read fun s =>
          .when (stillMarked s sector) (logSector slice (fld w 47 12) (fld w 39 8) sector) ])
    (.updD .spills { head := 0, tail := 0 } slice fun x => { x with head := sp.tail })

/-- A registration found the spill log full (0x24): the slice walks it, and entries whose records are all dead are retired (R94). -/
def walkFull (slice : Nat) (cause : BitVec 8) : Act := .read fun s =>
  .when (cause == 0x24) (walkLog slice fun ctx r => !s.recLive ctx slice r)

/-- THE REGISTRATION STEP at a home slice (R85): drop a stale request, install the entry, look through its records, and answer,
or ask a slot's owner first. -/
def handleRequest (id : Nat) (q : Req) : Act := .read fun s =>
  let slice := homeSlice (q.sector * 32)
  if s.stale (.slice slice) q.ctx q.inc then .del .reqs id
  else if q.phase == .sent && sectorHeld s id q then .due [.registration id]
  else match findOrInstall s q.sector q.ctx q.inc with
  | .error c => .all [ .del .reqs id, answerSector q.op q.sector (.capacity c), walkFull slice c ]
  | .ok install => .seq install (.read fun s =>
    match scanRecs s q (s.recsOf q.sector) [] with
    | .conflict dead x cause =>
      .all [ .each dead (clearRec q.sector), .del .reqs id,
             answerSector q.op q.sector (.conflict cause x.r.slot x.r.cls x.r.stamp (x.r.mask &&& q.mask) x.o) ]
    | .probe dead x =>
      .all [ .each dead (clearRec q.sector), .put .reqs id { q with phase := .probing x.r.slot x.r.stamp },
             .due [.livenessProbe id] ]
    | .pass dead => .seq (.each dead (clearRec q.sector)) (.read fun s =>
      match mergeMark s q with
      | .error c => .seq (.del .reqs id) (answerSector q.op q.sector (.capacity c))
      | .ok a => .all [ a, learnStamp slice q.slot q.stamp, .del .reqs id, answerSector q.op q.sector .ack ]))

/-- LIVENESS_PROBE (R84): the slot's owner answers from its current state. -/
def handleProbe (id : Nat) (q : Req) : Act := .read fun s =>
  match q.phase with
  | .probing slot stamp =>
    .seq (.put .reqs id { q with phase := .answered slot stamp (s.slotLive q.ctx slot.toNat stamp) (s.stampOf slot.toNat) })
      (.due [.probeAnswer id])
  | _ => .skip

/-- PROBE_ANSWER (R84): the slice learns the stamp and the check goes on. -/
def handleAnswer (id : Nat) (q : Req) : Act :=
  match q.phase with
  | .answered slot _ _ cur => .seq (learnStamp (homeSlice (q.sector * 32)) slot cur) (handleRequest id q)
  | _ => .skip

/-! ## Reclaim by quarter (R91 to R93) -/

/-- The sectors of a slice's mark store. -/
def State.sliceSectors (s : State) (slice : Nat) : List Nat := (s.marks.filter fun e => homeSlice (e.1 * 32) == slice).map (·.1)

/-- A slice clears the records that satisfy a test, in its mark store and along its spill log. -/
def sweepSlice (slice : Nat) (p : Nat → MarkRec → Bool) : Act := .read fun s =>
  .seq (.each (s.sliceSectors slice) fun x => clearMatching x p) (walkLog slice p)

/-- The record is of a slot and of quarter `q`. -/
def ofQuarter (slot q : Nat) (_ : Nat) (r : MarkRec) : Bool := r.slot.toNat == slot && r.stamp.toNat / 16384 == q

/-- The notices of a slot, with their keys. -/
def State.noticesOf (s : State) (slot : Nat) : List (Nat × Notice) := Sparse.range (slot * 4) (slot * 4 + 4) s.notices

/-- QUARTER_NOTICE at a unit (R91, R127): it clears the slot's records of the opposite quarter, and then acknowledges. -/
def handleNotice (slot : Nat) (u : NoticeUnit) : Act := .read fun s =>
  .each ((s.noticesOf slot).filter fun e => e.2.left.contains u && !e.2.handled.contains u) fun e =>
    let old := (e.2.quarter + 2) % 4
    .all [ (match u with
        | .slice k => .seq (.del .stamps (k * 65536 + slot)) (sweepSlice k (ofQuarter slot old))
        | .gallery c => .updD .clusters Cluster.init c fun x => { x with overflow := x.overflow.filter fun r => match r with
            | .foreign _ _ r _ _ => !ofQuarter slot old 0 r
            | _ => true }),
      .upd .notices e.1 fun n => { n with handled := u :: n.handled },
      .due [.quarterNoticeAck slot u] ]

/-- QUARTER_NOTICE_ACK (R92): the unit leaves the notices that it has handled; a notice that no unit is left for is gone. -/
def handleNoticeAck (slot : Nat) (u : NoticeUnit) : Act := .read fun s =>
  .each ((s.noticesOf slot).filter fun e => e.2.handled.contains u) fun e =>
    let left := e.2.left.filter (· != u)
    if left.isEmpty then .del .notices e.1
    else .put .notices e.1 { e.2 with left := left, handled := e.2.handled.filter (· != u) }

/-! ## Pages (R73) -/

def pageSectors (page count : Nat) : List Nat := (List.range (count * 128)).map fun i => page * 128 + i

/-- PAGE_PURGE (R73): discard every mark record of the page's sectors, wherever it stands. -/
def purgeSector (sector : Nat) : Act := .read fun s =>
  .all [ .each ((s.ovfOf (s.ownerOf (sector * 32)).1 sector)) fun x => writeOvf x.1 MarkRec.empty 0 none,
         .del .marks sector, .put .side sector 0 ]

/-- A request to carry a record to another sector: the record's own fields. -/
def carryReq (sector ctx inc : Nat) (x : Rec) : Req :=
  { op := 0, sector := sector, slot := x.r.slot, stamp := x.r.stamp, cls := x.r.cls, mask := x.r.mask, ctx := ctx, inc := inc,
    origin := x.o, phase := .sent }

/-- The records of a sector wherever they stand: in its entry, else in MARK and the overflow area (R87). -/
def State.allRecs (s : State) (sector : Nat) : List Rec :=
  match Tab.marks.at sector s with
  | some _ => s.recsOf sector
  | none =>
    let side := MarkRec.ofBits (Tab.side.val 0 sector s)
    { loc := .first, r := side, o := none } :: (s.ovfOf (s.ownerOf (sector * 32)).1 sector).map fun x => { loc := .ovf x.1, r := x.2.1, o := x.2.2 }
/-- Carry one record to a sector; `k` gets whether it found room there. -/
def carryRec (dst ctx inc : Nat) (x : Rec) (k : Bool → Act) : Act := .read fun s =>
  match findOrInstall s dst ctx inc with
  | .error _ => k false
  | .ok a => .seq a (.read fun s => match mergeMark s (carryReq dst ctx inc x) with
    | .ok m => .seq m (k true)
    | .error _ => k false)
/-- Carry records in order; `done` follows when every one has found room.
[DESIGN CHOICE, log 129] -/
def carryAll (dst ctx inc : Nat) (done : Act) : List Rec → Act
  | [] => done
  | x :: rest => carryRec dst ctx inc x fun ok => .when ok (carryAll dst ctx inc done rest)

/-- PAGE_MOVE of one sector (R73): its live records go to the destination sector, and then leave their own; where one finds no room they
stay.
[DESIGN CHOICE, log 129] -/
def moveSector (src dst : Nat) : Act := .read fun s =>
  let own := s.ownerOf (src * 32)
  carryAll dst own.1 own.2 (purgeSector src)
    ((s.allRecs src).filter fun x => x.r.valid && s.recLive own.1 (homeSlice (src * 32)) x.r)

end Sys2Proof.Machine
end

