-- ==== Sys2Proof/Machine/Access.lean ====
section
/-! DEFINITION. The path of a memory access: buffer records and placement (R96 to R100), TLBs (R104), the L1 (R140 to R153), the
registration filter (R143 to R145), atomic arithmetic (R162 to R164), and the life of a memory operation from its translation to its
response (R106, R107, R144 to R147, R155, R366, R367). -/

namespace Sys2Proof.Machine

open Sys2Proof

/-! ## Buffer records (R96, R97) -/

structure Buf where
  rsv : Nat
  pitch : Nat
  fxe : Int
  mode : Nat
  unit : Nat
  bits : Nat
  swz : Nat
  extent : Nat
  esz : Nat
  fx : Bool
  nt : Bool
  ro : Bool
  base : Nat
  deriving DecidableEq, Repr

def Buf.of (w : BitVec 128) : Buf :=
  let v := w.toNat
  { rsv := fld v 126 2, pitch := fld v 120 6, fxe := sext 8 (fld v 112 8), mode := fld v 110 2, unit := fld v 107 3,
    bits := fld v 104 3, swz := fld v 104 8, extent := fld v 64 40, esz := fld v 60 4, fx := bitAt v 59, nt := bitAt v 58,
    ro := bitAt v 57, base := fld v 0 57 }

/-- A valid record (R97). One with a reserved MODE, 2 or 3, is not.
[DEDUCED, log 124] -/
def Buf.valid (b : Buf) : Bool :=
  b.rsv == 0 && b.esz ≤ 4 && (b.pitch == 0 || (4 ≤ b.pitch && b.pitch ≤ 40)) && b.base + b.extent ≤ 2 ^ 57 &&
  (match b.mode with
   | 0 => b.swz == 0
   | 1 => b.bits != 0 && 4 + b.unit + b.bits ≤ b.pitch && b.extent % 2 ^ b.pitch == 0
   | _ => false)

/-- A lane's offset (R98). -/
def Buf.offset (b : Buf) (index : BitVec 32) (imm : Int) : Int := index.toInt * Int.ofNat (2 ^ b.esz) + imm

/-- Whether an offset is out of bounds, and the address it is placed at (R98). -/
def Buf.place (b : Buf) (o : Int) (size : Nat) : Bool × Nat :=
  let out := o < 0 || Int.ofNat b.extent < o + Int.ofNat size
  let n := wrap 128 o
  let cross := b.mode == 1 && 16 < n % 16 + size
  let swz := if b.mode == 1 then n ^^^ (n / 2 ^ b.pitch % 2 ^ b.bits * 2 ^ (4 + b.unit)) else n
  (out || cross, (b.base + swz) % 2 ^ 57)

/-! ## TLBs (R104) -/

/-- Look a virtual page up in one TLB, by every page size. -/
def tlbFind (t : Table TlbEnt) (unit ctx inc va : Nat) : Option Xlat :=
  [12, 16, 21, 30].findSome? fun size =>
    match Sparse.get (tlbKey unit ctx (va / 2 ^ size * 2 ^ (size - 12))) t with
    | some e => if e.size == size && e.inc == inc then
        some { pa := e.pa + va % 2 ^ size, size := size, rd := e.rd, wr := e.wr, ex := e.ex } else none
    | none => none

/-- A translation from the core's TLB or its cluster's; a stale entry never hits. -/
def State.tlb (s : State) (core ctx inc va : Nat) : Option Xlat :=
  if s.stale (.tlb (clusterOf core)) ctx inc then none
  else match tlbFind s.tlb1 core ctx inc va with
    | some x => some x
    | none => tlbFind s.tlb2 (clusterOf core) ctx inc va

/-- The set of a translation in a TLB of `sets` sets: its page number modulo that. -/
def tlbSet (sets key size : Nat) : Nat := key % 2 ^ 45 / 2 ^ (size - 12) % sets
/-- Enter a translation into a TLB of `sets` sets of `ways` ways; the entry of its set with the lowest key makes room.
[DESIGN CHOICE, log 36] -/
def tlbEnter (t : Tab TlbEnt) (sets ways unit ctx inc va : Nat) (x : Xlat) : Act := .read fun s =>
  let key := tlbKey unit ctx (va / 2 ^ x.size * 2 ^ (x.size - 12))
  let mine := (Sparse.range (tlbKey unit 0 0) (tlbKey (unit + 1) 0 0) (t.get s)).filter fun e =>
    tlbSet sets e.1 e.2.size == tlbSet sets key x.size && e.1 != key
  .seq (.when (ways ≤ mine.length) (.with? mine.head? fun e => .del t e.1))
    (.put t key
      { inc := inc, pa := x.pa - va % 2 ^ x.size, size := x.size, rd := x.rd, wr := x.wr, ex := x.ex })

/-! ## The L1 (R140, R148 to R153) -/


/-- Good ways of a core's L1 now: those of the point in force, and during EVACUATE those of the target, if fewer (R141). -/
def State.waysNow (s : State) (core : Nat) : Nat :=
  if s.dev.stepState == 3 then min (waysAt core s.dev.point) (waysAt core s.dev.stepTarget) else waysAt core s.dev.point
/-- A sector's bytes at home with the write-backs of this core that are still in flight laid over them. -/
def State.homeSeen (s : State) (core sector : Nat) : BitVec 256 :=
  s.wbs.foldl (fun a e => if e.2.core == core && e.2.sector == sector then mergeBytes e.2.mask a e.2.data else a) (s.sectorAt sector)

/-- The line of a core that holds a sector, if it is not stale. -/
def State.l1At (s : State) (core sector : Nat) : Option L1Line :=
  match Tab.l1.at (lineKey core (sector / 4)) s with
  | some l => if s.stale (.core core) l.ctx l.inc then none else some l
  | none => none

def L1Line.fresh (ctx inc : Nat) (ro : Bool) (age : Nat) : L1Line :=
  { ctx := ctx, inc := inc, ro := ro, s0 := .empty, s1 := .empty, s2 := .empty, s3 := .empty, age := age }

/-- The oldest line of a set without pending bytes.
[DESIGN CHOICE, log 36] -/
def victimOf : List (Nat × L1Line) → Option (Nat × L1Line)
  | [] => none
  | e :: rest =>
    let free := e.2.s0.pending == 0 && e.2.s1.pending == 0 && e.2.s2.pending == 0 && e.2.s3.pending == 0
    match victimOf rest with
    | some f => if free && e.2.age ≤ f.2.age then some e else some f
    | none => if free then some e else none

/-- Evict a line: its dirty bytes go to their home slices (R140). -/
def evictLine (core line : Nat) : Act := .read fun s =>
  match Tab.l1.at (lineKey core line) s with
  | some l => .seq (writeBackLine core line l) (.del .l1 (lineKey core line))
  | none => .skip

/-- The lines of the set of a line: the physical line number modulo the 128 sets.
[DESIGN CHOICE, log 36] -/
def State.l1Set (s : State) (core line : Nat) : List (Nat × L1Line) := (s.l1Lines core).filter fun e => e.1 % 128 == line % 128
/-- Give a sector's line a place in the L1 (R140): a new line evicts the oldest line of a full set without pending bytes; when there is none
the line gets no place. -/
def allocLine (core ctx inc sector : Nat) (ro : Bool) : Act := .read fun s =>
  let line := sector / 4
  match s.l1At core sector with
  | some _ => .skip
  | none =>
    let mates := (s.l1Set core line).filter fun e => e.1 != line
    let place : Act := .put .l1 (lineKey core line) (L1Line.fresh ctx inc ro s.dev.cycle.toNat)
    if mates.length < s.waysNow core then place
    else .with? (victimOf mates) fun e => .seq (evictLine core e.1) place
/-- A set of a line sheds what its good ways do not hold, once no pending bytes keep it (R141). -/
def trimSet (core line : Nat) : Act := .read fun s =>
  .each (List.range ((s.l1Set core line).length - s.waysNow core)) fun _ => .read fun s =>
    .with? (victimOf (s.l1Set core line)) fun e => evictLine core e.1

/-- Whether a group's read of bytes of a sector hits (R149, R152). -/
def l1Hit (s : State) (core sector : Nat) (ro : Bool) (va : Nat) (m : BitVec 32) : Bool :=
  match s.l1At core sector with
  | some l => let x := l.sec (sector % 4)
              (x.valid &&& m) == m && (ro || (!l.ro && va ≤ x.stamp))
  | none => false

/-- The cache ways of a cluster lose the sectors of a context. -/
def dropWays (cluster ctx : Nat) : Act := .read fun s =>
  .each (s.gways.filter fun e => e.1 / 2 ^ 47 == cluster && e.2.ctx == ctx) fun e => .del .gways e.1
/-- The sectors that a bank in cache-way mode holds. -/
def State.bankWays (s : State) (cl bank : Nat) : List (Nat × GWay) := s.gways.filter fun e => e.1 / 2 ^ 47 == cl && e.2.bank == bank
/-- The sectors that a bank has room for at a point: 32 in each good row of 1 KiB (R17, R118). -/
def State.wayRoom (s : State) (cl bank point : Nat) : Nat := 32 * s.goodRows cl bank point
/-- The oldest of sectors in cache ways. -/
def oldestWay : List (Nat × GWay) → Option (Nat × GWay)
  | [] => none
  | e :: rest => match oldestWay rest with
    | some f => some (if e.2.age ≤ f.2.age then e else f)
    | none => some e
/-- A bank keeps at most `room` sectors: the oldest leave (R17). They are clean, so nothing is written back.
[DESIGN CHOICE, log 51] -/
def fitWays (cl bank room : Nat) : Act := .read fun s =>
  .each (List.range ((s.bankWays cl bank).length - room)) fun _ => .read fun s => .with? (oldestWay (s.bankWays cl bank)) fun e => .del .gways e.1
/-- A miss of a core's L1 or instruction cache brings the sector into a cache-way bank of its cluster, if it has one with room for a sector
(R118): the banks by the sector number modulo their number, the oldest sector making room.
[DESIGN CHOICE, log 51] -/
def enterWay (core ctx inc sector : Nat) : Act := .read fun s =>
  let cl := clusterOf core
  let banks := (List.range 32).filter fun b => (s.cluster cl).modeOf b == .cache
  .with? (banks[sector % max banks.length 1]?) fun bank =>
    let room := s.wayRoom cl bank s.governing
    .when (room != 0 && (s.wayHit core sector).isNone && s.poisonOf sector == 0)
      (.all [ .del .gways (wayKey cl sector), fitWays cl bank (room - 1),
              .put .gways (wayKey cl sector) { ctx := ctx, inc := inc, data := s.sectorAt sector, bank := bank, age := s.dev.cycle.toNat } ])

/-- The oldest line of an instruction cache. -/
def oldestCode : List (Nat × ILine) → Option (Nat × ILine)
  | [] => none
  | e :: rest => match oldestCode rest with
    | some f => some (if e.2.age ≤ f.2.age then e else f)
    | none => some e
/-- A fetch of a core keeps the line of a physical address in its instruction cache of 128 KiB, 1,024 lines, and brings its sectors into the
cache ways of the cluster (R10, R118).
[DESIGN CHOICE, log 52] -/
def keepCode (core ctx inc pa : Nat) : Act := .read fun s =>
  if !isHomed pa || (s.codeLine core (pa / 128)).isSome then .skip
  else
    let line := pa / 128
    .all [ .each (List.range 4) fun i => .read fun s =>
             if (s.wayHit core (line * 4 + i)).isSome then .skip else .seq (fetchSector (line * 4 + i)) (enterWay core ctx inc (line * 4 + i)),
           .read fun s =>
             let mine := Sparse.range (lineKey core 0) (lineKey (core + 1) 0) s.icache
             let bytes := (List.range 4).map fun i => match s.wayHit core (line * 4 + i) with | some w => w.data | none => s.sectorAt (line * 4 + i)
             .when ((List.range 4).all fun i => s.poisonOf (line * 4 + i) == 0)
               (.seq (.when (1024 ≤ mine.length) (.with? (oldestCode mine) fun e => .del .icache e.1))
                 (.put .icache (lineKey core line)
                   { ctx := ctx, inc := inc, age := s.dev.cycle.toNat,
                     data := BitVec.ofNat 1024 ((bytes.zipIdx).foldl (fun a e => a + e.1.toNat * 2 ^ (256 * e.2)) 0) })) ]

/-- Fetch a sector into the L1: clean bytes are replaced, dirty bytes kept, the sector is stamped with G (R148, R149). A read-only
fill hits in the cache ways of the cluster, and gives the line the RO flag; any other fill of an RO line takes the flag away, and with it
the clean bytes of its other sectors, which a non-RO read may not use (R152). The home slice fetches what it lacks (R70). -/
def fillSector (core ctx inc sector : Nat) (ro : Bool) : Act :=
  .all [allocLine core ctx inc sector ro,
    .read fun s => if ro && (s.wayHit core sector).isSome then .skip else .seq (fetchSector sector) (.when ro (enterWay core ctx inc sector)),
    .read fun s =>
    let d := match if ro then s.wayHit core sector else none with
      | some w => w.data
      | none => s.homeSeen core sector
    .upd .l1 (lineKey core (sector / 4)) fun l =>
      let l := if l.ro && !ro then l.mapSec fun x => { x with valid := x.dirty } else l
      let x := l.sec (sector % 4)
      ({ l with ro := ro }).setSec (sector % 4)
        { x with data := mergeBytes x.dirty d x.data, valid := BitVec.allOnes 32, stamp := (s.core core).gen }]

/-- Bring what a group's DATA read needs into the L1 (R149, R153). -/
def touchSector (g core ctx inc sector : Nat) (ro : Bool) (m : BitVec 32) : Act := .read fun s =>
  let va := match s.group? g with | some x => x.va | none => 0
  if l1Hit s core sector ro va m then .skip else fillSector core ctx inc sector ro

/-- The bytes of a sector that a DATA read of a group sees: the L1's when it holds them, else those of the level below,
the cache ways for a read-only record and home, with the L1's dirty bytes over them. -/
def State.seen (s : State) (g core sector : Nat) (ro : Bool) : BitVec 256 :=
  let va := match s.group? g with | some x => x.va | none => 0
  let below := match if ro then s.wayHit core sector else none with
    | some w => w.data
    | none => s.homeSeen core sector
  match s.l1At core sector with
  | some l =>
    let x := l.sec (sector % 4)
    if ro || (!l.ro && va ≤ x.stamp) then mergeBytes x.valid below x.data
    else mergeBytes x.dirty below x.data
  | none => below

/-- What a read that allocates nothing in the L1 sees (R153): the home slice's bytes, with the core's write-backs in flight and then the
L1's dirty bytes over them. -/
def State.pastL1 (s : State) (core sector : Nat) : BitVec 256 :=
  match s.l1At core sector with
  | some l => let x := l.sec (sector % 4); mergeBytes x.dirty (s.homeSeen core sector) x.data
  | none => s.homeSeen core sector

/-- Perform at home the write-backs of a sector that this core has in flight. -/
def landWriteBacks (core sector : Nat) : Act := .read fun s =>
  .each (s.wbs.filter fun e => e.2.core == core && e.2.sector == sector) fun e => landWriteBack e.1 e.2

/-- Flush (R153): the core's dirty bytes of a sector are merged at home; then the L1's copy is invalidated. -/
def flushSector (core sector : Nat) : Act :=
  .seq (landWriteBacks core sector) (.read fun s =>
    match s.l1At core sector with
    | some l =>
      let x := l.sec (sector % 4)
      .seq (writeSector sector x.dirty x.data)
        (.put .l1 (lineKey core (sector / 4)) (l.setSec (sector % 4) { x with valid := 0, dirty := 0 }))
    | none => .skip)

/-- Store bytes of a sector into the L1 as valid and dirty, without a fetch (R140). A sector of which no byte was valid is stamped with G,
any other keeps its stamp. When the set has no place for the line, the bytes leave for their home at once, as those of a line evicted
again.
[DESIGN CHOICE, log 122] -/
def storeDirty (core ctx inc sector : Nat) (m : BitVec 32) (d : BitVec 256) : Act :=
  .seq (allocLine core ctx inc sector false) (.read fun s => match s.l1At core sector with
    | some l =>
      let x := l.sec (sector % 4)
      .put .l1 (lineKey core (sector / 4)) (l.setSec (sector % 4)
        { x with data := mergeBytes m x.data d, valid := x.valid ||| m, dirty := x.dirty ||| m,
                 stamp := if x.valid == 0 then (s.core core).gen else x.stamp })
    | none => .fresh fun id => .seq (.put .wbs id { core := core, sector := sector, mask := m, data := d, ctx := ctx, inc := inc })
        (.due [.writeBack (.fromL1 id)]))

/-- Store through to home, merging into a sector that the L1 holds as clean bytes (R153). -/
def storeThrough (core sector : Nat) (m : BitVec 32) (d : BitVec 256) : Act :=
  .all [ landWriteBacks core sector, writeSector sector m d,
         .read fun s => match s.l1At core sector with
           | some l =>
             let x := l.sec (sector % 4)
             if (x.valid) == 0 then .skip
             else .put .l1 (lineKey core (sector / 4))
               (l.setSec (sector % 4) { x with data := mergeBytes m x.data d, valid := x.valid ||| m, dirty := x.dirty &&& ~~~m })
           | none => .skip ]

/-- Mark or unmark bytes as pending (R146). -/
def setPending (core ctx inc sector : Nat) (m : BitVec 32) (on : Bool) : Act :=
  .seq (.when on (allocLine core ctx inc sector false))
    (.upd .l1 (lineKey core (sector / 4)) fun l =>
      let x := l.sec (sector % 4)
      l.setSec (sector % 4) { x with pending := if on then x.pending ||| m else x.pending &&& ~~~m })

/-! ## The registration filter (R143 to R145) -/

def filterKey (g sector : Nat) : Nat := g * 2 ^ 47 + sector

/-- The words of an access that its group's filter covers (R144). -/
def State.covered (s : State) (g sector : Nat) (cls : BitVec 3) : BitVec 8 :=
  match Tab.filter.at (filterKey g sector) s with
  | some e => match cls.toNat with
    | 0 => e.r ||| e.w
    | 1 => e.w
    | 6 => e.k ||| e.r ||| e.w
    | _ => 0
  | none => 0

/-- Enter acknowledged words into the filter; a full filter overflows for the rest of the interval (R145). -/
def filterAdd (g sector : Nat) (cls : BitVec 3) (m : BitVec 8) : Act := .read fun s =>
  match s.group? g with
  | none => .skip
  | some x =>
    if m == 0 || 2 ≤ cls.toNat && cls.toNat != 6 then .skip
    else
      let add (e : FilterEnt) : FilterEnt := match cls.toNat with
        | 0 => { e with r := e.r ||| m }
        | 1 => { e with w := e.w ||| m }
        | _ => { e with k := e.k ||| m }
      match Tab.filter.at (filterKey g sector) s with
      | some e => if x.overflowed then .skip else .put .filter (filterKey g sector) (add e)
      | none =>
        if x.overflowed || 512 ≤ (Sparse.range (filterKey g 0) (filterKey (g + 1) 0) s.filter).length then
          .put .groups g { x with overflowed := true }
        else .put .filter (filterKey g sector) (add { r := 0, w := 0, k := 0 })

/-! ## Atomic arithmetic (R162 to R164, R75) -/

/-- fadd of one element at the home slice: nearest even, subnormals kept, NV and OF only (R163). -/
def slicePlus (f : FFmt) (a b : Nat) : FRes :=
  let r := fpAdd f false .rne (f.value a) (f.value b)
  (r.1, (if r.1 == f.dnan && !(f.value a).isNan && !(f.value b).isNan then fNV else r.2 % 2) + (if bitAt r.2 2 then fOF else 0))

/-- The new value of an atomic on a word of `w` bits, with its flags. `tc` is the type code of R161. -/
def atomicNew (aop tc w old b c : Nat) : FRes :=
  match aop with
  | 0 => ((old + b) % 2 ^ w, 0)
  | 1 => match tc with
    | 2 => slicePlus fp32 old b
    | 3 => slicePlus fp64 old b
    | 4 => let l := slicePlus fp16 (old % 65536) (b % 65536); let h := slicePlus fp16 (old / 65536) (b / 65536)
           (h.1 * 65536 + l.1, h.2 ||| l.2)
    | _ => let l := slicePlus bf16 (old % 65536) (b % 65536); let h := slicePlus bf16 (old / 65536) (b / 65536)
           (h.1 * 65536 + l.1, h.2 ||| l.2)
  | 2 => (if b ≤ old then 0 else old + 1, 0)
  | 3 => (old &&& b, 0)
  | 4 => (old ||| b, 0)
  | 5 => (old ^^^ b, 0)
  | 6 => (if tc == 1 then (if sext w b < sext w old then b else old) else min old b, 0)
  | 7 => (if tc == 1 then (if sext w old < sext w b then b else old) else max old b, 0)
  | 8 => (b, 0)
  | _ => (if old == b then c else old, 0)

/-- The 64-bit fixed-point add of a converted contribution, saturating (R75). -/
def fixedAdd (old q : Nat) : FRes :=
  let t := sext 64 old + sext 64 q
  if Int.ofNat (2 ^ 63) ≤ t then (2 ^ 63 - 1, fFXS) else if t < -(Int.ofNat (2 ^ 63)) then (2 ^ 63, fFXS) else (wrap 64 t, 0)

/-- A contribution on the grid 2^FXE (R164): the integer, and its flags; a NaN gives 0. -/
def toGrid (f : FFmt) (fmt : Nat) (fxe : Int) (w : Nat) : FRes :=
  match readF f fmt false false w with
  | .nan _ _ _ => (0, fNV + fFXS)
  | .inf s => (if s then 2 ^ 63 else 2 ^ 63 - 1, fFXS)
  | .fin s m e =>
    if 80 ≤ Int.ofNat (Nat.log2 m) + e - fxe && m != 0 then (if s then 2 ^ 63 else 2 ^ 63 - 1, fFXS)
    else
      let q := (roundQ .rne s m e fxe).1
      if s then (if 2 ^ 63 < q then (2 ^ 63, fFXS) else (wrap 64 (-(Int.ofNat q)), 0))
      else (if 2 ^ 63 - 1 < q then (2 ^ 63 - 1, fFXS) else (q, 0))

/-! ## What a memory operation is -/

/-- The facts of a memory operation that its instruction fixes. -/
structure MemKind where
  write : Bool
  atomic : Bool
  cls : Cls
  scope : Scope
  size : Nat
  sizeCode : Nat
  signed : Bool
  kind : Nat
  aop : Nat
  tc : Nat
  vd : Nat
  uni : Bool
  nc : Bool

def memKind (i : Instr) : MemKind :=
  let m (f : MForm) (w a : Bool) : MemKind :=
    { write := w, atomic := a, cls := f.cls, scope := f.scope, size := f.size.bytes, sizeCode := f.size.code.toNat,
      signed := f.size == .i8 || f.size == .i16, kind := 0, aop := f.aop.toNat, tc := f.vc.toNat, vd := f.vd.toNat, uni := false,
      nc := f.nc }
  let u (w : Bool) (n c r : Nat) : MemKind :=
    { write := w, atomic := false, cls := .data, scope := .blk, size := n, sizeCode := c, signed := false, kind := 1, aop := 0, tc := 0,
      vd := r, uni := true, nc := false }
  match i with
  | .ld f => m f false false
  | .st f => m f true false
  | .atom f => m f true true
  | .sld _ d _ => u false 4 4 d.toNat
  | .sst _ d _ => u true 4 4 d.toNat
  | .brec _ d _ => u false 16 6 d.toNat
  | _ => u false 4 4 0

/-- The access size in bytes: 8 for fadd through an FX record (R164). -/
def Op.bytes (o : Op) : Nat :=
  let k := memKind o.instr
  if k.atomic && k.aop == 1 && (Buf.of o.brec).fx then 8 else k.size
/-- Fixed-point contributions (R75, R164). -/
def Op.fixed (o : Op) : Bool := let k := memKind o.instr; k.atomic && k.aop == 1 && (Buf.of o.brec).fx
def Op.isSync (o : Op) : Bool := (memKind o.instr).cls == .sync
def Op.needs (o : Op) : Need := let k := memKind o.instr; if k.atomic then .atomic else if k.write then .store else .load
def Op.asks (o : Op) : Ask := let k := memKind o.instr; if k.atomic then .atomic else if k.write then .store else .load
def Op.mark (o : Op) : BitVec 3 := let k := memKind o.instr; markClass k.cls k.write
/-- Not allocated in the L1 (R153). -/
def Op.uncached (o : Op) : Bool := (memKind o.instr).nc || (Buf.of o.brec).nt

/-- The step that brings an operation's response. -/
def responseOf (id : Nat) (i : Instr) : Instr :=
  match i with
  | .st _ => .writeIntentAnswer id
  | .sst _ _ _ => .writeIntentAnswer id
  | .atom _ => .atomicResponse id
  | _ => .loadResponse id

/-- The response to an operation whose checks have passed: the Ubpen link's, when it touches companion memory (R436). -/
def Op.answer (id : Nat) (o : Op) : Instr :=
  if o.lines.any (fun e => match e.2 with | .ok l => isCompanion (l * 128) | _ => false) then .companionResponse id .done
  else responseOf id o.instr

/-- A piece of a lane's access within one sector (R100): lane, virtual sector, first byte, length, offset within the lane's value. -/
structure Piece where
  lane : Nat
  vsec : Nat
  first : Nat
  len : Nat
  skip : Nat
  deriving DecidableEq, Repr

/-- Cut a lane's range at sector boundaries (R100). An access has at most two pieces. -/
def piecesOf (l : LaneAcc) (n : Nat) : List Piece :=
  let room := 32 - l.va % 32
  if n ≤ room then [{ lane := l.lane, vsec := l.va / 32, first := l.va % 32, len := n, skip := 0 }]
  else [{ lane := l.lane, vsec := l.va / 32, first := l.va % 32, len := room, skip := 0 },
        { lane := l.lane, vsec := (l.va + room) % 2 ^ 57 / 32, first := 0, len := n - room, skip := room }]

/-- The lanes of an operation that have not completed. -/
def Op.todo (o : Op) : List LaneAcc := o.lanes.filter fun l => o.unf.getLsbD l.lane
/-- The pieces of the lanes that have not completed. -/
def Op.pieces (o : Op) : List Piece := o.todo.flatMap fun l => piecesOf l o.bytes
def dedup (xs : List Nat) : List Nat := xs.foldl (fun acc x => if acc.contains x then acc else acc ++ [x]) []
/-- The virtual lines of an operation (R100). -/
def Op.vlines (o : Op) : List Nat := dedup (o.pieces.map fun p => p.vsec / 4)
def Op.lineTr (o : Op) (vline : Nat) : Option LineTr := (o.lines.find? fun e => e.1 == vline).map (·.2)
/-- The physical sector of a virtual sector, when its line has translated. -/
def Op.psec (o : Op) (vsec : Nat) : Option Nat :=
  match o.lineTr (vsec / 4) with
  | some (.ok l) => some (l * 4 + vsec % 4)
  | _ => none
/-- The lanes with a piece in a line that satisfies a test. -/
def Op.lanesIn (o : Op) (p : Nat → Bool) : BitVec 64 := maskOf ((o.pieces.filter fun x => p (x.vsec / 4)).map (·.lane))
/-- The lanes that are parked (R107). -/
def Op.parkedLanes (o : Op) : BitVec 64 := o.lanesIn fun l => match o.lineTr l with | some (.park _ _ _) => true | _ => false

/-! ## Ending an operation -/

/-- Remove the operations of a path that have ended, in issue order (R44).
[DEDUCED, log 116] -/
def reapPath (g path : Nat) : Act := .read fun s =>
  let mine := (s.opsOf g).filter fun e => e.2.path == some path
  .each (mine.takeWhile fun e => e.2.phase == .done) fun e => .del .ops e.1

/-- An operation completes: its counter falls when every earlier operation of its path has ended. -/
def endOp (id : Nat) : Act := .read fun s =>
  match Tab.ops.at id s with
  | some o => match o.path with
    | some p => .seq (.put .ops id { o with phase := .done }) (reapPath o.gid p)
    | none => .del .ops id
  | none => .skip

/-- An operation fails: its trap is taken at the points of R43. -/
def failOp (id : Nat) (f : Failure) : Act := .upd .ops id fun o => { o with phase := .failed, fail := some f }

/-- The lane's first byte in a line, as a virtual address. -/
def firstIn (o : Op) (lane vline : Nat) : Nat :=
  match o.pieces.find? fun p => p.lane == lane && p.vsec / 4 == vline with
  | some p => p.vsec * 32 + p.first
  | none => 0

/-- Blame for one lane and line of an operation (R109, R155). -/
def Op.blame (o : Op) (cause : BitVec 8) (lane vline : Nat) : Blame :=
  let k := memKind o.instr
  { kind := k.kind, cause := cause, write := k.write, cls := k.cls.code.toNat, lane := lane, size := k.sizeCode,
    va := firstIn o lane vline, oslot := 0xFFFF, ocls := 0, ostamp := 0 }

def opRecord (s : State) (o : Op) (b : Blame) : List (BitVec 32) :=
  recordOf b o.ctx o.inc o.slot.toNat (s.stampOf o.slot.toNat).toNat o.site s.window32

def opWords (s : State) (o : Op) : List (BitVec 32) :=
  match s.group? o.gid with | some x => taskWords x | none => [0xFFFFFFFF, 0, 0xFFFFFFFF, 0]

/-- The failure that an operation reports: the lowest lane that touches a bad sector, its lowest such sector by physical address (R155); conflicts
before capacity causes.
[DEDUCED, log 125] -/
def sectorFailure (s : State) (o : Op) : Option Failure :=
  let isConf (x : SecAcc) : Bool := match x.ans with | .conflict _ _ _ _ _ _ => true | _ => false
  let isCap (x : SecAcc) : Bool := match x.ans with | .capacity _ => true | _ => false
  let bad := if o.secs.any isConf then o.secs.filter isConf else o.secs.filter isCap
  let touches (p : Piece) (x : SecAcc) : Bool := p.vsec == x.vsector && (match x.ans with
    | .conflict _ _ _ _ w _ => (wordMask p.first p.len &&& w) != 0
    | _ => true)
  let cand := o.pieces.filter fun p => bad.any (touches p)
  match (cand.map (·.lane)).foldl (fun (a : Option Nat) l => match a with | some m => some (min m l) | none => some l) none with
  | none => none
  | some lane =>
    let mine := bad.filter fun x => cand.any fun p => p.lane == lane && touches p x
    match mine.foldl (fun (a : Option SecAcc) x => match a with | some y => some (if y.sector ≤ x.sector then y else x) | none => some x) none with
    | none => none
    | some x =>
      let b := o.blame 0 lane (x.vsector / 4)
      match x.ans with
      | .conflict cause sl c st _ org => some
        { cause := cause, frame := opRecord s o { b with cause := cause, oslot := sl.toNat, ocls := c.toNat, ostamp := st.toNat },
          words := opWords s o, origin := match org with | some v => word (2 ^ 24 + v.toNat) | none => 0 }
      | .capacity cause => some { cause := cause, frame := opRecord s o { b with cause := cause }, words := opWords s o, origin := 0 }
      | _ => none

/-! ## Parking (R106 to R108) -/

/-- Post a record to a context's fault ring when there is room, and the memory core's row grants the write (R112); the result of the test is
what `k` gets (R108). -/
def postFault (ctx : Nat) (ws : List (BitVec 32)) (k : Bool → Act) : Act := .read fun s =>
  let x := s.ctx ctx
  let n := x.frsize.toNat
  if ringOn n && (x.frtail.toNat + 1) % 2 ^ n != x.frhead.toNat % 2 ^ n &&
      s.fwMay 2 .store (x.frbase.toNat + 32 * (x.frtail.toNat % 2 ^ n)) 32 then
    .all [ writeHomeWords (x.frbase.toNat + 32 * (x.frtail.toNat % 2 ^ n)) ws,
           .put .ctxs ctx { x with frtail := BitVec.ofNat 20 ((x.frtail.toNat + 1) % 2 ^ n) }, k true ]
  else k false

/-- The record of one parked line of an operation (R107, R109). -/
def parkRecord (s : State) (o : Op) (vline : Nat) (cause : BitVec 8) (malformed : Bool) : List (BitVec 32) :=
  let lane := lowLane (o.lanesIn fun l => l == vline)
  let b := o.blame cause lane vline
  opRecord s o (if malformed then { b with size := 0x3F } else b)

/-- Post the records of an operation's parked lines that are not yet posted. -/
def postParks (id : Nat) : Act := .read fun s =>
  match Tab.ops.at id s with
  | none => .skip
  | some o => .each o.lines fun e => match e.2 with
    | .park cause bad false => .read fun s =>
        postFault o.ctx (parkRecord s o e.1 cause bad) fun ok =>
          if ok then .upd .ops id fun o => { o with lines := o.lines.map fun x => if x.1 == e.1 then (x.1, .park cause bad true) else x }
          else .due [.faultRecordPost o.ctx]
    | _ => .skip

/-! ## Performing an operation -/

/-- The bytes of a lane, read through `get` piece by piece, as a number. -/
def laneValue (get : Nat → BitVec 256) (o : Op) (l : LaneAcc) : Nat :=
  (piecesOf l o.bytes).foldl (fun a p => match o.psec p.vsec with
    | some sec => a + fld (get sec).toNat (8 * p.first) (8 * p.len) * 256 ^ p.skip
    | none => a) 0

/-- The registers that a value of `size` bytes fills for one lane, from the destination on; one or two bytes are extended to a register. -/
def loadedRegs (k : MemKind) (lane v : Nat) : List RegVal :=
  let x := if k.size == 1 && k.signed then wrap 32 (sext 8 v) else if k.size == 2 && k.signed then wrap 32 (sext 16 v) else v
  (List.range (max 1 (k.size / 4))).map fun i => { reg := k.vd + i, lane := lane, val := BitVec.ofNat 32 (x / 2 ^ (32 * i)) }
/-- The registers that a load or an atomic writes for one lane (R158, R162). -/
def loadRegs (o : Op) (lane v : Nat) : List RegVal := loadedRegs { memKind o.instr with size := o.bytes } lane v

/-- The lanes that the present pass completes: not completed and not parked. -/
def Op.passLanes (o : Op) : List LaneAcc := o.todo.filter fun l => !o.parkedLanes.getLsbD l.lane

/-- Give a loaded value to its destination: a lane register, or the uniform or buffer register of SLD and BREC. -/
def deliver (o : Op) (lane v : Nat) : Act :=
  match o.instr with
  | .sld _ d _ => wrS o.gid d.toNat (BitVec.ofNat 32 v)
  | .brec _ d _ => wrB o.gid d.toNat (BitVec.ofNat 128 v)
  | _ => .each (loadRegs o lane v) fun r => wrV o.gid r.reg r.lane r.val

/-- A read that the L1 serves: DATA, neither `.nc` nor through an NT record (R153). -/
def Op.cached (o : Op) : Bool := (memKind o.instr).cls == .data && !o.uncached
/-- The physical sectors that the pass touches, and its bytes of one. -/
def Op.passSecs (o : Op) : List Nat := dedup ((o.passLanes.flatMap fun l => piecesOf l o.bytes).filterMap fun p => o.psec p.vsec)
def Op.passBytes (o : Op) (sec : Nat) : BitVec 32 :=
  ((o.passLanes.flatMap fun l => piecesOf l o.bytes).filter fun p => o.psec p.vsec == some sec).foldl
    (fun m p => m ||| byteMask p.first p.len) 0
/-- What the pass of a load reads of a sector, by the class and the caching of its access (R69, R153). -/
def Op.reads (o : Op) (s : State) (sec : Nat) : BitVec 256 :=
  let core := coreOf o.gid
  if !isHomed (sec * 32) then s.outerSector sec
  else if o.cached then s.seen o.gid core sec (Buf.of o.brec).ro
  else if (memKind o.instr).cls == .data then s.pastL1 core sec
  else s.sectorAt sec

/-- Whether a lane of the pass crosses a sector boundary: its access is then two, which other parties' accesses may come between (R179). -/
def Op.crosses (o : Op) : Bool := o.passLanes.any fun l => 2 ≤ (piecesOf l o.bytes).length
/-- The sectors that a part of a pass performs: all of them (0), or the even-numbered (1) and then the odd-numbered ones (2) of a pass with a
lane that crosses from one to the next.
[DESIGN CHOICE, log 135] -/
def inPart (h sec : Nat) : Bool := h == 0 || sec % 2 + 1 == h
/-- What the part of a pass finds of a lane's value. -/
def Op.partValue (o : Op) (h : Nat) (s : State) (l : LaneAcc) : Nat := laneValue (fun sec => if inPart h sec then o.reads s sec else 0) o l

/-- The sectors that a part of a load reads arrive where it reads them: DATA through the L1, PEEK and SYNC at home (R153, R158). -/
def bringSectors (o : Op) (h : Nat) : Act :=
  let core := coreOf o.gid
  .each (o.passSecs.filter (inPart h)) fun sec =>
    if !isHomed (sec * 32) then .skip
    else if o.cached then touchSector o.gid core o.ctx o.inc sec (Buf.of o.brec).ro (o.passBytes sec)
    else .seq (.when ((memKind o.instr).cls != .data) (flushSector core sec)) (fetchSector sec)
/-- Read the pass's lanes from one state and write their destinations; the second part of a load adds what the first has read (R158,
R179). -/
def performLoad (o : Op) (h : Nat) : Act :=
  .seq (bringSectors o h)
    (.read fun s => .each o.passLanes fun l => deliver o l.lane ((if h == 2 then l.c else 0) + o.partValue h s l))
/-- The first part of a load keeps what it reads with its lanes. -/
def beginLoad (id : Nat) (o : Op) : Act :=
  .seq (bringSectors o 1) (.read fun s => .upd .ops id fun x => { x with lanes := x.lanes.map fun l => { l with c := o.partValue 1 s l } })

/-- Put a lane's value into the sectors it touches, through `put`. -/
def storeLane (put : Nat → BitVec 32 → BitVec 256 → Act) (o : Op) (l : LaneAcc) (v : Nat) : Act :=
  .each (piecesOf l o.bytes) fun p => match o.psec p.vsec with
    | some sec => put sec (byteMask p.first p.len) (BitVec.ofNat 256 (fld (v / 256 ^ p.skip) 0 (8 * p.len) * 256 ^ p.first))
    | none => .skip

/-- Store the pass's lanes, ascending: the highest lane wins (R6, R159); DATA into the L1 or through, SYNC at home (R153). -/
def performStore (o : Op) (h : Nat) : Act :=
  let core := coreOf o.gid
  let k := memKind o.instr
  .each o.passLanes fun l => storeLane (fun sec m d =>
      if !inPart h sec then .skip
      else if !isHomed (sec * 32) then writeOuter core sec m d
      else if k.cls != .data then .seq (flushSector core sec) (writeSector sec m d)
      else if o.uncached then storeThrough core sec m d
      else storeDirty core o.ctx o.inc sec m d) o l l.b

/-- The sector operations of an atomic: lanes in ascending order, each seeing the lanes before it (R74, R162). -/
def performAtomic (o : Op) : Act :=
  let core := coreOf o.gid
  let k := memKind o.instr
  let n := o.bytes
  .each o.passLanes fun l =>
    .seq (.each (dedup ((piecesOf l n).filterMap fun p => o.psec p.vsec)) fun sec =>
        if isHomed (sec * 32) then .seq (flushSector core sec) (fetchSector sec) else .skip)
      (.read fun s =>
        let old := laneValue s.sectorAt o l
        let r := if o.fixed then fixedAdd old l.b else atomicNew k.aop k.tc (8 * n) old l.b l.c
        .all [ storeLane writeSector o l r.1, .when (k.vd != 255) (deliver o l.lane old), orFlags o.gid (BitVec.ofNat 6 r.2) ])

/-- Whether the L1 serves the pass of a read at a sector without its home slice (R149, R153). -/
def Op.hits (o : Op) (s : State) (sec : Nat) : Bool :=
  let va := match s.group? o.gid with | some x => x.va | none => 0
  o.cached && !(memKind o.instr).write && l1Hit s (coreOf o.gid) sec (Buf.of o.brec).ro va (o.passBytes sec)
/-- Whether the pass consumes poisoned data (R62): reads at the home slice and atomics do; a store does not. -/
def consumesPoison (s : State) (o : Op) : Bool :=
  let k := memKind o.instr
  (k.atomic || !k.write) && o.passSecs.any fun sec => s.poisoned sec && !o.hits s sec
/-- Whether the pass sends a request to a home slice at a sector: every access but a DATA access that the L1 serves (R153). -/
def Op.asksHome (o : Op) (s : State) (sec : Nat) : Bool :=
  isHomed (sec * 32) && !(o.cached && ((memKind o.instr).write || o.hits s sec))
/-- A request of the pass arrives at a home slice where its tag is stale: it is dropped, and no response comes (R71). -/
def Op.dropped (o : Op) (s : State) : Bool :=
  o.passSecs.any fun sec => o.asksHome s sec && s.stale (.slice (homeSlice (sec * 32))) o.ctx o.inc
/-- A read of the pass has to fetch a sector from a stack whose channel is paused: it waits at the controller (R408). -/
def Op.heldUp (o : Op) (s : State) : Bool :=
  o.passSecs.any fun sec => o.asksHome s sec && !((memKind o.instr).write && !(memKind o.instr).atomic) && !s.held? sec && s.pausedAt (sec * 32)

/-- Bytes of a sector that an operation's lanes touch. -/
def Op.touched (o : Op) (vsec : Nat) : BitVec 32 :=
  (o.pieces.filter fun p => p.vsec == vsec).foldl (fun m p => m ||| byteMask p.first p.len) 0

/-- Take an operation's pending bytes away (R146). -/
def clearPending (o : Op) : Act :=
  .when ((memKind o.instr).write && !(memKind o.instr).atomic) (.each o.secs fun x =>
    .seq (setPending (coreOf o.gid) o.ctx o.inc x.sector (o.touched x.vsector) false) (trimSet (coreOf o.gid) (x.sector / 4)))

/-- The lanes of the pass are done: parked lanes remain, else the operation completes. A SYNC operation ends its interval (R158,
R159, R169). -/
def closePass (id : Nat) (o : Op) : Act :=
  let parked := o.parkedLanes
  let k := memKind o.instr
  if parked == 0 then
    .seq (.when (k.cls == .sync)
        (.seq (endInterval o.gid) (.when (k.atomic || !k.write) (acquireAt o.gid (some k.scope)))))
      (.seq (orFlags o.gid o.flags) (endOp id))
  else .seq (.put .ops id { o with phase := .parked, unf := parked, secs := [] }) (postParks id)

/-! ## Beside the effect: escapes, watchpoints, the journal -/

/-- Whether an operation's lanes are journaled (R423). -/
def Op.journaled (o : Op) : Bool :=
  let k := memKind o.instr
  k.cls == .sync || k.cls == .swap || k.cls == .peek || ((k.cls == .add || k.cls == .logic) && k.vd != 255) ||
  (k.atomic && k.aop == 1 && !o.fixed)
/-- How many journaled events an operation is. -/
def Op.events (o : Op) : Nat := if o.journaled then o.lanes.length else 0

/-- The journal at the lanes of a pass, ascending: what the events that may be performed do, and the lanes that are held (R425).
[DEDUCED, log 49] -/
def journalLanes (o : Op) (lid : Nat) (l : Launch) (linear gidx : Nat) : List (LaneAcc × Nat) → State → Act × BitVec 64
  | [], _ => (.skip, 0)
  | (x, i) :: rest, s =>
    match journalAsk s lid l { head := 2 ^ 60 + x.va, linear := linear, gidx := gidx, jseq := o.jseq + i, w16 := 0, w20 := 0 } with
    | .go a => let r := journalLanes o lid l linear gidx rest (a.run s); (.seq a r.1, r.2)
    | .hold => let r := journalLanes o lid l linear gidx rest s; (r.1, r.2 ||| laneBit x.lane)
def Op.journal (s : State) (o : Op) : Act × BitVec 64 :=
  match s.blockOf o.gid, s.launchOf o.gid, s.group? o.gid with
  | some b, some l, some x =>
    if l.journals && o.journaled then
      journalLanes o b.lid l b.linear x.gidx ((o.lanes.zipIdx).filter fun e => o.passLanes.contains e.1) s
    else (.skip, 0)
  | _, _, _ => (.skip, 0)

/-- Which part of its pass a load or a store performs next (R179); the accesses of a journaled one are single events. -/
def Op.part (s : State) (o : Op) : Nat :=
  if o.prog != 0 then 2
  else if o.crosses && !(memKind o.instr).atomic && !(o.journaled && (match s.launchOf o.gid with | some l => l.journals | none => false)) then 1
  else 0

/-- What an operation is to a watchpoint (R413). -/
def MemKind.touch (k : MemKind) : Touch := if k.atomic then .atomic else if k.write then .write else .read

/-- Whether performing an operation is an escape (R400). -/
def Op.escapes (o : Op) : Bool :=
  let k := memKind o.instr
  k.cls == .add || k.cls == .logic || k.cls == .swap || (k.cls == .sync && k.write && Scope.wide k.scope) ||
  o.lines.any fun e => match e.2 with
    | .ok l => !isHomed (l * 128)
    | _ => false

/-- The watchpoints and escapes of the lanes that a pass performs. -/
def leaveTraces (s : State) (id : Nat) (o : Op) : Act :=
  let k := memKind o.instr
  .seq (.when o.escapes (escape o.gid))
    (watchDie o.gid (some id) (dieOf (coreOf o.gid)) o.ctx k.touch (o.passLanes.map fun l => { lane := l.lane, va := l.va, n := o.bytes })
      fun lane va => opRecord s o { o.blame 0x51 lane 0 with va := va })

/-- The stage 4 failure of a physical line of an operation, if any; the link performs no b128 atomic (R112, R436). -/
def Op.lineFault (o : Op) (s : State) (l : Nat) : Option (BitVec 8) :=
  if isCompanion (l * 128) && (memKind o.instr).atomic && o.bytes == 16 then some 0x14
  else s.accessFault (coreOf o.gid) o.asks (l * 128) 128
/-- The response to an operation: every check of its pass has been answered (R76, R144, R146, R162, R366, R367). None comes for a request
that a slice has dropped (R71); a SYNC operation, which ends its interval, waits for the registrations of the others (R147). A pass with a lane
that crosses a sector boundary is performed in two parts (R179). -/
def respond (id : Nat) : Act := .read fun s =>
  match Tab.ops.at id s with
  | none => .skip
  | some o =>
    if o.phase != .responding then .skip
    else
      let k := memKind o.instr
      let acked := o.secs.filter fun x => x.ans == .ack
      let denied := o.lines.any fun e => match e.2 with
        | .ok l => (o.lineFault s l).isSome
        | _ => false
      let failed := o.secs.any fun x => match x.ans with
        | .conflict _ _ _ _ _ _ => true | .capacity _ => true | _ => false
      let later := k.cls == .sync && o.parkedLanes == 0 && (s.opsOf o.gid).any fun e => e.1 != id && e.2.unanswered && !e.2.isSync
      if o.dropped s then .skip
      else if o.heldUp s || later then .due [o.answer id]
      else .all [ .when (o.prog == 0) (clearPending o),
             .each acked fun x => filterAdd o.gid x.sector o.mark x.need,
             if o.parkedLanes != 0 && (failed || denied) then
               .seq (.put .ops id { o with phase := .parked, secs := [] }) (postParks id)
             else if failed then .with? (sectorFailure s o) fun f => failOp id f
             else if consumesPoison s o then .seq (.put .ops id { o with phase := .waiting }) (.due [.rollback o.bid])
             else if o.part s == 1 then
               .all [ .put .ops id { o with prog := 1 }, if k.write then performStore o 1 else beginLoad id o, .due [o.answer id] ]
             else
               let j := o.journal s
               let o' := { o with unf := o.unf &&& ~~~j.2 }
               .all [ j.1, if k.atomic then performAtomic o' else if k.write then performStore o' (o.part s) else performLoad o' (o.part s),
                      leaveTraces s id o',
                      if j.2 == 0 then closePass id o
                      else .seq (.put .ops id { o with phase := .waiting, unf := j.2 ||| o.parkedLanes }) (.due [.journalRelease id]) ] ]

/-! ## Sending the checks (stages 4 and 5) -/

/-- The sectors of the lines that translated and may be accessed, with the words that must register (R144). -/
def planSectors (s : State) (o : Op) : List SecAcc :=
  let b := Buf.of o.brec
  let vsecs := dedup (o.pieces.map (·.vsec))
  vsecs.filterMap fun v => match o.psec v with
    | none => none
    | some sec =>
      if (s.accessFault (coreOf o.gid) o.asks (sec / 4 * 128) 128).isSome then none
      else
        let words := (o.pieces.filter fun p => p.vsec == v).foldl (fun m p => m ||| wordMask p.first p.len) 0
        let need := if b.ro || !isHomed (sec * 32) then 0 else words &&& ~~~(s.covered o.gid sec o.mark)
        some { sector := sec, vsector := v, words := words, need := need, ans := if need == 0 then .none else .sent }

/-- Whether origins are tracked for a launch, and the origin of an operation (R82, R354). -/
def originOf (s : State) (o : Op) : Option (BitVec 24) :=
  match s.launchOf o.gid with
  | some l => if l.flags.getLsbD 1 then some (o.site.extractLsb' 0 24) else none
  | none => none

/-- The access-table or fabric failure of stage 4, by the lowest failing lane (R112, R366). -/
def stage4Fault (s : State) (o : Op) : Option Failure :=
  let bad := o.vlines.filterMap fun v => match o.lineTr v with
    | some (.ok l) => (o.lineFault s l).map fun c => (v, c)
    | _ => none
  match bad with
  | [] => none
  | _ =>
    let lane := lowLane (o.lanesIn fun l => bad.any fun e => e.1 == l)
    match bad.find? fun e => (o.lanesIn fun l => l == e.1).getLsbD lane with
    | some e => some { cause := e.2, frame := opRecord s o (o.blame e.2 lane e.1), words := opWords s o, origin := 0 }
    | none => none

/-- Every check has passed, and the operation's accesses are sent. The window in which a remote write is sent is the group's N_last
(R183). -/
def sendAccesses (id : Nat) : Act := .read fun s =>
  match Tab.ops.at id s with
  | some o => .seq (.when (o.remote && (memKind o.instr).write) (.upd .groups o.gid fun x => { x with nlast := some s.dev.window }))
      (.due [o.answer id])
  | none => .skip
/-- Every line has translated or parked: access tables, then registrations (R366, R367). A write intent's bytes are pending in the L1, those
of a write that the L1 does not hold are not (R146, R153). -/
def sendChecks (id : Nat) : Act := .read fun s =>
  match Tab.ops.at id s with
  | none => .skip
  | some o =>
    match (if o.parkedLanes == 0 then stage4Fault s o else none) with
    | some f => failOp id f
    | none =>
      let secs := planSectors s o
      let k := memKind o.instr
      let waits := secs.any fun x => x.ans == .sent
      let stamp := s.stampOf o.slot.toNat
      .all [ .put .ops id { o with
               secs := secs, stamp := stamp, phase := if waits then .checking else .responding,
               remote := o.lines.any (fun e => match e.2 with
                                 | .ok l => (peerOf (l * 128)).isSome
                                 | _ => false) },
             .when (k.write && o.cached && !k.atomic) (.each (secs.filter fun x => x.ans == .sent) fun x =>
               setPending (coreOf o.gid) o.ctx o.inc x.sector (o.touched x.vsector) true),
             .each (secs.filter fun x => x.ans == .sent) fun x => .fresh fun r =>
               .seq (.put .reqs r { op := id, sector := x.sector, slot := o.slot, stamp := stamp, cls := o.mark, mask := x.need, ctx := o.ctx,
                                    inc := o.inc, origin := originOf s o, phase := .sent })
                 (.due [.registration r]),
             .when (!waits) (sendAccesses id) ]

/-- When the last sector of an operation has been answered, its response follows. -/
def settleChecks (id : Nat) : Act := .read fun s =>
  match Tab.ops.at id s with
  | some o =>
    .when (o.phase == .checking && !(o.secs.any fun x => x.ans == .sent))
      (.seq (.put .ops id { o with phase := .responding }) (sendAccesses id))
  | none => .skip

/-! ## Translating an operation's lines (R101 to R107) -/

/-- What a translation means for a line of an operation. -/
def lineOf (n : Need) (r : Except XFail Xlat) : LineTr :=
  match r with
  | .error e => .park e.cause e.malformed false
  | .ok x => if n.met x then .ok (x.pa / 128) else .park 0x11 false false

/-- Start, or start again, the lanes of an operation that have not completed: lines that hit a TLB with the rights they need translate at once, the
others wait for a walk (a failing result is never cached), one walk for each 4 KiB region of the context on the die (R104, R105, R110). -/
def startOp (id : Nat) : Act := .read fun s =>
  match Tab.ops.at id s with
  | none => .skip
  | some o =>
    let core := coreOf o.gid
    let step (v : Nat) : Act := .read fun s =>
      let add (t : LineTr) : Act := .upd .ops id fun o => { o with lines := o.lines ++ [(v, t)] }
      match (s.tlb core o.ctx o.inc (v * 128)).filter o.needs.met with
      | some x => add (lineOf o.needs (.ok x))
      | none =>
        match s.walks.find? fun e => e.2.ctx == o.ctx && e.2.inc == o.inc && e.2.page == v / 32 && e.2.die == dieOf core with
        | some e => add (.walking e.1)
        | none => .fresh fun w => .all
          [ .put .walks w { die := dieOf core, core := core, ctx := o.ctx, inc := o.inc, page := v / 32 }, .due [.pageTableWalk w],
            add (.walking w) ]
    .all [ .put .ops id { o with lines := [], secs := [], phase := .walking, fail := none, prog := 0 },
           .each o.vlines step,
           .read fun s => match Tab.ops.at id s with
             | some o => .when (!(o.lines.any fun e => match e.2 with | .walking _ => true | _ => false)) (sendChecks id)
             | none => .skip ]

/-- PAGE_TABLE_WALK (R105): the walk's answer fills the TLBs when it serves an access, and goes to every line that waits for it. -/
def finishWalk (w : Nat) : Act := .read fun s =>
  match Tab.walks.at w s with
  | none => .skip
  | some k =>
    let waiters := s.ops.filter fun e => e.2.lines.any fun l => l.2 == .walking w
    if 256 ≤ (s.walks.filter fun e => e.1 < w && e.2.die == k.die).length then .due [.pageTableWalk w]
    else if s.stale (.tlb (clusterOf k.core)) k.ctx k.inc then .seq (.del .walks w) (.each waiters fun e => .del .ops e.1)
    else
      let r := s.translate k.ctx (k.page * 4096)
      .all [ .del .walks w,
             (match r with
              | .ok x => .when (waiters.any fun e => e.2.needs.met x) (.seq (tlbEnter .tlb1 1 128 k.core k.ctx k.inc (k.page * 4096) x)
                  (tlbEnter .tlb2 512 8 (clusterOf k.core) k.ctx k.inc (k.page * 4096) x))
              | .error _ => .skip),
             .each waiters fun e => .seq
               (.upd .ops e.1 fun o => { o with lines := o.lines.map fun l => if l.2 == .walking w then
                   (l.1, lineOf o.needs (match r with | .ok x => .ok { x with pa := x.pa + (l.1 * 128) % 4096 } | .error f => .error f)) else l })
               (.read fun s => match Tab.ops.at e.1 s with
                 | some o => .when (!(o.lines.any fun l => match l.2 with | .walking _ => true | _ => false)) (sendChecks e.1)
                 | none => .skip) ]

end Sys2Proof.Machine
end

