-- ==== Sys2Proof/Machine/Operands.lean ====
section
/-! DEFINITION. Operand forms: which lane registers and tiles an instruction names (R32, R42, R200), the checks of R53 that depend on
the group (R54), reading sources of every code and type (R29), element layouts (R201, R229), shape words (R31), and the frames that
every U-form, L-form and X-form meaning stands in. -/

namespace Sys2Proof

/-! ## Registers that an instruction names -/

/-- Words of an operand: a pair or one register. -/
def words (wide : Bool) : Nat := if wide then 2 else 1
def nameOf (r : BitVec 8) (n : Nat) : List (Nat × Nat) := [(r.toNat, n)]
def nameSrc (c : Src) (r : BitVec 8) (n : Nat) : List (Nat × Nat) := if c.isReg then [(r.toNat, n)] else []

def IForm.names2 (f : IForm) : List (Nat × Nat) :=
  nameOf f.vd (words f.ty.is64) ++ nameOf f.va (words f.ty.is64) ++ nameSrc f.vbs f.vb (words f.ty.is64)
def IForm.names1 (f : IForm) : List (Nat × Nat) := nameOf f.vd (words f.ty.is64) ++ nameOf f.va (words f.ty.is64)
def IForm.names3 (f : IForm) : List (Nat × Nat) := f.names2 ++ nameSrc f.vcs f.vc (words f.ty.is64)
def IForm.namesLut (f : IForm) : List (Nat × Nat) := f.names3 ++ (if f.opBit 0 then [(f.x32.toNat % 256, 1)] else [])
def FForm.names1 (f : FForm) : List (Nat × Nat) := nameOf f.vd (words f.ty.is64) ++ nameOf f.va (words f.ty.is64)
def FForm.names2 (f : FForm) : List (Nat × Nat) := f.names1 ++ nameSrc f.vbs f.vb (words f.ty.is64)

/-- Elements per register of the source and the destination of FCVT (R247, R248). -/
def FForm.cvtEs (f : FForm) : Nat := let c := CvtFields.ofWord f.x32; if c.sn then fmtPerReg c.st else f.ty.count
def FForm.cvtTo (f : FForm) : FTy := (FTy.ofCode (CvtFields.ofWord f.x32).dt).getD .f32
def FForm.cvtEd (f : FForm) : Nat := let c := CvtFields.ofWord f.x32; if c.dn then fmtPerReg c.dt else f.cvtTo.count
def FForm.cvtWide (f : FForm) : Bool := !(CvtFields.ofWord f.x32).dn && f.cvtTo.is64
/-- The integer type of FCVTI and ICVTF (R249). -/
def FForm.ity (f : FForm) : ITy := ITy.ofCode (f.x32.toNat % 8)

/-- The lane registers of the data operand of a memory access (R157). -/
def sizeWords (z : Size) : Nat := max 1 (z.bytes / 4)
/-- Register names of LD, ST, ATOM and their Gallery forms. -/
def memNames (write atomic uidx cas : Bool) (z : Size) (vd va vb vc : BitVec 8) : List (Nat × Nat) :=
  (if uidx then [] else nameOf va 1) ++ (if write then nameOf vb (sizeWords z) else nameOf vd (sizeWords z)) ++
  (if atomic && vd != 255 then nameOf vd (sizeWords z) else []) ++ (if cas then nameOf vc (sizeWords z) else [])

namespace Machine

/-- The lane registers that an instruction names, as first register and count (R42, R200). -/
def laneNames (i : Instr) : List (Nat × Nat) :=
  match i with
  | .vadd f => f.names2 | .vsub f => f.names2 | .vmul f => f.names2 | .vmulh f => f.names2
  | .vmad f => f.names3 | .vaddc f => f.names2 | .vand f => f.names2 | .vor f => f.names2 | .vxor f => f.names2
  | .vshl f => f.names2 | .vshr f => f.names2 | .vfsh f => f.names3 | .vmin f => f.names2 | .vmax f => f.names2
  | .vabs f => f.names1
  | .vcmp f => nameOf f.va (words f.ty.is64) ++ nameSrc f.vbs f.vb (words f.ty.is64)
  | .vsel f => f.names2
  | .vmov f => nameOf f.vd (words f.ty.is64) ++ nameSrc f.vbs f.vb (words f.ty.is64)
  | .vpopc f => f.names1 | .vclz f => f.names1 | .vbrev f => f.names1
  | .vbfe f => f.names2 | .vbfi f => f.names3
  | .vlut3 f => f.namesLut | .vlut4 f => f.namesLut
  | .vdot4 f => f.names3
  | .vcvti f => nameOf f.vd (words f.cvtTo.is64) ++ nameOf f.va (words f.ty.is64) ++
      (match f.cvtPair with | some (true, _) => nameSrc f.vbs f.vb (words f.ty.is64) | _ => [])
  | .vprm f => f.names3
  | .vlane f => nameOf f.vd (words f.ty.is64)
  | .vshfl f => f.names1 ++ nameSrc f.vbs f.vb 1
  | .vballot f => nameOf f.vd (words f.ty.is64)
  | .vredux f => f.names1 | .vmatch f => f.names1 | .vscan f => f.names1
  | .vbcast f => nameOf f.va (words f.ty.is64) ++ (if f.opBit 0 then [] else nameOf f.vd (words f.ty.is64))
  | .vfirst f => if f.opBit 4 then [] else nameOf f.vd 1
  | .fadd f => f.names2 | .fsub f => f.names2 | .fmul f => f.names2
  | .ffma f => f.names2 ++ nameOf f.vc (words f.ty.is64)
  | .fmin f => f.names2 | .fmax f => f.names2
  | .fcmp f => nameOf f.va (words f.ty.is64) ++ nameSrc f.vbs f.vb (words f.ty.is64)
  | .frcp f => f.names1 | .frsq f => f.names1 | .fsqrt f => f.names1 | .fdiv f => f.names2
  | .fexp2 f => f.names1 | .flog2 f => f.names1 | .fsin f => f.names1 | .fcos f => f.names1 | .ftanh f => f.names1
  | .fcvt f => nameOf f.vd (words f.cvtWide) ++ nameOf f.va (words (!(CvtFields.ofWord f.x32).sn && f.ty.is64)) ++
      (if f.cvtEs < f.cvtEd then nameSrc f.vbs f.vb (words (!(CvtFields.ofWord f.x32).sn && f.ty.is64)) else [])
  | .fcvti f => nameOf f.vd (words f.ity.is64) ++ nameOf f.va (words f.ty.is64) ++
      (if f.ty.count < f.ity.count then nameSrc f.vbs f.vb (words f.ty.is64) else [])
  | .icvtf f => nameOf f.vd (words f.ty.is64) ++ nameOf f.va (words f.ity.is64) ++
      (if f.ity.count < f.ty.count then nameSrc f.vbs f.vb (words f.ity.is64) else [])
  | .fclass f => nameOf f.va (words f.ty.is64)
  | .frnd f => f.names1
  | .fscale f => f.names1 ++ nameSrc f.vbs f.vb 1
  | .fquant f => nameOf f.vd 1 ++ nameOf f.va 1 ++ nameSrc f.vbs f.vb 1 ++ nameOf f.vc 1
  | .fdeq f => nameOf f.vd 1 ++ nameOf f.va 1 ++ nameOf f.vc 1
  | .fflags f => if f.x32.toNat % 4 == 0 then nameOf f.vd 1 else []
  | .ld f => memNames false false f.uidx false f.size f.vd f.va f.vb f.vc
  | .st f => memNames true false f.uidx false f.size f.vd f.va f.vb f.vc
  | .atom f => memNames true true f.uidx (f.aop == 9) f.size f.vd f.va f.vb f.vc
  | .ldg f => memNames false false f.uidx false f.size f.vd f.va f.vb f.vc
  | .stg f => memNames true false f.uidx false f.size f.vd f.va f.vb f.vc
  | .atg f => memNames true true f.uidx (f.aop == 9) f.size f.vd f.va f.vb f.vc
  | .pref f => if f.uidx then [] else nameOf f.va 1
  | .trd f => nameOf f.vd (2 ^ f.n.toNat)
  | .twr f => nameOf f.va (2 ^ f.n.toNat)
  | _ => []

/-- The markers of shape words. -/
def shapeUniforms (w : Shape) : List (Nat × Nat) :=
  ([w.w0, w.w1, w.w2, w.w3].filter fun x => x.getLsbD 31).map fun x => (x.toNat % 64, 1)
def two (wide : Bool) : Nat := if wide then 2 else 1
def umemNames (m : UMem) : List (Nat × Nat) := [(m.sa.toNat, 1)]
/-- The fields of an integer or logic instruction. -/
def Instr.iform? : Instr → Option IForm
  | .vadd f => some f | .vsub f => some f | .vmul f => some f | .vmulh f => some f | .vmad f => some f
  | .vaddc f => some f | .vand f => some f | .vor f => some f | .vxor f => some f | .vshl f => some f
  | .vshr f => some f | .vfsh f => some f | .vmin f => some f | .vmax f => some f | .vabs f => some f
  | .vcmp f => some f | .vsel f => some f | .vmov f => some f | .vpopc f => some f | .vclz f => some f
  | .vbrev f => some f | .vbfe f => some f | .vbfi f => some f | .vlut3 f => some f | .vlut4 f => some f
  | .vdot4 f => some f | .vcvti f => some f | .vprm f => some f | .vlane f => some f | .plog f => some f
  | .vshfl f => some f | .vballot f => some f | .vvote f => some f | .vredux f => some f | .vmatch f => some f
  | .vscan f => some f | .vbcast f => some f | .vfirst f => some f
  | _ => none
/-- The fields of a float instruction. -/
def Instr.fform? : Instr → Option FForm
  | .fadd f => some f | .fsub f => some f | .fmul f => some f | .ffma f => some f | .fmin f => some f
  | .fmax f => some f | .fcmp f => some f | .frcp f => some f | .frsq f => some f | .fsqrt f => some f
  | .fdiv f => some f | .fexp2 f => some f | .flog2 f => some f | .fsin f => some f | .fcos f => some f
  | .ftanh f => some f | .fcvt f => some f | .fcvti f => some f | .icvtf f => some f | .fclass f => some f
  | .frnd f => some f | .fscale f => some f | .fquant f => some f | .fdeq f => some f | .fflags f => some f
  | _ => none
/-- The uniform registers that a lane instruction names: sources, markers, uniform destinations. -/
def lformUniforms (i : Instr) : List (Nat × Nat) :=
  match i with
  | .vbcast f => (if f.opBit 0 then [(f.vd.toNat, 2)] else []) ++ (if f.vbs == .unif then [(f.vb.toNat, 1)] else [])
  | .vfirst f => if f.opBit 4 then [(f.vd.toNat, 1)] else []
  | .ld f => if f.uidx then [(f.va.toNat, 1)] else []
  | .st f => if f.uidx then [(f.va.toNat, 1)] else []
  | .atom f => if f.uidx then [(f.va.toNat, 1)] else []
  | .pref f => if f.uidx then [(f.va.toNat, 1)] else []
  | .ldg f => if f.uidx then [(f.va.toNat, 1)] else []
  | .stg f => if f.uidx then [(f.va.toNat, 1)] else []
  | .atg f => if f.uidx then [(f.va.toNat, 1)] else []
  | .mma f => shapeUniforms f.shape
  | .tload f => shapeUniforms f.shape
  | .tdrain f => shapeUniforms f.shape
  | .cpy f => [(f.vc.toNat, 1)] ++ shapeUniforms f.shape
  | .cpymc f => (if f.dir == 1 || f.dir == 2 then [] else [(f.vd.toNat, 1)]) ++ [(f.vc.toNat, 1)] ++ shapeUniforms f.shape
  | .cpyred f => [(f.vc.toNat, 1)] ++ shapeUniforms f.shape
  | i =>
    (match Instr.iform? i with
     | some f => (if f.vbs == .unif then [(f.vb.toNat, two f.ty.is64)] else []) ++ (if f.vcs == .unif then [(f.vc.toNat, two f.ty.is64)] else [])
     | none => []) ++
    (match Instr.fform? i with
     | some f => if f.vbs == .unif then [(f.vb.toNat, 2)] else []
     | none => [])
/-- The uniform registers that an instruction names, as ranges. -/
def uniNames (i : Instr) : List (Nat × Nat) :=
  let r3 (d a b : BitVec 6) (w wb : Bool) : List (Nat × Nat) := [(d.toNat, two w), (a.toNat, two w), (b.toNat, two wb)]
  match i with
  | .sadd _ d a b w => r3 d a b w w
  | .ssub _ d a b w => r3 d a b w w
  | .smul _ d a b _ _ w => r3 d a b w w
  | .sand _ d a b w => r3 d a b w w
  | .sor _ d a b w => r3 d a b w w
  | .sxor _ d a b w => r3 d a b w w
  | .sshl _ d a b w => r3 d a b w false
  | .sshr _ d a b _ w => r3 d a b w false
  | .smin _ d a b _ w => r3 d a b w w
  | .smax _ d a b _ w => r3 d a b w w
  | .scmp _ _ a b w _ _ => [(a.toNat, two w), (b.toNat, two w)]
  | .ssel _ d a b _ => r3 d a b false false
  | .saddi _ d _ => [(d.toNat, 1)]
  | .smovi _ d _ => [(d.toNat, 1)]
  | .smovh _ d _ => [(d.toNat, 1)]
  | .sandi _ d _ => [(d.toNat, 1)]
  | .sori _ d _ => [(d.toNat, 1)]
  | .sxori _ d _ => [(d.toNat, 1)]
  | .sld _ d m => (d.toNat, 1) :: umemNames m
  | .sst _ d m => (d.toNat, 1) :: umemNames m
  | .movs _ d _ => [(d.toNat, 1)]
  | .sets _ d _ => [(d.toNat, 1)]
  | .sfmt _ a _ => [(a.toNat, 1)]
  | .brec _ _ m => umemNames m
  | .brecl _ _ a => [(a.toNat, 4)]
  | .brecx _ _ m => umemNames m
  | .call _ _ _ _ => [(62, 1)]
  | .ret _ => [(62, 1)]
  | .jmpi _ a => [(a.toNat, 1)]
  | .waitc _ _ n => [(n.toNat, 1)]
  | .tinfo _ d _ => [(d.toNat, 1)]
  | .barc n _ _ => [(n.toNat, 1)]
  | .rollset _ n _ => [(n.toNat, 1)]
  | .rollarv _ n _ => [(n.toNat, 1)]
  | .tspawn _ d m => (d.toNat, 1) :: umemNames m
  | .twait d m => (d.toNat, 2) :: umemNames m
  | .tfill _ d m => (d.toNat, 2) :: umemNames m
  | .lkacq m => umemNames m
  | .lkrel _ m => umemNames m
  | .qpush d m => (d.toNat, 4) :: umemNames m
  | .qpop d m => (d.toNat, 4) :: umemNames m
  | .qreg _ m => umemNames m
  | i => lformUniforms i

/-- The buffer registers that an instruction names. -/
def bufNames (i : Instr) : List Nat :=
  let sides (f : CopyForm) : List Nat :=
    (if f.dir == 0 || f.dir == 2 then [f.va.toNat % 16] else []) ++ (if f.dir == 1 || f.dir == 2 then [f.vd.toNat % 16] else [])
  match i with
  | .ld f => [f.buf.toNat]
  | .st f => [f.buf.toNat]
  | .atom f => [f.buf.toNat]
  | .pref f => [f.buf.toNat]
  | .tload f => if f.mem then [f.buf.toNat] else []
  | .tdrain f => if f.mem then [f.buf.toNat] else []
  | .cpy f => sides f
  | .cpymc f => sides f
  | .cpyred f => sides f
  | .sld _ _ m => [m.buf.toNat]
  | .sst _ _ m => [m.buf.toNat]
  | .brec _ d m => [d.toNat, m.buf.toNat]
  | .brecl _ d _ => [d.toNat]
  | .brecx _ d m => [d.toNat, m.buf.toNat]
  | .tspawn _ _ m => [m.buf.toNat]
  | .twait _ m => [m.buf.toNat]
  | .tfill _ _ m => [m.buf.toNat]
  | .lkacq m => [m.buf.toNat]
  | .lkrel _ m => [m.buf.toNat]
  | .qpush _ m => [m.buf.toNat]
  | .qpop _ m => [m.buf.toNat]
  | .qreg _ m => [m.buf.toNat]
  | _ => []
/-- The guard predicate of an instruction, when it has one. -/
def guardNames (i : Instr) : List Nat := match i.head? with | some h => if h.guard == 7 then [] else [h.guard.toNat] | none => []

/-- The tiles that an instruction names (R32). -/
def tileNames (i : Instr) : List Nat :=
  match i with
  | .trd f => [f.va.toNat]
  | .twr f => [f.vd.toNat]
  | .tzero f => [f.vd.toNat]
  | .mma f => [f.tile.toNat]
  | .tload f => [f.tile.toNat]
  | .tdrain f => [f.tile.toNat]
  | _ => []

/-! ## The checks of R53 that depend on the group -/

/-- Whether two register ranges meet. -/
def overlaps (a b : Nat × Nat) : Bool := a.1 < b.1 + b.2 && b.1 < a.1 + a.2

/-- The outstanding producer of a split whose destination meets one of the names (R42).
[DESIGN CHOICE, log 23] -/
def State.earlyRead (s : State) (sp : Split) (names : List (Nat × Nat)) : Option (Nat × Op) :=
  sp.outs.findSome? fun o => match Tab.ops.at o.op s with
    | some x => match x.dest with
      | some d => if x.phase != .done && names.any (overlaps d) then some (o.op, x) else none
      | none => none
    | none => none

/-- What the checks 0x03, 0x35 and 0x04 find, in their order (R54). -/
inductive Check where
  | pass
  | trap (cause : BitVec 8)
  | late (id : Nat) (o : Op)

def Iss.check (c : Iss) (s : State) (names : List (Nat × Nat)) (tiles : List Nat) : Check :=
  if names.any fun r => c.lau.vregs < r.1 + r.2 then .trap 0x03
  else if tiles.any fun t => c.lau.tiles ≤ t then .trap 0x35
  else match s.earlyRead c.sp names with
    | some (id, o) => if o.phase == .failed && !s.kept c.gid id then .late id o else .trap 0x04
    | none => .pass

/-- Go on when the checks pass; else trap, or report the failed producer (R43, R54). -/
def Iss.checked (c : Iss) (names : List (Nat × Nat)) (tiles : List Nat) (k : Act) : Act := .read fun s =>
  match c.check s names tiles with
  | .pass => k
  | .trap cause => c.trap cause 0
  | .late id o => lateTrap c id o

/-! ## The frames of the meanings -/

/-- The outcome of an encoded instruction: it acts for the issuing split.
[DESIGN CHOICE, log 120] -/
def issue (i : Instr) (k : Iss → Act) (s : State) : Host.Outcome State Fault Refusal :=
  match s.issuer i with
  | some c => .next ((k c).run s)
  | none => .refused .noIssuer

/-- A U-form that issues at once: past the instruction, then its effect. -/
def uform (i : Instr) (k : Iss → State → Act) (s : State) : Host.Outcome State Fault Refusal :=
  issue i (fun c => .seq c.advance (.read (k c))) s

/-- An L-form that completes at once: checks, past the instruction, then its effect, computed from the state in which it issues
(R202, R240). -/
def lform (i : Instr) (k : Iss → State → Act) (s : State) : Host.Outcome State Fault Refusal :=
  issue i (fun c => c.checked (laneNames i) (tileNames i) (.read fun s => .seq c.advance (k c s))) s

/-! ## Sources and elements (R29, R201) -/

/-- x32 as a 64-bit or 32-bit operand of an integer type. -/
def immI (t : ITy) (x : BitVec 32) : Nat :=
  match t with
  | .i64 => (x.signExtend 64).toNat
  | _ => x.toNat

/-- A lane register or pair. -/
def State.lane (s : State) (g l : Nat) (wide : Bool) (r : BitVec 8) : Nat :=
  if wide then (s.vpair g r.toNat l).toNat else (s.vreg g r.toNat l).toNat
/-- A uniform register or pair. -/
def State.uni (s : State) (g : Nat) (wide : Bool) (r : BitVec 8) : Nat :=
  if wide then (s.spair g r.toNat).toNat else (s.sreg g r.toNat).toNat

/-- A source of an integer instruction in one lane (R29). -/
def srcI (s : State) (g l : Nat) (t : ITy) (c : Src) (r : BitVec 8) (x : BitVec 32) : Nat :=
  match c with
  | .reg => s.lane g l t.is64 r
  | .imm => immI t x
  | .unif => s.uni g t.is64 r
/-- A 32-bit source in one lane, whatever the type. -/
def src32 (s : State) (g l : Nat) (c : Src) (r : BitVec 8) (x : BitVec 32) : BitVec 32 :=
  match c with
  | .reg => s.vreg g r.toNat l
  | .imm => x
  | .unif => s.sreg g r.toNat

/-- Write a register or pair in one lane. -/
def wrLane (g l : Nat) (wide : Bool) (r : BitVec 8) (v : Nat) : Act := wrVs g r.toNat l (words wide) v

/-- Element `k` of an operand, as a value of the type (R201, R204). -/
def el (t : ITy) (x k : Nat) : Int :=
  let e := fld x (t.width * k) t.width
  if t.signed then sext t.width e else Int.ofNat e
def minOf (t : ITy) : Int := if t.signed then -(Int.ofNat (2 ^ (t.width - 1))) else 0
def maxOf (t : ITy) : Int := if t.signed then Int.ofNat (2 ^ (t.width - 1)) - 1 else Int.ofNat (2 ^ t.width) - 1
/-- fit (R204): clamped to the range with Saturate, else modulo 2^w; as a bit pattern. -/
def fit (t : ITy) (sat : Bool) (v : Int) : Nat := wrap t.width (if sat then max (minOf t) (min (maxOf t) v) else v)
/-- An operand from its elements. -/
def pack (w : Nat) (es : List Nat) : Nat := es.foldr (fun e a => e % 2 ^ w + 2 ^ w * a) 0
/-- An operand whose elements are a function of their index. -/
def build (t : ITy) (f : Nat → Nat) : Nat := pack t.width ((List.range t.count).map f)

/-! ## Shape words (R30, R31) -/

/-- A shape word after substitution: a marker takes the value of its uniform register. -/
def State.shapeWord (s : State) (g : Nat) (w : BitVec 32) : BitVec 32 := if w.getLsbD 31 then s.sreg g (w.toNat % 64) else w
def State.shape (s : State) (g : Nat) (w : Shape) : Shape :=
  { w0 := s.shapeWord g w.w0, w1 := s.shapeWord g w.w1, w2 := s.shapeWord g w.w2, w3 := s.shapeWord g w.w3 }

/-! ## Producers that no path counts (R40, R44) -/

/-- An operation in flight of the issuing split, with nothing accessed yet. -/
def Iss.op (c : Iss) (s : State) (i : Instr) (path : Option Nat) : Op :=
  { gid := c.gid, split := c.n, bid := c.bid, ctx := c.lau.ctx, inc := c.lau.inc, slot := BitVec.ofNat 16 c.slot,
    stamp := s.stampOf c.slot, instr := i, pc := c.sp.pc, site := siteOf s c.lau c.sp.pc.toNat, fmt := c.sp.fmt, path := path,
    dest := none, phase := .running, blocking := false, exec := 0, unf := 0, zeroed := 0, brec := 0, brec2 := 0, lanes := [],
    lines := [], secs := [], results := [], flags := 0, fail := none, shape := { w0 := 0, w1 := 0, w2 := 0, w3 := 0 }, regs := [],
    prog := 0, rows := 0, snap := [], sent := [], seq := c.blk.seq, remote := false, jseq := c.grp.jseq }

/-- Issue a numbered operation (R389) with `events` journaled events (R423): the block's and the group's sequences advance. -/
def Iss.count (c : Iss) (events : Nat) : Act :=
  .seq (.upd .blocks c.bid fun b => { b with seq := (b.seq + 1) % 2 ^ 32 })
    (.upd .groups c.gid fun x => { x with jseq := (x.jseq + events) % 2 ^ 28 })

/-- The window of a producer by its LA: none for 15 (R40). -/
def windowOf (la : BitVec 4) : Option Nat := if la == 15 then none else some la.toNat

/-- A producer joins the outstanding producers of its split (R41). -/
def Iss.produce (c : Iss) (id : Nat) (la : BitVec 4) : Act :=
  .upd .splits c.key fun x => { x with outs := x.outs ++ [{ op := id, rem := windowOf la }] }

/-- Start a producer without a path: its results and flags are computed at issue, from operands and fmt read then (R234), and
written when it completes. `nv` are the lanes that raised NV, for a trap under TINV (R239). An instruction with no executing lane has no effect (R33). -/
def Iss.startProducer (c : Iss) (s : State) (i : Instr) (h : Head) (dest : Nat × Nat) (m : BitVec 64) (rs : List RegVal)
    (flags : Nat) (nv : BitVec 64) : Act :=
  if m == 0 then c.advance
  else .fresh fun id => .all
    [ .put .ops id { c.op s i none with dest := some dest, exec := m, unf := m, results := rs, flags := BitVec.ofNat 6 flags,
                                         zeroed := nv },
      c.advance, c.produce id h.la, .due [.producerComplete id] ]

/-- The registers of one lane that a producer will write. -/
def resultRegs (r : BitVec 8) (wide : Bool) (l v : Nat) : List RegVal :=
  (List.range (words wide)).map fun i => { reg := r.toNat + i, lane := l, val := BitVec.ofNat 32 (v / 2 ^ (32 * i)) }

end Machine

end Sys2Proof
end

