-- ==== Sys2Proof/Machine/LaneInt.lean ====
section
/-! DEFINITION. The lane integer and logic instructions (09_lane_integer.md R200 to R218, R463). -/

namespace Sys2Proof.Machine

open Sys2Proof

/-! ## Shared forms -/

/-- Read `val` for every executing lane from the state at issue, then write vd (R202). -/
def eachVd (c : Iss) (s : State) (h : Head) (wide : Bool) (vd : BitVec 8) (val : Nat → Nat) : Act :=
  .each ((c.execLanes s h).map fun l => (l, val l)) fun x => wrLane c.gid x.1 wide vd x.2

/-- An instruction that gives each executing lane one register or pair. -/
def laneInt (i : Instr) (f : IForm) (val : State → Nat → Nat → Nat) (s : State) : Host.Outcome State Fault Refusal :=
  lform i (fun c s => eachVd c s f.head f.ty.is64 f.vd (val s c.gid)) s

/-- Operands a, b and c of a lane. -/
def IForm.a (f : IForm) (s : State) (g l : Nat) : Nat := s.lane g l f.ty.is64 f.va
def IForm.b (f : IForm) (s : State) (g l : Nat) : Nat := srcI s g l f.ty f.vbs f.vb f.x32
def IForm.c (f : IForm) (s : State) (g l : Nat) : Nat := srcI s g l f.ty f.vcs f.vc f.x32

/-- A function of the elements of a and b. -/
def elementwise2 (f : IForm) (op : Int → Int → Nat) (s : State) (g l : Nat) : Nat :=
  let a := IForm.a f s g l; let b := IForm.b f s g l
  build f.ty fun k => op (el f.ty a k) (el f.ty b k)
/-- A function of the elements of a. -/
def elementwise1 (f : IForm) (op : Int → Nat) (s : State) (g l : Nat) : Nat :=
  let a := IForm.a f s g l
  build f.ty fun k => op (el f.ty a k)
/-- A function of the elements' bit patterns. -/
def patternwise1 (f : IForm) (op : Nat → Nat) (s : State) (g l : Nat) : Nat :=
  let a := IForm.a f s g l
  build f.ty fun k => op (fld a (f.ty.width * k) f.ty.width)

/-! ## Arithmetic (R206, R207) -/

/-- The high half of the exact product (R206). -/
def mulHigh (t : ITy) (a b : Int) : Nat := wrap t.width (a * b / Int.ofNat (2 ^ t.width))

def execVadd (f : IForm) (s : State) : Host.Outcome State Fault Refusal :=
  laneInt (.vadd f) f (elementwise2 f fun a b => fit f.ty f.sat (a + b)) s
def execVsub (f : IForm) (s : State) : Host.Outcome State Fault Refusal :=
  laneInt (.vsub f) f (elementwise2 f fun a b => fit f.ty f.sat (a - b)) s
def execVmul (f : IForm) (s : State) : Host.Outcome State Fault Refusal :=
  laneInt (.vmul f) f (elementwise2 f fun a b => fit f.ty f.sat (a * b)) s
def execVmulh (f : IForm) (s : State) : Host.Outcome State Fault Refusal :=
  laneInt (.vmulh f) f (elementwise2 f (mulHigh f.ty)) s
def execVmad (f : IForm) (s : State) : Host.Outcome State Fault Refusal :=
  laneInt (.vmad f) f (fun s g l =>
    let a := IForm.a f s g l; let b := IForm.b f s g l; let c := IForm.c f s g l
    build f.ty fun k => fit f.ty f.sat (el f.ty a k * el f.ty b k + el f.ty c k)) s

/-- The exact sum or difference with carry in (R207). -/
def carrySum (f : IForm) (s : State) (g l : Nat) : Int :=
  let ci : Int := if f.opBit 4 && (s.preg g f.opLow).getLsbD l then 1 else 0
  let a := Int.ofNat (IForm.a f s g l); let b := Int.ofNat (IForm.b f s g l)
  if f.opBit 3 then a - b - ci else a + b + ci
/-- The carry or borrow out (R207). -/
def carryOut (f : IForm) (x : Int) : Bool := if f.opBit 3 then x < 0 else Int.ofNat (2 ^ f.ty.width) ≤ x

def execVaddc (f : IForm) (s : State) : Host.Outcome State Fault Refusal :=
  lform (.vaddc f) (fun c s =>
    let m := c.execMask s f.head
    let co := maskOf ((lanesOf c.lau.width m).filter fun l => carryOut f (carrySum f s c.gid l))
    .seq (eachVd c s f.head f.ty.is64 f.vd fun l => wrap f.ty.width (carrySum f s c.gid l))
      (.when (f.vc != 7) (wrP c.gid f.vc.toNat m co))) s

/-! ## Logic, shifts and bit operations (R208 to R213) -/

/-- The bit pattern of an operand of a logic instruction, inverted on request (R208). -/
def logicArg (t : ITy) (inv : Bool) (x : Nat) : Nat := if inv then 2 ^ (32 * words t.is64) - 1 - x else x
def logicLane (f : IForm) (op : Nat → Nat → Nat) (s : State) (g l : Nat) : Nat :=
  op (logicArg f.ty (f.opBit 0) (IForm.a f s g l)) (logicArg f.ty (f.opBit 1) (IForm.b f s g l))

def execVand (f : IForm) (s : State) : Host.Outcome State Fault Refusal := laneInt (.vand f) f (logicLane f (· &&& ·)) s
def execVor (f : IForm) (s : State) : Host.Outcome State Fault Refusal := laneInt (.vor f) f (logicLane f (· ||| ·)) s
def execVxor (f : IForm) (s : State) : Host.Outcome State Fault Refusal := laneInt (.vxor f) f (logicLane f (· ^^^ ·)) s

/-- A shift of an element by an unsigned count (R209). -/
def shiftLane (f : IForm) (op : Int → Nat → Nat) (s : State) (g l : Nat) : Nat :=
  let a := IForm.a f s g l; let b := IForm.b f s g l
  build f.ty fun k => op (el f.ty a k) (fld b (f.ty.width * k) f.ty.width)
/-- a × 2^c fitted; a count of the width or more acts as the width does, short of overflow (R209). -/
def shlEl (t : ITy) (sat : Bool) (a : Int) (c : Nat) : Nat := fit t sat (a * Int.ofNat (2 ^ min c (2 * t.width)))
/-- The right shift with its rounding (R209); a count of twice the width or more gives what that count gives.
[DEDUCED, log 34] -/
def shrEl (t : ITy) (rnd : Bool) (a : Int) (c : Nat) : Nat :=
  let k := min c (2 * t.width)
  let p := Int.ofNat (2 ^ k)
  wrap t.width (if rnd && 0 < k then (a + Int.ofNat (2 ^ (k - 1))) / p else a / p)

def execVshl (f : IForm) (s : State) : Host.Outcome State Fault Refusal := laneInt (.vshl f) f (shiftLane f (shlEl f.ty f.sat)) s
def execVshr (f : IForm) (s : State) : Host.Outcome State Fault Refusal :=
  laneInt (.vshr f) f (shiftLane f (shrEl f.ty (f.opBit 0))) s
def execVfsh (f : IForm) (s : State) : Host.Outcome State Fault Refusal :=
  laneInt (.vfsh f) f (fun s g l =>
    let y := IForm.b f s g l * 2 ^ 32 + IForm.a f s g l
    let k := IForm.c f s g l % 32
    if f.opBit 0 then fld (y * 2 ^ k) 32 32 else fld y k 32) s

def execVmin (f : IForm) (s : State) : Host.Outcome State Fault Refusal :=
  laneInt (.vmin f) f (elementwise2 f fun a b => wrap f.ty.width (min a b)) s
def execVmax (f : IForm) (s : State) : Host.Outcome State Fault Refusal :=
  laneInt (.vmax f) f (elementwise2 f fun a b => wrap f.ty.width (max a b)) s
def execVabs (f : IForm) (s : State) : Host.Outcome State Fault Refusal :=
  laneInt (.vabs f) f (elementwise1 f fun a => fit f.ty f.sat (Int.ofNat a.natAbs)) s

/-- The conditions of VCMP (R205). -/
def cmpInt (code : Nat) (a b : Int) : Bool :=
  match code with
  | 0 => a == b | 1 => a != b | 2 => a < b | 3 => a ≤ b | 4 => b < a | _ => b ≤ a

def execVcmp (f : IForm) (s : State) : Host.Outcome State Fault Refusal :=
  lform (.vcmp f) (fun c s =>
    let m := c.execMask s f.head
    let v := maskOf ((lanesOf c.lau.width m).filter fun l =>
      cmpInt f.opLow (el f.ty (IForm.a f s c.gid l) 0) (el f.ty (IForm.b f s c.gid l) 0))
    let old := s.preg c.gid f.vd.toNat
    wrP c.gid f.vd.toNat m (match f.ops.toNat / 8 with | 0 => v | 1 => old &&& v | _ => old ||| v)) s

def execVsel (f : IForm) (s : State) : Host.Outcome State Fault Refusal :=
  laneInt (.vsel f) f (fun s g l => if (s.preg g f.vc.toNat).getLsbD l then IForm.a f s g l else IForm.b f s g l) s
def execVmov (f : IForm) (s : State) : Host.Outcome State Fault Refusal := laneInt (.vmov f) f (IForm.b f) s

/-- Leading zeros of a `w`-bit pattern. -/
def leadZeros (w x : Nat) : Nat := if x == 0 then w else w - 1 - Nat.log2 x
/-- Bits reversed. -/
def revBits (w x : Nat) : Nat := (List.range w).foldl (fun a i => 2 * a + b2n (bitAt x i)) 0

def execVpopc (f : IForm) (s : State) : Host.Outcome State Fault Refusal :=
  laneInt (.vpopc f) f (patternwise1 f (popCount f.ty.width)) s
def execVclz (f : IForm) (s : State) : Host.Outcome State Fault Refusal :=
  laneInt (.vclz f) f (patternwise1 f (leadZeros f.ty.width)) s
def execVbrev (f : IForm) (s : State) : Host.Outcome State Fault Refusal :=
  laneInt (.vbrev f) f (patternwise1 f (revBits f.ty.width)) s

/-- VBFE of one value by a field spec (R212). -/
def extractField (t : ITy) (a spec : Nat) : Nat :=
  let len := min (fld spec 8 8) t.width
  if len == 0 then 0
  else
    let x := wrap 512 (el t a 0) / 2 ^ fld spec 0 8 % 2 ^ len
    if t.signed then wrap t.width (sext len x) else x
/-- VBFI of one value by a field spec (R212). -/
def insertField (t : ITy) (a b spec : Nat) : Nat :=
  let pos := fld spec 0 8; let len := fld spec 8 8
  if len == 0 || t.width ≤ pos then b
  else
    let m := min len (t.width - pos)
    b - fld b pos m * 2 ^ pos + fld a 0 m * 2 ^ pos

def execVbfe (f : IForm) (s : State) : Host.Outcome State Fault Refusal :=
  laneInt (.vbfe f) f (fun s g l => extractField f.ty (IForm.a f s g l) (IForm.b f s g l)) s
def execVbfi (f : IForm) (s : State) : Host.Outcome State Fault Refusal :=
  laneInt (.vbfi f) f (fun s g l => insertField f.ty (IForm.a f s g l) (IForm.b f s g l) (IForm.c f s g l)) s

/-- One byte of VPRM (R213). -/
def permByte (y sel : Nat) : Nat :=
  let b := fld y (8 * (sel % 8)) 8
  if 8 ≤ sel then (if 128 ≤ b then 0xFF else 0) else b
def execVprm (f : IForm) (s : State) : Host.Outcome State Fault Refusal :=
  laneInt (.vprm f) f (fun s g l =>
    let y := IForm.b f s g l * 2 ^ 32 + IForm.a f s g l
    let c := IForm.c f s g l
    pack 8 ((List.range 4).map fun k => permByte y (fld c (4 * k) 4))) s

/-! ## Truth tables (R214) -/

/-- The truth table of a lane: x32, or the register that x32 names. -/
def truthTable (f : IForm) (s : State) (g l : Nat) : Nat :=
  if f.opBit 0 then (s.vreg g (f.x32.toNat % 256) l).toNat else f.x32.toNat
def lutWord (tt : Nat) (j : Nat → Nat) : Nat := (List.range 32).foldl (fun a i => a + (if bitAt tt (j i) then 2 ^ i else 0)) 0

def execVlut3 (f : IForm) (s : State) : Host.Outcome State Fault Refusal :=
  laneInt (.vlut3 f) f (fun s g l =>
    let a := IForm.a f s g l; let b := IForm.b f s g l; let c := IForm.c f s g l
    lutWord (truthTable f s g l) fun i => 4 * fld a i 1 + 2 * fld b i 1 + fld c i 1) s
def execVlut4 (f : IForm) (s : State) : Host.Outcome State Fault Refusal :=
  laneInt (.vlut4 f) f (fun s g l =>
    let a := IForm.a f s g l; let b := IForm.b f s g l; let c := IForm.c f s g l; let d := (s.vreg g f.vd.toNat l).toNat
    lutWord (truthTable f s g l) fun i => 8 * fld a i 1 + 4 * fld b i 1 + 2 * fld c i 1 + fld d i 1) s

/-! ## Dot products, conversions and lane values (R215 to R218) -/

/-- The unsigned type of the same layout. -/
def ITy.unsigned : ITy → ITy
  | .i32 => .n32 | .i64 => .n64 | .i16x2 => .n16x2 | .i8x4 => .n8x4 | t => t

def execVdot4 (f : IForm) (s : State) : Host.Outcome State Fault Refusal :=
  laneInt (.vdot4 f) f (fun s g l =>
    let a := IForm.a f s g l; let b := IForm.b f s g l
    let tb := if f.opBit 0 then ITy.unsigned f.ty else f.ty
    let t32 : ITy := if f.ty.signed then .i32 else .n32
    let c := el t32 (src32 s g l f.vcs f.vc f.x32).toNat 0
    fit t32 f.sat (((List.range f.ty.count).map fun k => el f.ty a k * el tb b k).foldl (· + ·) c)) s

/-- VCVTI of one lane (R216). -/
def convertLane (f : IForm) (s : State) (g l : Nat) : Nat :=
  let d := f.cvtTo; let t := f.ty
  let a := IForm.a f s g l; let b := IForm.b f s g l; let hi := b2n (f.opBit 3)
  build d fun k =>
    fit d f.sat
      (if t.count == d.count then el t a k
       else if t.count < d.count then (if k < t.count then el t a k else el t b (k - t.count))
       else el t a (d.count * hi + k))

def execVcvti (f : IForm) (s : State) : Host.Outcome State Fault Refusal :=
  lform (.vcvti f) (fun c s => eachVd c s f.head f.cvtTo.is64 f.vd (convertLane f s c.gid)) s

/-- VLANE (R217). -/
def laneValueOf (k l : Nat) (m : BitVec 64) : Nat :=
  match k with
  | 0 => l
  | 1 => 2 ^ l - 1
  | 2 => ((List.range l).filter fun x => m.getLsbD x).length
  | _ => m.toNat
def execVlane (f : IForm) (s : State) : Host.Outcome State Fault Refusal :=
  lform (.vlane f) (fun c s => eachVd c s f.head f.ty.is64 f.vd fun l => laneValueOf f.ops.toNat l (c.execMask s f.head)) s

/-- PLOG (R218). -/
def plogMask (tt : Nat) (a b : BitVec 64) : BitVec 64 :=
  maskOf ((List.range 64).filter fun l => bitAt tt (2 * b2n (a.getLsbD l) + b2n (b.getLsbD l)))
def execPlog (f : IForm) (s : State) : Host.Outcome State Fault Refusal :=
  lform (.plog f) (fun c s =>
    wrP c.gid f.vd.toNat (c.execMask s f.head) (plogMask f.ops.toNat (s.preg c.gid f.va.toNat) (s.preg c.gid f.vb.toNat))) s

end Sys2Proof.Machine
end

