-- ==== Sys2Proof/Machine/CrossLane.lean ====
section
/-! DEFINITION. The cross-lane instructions (09_lane_integer.md R219 to R225). The participating lanes are the executing lanes of the
issuing split. -/

namespace Sys2Proof.Machine

open Sys2Proof

/-- A segment wider than the group traps with 0x02 (R220). -/
def segmented (i : Instr) (size : Nat) (k : Iss → State → Act) (s : State) : Host.Outcome State Fault Refusal :=
  issue i (fun c => if c.lau.width < size then c.trap 0x02 0
    else c.checked (laneNames i) (tileNames i) (.read fun s => k c s)) s

/-! ## VSHFL (R221) -/

/-- The segment of VSHFL: the group, or 2 to 64 lanes. -/
def shflSegment (f : IForm) (width : Nat) : Nat := if f.ops.toNat / 4 == 0 then width else 2 ^ (f.ops.toNat / 4)

/-- The source lane of VSHFL, when it stands in the segment. -/
def shflLane (f : IForm) (size l : Nat) (c : Nat) : Option Nat :=
  let i := l % size
  match f.ops.toNat % 4 with
  | 0 => some (l - i + c % size)
  | 1 => if c ≤ i then some (l - c) else none
  | 2 => if i + c < size then some (l + c) else none
  | _ => if i ^^^ c < size then some (l - i + (i ^^^ c)) else none

/-- The source lane of VSHFL when it participates. -/
def shflSource (f : IForm) (s : State) (g width : Nat) (m : BitVec 64) (l : Nat) : Option Nat :=
  match shflLane f (shflSegment f width) l (src32 s g l f.vbs f.vb f.x32).toNat with
  | some j => if m.getLsbD j then some j else none
  | none => none

def execVshfl (f : IForm) (s : State) : Host.Outcome State Fault Refusal :=
  segmented (.vshfl f) (if f.ops.toNat / 4 == 0 then 0 else 2 ^ (f.ops.toNat / 4)) (fun c s =>
    let m := c.execMask s f.head
    let src := shflSource f s c.gid c.lau.width m
    .all [ c.advance,
           eachVd c s f.head f.ty.is64 f.vd fun l => IForm.a f s c.gid ((src l).getD l),
           .when (f.vc != 7) (wrP c.gid f.vc.toNat m (maskOf ((lanesOf c.lau.width m).filter fun l => (src l).isSome))) ]) s

/-! ## Masks and votes (R222, R223) -/

/-- A mask as a result: the pair, or one half of it (R222). -/
def maskValue (f : IForm) (m : BitVec 64) : Nat :=
  if f.ty.is64 then m.toNat else if f.opBit 0 then fld m.toNat 32 32 else fld m.toNat 0 32

def execVballot (f : IForm) (s : State) : Host.Outcome State Fault Refusal :=
  lform (.vballot f) (fun c s =>
    let m := c.execMask s f.head &&& s.preg c.gid f.va.toNat
    eachVd c s f.head f.ty.is64 f.vd fun _ => maskValue f m) s

def execVmatch (f : IForm) (s : State) : Host.Outcome State Fault Refusal :=
  lform (.vmatch f) (fun c s =>
    let ls := c.execLanes s f.head
    eachVd c s f.head f.ty.is64 f.vd fun l =>
      maskValue f (maskOf (ls.filter fun m => IForm.a f s c.gid m == IForm.a f s c.gid l))) s

/-- VVOTE over the participating lanes (R223). -/
def voteBit (k : Nat) (m p : BitVec 64) : Bool :=
  match k with
  | 0 => m &&& ~~~p == 0
  | 1 => m &&& p != 0
  | _ => m &&& ~~~p == 0 || m &&& p == 0

def execVvote (f : IForm) (s : State) : Host.Outcome State Fault Refusal :=
  lform (.vvote f) (fun c s =>
    let m := c.execMask s f.head
    let b := voteBit (f.ops.toNat % 4) m (s.preg c.gid f.va.toNat)
    if m == 0 then .skip
    else if f.opBit 4 then wrQ c.gid f.vd.toNat b
    else wrP c.gid f.vd.toNat m (if b then m else 0)) s

/-! ## VREDUX and VSCAN (R224) -/

/-- One step of a fold: add with its fit, min, max, and the bit operations on patterns. -/
def foldStep (t : ITy) (sat : Bool) (o x y : Nat) : Nat :=
  match o with
  | 0 => fit t sat (el t x 0 + el t y 0)
  | 1 => if el t y 0 < el t x 0 then y else x
  | 2 => if el t x 0 < el t y 0 then y else x
  | 3 => x &&& y
  | 4 => x ||| y
  | _ => x ^^^ y
/-- The identity of an operator. -/
def foldIdentity (t : ITy) (o : Nat) : Nat :=
  match o with
  | 1 => wrap t.width (maxOf t)
  | 2 => wrap t.width (minOf t)
  | 3 => 2 ^ t.width - 1
  | _ => 0

/-- VREDUX of a segment's values: for add, one exact sum and one fit. -/
def reduce (t : ITy) (sat : Bool) (o : Nat) (xs : List Nat) : Nat :=
  if o == 0 then fit t sat (xs.foldl (fun a x => a + el t x 0) 0) else xs.foldl (foldStep t sat o) (foldIdentity t o)

/-- VSCAN along the participating lanes of one segment: each lane with its result. -/
def scan (t : ITy) (sat excl : Bool) (o : Nat) : Nat → List (Nat × Nat) → List (Nat × Nat)
  | _, [] => []
  | acc, (l, x) :: rest =>
    let y := foldStep t sat o acc x
    (l, if excl then acc else y) :: scan t sat excl o y rest

/-- Start a fold as a producer: every participating lane with its result. -/
def foldProducer (i : Instr) (f : IForm) (c : Iss) (s : State) (rs : List (Nat × Nat)) : Act :=
  c.startProducer s i f.head (f.vd.toNat, words f.ty.is64) (c.execMask s f.head)
    (rs.flatMap fun x => resultRegs f.vd f.ty.is64 x.1 x.2) 0 0

/-- The segment of VREDUX: the group, or 8, 16 or 32 lanes. -/
def reduxSegment (f : IForm) (width : Nat) : Nat := if f.ops.toNat / 8 == 0 then width else 4 * 2 ^ (f.ops.toNat / 8)

def execVredux (f : IForm) (s : State) : Host.Outcome State Fault Refusal :=
  segmented (.vredux f) (reduxSegment f 0) (fun c s =>
    let ls := c.execLanes s f.head
    let size := reduxSegment f c.lau.width
    foldProducer (.vredux f) f c s (ls.map fun l =>
      (l, reduce f.ty f.sat f.opLow ((ls.filter fun x => x / size == l / size).map (IForm.a f s c.gid))))) s

def execVscan (f : IForm) (s : State) : Host.Outcome State Fault Refusal :=
  segmented (.vscan f) (if f.opBit 4 then 8 else 0) (fun c s =>
    let ls := c.execLanes s f.head
    let size := if f.opBit 4 then 8 else c.lau.width
    foldProducer (.vscan f) f c s ((List.range (c.lau.width / size + 1)).flatMap fun g =>
      scan f.ty f.sat (f.opBit 3) f.opLow (foldIdentity f.ty f.opLow)
        ((ls.filter fun x => x / size == g).map fun l => (l, IForm.a f s c.gid l)))) s

/-! ## VBCAST and VFIRST (R225) -/

/-- Give one value to the participating lanes, or to a uniform register when some lane participates. -/
def giveAll (c : Iss) (s : State) (h : Head) (uni wide : Bool) (vd : BitVec 8) (v : Nat) : Act :=
  if uni then .when (c.execMask s h != 0)
    (if wide then wrSD c.gid vd.toNat (BitVec.ofNat 64 v) else wrS c.gid vd.toNat (BitVec.ofNat 32 v))
  else eachVd c s h wide vd fun _ => v

def execVbcast (f : IForm) (s : State) : Host.Outcome State Fault Refusal :=
  lform (.vbcast f) (fun c s =>
    let j := (src32 s c.gid 0 f.vbs f.vb f.x32).toNat
    giveAll c s f.head (f.opBit 0) f.ty.is64 f.vd
      (if j < c.lau.width && (c.execMask s f.head).getLsbD j then IForm.a f s c.gid j else 0)) s

def execVfirst (f : IForm) (s : State) : Host.Outcome State Fault Refusal :=
  lform (.vfirst f) (fun c s =>
    let ls := lanesOf c.lau.width (c.execMask s f.head &&& s.preg c.gid f.va.toNat)
    giveAll c s f.head (f.opBit 4) false f.vd ((if f.opBit 0 then ls.getLast? else ls.head?).getD 0xFFFFFFFF)) s

end Sys2Proof.Machine
end

