-- ==== Sys2Proof/Machine/Float.lean ====
section
/-! DEFINITION. The float instructions (10_formats_and_float.md R239 to R252), over the formats and flag computations of Flags. -/

namespace Sys2Proof.Machine

open Sys2Proof

/-! ## Operands (R29, R229, R240) -/

/-- fp32 bits as fp64 bits, exactly; a NaN keeps its sign, payload and quiet bit (R29).
[DEDUCED, log 32] -/
def widen64 (x : Nat) : Nat :=
  match fp32.value x with
  | .nan _ _ _ => fld x 31 1 * 2 ^ 63 + 0x7FF * 2 ^ 52 + fld x 0 23 * 2 ^ 29
  | v => (cvtWide fp64 false .rne v).1

/-- A source of a float instruction in one lane.
[DEDUCED, log 32] -/
def srcF (s : State) (g l : Nat) (f : FForm) : Nat :=
  match f.vbs with
  | .reg => s.lane g l f.ty.is64 f.vb
  | .imm => if f.ty.is64 then widen64 f.x32.toNat else f.x32.toNat
  | .unif => s.uni g f.ty.is64 f.vb

/-- Element `k` of an operand as bits. -/
def elF (t : FTy) (x k : Nat) : Nat := fld x (elBits t * k) (elBits t)

/-- Results of a type from a function of the element index, and their flags together. -/
def buildF (t : FTy) (r : Nat → FRes) : FRes :=
  let rs := (List.range t.count).map r
  (pack (elBits t) (rs.map (·.1)), rs.foldl (fun a x => a ||| x.2) 0)

/-- What an instruction reads of the issuing split's fmt. -/
structure FEnv where
  fmt : Nat
  md : RMode
  fo : Bool

def Iss.env (c : Iss) (f : FForm) : FEnv :=
  { fmt := c.sp.fmt.toNat, md := modeOf f.rnd c.sp.fmt.toNat, fo := flushOut (fmtOf f.ty) c.sp.fmt.toNat }

/-- Element k of a, b and c as values, with the modifiers of the instruction (R236, R240). -/
def FForm.elA (f : FForm) (e : FEnv) (x k : Nat) : FV := readF (fmtOf f.ty) e.fmt f.negA f.absA (elF f.ty x k)
def FForm.elB (f : FForm) (e : FEnv) (x k : Nat) : FV := readF (fmtOf f.ty) e.fmt f.negB f.absB (elF f.ty x k)
def FForm.elC (f : FForm) (e : FEnv) (x k : Nat) : FV := readF (fmtOf f.ty) e.fmt false false (elF f.ty x k)
/-- The clamp of a result (R242). -/
def FForm.clampR (f : FForm) (r : FRes) : FRes := if f.clamp then (clampF (fmtOf f.ty) r.1, r.2) else r

/-- One operand: apply `op` to each element of a. -/
def unary (f : FForm) (op : FEnv → FV → Nat → FRes) (c : Iss) (s : State) (l : Nat) : FRes :=
  let a := s.lane c.gid l f.ty.is64 f.va
  let e := c.env f
  buildF f.ty fun k => FForm.clampR f (op e (FForm.elA f e a k) (elF f.ty a k))
/-- Two operands. -/
def binary (f : FForm) (op : FEnv → FV → FV → FRes) (c : Iss) (s : State) (l : Nat) : FRes :=
  let a := s.lane c.gid l f.ty.is64 f.va
  let b := srcF s c.gid l f
  let e := c.env f
  buildF f.ty fun k => FForm.clampR f (op e (FForm.elA f e a k) (FForm.elB f e b k))

/-! ## Completion (R238, R239) -/

/-- The lowest executing lane that raised NV while fmt.TINV is set (R239). -/
def invalidLane (fmt : BitVec 32) (rs : List (Nat × FRes)) : Option Nat :=
  if fmt.getLsbD 23 then (rs.find? fun x => bitAt x.2.2 0).map (·.1) else none
def allFlags (rs : List (Nat × FRes)) : BitVec 6 := BitVec.ofNat 6 (rs.foldl (fun a x => a ||| x.2.2) 0)

/-- A float instruction without lookahead: results of the executing lanes, the trap 0x30 instead under TINV, writes, flags. -/
def floatForm (i : Instr) (f : FForm) (val : Iss → State → Nat → FRes) (wr : Iss → State → List (Nat × Nat) → Act) (s : State) :
    Host.Outcome State Fault Refusal :=
  issue i (fun c => c.checked (laneNames i) (tileNames i) (.read fun s =>
    let rs := (c.execLanes s f.head).map fun l => (l, val c s l)
    match invalidLane c.sp.fmt rs with
    | some l => c.trap 0x30 l
    | none => .all [ c.advance, wr c s (rs.map fun x => (x.1, x.2.1)), orFlags c.gid (allFlags rs) ])) s

/-- Write vd of every executing lane. -/
def toVd (wide : Bool) (vd : BitVec 8) (c : Iss) (_ : State) (rs : List (Nat × Nat)) : Act :=
  .each rs fun x => wrLane c.gid x.1 wide vd x.2
/-- Write a predicate: the lanes whose result is not 0. -/
def toPd (pd : BitVec 8) (c : Iss) (_ : State) (rs : List (Nat × Nat)) : Act :=
  wrP c.gid pd.toNat (maskOf (rs.map (·.1))) (maskOf ((rs.filter fun x => x.2 != 0).map (·.1)))

def floatVd (i : Instr) (f : FForm) (val : Iss → State → Nat → FRes) (s : State) : Host.Outcome State Fault Refusal :=
  floatForm i f val (toVd f.ty.is64 f.vd) s

/-- A float producer (R245): results at issue, written with their flags when it completes. The lanes that raised NV are kept for a
trap under TINV. -/
def floatProducer (i : Instr) (f : FForm) (val : Iss → State → Nat → FRes) (s : State) : Host.Outcome State Fault Refusal :=
  issue i (fun c => c.checked (laneNames i) (tileNames i) (.read fun s =>
    let rs := (c.execLanes s f.head).map fun l => (l, val c s l)
    c.startProducer s i f.head (f.vd.toNat, words f.ty.is64) (c.execMask s f.head)
      (rs.flatMap fun x => resultRegs f.vd f.ty.is64 x.1 x.2.1) (allFlags rs).toNat
      (maskOf ((rs.filter fun x => bitAt x.2.2 0).map (·.1))))) s

/-! ## Arithmetic (R242 to R244) -/

def execFadd (f : FForm) (s : State) : Host.Outcome State Fault Refusal :=
  floatVd (.fadd f) f (binary f fun e a b => fpAdd (fmtOf f.ty) e.fo e.md a b) s
/-- a - b: a NaN operand propagates as it was read, b is not negated for that (R237, R242). -/
def subF (t : FFmt) (e : FEnv) (a b : FV) : FRes := if b.isNan then fpAdd t e.fo e.md a b else fpAdd t e.fo e.md a b.neg
def execFsub (f : FForm) (s : State) : Host.Outcome State Fault Refusal :=
  floatVd (.fsub f) f (binary f (subF (fmtOf f.ty))) s
def execFmul (f : FForm) (s : State) : Host.Outcome State Fault Refusal :=
  floatVd (.fmul f) f (binary f fun e a b => fpMul (fmtOf f.ty) e.fo e.md a b) s
def execFfma (f : FForm) (s : State) : Host.Outcome State Fault Refusal :=
  floatVd (.ffma f) f (fun c s l =>
    let a := s.lane c.gid l f.ty.is64 f.va
    let b := srcF s c.gid l f
    let d := s.lane c.gid l f.ty.is64 f.vc
    let e := c.env f
    buildF f.ty fun k => FForm.clampR f
      (fpFma (fmtOf f.ty) e.fo e.md (FForm.elA f e a k) (FForm.elB f e b k) (FForm.elC f e d k))) s

/-- The encoding of an operand with its modifiers, no flush (R243). -/
def modBits (t : FFmt) (negate absolute : Bool) (w : Nat) : Nat :=
  let sb := t.signBit true
  let w := if absolute then w % sb else w
  if negate then (w + sb) % (2 * sb) else w
/-- FMIN and FMAX of one lane (R243): operands with their modifiers, neither flushed.
[DEDUCED, log 28] -/
def minMaxLane (f : FForm) (max : Bool) (c : Iss) (s : State) (l : Nat) : FRes :=
  let a := s.lane c.gid l f.ty.is64 f.va
  let b := srcF s c.gid l f
  buildF f.ty fun k =>
    let t := fmtOf f.ty
    let x := modBits t f.negA f.absA (elF f.ty a k)
    let y := modBits t f.negB f.absB (elF f.ty b k)
    fpMinMax t max (t.value x) (t.value y) x y
def execFmin (f : FForm) (s : State) : Host.Outcome State Fault Refusal := floatVd (.fmin f) f (minMaxLane f false) s
def execFmax (f : FForm) (s : State) : Host.Outcome State Fault Refusal := floatVd (.fmax f) f (minMaxLane f true) s

def execFcmp (f : FForm) (s : State) : Host.Outcome State Fault Refusal :=
  floatForm (.fcmp f) f (fun c s l =>
    let e := c.env f
    let r := fpCmp (f.x32.toNat % 8) (FForm.elA f e (s.lane c.gid l f.ty.is64 f.va) 0) (FForm.elB f e (srcF s c.gid l f) 0)
    (b2n r.1, r.2)) (toPd f.vd) s

/-! ## The producers (R245) -/

/-- The type's number, for the open cases of rounding. -/
def tyNo (t : FTy) : Nat := t.code.toNat

def execFrcp (f : FForm) (s : State) : Host.Outcome State Fault Refusal :=
  floatProducer (.frcp f) f (unary f fun e a _ => fpRcp (fmtOf f.ty) e.fo e.md a) s
def execFrsq (f : FForm) (s : State) : Host.Outcome State Fault Refusal :=
  floatProducer (.frsq f) f (unary f fun e a _ => fpRsq (fmtOf f.ty) e.fo e.md a) s
def execFsqrt (f : FForm) (s : State) : Host.Outcome State Fault Refusal :=
  floatProducer (.fsqrt f) f (unary f fun e a _ => fpSqrt (fmtOf f.ty) e.fo e.md a) s
def execFdiv (f : FForm) (s : State) : Host.Outcome State Fault Refusal :=
  floatProducer (.fdiv f) f (binary f fun e a b => fpDiv (fmtOf f.ty) e.fo e.md a b) s
def execFexp2 (f : FForm) (s : State) : Host.Outcome State Fault Refusal :=
  floatProducer (.fexp2 f) f (unary f fun e a w => fpExp2 (fmtOf f.ty) e.fo e.md (tyNo f.ty) w a) s
def execFlog2 (f : FForm) (s : State) : Host.Outcome State Fault Refusal :=
  floatProducer (.flog2 f) f (unary f fun e a w => fpLog2 (fmtOf f.ty) e.fo e.md (tyNo f.ty) w a) s
def execFsin (f : FForm) (s : State) : Host.Outcome State Fault Refusal :=
  floatProducer (.fsin f) f (unary f fun e a w => fpSin (fmtOf f.ty) e.fo e.md (tyNo f.ty) w a) s
def execFcos (f : FForm) (s : State) : Host.Outcome State Fault Refusal :=
  floatProducer (.fcos f) f (unary f fun e a w => fpCos (fmtOf f.ty) e.fo e.md (tyNo f.ty) w a) s
def execFtanh (f : FForm) (s : State) : Host.Outcome State Fault Refusal :=
  floatProducer (.ftanh f) f (unary f fun e a w => fpTanh (fmtOf f.ty) e.fo e.md (tyNo f.ty) w a) s

/-! ## Conversions (R246 to R251) -/

/-- Elements moved between registers (R247): `es` source elements of `sw` bits, `ed` destination elements of `dw` bits. -/
def moveParts (es ed part sw dw a b old : Nat) (cvt : Nat → FRes) : FRes :=
  let srcs := (List.range es).map fun k => fld a (sw * k) sw
  let rs := if es < ed then (srcs ++ (List.range es).map fun k => fld b (sw * k) sw).map cvt
    else if es == ed then srcs.map cvt
    else ((List.range ed).map fun k => fld a (sw * (part * ed + k)) sw).map cvt
  let v := pack dw (rs.map (·.1))
  let n := dw * rs.length
  (if es < ed then old - fld old (n * part) n * 2 ^ (n * part) + v * 2 ^ (n * part) else v, rs.foldl (fun x r => x ||| r.2) 0)

/-- FCVT (R248); a reserved format code in ST or DT is 0x32 (R227).
[DEDUCED, log 29; DEDUCED, log 30] -/
def execFcvt (f : FForm) (s : State) : Host.Outcome State Fault Refusal :=
  if (CvtFields.ofWord f.x32).reserved then
    issue (.fcvt f) (fun c => c.checked (laneNames (.fcvt f)) (tileNames (.fcvt f)) (c.trap 0x32 0)) s
  else floatForm (.fcvt f) f (fun c s l =>
    let x := CvtFields.ofWord f.x32
    let fmt := c.sp.fmt.toNat
    let sWide := !x.sn && f.ty.is64
    let sf := if x.sn then narrowFmt x.st else fmtOf f.ty
    let df := if x.dn then narrowFmt x.dt else fmtOf f.cvtTo
    let md := modeOf f.rnd fmt
    let b := match f.vbs with | .unif => s.uni c.gid sWide f.vb | _ => s.lane c.gid l sWide f.vb
    moveParts f.cvtEs f.cvtEd x.part (if x.sn then codeBits x.st else elBits f.ty) (if x.dn then codeBits x.dt else elBits f.cvtTo)
      (s.lane c.gid l sWide f.va) b (s.lane c.gid l f.cvtWide f.vd) fun w =>
        let v := readF sf fmt f.negA f.absA w
        if x.dn then cvtNarrow x.dt x.sat (flushOut df fmt) md v else cvtWide df (flushOut df fmt) md v)
    (toVd f.cvtWide f.vd) s

def execFcvti (f : FForm) (s : State) : Host.Outcome State Fault Refusal :=
  floatForm (.fcvti f) f (fun c s l =>
    let e := c.env f
    let b := match f.vbs with | .unif => s.uni c.gid f.ty.is64 f.vb | _ => s.lane c.gid l f.ty.is64 f.vb
    moveParts f.ty.count f.ity.count (f.x32.toNat / 16) (elBits f.ty) f.ity.width (s.lane c.gid l f.ty.is64 f.va) b
      (s.lane c.gid l f.ity.is64 f.vd) fun w => cvtInt f.ity e.md (readF (fmtOf f.ty) e.fmt f.negA f.absA w))
    (toVd f.ity.is64 f.vd) s

def execIcvtf (f : FForm) (s : State) : Host.Outcome State Fault Refusal :=
  floatForm (.icvtf f) f (fun c s l =>
    let e := c.env f
    let b := match f.vbs with | .unif => s.uni c.gid f.ity.is64 f.vb | _ => s.lane c.gid l f.ity.is64 f.vb
    moveParts f.ity.count f.ty.count (f.x32.toNat / 16) f.ity.width (elBits f.ty) (s.lane c.gid l f.ity.is64 f.va) b
      (s.lane c.gid l f.ty.is64 f.vd) fun w => intCvt (fmtOf f.ty) e.fo e.md f.ity w)
    (toVd f.ty.is64 f.vd) s

def execFclass (f : FForm) (s : State) : Host.Outcome State Fault Refusal :=
  floatForm (.fclass f) f (fun c s l =>
    (b2n (bitAt f.x32.toNat (fpClass (fmtOf f.ty) (elF f.ty (s.lane c.gid l f.ty.is64 f.va) 0))), 0)) (toPd f.vd) s

def execFrnd (f : FForm) (s : State) : Host.Outcome State Fault Refusal :=
  floatVd (.frnd f) f (unary f fun e a _ => fpRnd (fmtOf f.ty) e.md a) s

def execFscale (f : FForm) (s : State) : Host.Outcome State Fault Refusal :=
  floatVd (.fscale f) f (fun c s l =>
    unary f (fun e a _ => fpScale (fmtOf f.ty) e.fo e.md (src32 s c.gid l f.vbs f.vb f.x32).toInt a) c s l) s

/-- The checks of a block scale (R227, R231): a reserved format code, then a record that does not fit it, lanes ascending.
[DEDUCED, log 30] -/
def scaleTrap (c : Iss) (s : State) (f : FForm) (code : Nat) : Option (BitVec 8 × Nat) :=
  if 9 < code then some (0x32, 0)
  else ((c.execLanes s f.head).find? fun l => !scaleOk (s.vreg c.gid f.vc.toNat l).toNat code).map fun l => (0x33, l)

/-- A float form over a block scale.
[DEDUCED, log 30] -/
def scaledForm (i : Instr) (f : FForm) (val : Iss → State → Nat → FRes) (s : State) : Host.Outcome State Fault Refusal :=
  issue i (fun c => c.checked (laneNames i) (tileNames i) (.read fun s =>
    match scaleTrap c s f (f.x32.toNat % 16) with
    | some t => c.trap t.1 t.2
    | none =>
      let rs := (c.execLanes s f.head).map fun l => (l, val c s l)
      match invalidLane c.sp.fmt rs with
      | some l => c.trap 0x30 l
      | none => .all [ c.advance, toVd false f.vd c s (rs.map fun x => (x.1, x.2.1)), orFlags c.gid (allFlags rs) ])) s

/-- FQUANT (R251): two values, va under NEGA and ABSA, vb under NEGB and ABSB.
[DEDUCED, log 29] -/
def execFquant (f : FForm) (s : State) : Host.Outcome State Fault Refusal :=
  scaledForm (.fquant f) f (fun c s l =>
    let code := f.x32.toNat % 16
    let fmt := c.sp.fmt.toNat
    let fo := match codeFmt code with | some t => flushOut t fmt | none => false
    let rec_ := (s.vreg c.gid f.vc.toNat l).toNat
    let q (n a : Bool) (w : Nat) : FRes := quantize code fo (modeOf f.rnd fmt) rec_ (readF fp32 fmt n a w)
    let r0 := q f.negA f.absA (s.vreg c.gid f.va.toNat l).toNat
    let r1 := q f.negB f.absB (src32 s c.gid l f.vbs f.vb 0).toNat
    let w := codeBits code
    let old := (s.vreg c.gid f.vd.toNat l).toNat
    let at_ := 2 * w * (f.x32.toNat / 16)
    (old - fld old at_ (2 * w) * 2 ^ at_ + (r0.1 % 2 ^ w + r1.1 % 2 ^ w * 2 ^ w) * 2 ^ at_, r0.2 ||| r1.2)) s

/-- FDEQ (R251). -/
def execFdeq (f : FForm) (s : State) : Host.Outcome State Fault Refusal :=
  scaledForm (.fdeq f) f (fun c s l =>
    let code := f.x32.toNat % 16
    let e := c.env f
    let a := (s.vreg c.gid f.va.toNat l).toNat
    let rec_ := (s.vreg c.gid f.vc.toNat l).toNat
    buildF f.ty fun k =>
      dequantize (fmtOf f.ty) e.fo e.md rec_ (readCode code e.fmt (fld a (codeBits code * (f.x32.toNat / 16 + k)) (codeBits code)))) s

/-! ## FFLAGS (R252) -/

/-- The oldest producer without a path that the split still waits for: FFLAGS acts after it. -/
def pendingFloat (c : Iss) (s : State) : Option (Nat × Op) :=
  c.sp.outs.findSome? fun o => match Tab.ops.at o.op s with
    | some x => if x.path == none && x.phase != .done && !s.kept c.gid o.op then some (o.op, x) else none
    | none => none

def execFflags (f : FForm) (s : State) : Host.Outcome State Fault Refusal :=
  issue (.fflags f) (fun c => c.checked (laneNames (.fflags f)) [] (.read fun s =>
    match pendingFloat c s with
    | some (id, o) => if o.phase == .failed then lateTrap c id o else c.stall (.op id)
    | none =>
      let m := BitVec.ofNat 6 (f.x32.toNat / 256)
      .seq c.advance
        (if c.execMask s f.head == 0 then .skip
         else match f.x32.toNat % 4 with
           | 0 => eachVd c s f.head false f.vd fun _ => c.grp.flags.toNat
           | 1 => .upd .groups c.gid fun x => { x with flags := x.flags &&& ~~~m }
           | _ => orFlags c.gid m))) s

end Sys2Proof.Machine
end

