-- ==== Sys2Proof/Machine/Mem.lean ====
section
/-! DEFINITION. LD, ST, ATOM, PREF, FENCE, SLD, SST, BREC, BRECL and BRECX (04_addressing.md R99, R114 to R117,
06_l1_and_memory_instructions.md R154 to R165): the front of a memory access, its order among the accesses of its group, and the steps
of its responses. -/

namespace Sys2Proof.Machine

open Sys2Proof

/-! ## Order among the accesses of a group (R146, R154, R158) -/

/-- The words that an operation not yet completed touches: virtual sector, physical sector when known, word mask. -/
def Op.wordsOf (o : Op) : List (Nat × Option Nat × BitVec 8) := o.pieces.map fun p => (p.vsec, o.psec p.vsec, wordMask p.first p.len)

/-- The physical sector of a virtual sector of a context. -/
def State.physSector (s : State) (ctx vsec : Nat) : Option Nat :=
  match s.translate ctx (vsec * 32) with
  | .ok x => some (x.pa / 32)
  | .error _ => none

/-- Whether two accesses touch a word in common. -/
def meets (s : State) (a b : Op) : Bool :=
  a.wordsOf.any fun x => b.wordsOf.any fun y =>
    x.2.2 &&& y.2.2 != 0 && (x.1 == y.1 || (match x.2.1, s.physSector b.ctx y.1 with
      | some p, some q => p == q
      | _, _ => false))

def isMemory (i : Instr) : Bool :=
  match i with
  | .ld _ => true | .st _ => true | .atom _ => true | .sld _ _ _ => true | .sst _ _ _ => true | .brec _ _ _ => true
  | _ => false

/-- Whether an operation is an access of its group to memory that has not been performed: a TLOAD from memory is one until it has read
(R271). -/
def Op.isAccess (o : Op) : Bool := isMemory o.instr || (match o.instr with | .tload f => f.mem && o.unf != 0 | _ => false)

/-- Whether an operation is over as far as later accesses are concerned. -/
def OpPhase.past : OpPhase → Bool
  | .done => true
  | _ => false

/-- The earlier access that a new one must follow (R154): a SYNC access in flight, or one that touches a word in common.
[DEDUCED, log 44] -/
def State.before (s : State) (o : Op) : Option (Nat × Op) :=
  (s.opsOf o.gid).find? fun e => e.2.isAccess && !e.2.phase.past && !(e.2.phase == .failed && s.kept o.gid e.1) &&
    (e.2.isSync || meets s e.2 o)

/-- Go on when no earlier access stands before the new one; a failed one is reported here (R146).
[DEDUCED, log 44] -/
def Iss.ordered (c : Iss) (o : Op) (k : Act) : Act := .read fun s =>
  match s.before o with
  | none => k
  | some (id, x) => if x.phase == .failed then lateTrap c id x else c.stall (.op id)

/-! ## The front of LD, ST and ATOM (R156) -/

/-- A lane with its offset, whether it is out of bounds, and its address. -/
structure Placed where
  lane : Nat
  out : Bool
  va : Nat
  deriving DecidableEq, Repr

/-- Blame for a lane of an access that fails before issue (R109, R369).
[DEDUCED, log 26] -/
def accessBlame (k : MemKind) (cause : BitVec 8) (lane va : Nat) : Blame :=
  { kind := k.kind, cause := cause, write := k.write, cls := k.cls.code.toNat, lane := lane, size := k.sizeCode, va := va, oslot := 0xFFFF,
    ocls := 0, ostamp := 0 }

/-- Trap at an access of the issuing split.
[DEDUCED, log 25] -/
def Iss.trapAccess (c : Iss) (k : MemKind) (cause : BitVec 8) (x : Placed) : Act :=
  c.trapWith (accessBlame k cause x.lane x.va) (taskWords c.grp) 0 0

/-- The first stage of an access through a record, before its lanes: record validity, then RO (R97, R99).
[DEDUCED, log 26] -/
def recordTrap (b : Buf) (write : Bool) : Option (BitVec 8) :=
  if !b.valid then some 0x02 else if write && b.ro then some 0x13 else none

/-- The checks of the format and reproducibility of fadd (R163, R164). -/
def faddTrap (b : Buf) (f : MForm) (fmt : BitVec 32) : Option (BitVec 8) :=
  if f.aop != 1 then none
  else if b.fx then (if f.vc == 4 || f.vc == 5 then some 0x32 else none)
  else if fmt.getLsbD 22 then some 0x31 else none

/-- The destination pair of fadd through an FX record (R164): names the odd register too; an odd pair start traps with 0x02. -/
def fxNames (b : Buf) (f : MForm) : List (Nat × Nat) :=
  if f.aop == 1 && b.fx && f.vd != 255 then [(f.vd.toNat, 2)] else []

/-- The operand of one lane: b, or its conversion onto the grid (R164), with the flags that the conversion raises. -/
def laneData (s : State) (g l : Nat) (b : Buf) (f : MForm) (fixed : Bool) (fmt : BitVec 32) : FRes :=
  if fixed then
    let t := if f.vc == 3 then fp64 else fp32
    toGrid t fmt.toNat b.fxe (s.vwide g f.vb.toNat l (if f.vc == 3 then 2 else 1))
  else (s.vwide g f.vb.toNat l (sizeWords f.size), 0)

/-- What the front of LD, ST and ATOM finds: a stop, or the operation to start with the lanes that `.z` completes. -/
inductive Front where
  | trap (cause : BitVec 8)
  | lane (cause : BitVec 8) (x : Placed)
  | check (names : List (Nat × Nat))
  | start (o : Op) (zero : List Nat)

/-- The stages 1 and 2 of R156 in the order of R366. `names` says that the registers of an FX destination have been checked.
[DEDUCED, log 25] -/
def memFront (c : Iss) (s : State) (i : Instr) (f : MForm) (atomic write : Bool) (named : Bool) : Front :=
  let b := Buf.of (s.breg c.gid f.buf.toNat)
  let fixed := atomic && f.aop == 1 && b.fx
  let n := if fixed then 8 else f.size.bytes
  let m := c.execMask s f.head
  let placed := (lanesOf c.lau.width m).map fun l =>
    let idx := if f.uidx then s.sreg c.gid f.va.toNat else s.vreg c.gid f.va.toNat l
    let p := b.place (b.offset idx f.off.toInt) n
    ({ lane := l, out := p.1, va := p.2 } : Placed)
  let strict := f.cls != .data && f.cls != .peek
  let data := placed.map fun p => (p, if p.out then (0, 0) else laneData s c.gid p.lane b f fixed c.sp.fmt)
  if !b.valid then .trap 0x02
  else if fixed && f.vd != 255 && !named then .check (fxNames b f)
  else if write && b.ro then .trap 0x13
  else match (if strict then placed.find? fun p => p.va % n != 0 else none) with
  | some p => .lane 0x16 p
  | none => match faddTrap b f c.sp.fmt with
    | some cause => .trap cause
    | none => match (if fixed && c.sp.fmt.getLsbD 23 then data.find? fun d => bitAt d.2.2 0 else none) with
      | some d => .lane 0x30 d.1
      | none => match (if f.z then none else placed.find? fun p => p.out) with
        | some p => .lane 0x12 p
        | none =>
          let good := data.filter fun d => !d.1.out
          let dest := if write && (!atomic || f.vd == 255) then none
            else some (f.vd.toNat, if fixed then 2 else sizeWords f.size)
          let lanes := good.map fun d =>
            ({ lane := d.1.lane, va := d.1.va, b := d.2.1,
               c := if atomic && f.aop == 9 then s.vwide c.gid f.vc.toNat d.1.lane (sizeWords f.size) else 0 } : LaneAcc)
          let unf := maskOf (good.map fun d => d.1.lane)
          .start { c.op s i (some (if dest.isSome then 0 else 1)) with
                     dest := dest, phase := .walking, exec := m, unf := unf, brec := s.breg c.gid f.buf.toNat, lanes := lanes,
                     flags := BitVec.ofNat 6 (good.foldl (fun a d => a ||| d.2.2) 0) }
            ((placed.filter fun p => p.out).map (·.lane))

/-- A trap of stage 1 or 2 at a lane of a memory form: 0x30 has the record of a trap that no access caused (R369). -/
def Iss.trapLane (c : Iss) (k : MemKind) (cause : BitVec 8) (x : Placed) : Act :=
  if cause == 0x30 then c.trap cause x.lane else c.trapAccess k cause x

/-- Issue a memory operation: past the instruction, its lanes under `.z` complete, and its translation starts. -/
def Iss.launchOp (c : Iss) (o : Op) (la : BitVec 4) (zero : Act) : Act := .fresh fun id => .all
  [ .put .ops id o, c.advance, c.count o.events, .when (o.dest.isSome || o.blocking) (c.produce id la), zero, startOp id ]

/-- The zeros that `.z` writes to the destinations of lanes out of bounds (R99). -/
def zeroLanes (c : Iss) (o : Op) (ls : List Nat) : Act :=
  match o.dest with
  | some d => .each ls fun l => wrVs c.gid d.1 l d.2 0
  | none => .skip

/-- A memory form with its operation ready: in order, behind the gate of a SYNC access, issued.
[DEDUCED, log 25] -/
def Iss.access (c : Iss) (f : MForm) (o : Op) (zero : List Nat) : Act :=
  c.ordered o
    (if f.cls == .sync then c.gated (if (memKind o.instr).write then some f.scope else none) (c.launchOp o f.head.la (zeroLanes c o zero))
     else c.launchOp o f.head.la (zeroLanes c o zero))

/-- The odd destination pair of fadd through an FX record (R29, R164): 0x02, before the checks of registers and producers (R54). -/
def fxOdd (c : Iss) (s : State) (f : MForm) (atomic : Bool) : Bool :=
  atomic && f.aop == 1 && f.vd != 255 && f.vd.toNat % 2 == 1 && (Buf.of (s.breg c.gid f.buf.toNat)).fx

/-- LD, ST and ATOM. -/
def memForm (i : Instr) (f : MForm) (atomic write : Bool) (s : State) : Host.Outcome State Fault Refusal :=
  issue i (fun c => .read fun s => if fxOdd c s f atomic then c.trap 0x02 0 else c.checked (laneNames i) [] (.read fun s =>
    let path := if write && (!atomic || f.vd == 255) then 1 else 0
    if 63 ≤ s.counter c.gid path then c.stall (.counter path)
    else if c.execMask s f.head == 0 then c.advance
    else match memFront c s i f atomic write false with
      | .trap cause => c.trap cause 0
      | .lane cause x => c.trapLane (memKind i) cause x
      | .start o zero => c.access f o zero
      | .check names => c.checked names [] (.read fun s => match memFront c s i f atomic write true with
        | .trap cause => c.trap cause 0
        | .lane cause x => c.trapLane (memKind i) cause x
        | .start o zero => c.access f o zero
        | .check _ => .skip))) s

def execLd (f : MForm) (s : State) : Host.Outcome State Fault Refusal := memForm (.ld f) f false false s
def execSt (f : MForm) (s : State) : Host.Outcome State Fault Refusal := memForm (.st f) f false true s
def execAtom (f : MForm) (s : State) : Host.Outcome State Fault Refusal := memForm (.atom f) f true true s

/-! ## PREF (R160) -/

/-- Bring the sectors of a lane's line into the L1, when the line translates, may be read and has a home that answers; else drop the lane.
[DESIGN CHOICE, log 35] -/
def prefLane (c : Iss) (b : Buf) (va : Nat) : Act := .read fun s =>
  match s.translateFor c.lau.ctx .load va with
  | .error _ => .skip
  | .ok pa =>
    let line := pa / 128
    if !isHomed pa || (s.accessFault c.core .load (line * 128) 128).isSome || s.stale (.slice (homeSlice pa)) c.lau.ctx c.lau.inc || s.pausedAt pa then
      .skip
    else .each (List.range 4) fun i => touchSector c.gid c.core c.lau.ctx c.lau.inc (line * 4 + i) b.ro (BitVec.allOnes 32)

def execPref (f : MForm) (s : State) : Host.Outcome State Fault Refusal :=
  issue (.pref f) (fun c => c.checked (laneNames (.pref f)) [] (.read fun s =>
    let b := Buf.of (s.breg c.gid f.buf.toNat)
    if c.execMask s f.head == 0 then c.advance
    else if !b.valid then c.trap 0x02 0
    else
      let vas := (c.execLanes s f.head).filterMap fun l =>
        let idx := if f.uidx then s.sreg c.gid f.va.toNat else s.vreg c.gid f.va.toNat l
        let p := b.place (b.offset idx f.off.toInt) 1
        if p.1 then none else some p.2
      .seq c.advance (if f.nc || b.nt then .skip else .each vas (prefLane c b)))) s

/-! ## FENCE (R165) -/

/-- The oldest access of the group that a release fence still waits for: `st` at 0, every earlier access performed. -/
def fenceWaits (s : State) (c : Iss) (k : FenceKind) : Bool :=
  k != .acq && (0 < s.counter c.gid 1 || (s.opsOf c.gid).any fun e => e.2.isAccess && !e.2.phase.past)

def execFence (sb : Bool) (k : FenceKind) (sc : Scope) (s : State) : Host.Outcome State Fault Refusal :=
  issue (.fence sb k sc) (fun c => .read fun s =>
    match s.failedOp c.gid with
    | some (id, o) => lateTrap c id o
    | none =>
      if fenceWaits s c k then c.stall .registrations
      else c.ending (if k == .acq then none else some sc) (if k == .rel then none else some sc) .skip) s

/-! ## SLD, SST, BREC (R114, R115) -/

/-- The operation of a uniform memory instruction, or the trap that comes first. `v` is the word that SST stores. -/
def uniFront (c : Iss) (s : State) (i : Instr) (m : UMem) (v : Nat) (path : Option Nat) : Front :=
  let k := memKind i
  let b := Buf.of (s.breg c.gid m.buf.toNat)
  let p := b.place (b.offset (s.sreg c.gid m.sa.toNat) (4 * Int.ofNat m.off.toNat)) k.size
  if !b.valid then .trap 0x02
  else if k.write && b.ro then .trap 0x13
  else if p.1 then .lane 0x12 { lane := 0, out := true, va := p.2 }
  else .start { c.op s i path with
                  phase := .walking, blocking := !k.write, exec := 1, unf := 1, brec := s.breg c.gid m.buf.toNat,
                  lanes := [{ lane := 0, va := p.2, b := v, c := 0 }] } []

def uniForm (i : Instr) (m : UMem) (v : Iss → State → Nat) (path : Option Nat) (s : State) : Host.Outcome State Fault Refusal :=
  issue i (fun c => .read fun s =>
    if path == some 1 && 63 ≤ s.counter c.gid 1 then c.stall (.counter 1)
    else match uniFront c s i m (v c s) path with
      | .trap cause => c.trap cause 0
      | .lane cause x => c.trapAccess (memKind i) cause x
      | .start o _ => c.ordered o (c.launchOp o 0 .skip)
      | .check _ => .skip) s

def execSld (sb : Bool) (d : BitVec 6) (m : UMem) (s : State) : Host.Outcome State Fault Refusal :=
  uniForm (.sld sb d m) m (fun _ _ => 0) none s
def execSst (sb : Bool) (d : BitVec 6) (m : UMem) (s : State) : Host.Outcome State Fault Refusal :=
  uniForm (.sst sb d m) m (fun c s => (s.sreg c.gid d.toNat).toNat) (some 1) s
def execBrec (sb : Bool) (d : BitVec 4) (m : UMem) (s : State) : Host.Outcome State Fault Refusal :=
  uniForm (.brec sb d m) m (fun _ _ => 0) none s

/-! ## BRECL, BRECX (R116, R117) -/

def execBrecl (sb : Bool) (d : BitVec 4) (a : BitVec 6) (s : State) : Host.Outcome State Fault Refusal :=
  uform (.brecl sb d a) (fun c s =>
    let r := a.toNat
    wrB c.gid d.toNat (s.sreg c.gid (r + 3) ++ s.sreg c.gid (r + 2) ++ s.sreg c.gid (r + 1) ++ s.sreg c.gid r)) s

/-- The offset of BRECX. -/
def narrowBy (b : Buf) (index : BitVec 32) (off : Nat) : Nat := index.toNat * 2 ^ b.esz + 4 * off
/-- The record with its BASE moved on and its EXTENT shortened (R117). -/
def narrowed (w : BitVec 128) (d : Nat) : BitVec 128 :=
  let b := Buf.of w
  BitVec.ofNat 128 (w.toNat - b.base + (b.base + d) % 2 ^ 57 - b.extent * 2 ^ 64 + (b.extent - d) * 2 ^ 64)

/-- BRECX (R117). It makes no access, so its 0x12 has the record of a trap without one, with address 0.
[DESIGN CHOICE, log 123] -/
def execBrecx (sb : Bool) (d : BitVec 4) (m : UMem) (s : State) : Host.Outcome State Fault Refusal :=
  issue (.brecx sb d m) (fun c => .read fun s =>
    let w := s.breg c.gid m.buf.toNat
    let b := Buf.of w
    let o := narrowBy b (s.sreg c.gid m.sa.toNat) m.off.toNat
    if b.extent < o || (b.mode == 1 && o % 2 ^ b.pitch != 0) then c.trap 0x12 0
    else .seq c.advance (wrB c.gid d.toNat (narrowed w o))) s

/-! ## The steps of an access -/

/-- LOAD_RESPONSE (R76, R158): the data of a load arrives. -/
def execLoadResponse (op : Nat) (s : State) : Host.Outcome State Fault Refusal := .next ((respond op).run s)
/-- WRITE_INTENT_ANSWER (R146, R159): the answers to a store's intents arrive. -/
def execWriteIntentAnswer (op : Nat) (s : State) : Host.Outcome State Fault Refusal := .next (Act.run (respond op) s)
/-- ATOMIC_RESPONSE (R74, R162): the sector operations of an atomic are performed and answered. -/
def execAtomicResponse (op : Nat) (s : State) : Host.Outcome State Fault Refusal :=
  .next (Act.run (.read fun s => match Tab.ops.at op s with
    | some _ => respond op
    | none => .skip) s)

/-- RELEASE_WRITEBACK_ACK (R151). -/
def execReleaseWritebackAck (gid : Nat) (s : State) : Host.Outcome State Fault Refusal := .next ((releaseAck gid).run s)

/-- L1_EVICTION (R140): a line without pending bytes leaves the L1; its dirty bytes go home, byte-masked. -/
def execL1Eviction (core line : Nat) (s : State) : Host.Outcome State Fault Refusal :=
  .next (Act.run (.read fun s => match Tab.l1.at (lineKey core line) s with
    | some l =>
      if l.s0.pending == 0 && l.s1.pending == 0 && l.s2.pending == 0 && l.s3.pending == 0 then evictLine core line else .skip
    | none => .skip) s)

end Sys2Proof.Machine
end

