-- ==== Sys2Proof/Machine/Gallery.lean ====
section
/-! DEFINITION. The Gallery (05_gallery.md): rows and capacity, team windows, scratch marks and their check, LDG, STG and ATG, GMODE, the
background scan; and PRODUCER_COMPLETE. -/

namespace Sys2Proof.Machine

open Sys2Proof

/-! ## Rows of a window -/

/-- Rows of a window (R120). -/
def rowsOfBytes (n : Nat) : Nat := (n + 1023) / 1024
/-- How many rows of a window each bank holds (R121). -/
def spreadRows (banks : List Nat) (rows : Nat) : List Nat :=
  let n := banks.length
  (List.range 32).map fun b => match banks.findIdx? (· == b) with
    | some i => (rows + n - 1 - i) / max n 1
    | none => 0
/-- Spread rows over banks with free rows, lowest bank first: what each bank takes.
[DESIGN CHOICE, log 55] -/
def takeRows : Nat → List (Nat × Nat) → List (Nat × Nat)
  | _, [] => []
  | n, (b, free) :: rest => (b, min n free) :: takeRows (n - min n free) rest
/-- The rows that each bank takes of a new window: its share by R121; what a bank has no free good row for stands in the lowest banks with
room.
[DESIGN CHOICE, log 55] -/
def State.fitRows (s : State) (cl rows : Nat) : List Nat :=
  let free (b : Nat) : Nat := if s.leavingBank cl == some b then 0 else s.bankFree cl b
  let share := (spreadRows (s.cluster cl).scratchBanks rows).zipIdx.map fun e => min e.1 (free e.2)
  let more := takeRows (rows - share.sum) ((s.cluster cl).scratchBanks.map fun b => (b, free b - (share[b]?).getD 0))
  share.zipIdx.map fun e => e.1 + (match more.find? fun g => g.1 == e.2 with | some g => g.2 | none => 0)

/-! ## Windows (R120, R132) -/

/-- WSZ of a team: GAL of its launch. -/
def State.wsz (s : State) (tid : Nat) : Nat :=
  match (s.team? tid).bind fun t => s.launch? t.lid with
  | some l => l.gal
  | none => 0
def winKey (t o : Nat) : Nat := t * 2 ^ 24 + o
/-- `n` bytes of a window as a number. -/
def State.winNat (s : State) (t o : Nat) : Nat → Nat
  | 0 => 0
  | n + 1 => (Tab.win.val 0 (winKey t o) s).toNat + 256 * winNat s t (o + 1) n
/-- Write `n` bytes of a window. -/
def wrWin (t o : Nat) : Nat → Nat → Act
  | 0, _ => .skip
  | n + 1, v => .seq (.put .win (winKey t o) (BitVec.ofNat 8 v)) (wrWin t (o + 1) n (v / 256))
/-- The team whose window an entry of an overflow store stands for. -/
def ScratchRec.team : ScratchRec → Nat
  | .own t _ _ => t
  | .foreign t _ _ _ _ => t
/-- Clear a window, its records and its team-local counters (R120). -/
def clearWindow (t : Nat) : Act :=
  .all [ .clear .win (winKey t 0) (winKey (t + 1) 0), .clear .gside (t * 2 ^ 19) ((t + 1) * 2 ^ 19),
         .clear .teamCnt (t * 512) ((t + 1) * 512), .clear .tscan (t * 512) ((t + 1) * 512),
         .read fun s => .each (s.clusters.filter fun e => e.2.overflow.any fun r => r.team == t) fun e =>
           .put .clusters e.1 { e.2 with overflow := e.2.overflow.filter fun r => r.team != t } ]

/-! ## Scratch marks (R124 to R127) -/

/-- A party at a window: of the window's team by its team-local slot, or foreign by its internal slot. -/
structure GParty where
  foreign : Bool
  slot : Nat
  stamp : Nat
  ctx : Nat
  inc : Nat
  deriving DecidableEq, Repr

/-- Where a scratch record stands. -/
inductive GLoc where
  | side | store (index : Nat)
  deriving DecidableEq, Repr

/-- A record of a scratch sector, whatever its kind. -/
structure GRec where
  loc : GLoc
  foreign : Bool
  r : MarkRec
  ctx : Nat
  inc : Nat
  deriving DecidableEq, Repr

def SideRec.toMark (r : SideRec) : MarkRec :=
  { slot := r.tslot.setWidth 16, stamp := r.tstamp.setWidth 16, mask := r.mask, cls := r.cls, ovf := false, valid := r.mask != 0 }
def MarkRec.toSide (r : MarkRec) : SideRec :=
  if r.valid then { tslot := r.slot.setWidth 9, tstamp := r.stamp.setWidth 12, mask := r.mask, cls := r.cls } else SideRec.init

def sideKey (t sector : Nat) : Nat := t * 2 ^ 19 + sector
def ScratchRec.isAt (t sector : Nat) : ScratchRec → Bool
  | .own a b _ => a == t && b == sector
  | .foreign a b _ _ _ => a == t && b == sector
def ScratchRec.view (i : Nat) : ScratchRec → GRec
  | .own _ _ r => { loc := .store i, foreign := false, r := SideRec.toMark r, ctx := 0, inc := 0 }
  | .foreign _ _ r c n => { loc := .store i, foreign := true, r := r, ctx := c, inc := n }

/-- The records of a window sector: the side record, then the overflow store. -/
def State.gRecs (s : State) (cl t sector : Nat) : List GRec :=
  { loc := .side, foreign := false, r := SideRec.toMark (Tab.gside.val SideRec.init (sideKey t sector) s), ctx := 0, inc := 0 } ::
  (((s.cluster cl).overflow.zipIdx.filter fun e => ScratchRec.isAt t sector e.1).map fun e => ScratchRec.view e.2 e.1)

/-- Whether a scratch record is live (R125, R127); a team-local one only while its team is there.
[DEDUCED, log 54] -/
def State.gLive (s : State) (t : Nat) (x : GRec) : Bool :=
  x.r.valid &&
  (if x.foreign then s.slotLive x.ctx x.r.slot.toNat x.r.stamp
   else (s.team? t).isSome && (Tab.teamCnt.val 0 (t * 512 + x.r.slot.toNat) s).toNat % 4096 == x.r.stamp.toNat)

/-- Replace or remove an entry of the overflow store. -/
def putStore (cl i : Nat) (r : ScratchRec) : Act :=
  .updD .clusters Cluster.init cl fun c => { c with overflow := c.overflow.set i r }
def ScratchRec.make (t sector : Nat) (foreign : Bool) (r : MarkRec) (ctx inc : Nat) : ScratchRec :=
  if foreign then .foreign t sector r ctx inc else .own t sector (MarkRec.toSide r)

/-- Write a record back to its place; a cleared record leaves an entry that is dead. -/
def putG (cl t sector : Nat) (x : GRec) (r : MarkRec) : Act :=
  match x.loc with
  | .side => .put .gside (sideKey t sector) (MarkRec.toSide r)
  | .store i => putStore cl i (ScratchRec.make t sector x.foreign r x.ctx x.inc)

/-- Whether an entry of the overflow store is dead, for whatever sector it stands. -/
def State.storeDead (s : State) : ScratchRec → Bool
  | .own t n r => !s.gLive t (ScratchRec.view 0 (.own t n r))
  | .foreign t n r c i => !s.gLive t (ScratchRec.view 0 (.foreign t n r c i))

/-- Make a new entry of the overflow store: a dead one is replaced; none when 4,096 are live (R125, R126). -/
def addStore (s : State) (cl : Nat) (r : ScratchRec) : Option Act :=
  let st := (s.cluster cl).overflow
  match st.findIdx? s.storeDead with
  | some i => some (putStore cl i r)
  | none => if 4096 ≤ st.length then none
            else some (.updD .clusters Cluster.init cl fun c => { c with overflow := c.overflow ++ [r] })

/-- What a scratch check answers. -/
inductive GAns where
  | ok (a : Act)
  | conflict (cause : BitVec 8) (x : GRec)
  | capacity

/-- THE SCRATCH CHECK of one sector (R126): the procedure of R85 and the merge of R86 over the side record and the overflow store.
[DEDUCED, log 54] -/
def gCheck (s : State) (cl t sector : Nat) (p : GParty) (cls : BitVec 3) (mask : BitVec 8) : GAns :=
  let recs := s.gRecs cl t sector
  let mine (x : GRec) : Bool := x.foreign == p.foreign && x.r.slot.toNat == p.slot
  let against := recs.filter fun x => x.r.valid && !mine x && (x.r.mask &&& mask) != 0 && (clash cls.toNat x.r.cls.toNat).isSome
  match against.find? fun x => s.gLive t x with
  | some x => .conflict ((clash cls.toNat x.r.cls.toNat).getD 0) x
  | none =>
    let dead : Act := .each against fun x => putG cl t sector x { x.r with valid := false }
    let slot := BitVec.ofNat 16 p.slot
    let stamp := BitVec.ofNat 16 p.stamp
    let kept := (recs.filter mine).map fun x => (x, mergeKeep slot stamp cls mask x.r)
    let clean : Act := .each kept fun e => match e.2 with
      | none => putG cl t sector e.1 { e.1.r with valid := false }
      | some r => if r == e.1.r then .skip else putG cl t sector e.1 r
    let held := kept.filterMap fun e => match e.2 with
      | some r => if r.valid then some (e.1, r) else none
      | none => none
    if cls == mcRead && (held.any fun e => e.2.cls == mcWrite && (e.2.mask &&& mask) == mask) then .ok (.seq dead clean)
    else match held.find? fun e => e.2.cls == cls with
      | some e => .ok (.all [dead, clean, putG cl t sector e.1 { e.2 with mask := e.2.mask ||| mask }])
      | none =>
        let new : MarkRec := { slot := slot, stamp := stamp, mask := mask, cls := cls, ovf := false, valid := true }
        let sideFree := match recs.head? with
          | some x => !x.r.valid || against.contains x || kept.any fun e => e.1.loc == .side && e.2.isNone
          | none => false
        if !p.foreign && sideFree then .ok (.all [dead, clean, .put .gside (sideKey t sector) (MarkRec.toSide new)])
        else
          let s' := (Act.seq dead clean).run s
          match addStore s' cl (ScratchRec.make t sector p.foreign new p.ctx p.inc) with
          | some a => .ok (.all [dead, clean, a])
          | none => .capacity

/-- A failed sector of a window check. -/
structure GFail where
  sector : Nat
  words : BitVec 8
  cause : BitVec 8
  other : Option GRec
  deriving DecidableEq, Repr

/-- Check sectors in ascending order (R126): what the passed checks do, and the failures. -/
def gCheckAll (cl t : Nat) (p : GParty) (cls : BitVec 3) : List (Nat × BitVec 8) → State → Act × List GFail
  | [], _ => (.skip, [])
  | (sector, mask) :: rest, s =>
    match gCheck s cl t sector p cls mask with
    | .ok a => let r := gCheckAll cl t p cls rest (a.run s); (.seq a r.1, r.2)
    | .conflict cause x =>
      let r := gCheckAll cl t p cls rest s
      (r.1, { sector := sector, words := x.r.mask &&& mask, cause := cause, other := some x } :: r.2)
    | .capacity =>
      let r := gCheckAll cl t p cls rest s
      (r.1, { sector := sector, words := mask, cause := 0x24, other := none } :: r.2)

/-- The internal slot of the occupant of a team-local slot (R129). -/
def State.tslotOccupant (s : State) (t tslot : Nat) : Nat :=
  match s.team? t with
  | none => 0xFFFF
  | some team =>
    match (s.launch? team.lid) with
    | none => 0xFFFF
    | some l =>
      let blk := s.blocks.find? fun e => e.2.tid == t && e.2.linear % max l.team 1 == tslot / 64
      match blk with
      | none => 0xFFFF
      | some b =>
        if tslot / 32 % 2 == 1 then slotAt b.2.core (96 + tslot % 32)
        else match b.2.gids.find? fun g => match s.group? g with | some x => x.gidx == tslot % 32 | none => false with
          | some g => slotOf g
          | none => 0xFFFF

/-- Slot, class and stamp of the other party of a scratch conflict (R127, R129). -/
def State.gOther (s : State) (t : Nat) (x : Option GRec) : Nat × Nat × Nat :=
  match x with
  | some x => (if x.foreign then x.r.slot.toNat else s.tslotOccupant t x.r.slot.toNat, x.r.cls.toNat, x.r.stamp.toNat)
  | none => (0xFFFF, 0, 0)

/-- The party that a group is at its team's window. -/
def Iss.gparty (c : Iss) (s : State) : GParty :=
  let k := tslotOf c.lau c.blk c.grp
  { foreign := false, slot := k, stamp := (Tab.teamCnt.val 0 (c.tid * 512 + k) s).toNat % 4096, ctx := c.lau.ctx, inc := c.lau.inc }

/-! ## Row copies of a landing (R396 to R399) -/

/-- Bytes of a group record (R387). -/
def Launch.grec (l : Launch) : Nat := 2560 + 4 * l.vregs * l.width
/-- The header of the landing pool: block areas, row copies per area, bytes per area (R396). -/
def landSlots (s : State) (l : Launch) : Nat := s.virtNat l.ctx l.landarea 4
def landRows (s : State) (l : Launch) : Nat := s.virtNat l.ctx (l.landarea + 4) 4
def landSize (s : State) (l : Launch) : Nat := s.virtNat l.ctx (l.landarea + 8) 8
/-- Where area `k` lies (R397), and its row directory.
[DEDUCED, log 48] -/
def landBase (s : State) (l : Launch) (k : Nat) : Nat := l.landarea + 4096 + k * landSize s l
def landDir (s : State) (l : Launch) (k : Nat) : Nat := landBase s l k + 256 + l.gpb * l.grec + l.tiles * 2048

/-- Bytes of a window. -/
def State.winBytes (s : State) (t o n : Nat) : List Byte := (List.range n).map fun i => Tab.win.val 0 (winKey t (o + i)) s

/-- Copy a window row into entry `i` of the row directory of area `k`. -/
def copyRow (l : Launch) (k t row i : Nat) : Act := .read fun s =>
  .seq (writeVirt l.ctx (landDir s l k + 4 * landRows s l + 1024 * i) (s.winBytes t (1024 * row) 1024))
    (writeVirt l.ctx (landDir s l k + 4 * i) (bytesOfNat 4 (2 ^ 31 + row)))

/-- A block is about to write a window row: after a landing, the row's first write copies it, or counts as an escape (R399). -/
def noteRow (bid t row : Nat) : Act := .read fun s =>
  match s.block? bid with
  | none => .skip
  | some b =>
    match b.landSlot, s.launch? b.lid with
    | some k, some l =>
      if b.rowsWritten.contains row then .skip
      else
        let b' := { b with rowsWritten := b.rowsWritten ++ [row] }
        if !b.landed || b.rowsCopied.contains row then .put .blocks bid b'
        else if b.rowsCopied.length < landRows s l then
          .seq (copyRow l k t row b.rowsCopied.length) (.put .blocks bid { b' with rowsCopied := b.rowsCopied ++ [row] })
        else .put .blocks bid { b' with escaped := true }
    | _, _ => .skip
/-- A block is about to write bytes of a window. -/
def noteRows (bid t : Nat) (xs : List (Nat × Nat)) : Act :=
  .each (dedup (xs.flatMap fun x => if x.2 == 0 then [] else [x.1 / 1024, (x.1 + x.2 - 1) / 1024])) fun r => noteRow bid t r

/-! ## LDG, STG, ATG (R130 to R133) -/

/-- The facts of a Gallery operation. -/
def gKind (i : Instr) : MemKind :=
  let m (f : GForm) (w a : Bool) : MemKind :=
    { write := w, atomic := a, cls := f.cls, scope := if f.team then .team else .blk, size := f.size.bytes,
      sizeCode := f.size.code.toNat, signed := f.size == .i8 || f.size == .i16, kind := 0, aop := f.aop.toNat, tc := f.vc.toNat,
      vd := f.vd.toNat, uni := false, nc := false }
  match i with
  | .ldg f => m f false false
  | .stg f => m f true false
  | .atg f => m f true true
  | _ => memKind i

/-- The sectors and words that lanes touch, ascending (R126). -/
def gSectors (n : Nat) (ls : List LaneAcc) : List (Nat × BitVec 8) :=
  let ps := ls.flatMap fun l => piecesOf l n
  let secs := sortNat (dedup (ps.map (·.vsec)))
  secs.map fun v => (v, (ps.filter fun p => p.vsec == v).foldl (fun m p => m ||| wordMask p.first p.len) 0)

/-- The failure that a Gallery operation reports (R129, R155). -/
def gFailure (s : State) (o : Op) (t : Nat) (p : GParty) (fails : List GFail) : Option Failure :=
  let conf := fails.filter fun f => f.other.isSome
  let bad := if conf.isEmpty then fails else conf
  let n := (gKind o.instr).size
  let ps := o.lanes.flatMap fun l => piecesOf l n
  let hits (x : Piece) (f : GFail) : Bool := x.vsec == f.sector && (wordMask x.first x.len &&& f.words) != 0
  match ps.find? fun x => bad.any (hits x) with
  | none => none
  | some x =>
    match bad.find? fun f => ps.any fun y => y.lane == x.lane && hits y f with
    | none => none
    | some f =>
      let first := match ps.find? fun y => y.lane == x.lane && y.vsec == f.sector with | some y => y.vsec * 32 + y.first | none => 0
      let k := gKind o.instr
      let oth := s.gOther t f.other
      let b : Blame := { kind := 0, cause := f.cause, write := k.write, cls := k.cls.code.toNat, lane := x.lane, size := 0x20 + k.sizeCode,
                         va := first, oslot := oth.1, ocls := oth.2.1, ostamp := oth.2.2 }
      some { cause := f.cause, frame := recordOf b o.ctx o.inc o.slot.toNat p.stamp o.site s.window32, words := opWords s o, origin := 0 }

/-- The results and writes of the lanes of a Gallery operation, lanes ascending (R132). -/
def galLanes (o : Op) (t : Nat) : List LaneAcc → State → Act × List RegVal × Nat
  | [], _ => (.skip, [], 0)
  | l :: rest, s =>
    let k := gKind o.instr
    let old := s.winNat t l.va k.size
    let r : FRes := if k.atomic then atomicNew k.aop k.tc (8 * k.size) old l.b l.c else (l.b, 0)
    let act : Act := if k.write then wrWin t l.va k.size r.1 else .skip
    let vals : List RegVal := if k.write && (!k.atomic || k.vd == 255) then [] else loadedRegs k l.lane old
    let more := galLanes o t rest (if k.atomic then act.run s else s)
    (.seq act more.1, vals ++ more.2.1, r.2 ||| more.2.2)

/-- The pieces of a lane of a window access that a part of it performs (R179). -/
def galPieces (n h : Nat) (l : LaneAcc) : List Piece := (piecesOf l n).filter fun p => inPart h p.vsec
/-- What a part of a window read finds of a lane's value. -/
def galPart (s : State) (n t h : Nat) (l : LaneAcc) : Nat :=
  (galPieces n h l).foldl (fun a p => a + s.winNat t (p.vsec * 32 + p.first) p.len * 256 ^ p.skip) 0
/-- The first part of a window access with a lane that crosses a sector boundary: a read keeps what it finds with its lanes. -/
def beginGal (id : Nat) (o : Op) (t : Nat) : Act := .read fun s =>
  let n := (gKind o.instr).size
  if (gKind o.instr).write then
    .each o.lanes fun l => .each (galPieces n 1 l) fun p => wrWin t (p.vsec * 32 + p.first) p.len (l.b / 256 ^ p.skip)
  else .upd .ops id fun x => { x with lanes := x.lanes.map fun l => { l with c := galPart s n t 1 l } }
/-- The second part: the rest is written, or the lanes' values are whole. -/
def endGal (id : Nat) (o : Op) (t : Nat) : Act := .read fun s =>
  let k := gKind o.instr
  if k.write then
    .each o.lanes fun l => .each (galPieces k.size 2 l) fun p => wrWin t (p.vsec * 32 + p.first) p.len (l.b / 256 ^ p.skip)
  else .upd .ops id fun x => { x with results := x.results ++ x.lanes.flatMap fun l => loadedRegs k l.lane (l.c + galPart s k.size t 2 l) }

/-- Whether a Gallery operation's lanes are journaled (R423). -/
def MemKind.galJournaled (k : MemKind) : Bool :=
  k.cls == .sync || k.cls == .swap || k.cls == .peek || ((k.cls == .add || k.cls == .logic) && k.vd != 255) || (k.atomic && k.aop == 1)

/-- The journal at the lanes of a Gallery operation: what recording them does, and whether one of them is held (R423, R425).
[DEDUCED, log 49] -/
def galJournal (s : State) (o : Op) : Act × BitVec 64 :=
  match s.blockOf o.gid, s.launchOf o.gid, s.group? o.gid with
  | some b, some l, some x => if l.journals && (gKind o.instr).galJournaled then journalLanes o b.lid l b.linear x.gidx o.lanes.zipIdx s else (.skip, 0)
  | _, _, _ => (.skip, 0)

/-- The record of a Gallery access for a watchpoint (R415). -/
def galHit (s : State) (o : Op) (lane va : Nat) : List (BitVec 32) :=
  let k := gKind o.instr
  opRecord s o { kind := 0, cause := 0x51, write := k.write, cls := k.cls.code.toNat, lane := lane, size := 0x20 + k.sizeCode, va := va,
                 oslot := 0xFFFF, ocls := 0, ostamp := 0 }

/-- The zeros of the executing lanes that `.z` leaves outside the window (R132). -/
def galZeros (o : Op) : List RegVal :=
  match o.dest with
  | none => []
  | some d => ((lanesOf 64 o.exec).filter fun l => !(o.lanes.any fun x => x.lane == l)).flatMap fun l =>
      (List.range d.2).map fun i => { reg := d.1 + i, lane := l, val := 0 }
/-- Check and perform a Gallery operation: its banks answer at once, its results and flags wait for PRODUCER_COMPLETE, which also performs the
second part of one with a lane that crosses a sector boundary (R179). A SYNC access ends the interval (R133). A request whose tag is stale at the Gallery control is dropped (R122). -/
def galPerform (id : Nat) : Act := .read fun s =>
  match Tab.ops.at id s with
  | none => .skip
  | some o =>
    match s.blockOf o.gid, s.launchOf o.gid, s.group? o.gid with
    | some b, some l, some x =>
      let k := gKind o.instr
      let slot := tslotOf l b x
      let p : GParty := { foreign := false, slot := slot, stamp := (Tab.teamCnt.val 0 (b.tid * 512 + slot) s).toNat % 4096, ctx := o.ctx,
                          inc := o.inc }
      let cl := clusterOf (coreOf o.gid)
      let chk := gCheckAll cl b.tid p (markClass k.cls k.write) (gSectors k.size o.lanes) s
      if s.stale (.gallery cl) o.ctx o.inc then .skip else .seq chk.1 (.read fun s =>
        match gFailure s o b.tid p chk.2 with
        | some f => failOp id f
        | none =>
          let two := k.cls == .data && o.lanes.any fun l => 2 ≤ (piecesOf l k.size).length
          let r := if two then (beginGal id o b.tid, [], 0) else galLanes o b.tid o.lanes s
          .all [ .when k.write (noteRows o.bid b.tid (o.lanes.map fun l => (l.va, k.size))), r.1, (galJournal s o).1,
                 .when (k.cls == .add || k.cls == .logic || k.cls == .swap || (k.cls == .sync && k.write && Scope.wide k.scope))
                   (escape o.gid),
                 watchGallery o.gid (some id) b.tid (MemKind.touch k) (o.lanes.map fun l => { lane := l.lane, va := l.va, n := k.size }) (galHit s o),
                 .upd .ops id fun o => { o with results := r.2.1 ++ galZeros o, flags := BitVec.ofNat 6 r.2.2, phase := .running, prog := b2n two },
                 .when (k.cls == .sync)
                   (.seq (endInterval o.gid) (.when (k.atomic || !k.write) (acquireAt o.gid (some k.scope)))),
                 .due [.producerComplete id] ])
    | _, _, _ => .skip

/-- An earlier SYNC access of the group that is still in flight. -/
def State.syncBefore (s : State) (g : Nat) : Option (Nat × Op) :=
  (s.opsOf g).find? fun e => isMemory e.2.instr && !e.2.phase.past && e.2.isSync && !s.kept g e.1

/-- The window bytes that an operation has still to access in its group's order, as offset and length (R133, R259, R271): a Gallery access
that failed, the operands of an MMA, the rows of a TLOAD that has not read. -/
def Op.winSpans (o : Op) : List (Nat × Nat) :=
  let own : List (Nat × Nat) := o.lanes.map fun l => (l.va, l.b)
  match o.instr with
  | .ldg f => o.lanes.map fun l => (l.va, f.size.bytes)
  | .stg f => o.lanes.map fun l => (l.va, f.size.bytes)
  | .atg f => o.lanes.map fun l => (l.va, f.size.bytes)
  | .mma _ => own
  | .tload f => if f.mem || o.unf == 0 then [] else own
  | _ => []
def Op.winWrites (o : Op) : Bool := match o.instr with | .stg _ => true | .atg _ => true | _ => false
/-- Whether those accesses have not been performed: a Gallery access is performed when it issues, unless its check failed
or it crosses a sector boundary.
[DEDUCED, log 57] -/
def Op.winPending (o : Op) : Bool :=
  match o.instr with
  | .ldg _ => o.phase == .failed || (o.phase == .running && o.prog != 0)
  | .stg _ => o.phase == .failed || (o.phase == .running && o.prog != 0)
  | .atg _ => o.phase == .failed
  | _ => o.phase != .done
/-- The earlier window access of the group that a new one must follow: the two touch a byte in common and one of them writes.
[DEDUCED, log 57] -/
def State.winBefore (s : State) (o : Op) : Option (Nat × Op) :=
  (s.opsOf o.gid).find? fun e => e.2.winPending && !s.kept o.gid e.1 && (e.2.winWrites || o.winWrites) &&
    e.2.winSpans.any fun x => o.winSpans.any fun y => x.1 < y.1 + y.2 && y.1 < x.1 + x.2
/-- Go on when no earlier window access stands before the new one; a failed one is reported here.
[DEDUCED, log 57] -/
def Iss.winOrdered (c : Iss) (o : Op) (k : Act) : Act := .read fun s =>
  match s.winBefore o with
  | none => k
  | some (id, x) => if x.phase == .failed then lateTrap c id x else c.stall (.op id)

/-- Go on when no earlier SYNC access of the group is in flight; a failed one is reported here (R133). -/
def Iss.afterSync (c : Iss) (k : Act) : Act := .read fun s =>
  match s.syncBefore c.gid with
  | none => k
  | some (id, x) => if x.phase == .failed then lateTrap c id x else c.stall (.op id)

/-- LDG, STG and ATG. -/
def galForm (i : Instr) (f : GForm) (atomic write : Bool) (s : State) : Host.Outcome State Fault Refusal :=
  issue i (fun c => c.checked (laneNames i) [] (.read fun s =>
    let k := gKind i
    let n := k.size
    let m := c.execMask s f.head
    let wsz := s.wsz c.tid
    let offs := (lanesOf c.lau.width m).map fun l =>
      (l, (if f.uidx then s.sreg c.gid f.va.toNat else s.vreg c.gid f.va.toNat l).toInt + f.off.toInt)
    let strict := f.cls != .data && f.cls != .peek
    let outside (o : Int) : Bool := o < 0 || Int.ofNat wsz < o + Int.ofNat n
    let blame (x : Nat × Int) : Placed := { lane := x.1, out := true, va := wrap 57 x.2 }
    if 63 ≤ s.counter c.gid 2 then c.stall (.counter 2)
    else if m == 0 then c.advance
    else match (if strict then offs.find? fun x => x.2 % Int.ofNat n != 0 else none) with
    | some x => c.trapAccess k 0x16 (blame x)
    | none =>
      if atomic && f.aop == 1 && c.sp.fmt.getLsbD 22 then c.trap 0x31 0
      else match (if f.z then none else offs.find? fun x => outside x.2) with
      | some x => c.trapAccess k 0x15 (blame x)
      | none =>
        let good := offs.filter fun x => !outside x.2
        let dest := if write && (!atomic || f.vd == 255) then none else some (f.vd.toNat, sizeWords f.size)
        let lanes := good.map fun x =>
          ({ lane := x.1, va := x.2.toNat, b := s.vwide c.gid f.vb.toNat x.1 (sizeWords f.size) % 2 ^ (8 * n),
             c := if atomic && f.aop == 9 then s.vwide c.gid f.vc.toNat x.1 (sizeWords f.size) else 0 } : LaneAcc)
        let o : Op := { c.op s i (some 2) with dest := dest, exec := maskOf (offs.map (·.1)), unf := maskOf (good.map (·.1)), lanes := lanes }
        let go : Act := .fresh fun id => .all
          [ .put .ops id o, c.advance, c.count (if k.galJournaled then o.lanes.length else 0), .when dest.isSome (c.produce id f.head.la), galPerform id ]
        if (galJournal s o).2 != 0 then c.stall .journal
        else c.afterSync (c.winOrdered o (if f.cls == .sync then c.gated (if write then some k.scope else none) go else go)))) s

def execLdg (f : GForm) (s : State) : Host.Outcome State Fault Refusal := galForm (.ldg f) f false false s
def execStg (f : GForm) (s : State) : Host.Outcome State Fault Refusal := galForm (.stg f) f false true s
def execAtg (f : GForm) (s : State) : Host.Outcome State Fault Refusal := galForm (.atg f) f true true s

/-! ## PRODUCER_COMPLETE (R40, R238, R239) -/

/-- The failure of a float producer that raised NV under TINV, at its lowest such lane (R239, R369). -/
def invalidFailure (s : State) (o : Op) : Failure :=
  { cause := 0x30,
    frame := recordOf (.plain 0 0x30 (lowLane o.zeroed)) o.ctx o.inc o.slot.toNat (s.stampOf o.slot.toNat).toNat o.site s.window32,
    words := opWords s o, origin := 0 }

/-- The team of an operation's block. -/
def State.opTeam (s : State) (o : Op) : Nat := match s.blockOf o.gid with | some b => b.tid | none => 0
/-- A producer's results and flags are written, and it ends; under TINV an invalid operation is its late fault. -/
def completeProducer (id : Nat) : Act := .read fun s =>
  match Tab.ops.at id s with
  | none => .skip
  | some o =>
    if o.phase != .running then .skip
    else if o.prog != 0 then .all [ endGal id o (s.opTeam o), .upd .ops id fun o => { o with prog := 0 }, .due [.producerComplete id] ]
    else if o.path == none && o.fmt.getLsbD 23 && o.flags.getLsbD 0 then failOp id (invalidFailure s o)
    else .all [ .each o.results fun r => wrV o.gid r.reg r.lane r.val, orFlags o.gid o.flags, endOp id ]

/-! ## GMODE (R135) -/

/-- Move a team's rows out of a bank (R135, R137); the copies of rows whose tag is stale are dropped (R22). -/
def moveTeamRows (cl bank t n : Nat) : Act := .read fun s =>
  if (match s.team? t with | some x => s.stale (.gallery cl) (x.tag / 256) (x.tag % 256) | none => true) then .skip
  else
  let free := ((s.cluster cl).scratchBanks.filter (· != bank)).map fun b => (b, s.bankFree cl b)
  let got := takeRows n free
  .upd .teams t fun x => { x with bankRows := x.bankRows.zipIdx.map fun e =>
    if e.2 == bank then e.1 - n
    else e.1 + (match got.find? fun g => g.1 == e.2 with | some g => g.2 | none => 0) }

/-- The splits whose GMODEs still wait for a cluster, in the order they arrived (R135). -/
def State.gmodeQueue (s : State) (cl : Nat) : List Nat :=
  (s.cluster cl).gwait.filter fun k => match Tab.splits.at k s with | some y => y.wait == .gmode | none => false
/-- Whether a split's GMODE may be served: no step and no GMODE is in progress, and none that arrived earlier waits (R135). -/
def State.gmodeTurn (s : State) (cl k : Nat) : Bool :=
  s.dev.stepState == 0 && (s.cluster cl).gmode.isNone &&
  ((s.gmodeQueue cl).head?.getD k == k)

def execGmode (sb : Bool) (m : BankMode) (b : BitVec 5) (s : State) : Host.Outcome State Fault Refusal :=
  issue (.gmode sb m b) (fun c => .read fun s =>
    let cl := clusterOf c.core
    let k := s.cluster cl
    let bank := b.toNat
    if !(s.ctx c.lau.ctx).gmodeen then c.trap 0x07 0
    else if !s.gmodeTurn cl c.key then
      .seq (c.stall .gmode) (.put .clusters cl { k with gwait := if (s.gmodeQueue cl).contains c.key then s.gmodeQueue cl
                                                                 else s.gmodeQueue cl ++ [c.key] })
    else
    let k := { k with gwait := (s.gmodeQueue cl).filter (· != c.key) }
    if k.modeOf bank == m then .all [.put .clusters cl k, c.advance, escape c.gid]
    else
      let free := ((k.scratchBanks.filter (· != bank)).map fun x => s.bankFree cl x).foldl (· + ·) 0
      if k.modeOf bank == .scratch && free < s.bankAlloc cl bank then c.trap 0x47 0
      else .all [ .put .clusters cl { k with gmode := some { bank := bank, mode := m, gid := c.gid, ctx := c.lau.ctx } },
                  c.advance, .upd .splits c.key fun x => { x with wait := .gmode },
                  escape c.gid, .due [.gmodeDrainComplete cl] ]) s

/-- The key of an entry that stands in FIFO rows. -/
def fifoKey (tag va n : Nat) : Nat := (tag * 2 ^ 57 + va) * 2 ^ 64 + n
/-- The entries of a queue that stand in FIFO rows, with their numbers. -/
def State.fifoOf (s : State) (tag va : Nat) : List (Nat × BitVec 128) :=
  (Sparse.range (fifoKey tag va 0) (fifoKey tag va 0 + 2 ^ 64) s.fifo).map fun e => (e.1 % 2 ^ 64, e.2)
/-- The FIFO entries of a queue move to its memory ring (R123); an entry whose ring slot does not translate stays held, and those of a stale tag
are dropped. -/
def fifoToRing (cl tag va : Nat) : Act := .read fun s =>
  let ctx := tag / 256
  let ring := s.virtNat ctx va 8
  let cap := max (s.virtNat ctx (va + 8) 4) 1
  .each (s.fifoOf tag va) fun e =>
    let slot := ring + 16 * (e.1 % cap)
    if s.stale (.gallery cl) ctx (tag % 256) then .del .fifo (fifoKey tag va e.1)
    else match s.translateFor ctx .store slot with
    | .ok pa => .seq (writeHomeNat pa 16 e.2.toNat) (.del .fifo (fifoKey tag va e.1))
    | .error _ => .skip

/-! ## The background scan (R128) -/

/-- SCRATCH_SCAN: one full pass over a cluster clears every dead record, and counts as the pass that a quarter change waits for. -/
def execScratchScan (cluster : Nat) (s : State) : Host.Outcome State Fault Refusal :=
  .next (Act.run (.read fun s =>
    .seq (.each (s.teamsIn cluster) fun e =>
        .seq (.each (Sparse.range (sideKey e.1 0) (sideKey (e.1 + 1) 0) s.gside) fun r =>
            .when (!s.gLive e.1 { loc := .side, foreign := false, r := SideRec.toMark r.2, ctx := 0, inc := 0 }) (.del .gside r.1))
          (.each (Sparse.range (e.1 * 512) ((e.1 + 1) * 512) s.teamCnt) fun k => .put .tscan k.1 true))
      (.updD .clusters Cluster.init cluster fun k => { k with overflow := k.overflow.filter fun r => !s.storeDead r })) s)

end Sys2Proof.Machine
end

