-- ==== Sys2Proof/Machine/Uniform.lean ====
section
/-! DEFINITION. The uniform instructions (12_execution_model.md R289 to R296): arithmetic, comparisons, immediates, MOVS and SETS, QLOG,
NOP; and SFMT (R233). -/

namespace Sys2Proof.Machine

open Sys2Proof

/-! ## Arithmetic (R291, R292) -/

/-- A uniform register, or a pair (R292). -/
def State.ureg (s : State) (g : Nat) (wide : Bool) (r : BitVec 6) : Nat :=
  if wide then (s.spair g r.toNat).toNat else (s.sreg g r.toNat).toNat
/-- Write a uniform register, or a pair. -/
def wrU (g : Nat) (wide : Bool) (r : BitVec 6) (v : Nat) : Act :=
  if wide then wrSD g r.toNat (BitVec.ofNat 64 v) else wrS g r.toNat (BitVec.ofNat 32 v)
def uwidth (wide : Bool) : Nat := if wide then 64 else 32

/-- U.RRR: r := op a b. -/
def arith (i : Instr) (d a b : BitVec 6) (wide wideB : Bool) (op : Nat → Nat → Nat) (s : State) : Host.Outcome State Fault Refusal :=
  uform i (fun c s => wrU c.gid wide d (op (s.ureg c.gid wide a) (s.ureg c.gid wideB b))) s

def subMod (w a b : Nat) : Nat := (a + 2 ^ w - b) % 2 ^ w
/-- The high half of a 32-bit product (R292). -/
def mulHi (sgn : Bool) (a b : Nat) : Nat := if sgn then wrap 32 (sext 32 a * sext 32 b / Int.ofNat (2 ^ 32)) else a * b / 2 ^ 32
def shlU (w a b : Nat) : Nat := if w ≤ b then 0 else a * 2 ^ b % 2 ^ w
def shrU (ar : Bool) (w a b : Nat) : Nat :=
  if ar then wrap w (sext w a / Int.ofNat (2 ^ min b w)) else a / 2 ^ min b w
/-- Whether a < b. -/
def ltU (sgn : Bool) (w a b : Nat) : Bool := if sgn then sext w a < sext w b else a < b

def execSadd (sb : Bool) (d a b : BitVec 6) (w : Bool) (s : State) : Host.Outcome State Fault Refusal :=
  arith (.sadd sb d a b w) d a b w w (fun x y => (x + y) % 2 ^ uwidth w) s
def execSsub (sb : Bool) (d a b : BitVec 6) (w : Bool) (s : State) : Host.Outcome State Fault Refusal :=
  arith (.ssub sb d a b w) d a b w w (subMod (uwidth w)) s
def execSmul (sb : Bool) (d a b : BitVec 6) (sgn hi w : Bool) (s : State) : Host.Outcome State Fault Refusal :=
  arith (.smul sb d a b sgn hi w) d a b w w (fun x y => if hi then mulHi sgn x y else x * y % 2 ^ uwidth w) s
def execSand (sb : Bool) (d a b : BitVec 6) (w : Bool) (s : State) : Host.Outcome State Fault Refusal :=
  arith (.sand sb d a b w) d a b w w (· &&& ·) s
def execSor (sb : Bool) (d a b : BitVec 6) (w : Bool) (s : State) : Host.Outcome State Fault Refusal :=
  arith (.sor sb d a b w) d a b w w (· ||| ·) s
def execSxor (sb : Bool) (d a b : BitVec 6) (w : Bool) (s : State) : Host.Outcome State Fault Refusal :=
  arith (.sxor sb d a b w) d a b w w (· ^^^ ·) s
def execSshl (sb : Bool) (d a b : BitVec 6) (w : Bool) (s : State) : Host.Outcome State Fault Refusal :=
  arith (.sshl sb d a b w) d a b w false (shlU (uwidth w)) s
def execSshr (sb : Bool) (d a b : BitVec 6) (ar w : Bool) (s : State) : Host.Outcome State Fault Refusal :=
  arith (.sshr sb d a b ar w) d a b w false (shrU ar (uwidth w)) s
def execSmin (sb : Bool) (d a b : BitVec 6) (sgn w : Bool) (s : State) : Host.Outcome State Fault Refusal :=
  arith (.smin sb d a b sgn w) d a b w w (fun x y => if ltU sgn (uwidth w) y x then y else x) s
def execSmax (sb : Bool) (d a b : BitVec 6) (sgn w : Bool) (s : State) : Host.Outcome State Fault Refusal :=
  arith (.smax sb d a b sgn w) d a b w w (fun x y => if ltU sgn (uwidth w) x y then y else x) s

/-! ## Comparison, selection, logic of q registers (R293, R294) -/

/-- The conditions of SCMP. -/
def cmpU (code : Nat) (sgn : Bool) (w a b : Nat) : Bool :=
  match code with
  | 0 => a == b | 1 => a != b | 2 => ltU sgn w a b | 3 => !ltU sgn w b a | 4 => ltU sgn w b a | _ => !ltU sgn w a b

def execScmp (sb : Bool) (d : BitVec 3) (a b : BitVec 6) (w sgn : Bool) (k : BitVec 3) (s : State) : Host.Outcome State Fault Refusal :=
  uform (.scmp sb d a b w sgn k) (fun c s =>
    wrQ c.gid d.toNat (cmpU k.toNat sgn (uwidth w) (s.ureg c.gid w a) (s.ureg c.gid w b))) s
def execSsel (sb : Bool) (d a b : BitVec 6) (q : BitVec 3) (s : State) : Host.Outcome State Fault Refusal :=
  uform (.ssel sb d a b q) (fun c s =>
    wrS c.gid d.toNat (if c.grp.qreg q.toNat then s.sreg c.gid a.toNat else s.sreg c.gid b.toNat)) s
def execQlog (sb : Bool) (d a b : BitVec 3) (tt : BitVec 4) (s : State) : Host.Outcome State Fault Refusal :=
  uform (.qlog sb d a b tt) (fun c _ =>
    wrQ c.gid d.toNat (bitAt tt.toNat (2 * b2n (c.grp.qreg a.toNat) + b2n (c.grp.qreg b.toNat)))) s

/-! ## Immediates (R295) -/

/-- U.RI on one register. -/
def immForm (i : Instr) (d : BitVec 6) (op : BitVec 32 → BitVec 32) (s : State) : Host.Outcome State Fault Refusal :=
  uform i (fun c s => wrS c.gid d.toNat (op (s.sreg c.gid d.toNat))) s

def execSaddi (sb : Bool) (d : BitVec 6) (i : BitVec 17) (s : State) : Host.Outcome State Fault Refusal :=
  immForm (.saddi sb d i) d (fun x => x + i.signExtend 32) s
def execSmovi (sb : Bool) (d : BitVec 6) (i : BitVec 17) (s : State) : Host.Outcome State Fault Refusal :=
  immForm (.smovi sb d i) d (fun _ => i.signExtend 32) s
def execSmovh (sb : Bool) (d : BitVec 6) (i : BitVec 16) (s : State) : Host.Outcome State Fault Refusal :=
  immForm (.smovh sb d i) d (fun x => i ++ x.extractLsb' 0 16) s
def execSandi (sb : Bool) (d : BitVec 6) (i : BitVec 17) (s : State) : Host.Outcome State Fault Refusal :=
  immForm (.sandi sb d i) d (fun x => x &&& i.signExtend 32) s
def execSori (sb : Bool) (d : BitVec 6) (i : BitVec 17) (s : State) : Host.Outcome State Fault Refusal :=
  immForm (.sori sb d i) d (fun x => x ||| i.signExtend 32) s
def execSxori (sb : Bool) (d : BitVec 6) (i : BitVec 17) (s : State) : Host.Outcome State Fault Refusal :=
  immForm (.sxori sb d i) d (fun x => x ^^^ i.signExtend 32) s

def execNop (sb : Bool) (s : State) : Host.Outcome State Fault Refusal := uform (.nop sb) (fun _ _ => .skip) s

/-! ## Special registers (R289, R290) -/

/-- The group timer: what it held when the group became resident, and the ac since (R290). -/
def State.groupTimer (s : State) (x : Group) : Nat := x.timer + (s.dev.cycle.toNat - x.resTime)

/-- The special register of a selector; 0x10 and 0x12 read the low half of a counter. -/
def special (s : State) (c : Iss) (sel : Nat) : BitVec 32 :=
  let l := c.lau
  match sel with
  | 0x01 => word c.grp.gidx
  | 0x02 => word (c.blk.linear % max l.gridx 1)
  | 0x03 => word (c.blk.linear / max l.gridx 1 % max l.gridy 1)
  | 0x04 => word (c.blk.linear / max l.gridx 1 / max l.gridy 1)
  | 0x05 => word l.gridx
  | 0x06 => word l.gridy
  | 0x07 => word l.gridz
  | 0x08 => word (c.core % 64)
  | 0x09 => word (clusterOf c.core % 8)
  | 0x0A => word (dieOf c.core)
  | 0x0B => word (c.blk.linear / max l.team 1)
  | 0x0C => word l.width
  | 0x0D => word c.slot
  | 0x0E => s.icountOf c.slot
  | 0x0F => word (c.blk.linear % max l.team 1)
  | 0x10 => s.dev.cycle.extractLsb' 0 32
  | 0x11 => c.grp.cychi
  | 0x12 => word (s.groupTimer c.grp)
  | 0x13 => c.grp.gthi
  | 0x14 => s.window32
  | 0x15 => c.grp.thandle
  | 0x16 => word c.grp.depth
  | 0x17 => word s.dev.point
  | 0x18 => word (s.usable (clusterOf c.core))
  | 0x19 => word l.ctx
  | 0x1A => word l.inc
  | 0x1B => word c.blk.lid
  | 0x1C => c.grp.flags.setWidth 32
  | 0x1D => c.grp.gtthr
  | 0x1E => c.sp.fmt
  | _ => 0

/-- Reading 0x10 or 0x12 latches the high half for 0x11 or 0x13 (R290).
[DEDUCED, log 31] -/
def latch (s : State) (c : Iss) (sel : Nat) : Act :=
  match sel with
  | 0x10 => .upd .groups c.gid fun x => { x with cychi := s.dev.cycle.extractLsb' 32 32 }
  | 0x12 => .upd .groups c.gid fun x => { x with gthi := word (s.groupTimer c.grp / 2 ^ 32) }
  | _ => .skip

def execMovs (sb : Bool) (d : BitVec 6) (sel : BitVec 8) (s : State) : Host.Outcome State Fault Refusal :=
  uform (.movs sb d sel) (fun c s => .seq (latch s c sel.toNat) (wrS c.gid d.toNat (special s c sel.toNat))) s

/-- SETS (R289, R296): GTTHR is the one register that may be written; any other traps with 0x07.
[DEDUCED, log 31] -/
def execSets (sb : Bool) (d : BitVec 6) (sel : BitVec 8) (s : State) : Host.Outcome State Fault Refusal :=
  issue (.sets sb d sel) (fun c => .read fun s =>
    if sel == 0x1D then
      let v := s.sreg c.gid d.toNat
      .seq c.advance (.upd .groups c.gid fun x => { x with gtthr := v })
    else c.trap 0x07 0) s

/-! ## SFMT (R233) -/

def execSfmt (sb : Bool) (a : BitVec 6) (f : BitVec 5) (s : State) : Host.Outcome State Fault Refusal :=
  issue (.sfmt sb a f) (fun c => .read fun s =>
    let x := s.sreg c.gid a.toNat
    let v := match f.toNat with | 0 => x | 1 => c.sp.fmt ||| x | _ => c.sp.fmt &&& ~~~x
    if v.extractLsb' 24 8 != 0 || v.extractLsb' 10 2 == 3 then c.trap 0x02 0
    else .seq c.advance (.upd .splits c.key fun x => { x with fmt := v })) s

end Sys2Proof.Machine
end

