-- ==== Sys2Proof/Machine/Launch.lean ====
section
/-! DEFINITION. Blocks, teams and launches (12_execution_model.md R275, R276, R288, 15_launch_and_scheduling.md R357, R360, 05_gallery.md
R120, R139, 00_scope.md R13, R14): what a core has room for, placement, the start of a group, the end of groups, blocks, teams and
launches, and the commands that wait for them. -/

namespace Sys2Proof.Machine

open Sys2Proof

/-! ## Commands that complete (R349, R351) -/

/-- Whether a command that has started is complete: a chain when it is parsed to its end and none of its commands is left. -/
def cmdOver (s : State) (id : Nat) (c : Cmd) : Bool :=
  match c.kind with
  | .chain => !c.open_ && !(s.cmds.any fun e => e.2.parent == some id)
  | _ => c.done
/-- Remove the commands of a queue that are complete: chained ones at once, the others in ring order, each advancing QDONE. A chain gives its
interrupt here (R350); the others have given theirs. -/
def retireCmds (q : Nat) : Nat → Act
  | 0 => .skip
  | fuel + 1 => .read fun s =>
    let k := Tab.queues.val Queue.init q s
    match s.cmds.find? fun e => e.2.q == q && cmdOver s e.1 e.2 && (e.2.parent.isSome || e.2.ringIndex == k.qdone.toNat) with
    | none => .skip
    | some e => .all
      [ .del .cmds e.1, .when (e.2.irq && !e.2.done) (.dev fun d => { d with irqs := d.irqs + 1 }),
        .when e.2.parent.isNone (.updD .queues Queue.init q fun k => { k with qdone := k.qdone + 1 }), retireCmds q fuel ]

/-- The opcode byte of a packet, by virtual address in a context. -/
def packetOp (s : State) (ctx va : Nat) : Option Nat :=
  match s.readBy 0 ctx va 16 with
  | .ok bs => some (natOfBytes bs % 256)
  | .error _ => none
/-- Where the next packet of a queue stands: in the innermost open chain, or in the ring (R348, R352). -/
def nextPacket (k : Queue) : Option Nat :=
  match k.chains with
  | (_, va, _) :: _ => some va
  | [] => if k.qhead == k.qtail then none
          else some ((k.qbase.toNat + 16 * (k.qhead.toNat % 2 ^ (k.size.toNat + 4))) % 2 ^ 64)
/-- The event that parses a queue's next packet. -/
def parseEvent (op q : Nat) : Instr :=
  match op with
  | 1 => .launch q | 2 => .timetable q | 3 => .chain q | 4 => .wait q | 5 => .signal q | 6 => .copy q | 7 => .marker q
  | 8 => .kill q | 9 => .reclaim q | _ => .cmdNop q
/-- Whether a queue may be parsed: enabled, running, not behind a BARRIER, and its context neither saved nor killed (R353, R381). -/
def State.parseable (s : State) (q : Nat) : Bool :=
  let k := Tab.queues.val Queue.init q s
  k.en && k.qstat == 0 && (nextPacket k).isSome && !s.stale (.controller 0) k.ctx.toNat k.inc.toNat &&
  ((s.ctx k.ctx.toNat).cstate == 1 || k.ctx == 0) && !k.barrier
/-- The command core turns to the queue of the highest QPRIO, round-robin within one (R349). -/
def kick : Act := .read fun s =>
  let qs := (s.queues.map (·.1)).filter s.parseable
  let prio (q : Nat) : Nat := (Tab.queues.val Queue.init q s).prio.toNat
  let top := (qs.map prio).foldl max 0
  let best := qs.filter fun q => prio q == top
  match (match best.find? (s.dev.lastQ < ·) with | some q => some q | none => best.head?) with
  | none => .skip
  | some q =>
    let k := Tab.queues.val Queue.init q s
    .due [parseEvent (((nextPacket k).bind (packetOp s k.ctx.toNat)).getD 0) q]

/-- A command is complete, with an interrupt when it asks for one (R350). A BARRIER that waited for it is tested again. -/
def finishCmd (id : Nat) : Act := .read fun s =>
  match Tab.cmds.at id s with
  | none => .skip
  | some c => .all
    [ .put .cmds id { c with done := true }, .when (c.irq && !c.done) (.dev fun d => { d with irqs := d.irqs + 1 }), retireCmds c.q (s.cmds.length + 1),
      .updD .queues Queue.init c.q fun k => { k with barrier := false }, kick ]

/-! ## Launches -/

def Launch.blockCount (l : Launch) : Nat := l.gridx * l.gridy * l.gridz
/-- Teams of a launch; the last may be short (R275). -/
def Launch.teamCount (l : Launch) : Nat := (l.blockCount + max l.team 1 - 1) / max l.team 1
/-- The linear block indices of a team. -/
def Launch.teamBlocks (l : Launch) (i : Nat) : List Nat :=
  (List.range (max l.team 1)).map (fun k => i * max l.team 1 + k) |>.filter (· < l.blockCount)
def Launch.rows (l : Launch) : Nat := rowsOfBytes l.gal
/-- Bytes of an adoption frame, and of a block's adoption stack (R316). -/
def Launch.fsz (l : Launch) : Nat := 1024 + 4 * l.vregs * l.width
def Launch.adoptSize (l : Launch) : Nat := l.gpb * 4 * l.fsz

/-- The completion record of a launch (R357), written with the scheduling core's rights, or the event that names DONEADDR.
[DEDUCED, log 80; DEDUCED, log 82] -/
def completionRecord (lid : Nat) (l : Launch) (ctx : Nat) : Act := .read fun s =>
  if l.doneaddr == 0 then .skip
  else
    let bytes := bytesOfNat 8 (if l.cause == 0 then l.doneval.toNat else 0) ++ bytesOfNat 4 l.cause.toNat ++ bytesOfNat 4 lid
    match s.translateFor l.ctx .store l.doneaddr with
    | .ok pa => if s.fwMay 1 .store pa 16 then writeHome pa bytes
                else postEvent [word (12 * 2 ^ 28 + ctx * 2 ^ 16 + l.inc * 256), 0xFFFF, word (l.doneaddr % 2 ^ 32),
                                word (l.doneaddr / 2 ^ 32), 0, 0, 0, s.window32]
    | .error _ => postEvent [word (12 * 2 ^ 28 + ctx * 2 ^ 16 + l.inc * 256), 0xFFFF, word (l.doneaddr % 2 ^ 32),
                             word (l.doneaddr / 2 ^ 32), 0, 0, 0, s.window32]

/-- A launch ends: its completion record, then its command or its node (R357, R359). -/
def endLaunch (lid : Nat) : Act := .read fun s =>
  match s.launch? lid with
  | none => .skip
  | some l => .all
    [ completionRecord lid l l.ctx,
      match l.src with
      | .cmd id => .seq (.del .launches lid) (finishCmd id)
      | .node tt i => .due [.timetableNodeComplete tt i] ]

/-- Test whether a launch is over (R357).
[DEDUCED, log 48] -/
def checkLaunch (lid : Nat) : Act := .read fun s =>
  match s.launch? lid with
  | some l => .when (l.running == 0 && l.teamCount ≤ l.nextTeam) (.due [.launchComplete lid])
  | none => .skip

/-- The first saved team of a launch that waits to be resident again, and its blocks (R384). -/
def State.savedTeam (s : State) (lid : Nat) (l : Launch) : Option (SavedTeam × List SavedBlock) :=
  ((s.ctx l.ctx).savedTeams.find? fun t => t.lid == lid).map fun t =>
    (t, (s.ctx l.ctx).savedBlocks.filter fun b => b.lid == lid && b.team == t.index)
/-- Whether a launch has a team that is not resident: a saved one or an unstarted one. -/
def State.hasTeam (s : State) (lid : Nat) (l : Launch) : Bool := (s.savedTeam lid l).isSome || l.nextTeam < l.teamCount
/-- Offer the waiting teams again: room may have changed (R139, R360). -/
def offerTeams : Act := .read fun s => .due ((s.launches.filter fun e => s.hasTeam e.1 e.2).map fun e => .teamPlacement e.1)

/-- GMODE_DRAIN_COMPLETE (R135): the bank is drained, FIFO entries to their rings, and its new mode takes effect. -/
def execGmodeDrainComplete (cluster : Nat) (s : State) : Host.Outcome State Fault Refusal :=
  .next (Act.run (.read fun s =>
    match (s.cluster cluster).gmode with
    | none => .skip
    | some j =>
      .seq (.seq (.each ((s.cluster cluster).fifo.filter fun f => f.1 == j.bank) fun f => fifoToRing cluster f.2.1 f.2.2.1)
          (.seq (.each (s.teamsIn cluster) fun e => moveTeamRows cluster j.bank e.1 ((e.2.bankRows[j.bank]?).getD 0))
            (fitWays cluster j.bank 0)))
        (.seq (.updD .clusters Cluster.init cluster fun k =>
          { k with modes := k.modes.set j.bank j.mode, gmode := none, fifo := k.fifo.filter fun f => f.1 != j.bank }) offerTeams)) s)

/-! ## Room on a core (R13, R14, R394) -/

/-- Local indices that a new group may take, ascending: not held, not retired (R276, R394). -/
def State.freeIndices (s : State) (core : Nat) : List Nat :=
  (List.range 96).filter fun li => (s.group? (core * 96 + li)).isNone && !((s.core core).retired.any fun r => r.1 == li)
/-- Whether a core could take a block of a launch now. -/
def State.coreFits (s : State) (l : Launch) (core : Nat) : Bool :=
  (s.core core).service && (s.blocksOn core).length < 16 && l.gpb ≤ (s.freeIndices core).length &&
  l.gpb * l.width ≤ s.freeLanes core && l.vregs * l.width * l.gpb ≤ s.freeLregs core && l.tiles ≤ s.freeTiles core

/-! ## Adoption stacks (R316) and landing areas (R397) -/

/-- Whether two ranges of bytes meet. -/
def meetsRange (a n b m : Nat) : Bool := a < b + m && b < a + n
/-- The adoption stacks of a context that stand, with their sizes: of its resident blocks, and of those in its save image (R387). -/
def State.adoptStacks (s : State) (ctx : Nat) : List (Nat × Nat) :=
  (s.blocks.filterMap fun e => match e.2.adopt, s.launch? e.2.lid with
    | some pa, some l => if l.ctx == ctx then some (pa, l.adoptSize) else none
    | _, _ => none) ++ (s.ctx ctx).savedBlocks.filterMap fun k => k.stack
/-- The lowest place for an adoption stack.
[DESIGN CHOICE, log 117] -/
def State.adoptPlace (s : State) (ctx size : Nat) (taken : List (Nat × Nat)) : Option Nat :=
  let x := s.ctx ctx
  let base := x.aspool.toNat
  let cand := sortNat (base :: taken.map fun r => r.1 + r.2)
  cand.find? fun p => base ≤ p && p + size ≤ base + x.assize.toNat && !(taken.any fun r => meetsRange p size r.1 r.2)
/-- Places for `n` adoption stacks; none when the pool has no room. A context without a pool needs none. -/
def adoptPlaces (s : State) (l : Launch) : Nat → List (Nat × Nat) → Option (List (Option Nat))
  | 0, _ => some []
  | n + 1, taken =>
    if (s.ctx l.ctx).assize == 0 then (adoptPlaces s l n taken).map (none :: ·)
    else match s.adoptPlace l.ctx l.adoptSize taken with
      | none => none
      | some p => (adoptPlaces s l n (taken ++ [(p, l.adoptSize)])).map (some p :: ·)

/-- The lowest free landing areas of a launch, `n` of them (R397).
[DESIGN CHOICE, log 117] -/
def landAreas (s : State) (lid : Nat) (l : Launch) (n : Nat) : Option (List (Option Nat)) :=
  if !l.land then some (List.replicate n none)
  else
    let used := ((s.blocks.filter fun e => e.2.lid == lid).filterMap fun e => e.2.landSlot) ++
      ((s.ctx l.ctx).savedBlocks.filter fun k => k.lid == lid).filterMap fun k => k.landSlot
    let free := (List.range (landSlots s l)).filter fun k => !used.contains k
    if free.length < n then none else some ((free.take n).map some)

/-! ## The start of a group (R276, R288) -/

def Group.start (bid gidx va cyc : Nat) (live : BitVec 64) (placed : Nat) : Group :=
  { bid := bid, gidx := gidx, live := live, q := 0, flags := 0, timer := 0, gtthr := 0, cychi := 0, gthi := 0, va := va,
    overflowed := false, locks := 0, thandle := 0xFFFFFFFF, depth := 0, join0 := none, join1 := none, join2 := none,
    nlast := none, shadow := none, halt := none, stop := false, haltReq := none, hit := none, hitOp := none, step := false, gttPending := false, capPending := false,
    waitStart := none, gated := false, hung := false, resTime := cyc, blocker := none, jseq := 0, relPending := false,
    placed := placed }
def Split.start (pc : Nat) (mask : BitVec 64) (fmt : BitVec 32) : Split :=
  { pc := word pc, mask := mask, fmt := fmt, j := mask, jent := none, stack := [], outs := [], wait := .ready, skid := 0, last := 0,
    stage := 0, pre := 0 }
/-- b0 from PARAM and PSIZE (R355). -/
def paramRecord (l : Launch) : BitVec 128 := BitVec.ofNat 128 (l.param % 2 ^ 57 + 2 * 2 ^ 60 + l.psize * 2 ^ 64 + 2 ^ 57)
/-- Remove every register of a group. -/
def clearRegs (g : Nat) : Act := .all
  [ .clear .sregs (g * 64) ((g + 1) * 64), .clear .pregs (g * 8) ((g + 1) * 8), .clear .bregs (g * 16) ((g + 1) * 16),
    .clear .vregs (vKey g 0 0) (vKey (g + 1) 0 0) ]
/-- FMT of a launch, with REPRO in bit 22 (R354). -/
def Launch.fmt0 (l : Launch) : BitVec 32 := if l.flags.getLsbD 0 then l.fmt ||| BitVec.ofNat 32 (2 ^ 22) else l.fmt

/-- START OF A GROUP: a new occupancy of its slot, with an acquire at dev (R78, R169), and the state of R288. -/
def startGroup (bid linear gidx g placed : Nat) (l : Launch) : Act := .read fun s =>
  let live := fullMask l.width
  .all [ .put .groups g (Group.start bid gidx 0 s.dev.cycle.toNat live placed),
         .each (List.range 4) fun n => .del .splits (splitKey g n),
         .put .splits (splitKey g 0) (Split.start l.entry live l.fmt0),
         clearRegs g, .clear .wps (g * 16) ((g + 1) * 16),
         advanceSlot (slotOf g), acquireAct g,
         wrS g 0 (word linear), wrS g 1 (word gidx), wrS g 2 (word (linear / max l.team 1)),
         .each (List.range l.width) fun i => wrV g 0 i (word i),
         wrB g 0 (paramRecord l) ]

/-! ## Placement (R139, R360) -/

/-- What a team takes: cluster, cores in block order, adoption stacks, landing areas. -/
structure Seat where
  cluster : Nat
  cores : List Nat
  adopt : List (Option Nat)
  areas : List (Option Nat)
  deriving DecidableEq, Repr

/-- The cores of a cluster that could take a block of the launch. -/
def State.fitting (s : State) (l : Launch) (cl : Nat) : List Nat :=
  ((List.range 8).map fun k => cl * 8 + k).filter (s.coreFits l)
/-- Cores by free lanes, most first, lowest number on a tie. -/
def State.byLanes (s : State) (cs : List Nat) : List Nat :=
  (sortNat (cs.map fun c => (4096 - s.freeLanes c) * 256 + c)).map (· % 256)
/-- The clusters that fit `n` blocks of the launch. -/
def State.fitClusters (s : State) (l : Launch) (n : Nat) : List Nat :=
  (List.range 32).filter fun cl => l.rows ≤ s.windowRoom cl && n ≤ (s.fitting l cl).length
/-- The cluster that PLACE chooses, or the one that a migration has moved the waiting team to when it fits (R360, R363). -/
def State.chooseCluster (s : State) (l : Launch) (n : Nat) (moved : Option Nat) : Option Nat :=
  let cs := s.fitClusters l n
  match moved.bind fun m => cs.find? (· == m) with
  | some c => some c
  | none =>
    if l.place == 0 then cs.head?
    else
      let lanes (cl : Nat) : Nat := ((s.fitting l cl).map s.freeLanes).foldl (· + ·) 0
      cs.foldl (fun (a : Option Nat) c => match a with | some b => if lanes b < lanes c then some c else some b | none => some c) none

/-- The waiting team of a launch that a migration has moved (R363). -/
def State.movedTeam (s : State) (lid : Nat) : Option (Nat × Team) := s.teams.find? fun e => e.2.lid == lid && e.2.state == .pending

/-- Where `n` blocks of a launch can be seated. -/
def State.seat (s : State) (lid : Nat) (l : Launch) (n : Nat) : Option Seat :=
  match s.chooseCluster l n ((s.movedTeam lid).map fun e => e.2.cluster), adoptPlaces s l n (s.adoptStacks l.ctx), landAreas s lid l n with
  | some cl, some ad, some ar =>
    let cs := s.fitting l cl
    some { cluster := cl, cores := (if l.place == 0 then cs else s.byLanes cs).take n, adopt := ad, areas := ar }
  | _, _, _ => none

/-- CAPMAX in rows (R139). -/
def State.capMax (s : State) : Nat := ((List.range 32).map s.usable).foldl max 0

/-- Whether the slots of the groups that a seat starts may all advance: while one of them may not, the start stalls (R92, R276).
[DEDUCED, log 47] -/
def State.mayStart (s : State) (l : Launch) (x : Seat) : Bool :=
  x.cores.all fun core => ((s.freeIndices core).take l.gpb).all fun li => s.mayAdvance (slotAt core li)

/-- Before the first block of a launch starts on a core, the RO lines of its context leave the L1 (R152), and with them its instruction
lines. -/
def dropRoLines (core lid : Nat) (l : Launch) : Act := .read fun s =>
  if (s.core core).roCtx.contains lid then .skip
  else
    .all [ .each ((s.l1Lines core).filter fun e => e.2.ro && e.2.ctx == l.ctx) fun e => evictLine core e.1,
      dropWays (clusterOf core) l.ctx,
      .each ((Sparse.range (lineKey core 0) (lineKey (core + 1) 0) s.icache).filter fun e => e.2.ctx == l.ctx) fun e => .del .icache e.1,
      .updD .cores CoreRec.init core fun k => { k with roCtx := (k.roCtx.filter fun i => (s.launch? i).isSome) ++ [lid] } ]

/-- A block of a team becomes resident on its core. -/
def startBlock (lid tid linear core : Nat) (adopt area : Option Nat) (l : Launch) : Act := .fresh fun bid => .read fun s =>
  let lis := (s.freeIndices core).take l.gpb
  let gids := lis.map fun li => core * 96 + li
  .all [ .put .blocks bid { lid := lid, tid := tid, linear := linear, core := core, gids := gids, bar := Barrier.open_, escaped := false,
                            landSlot := area, rowsCopied := [], rowsWritten := [], adopt := adopt, seq := 0, rolled := false,
                            landed := false },
         .upd .teams tid fun t => { t with blocks := t.blocks ++ [bid] },
         .clear .tiles (bid * 65536) ((bid + 1) * 65536), .clear .tpoison (bid * 65536) ((bid + 1) * 65536),
         dropRoLines core lid l, .updD .cores CoreRec.init core fun k => { k with sinceTest := 256 },
         .each (gids.zipIdx) fun e => startGroup bid linear e.2 e.1 bid l,
         .when (s.ctx l.ctx).tracing (postTrace l.ctx (traceWords s 6 l.ctx l.inc 0 core 0xFFFF 0 l.codeId.toNat linear)) ]

/-- The next team of a launch becomes resident at a seat: window and cores all at once, then CLEARING (R139). -/
def placeTeam (lid : Nat) (l : Launch) (x : Seat) : Act := .read fun s =>
  let lin := l.teamBlocks l.nextTeam
  .seq (.with? (s.movedTeam lid) fun e => .del .teams e.1)
    (.fresh fun tid => .all
      [ .put .teams tid { lid := lid, tag := tagKey l.ctx l.inc, index := l.nextTeam, cluster := x.cluster, rows := l.rows,
                          bankRows := s.fitRows x.cluster l.rows, state := .clearing, blocks := [],
                          bar := Barrier.open_ },
        .put .launches lid { l with nextTeam := l.nextTeam + 1, running := l.running + 1 },
        .each (lin.zip (x.cores.zip (x.adopt.zip x.areas))) fun e => startBlock lid tid e.1 e.2.1 e.2.2.1 e.2.2.2 l,
        .due [.windowClearComplete tid] ])

/-- Where a saved team can be seated; its adoption stacks and landing areas stand (R384, R387). -/
def State.seatSaved (s : State) (l : Launch) (bs : List SavedBlock) : Option Seat :=
  (s.chooseCluster l bs.length none).map fun cl =>
    let cs := s.fitting l cl
    { cluster := cl, cores := (if l.place == 0 then cs else s.byLanes cs).take bs.length, adopt := bs.map fun b => b.stack.map (·.1),
      areas := bs.map (·.landSlot) }

/-- A waiting team that fits: its launch, its seat, and its place in the save image if it has one. -/
structure Choice where
  lid : Nat
  lau : Launch
  seat : Seat
  saved : Option (SavedTeam × List SavedBlock)

/-- What a launch offers: its saved teams ahead of its unstarted ones (R384). -/
def State.offer (s : State) (lid : Nat) (l : Launch) : Option Choice :=
  if (s.ctx l.ctx).cstate != 1 then none
  else match s.savedTeam lid l with
    | some t => (s.seatSaved l t.2).map fun x => { lid := lid, lau := l, seat := x, saved := some t }
    | none =>
      if l.nextTeam < l.teamCount then
        (s.seat lid l (l.teamBlocks l.nextTeam).length).map fun x => { lid := lid, lau := l, seat := x, saved := none }
      else none
/-- The launch whose waiting team is served first among those that fit: higher PRIO, then earlier id (R360). -/
def State.firstToPlace (s : State) : Option Choice :=
  (s.launches.filterMap fun e => s.offer e.1 e.2).foldl (fun (a : Option Choice) e => match a with
    | some b => if b.lau.prio < e.lau.prio then some e else some b
    | none => some e) none

/-- WINDOW_CLEAR_COMPLETE (R120, R139): the window is zero, its records are invalid, its counters zero; the team is RESIDENT. -/
def execWindowClearComplete (team : Nat) (s : State) : Host.Outcome State Fault Refusal :=
  .next (Act.run (match s.team? team with
    | some t => .when (t.state == .clearing) (.seq (clearWindow team) (.put .teams team { t with state := .resident }))
    | none => .skip) s)

/-! ## The end of groups, blocks and teams (R286, R120) -/

/-- Remove a group and its registers; its local index is free. -/
def dropGroup (g : Nat) : Act := .all
  [ .del .groups g, .each (List.range 4) fun n => .del .splits (splitKey g n), clearRegs g,
    .clear .filter (g * 2 ^ 47) ((g + 1) * 2 ^ 47), .clear .wps (g * 16) ((g + 1) * 16),
    .read fun s => .each (s.opsOf g) fun e => .del .ops e.1 ]

/-- Remove a block: its tiles are free. -/
def dropBlock (bid : Nat) : Act := .all
  [ .del .blocks bid, .clear .tiles (bid * 65536) ((bid + 1) * 65536), .clear .tpoison (bid * 65536) ((bid + 1) * 65536) ]

/-- Whether a copy into the team's window from another team is in flight: it keeps the team's last block from ending (R190); one that has
failed is not. -/
def State.copyInto (s : State) (tid : Nat) : Bool := s.ops.any fun e => e.2.phase != .done && e.2.phase != .failed && e.2.sent.contains tid

/-- Remove a team: its window is free, its contents are discarded. -/
def dropTeam (tid : Nat) : Act := .seq (clearWindow tid) (.del .teams tid)

/-- A block has no group left: it ends, and with the team's last block the team and perhaps the launch. -/
def endBlock (bid : Nat) : Act := .read fun s =>
  match s.block? bid with
  | none => .skip
  | some b =>
    .all [ .with? (s.launch? b.lid) fun l => .when (s.ctx l.ctx).tracing
             (postTrace l.ctx (traceWords s 7 l.ctx l.inc 0 b.core 0xFFFF 0 l.codeId.toNat b.linear)),
           dropBlock bid,
           (match s.team? b.tid with
            | none => .skip
            | some t =>
              let rest := t.blocks.filter (· != bid)
              if rest.isEmpty then
                .all [ dropTeam b.tid, .upd .launches b.lid fun l => { l with running := l.running - 1 }, checkLaunch b.lid ]
              else .put .teams b.tid { t with blocks := rest }),
           offerTeams ]

/-- A group leaves its block; the block ends with its last group. -/
def leaveBlock (g : Nat) : Act := .read fun s =>
  match s.group? g with
  | none => .skip
  | some x =>
    .all [ dropGroup g, .upd .blocks x.bid fun b => { b with gids := b.gids.filter (· != g) },
           .read fun s => match s.block? x.bid with
             | some b => if b.gids.isEmpty then endBlock x.bid
                         else .due [.barrierComplete false x.bid, .barrierComplete true b.tid]
             | none => .skip ]

/-- LAUNCH_COMPLETE (R357). -/
def execLaunchComplete (lid : Nat) (s : State) : Host.Outcome State Fault Refusal :=
  .next (Act.run (match s.launch? lid with
    | some l => .when (l.running == 0 && l.teamCount ≤ l.nextTeam) (endLaunch lid)
    | none => .skip) s)

end Sys2Proof.Machine
end

