-- ==== Sys2Proof/Machine/Image.lean ====
section
/-! DEFINITION. The layouts of a stopped block (17_contexts_and_incarnations.md R386 to R389, 12_execution_model.md R285): block state,
group record, split records, serial stacks, trap shadow, tiles; live maps (02_encoding.md R34, R39); writing them and reading them
back. -/

namespace Sys2Proof.Machine

open Sys2Proof

/-! ## Live maps (R34, R37, R39) -/

/-- Live registers, as bit numbers. -/
structure LiveMap where
  v : Nat
  s : Nat
  p : Nat
  q : Nat
  b : Nat
  deriving DecidableEq, Repr

def LiveMap.all : LiveMap := { v := 2 ^ 256 - 1, s := 2 ^ 64 - 1, p := 127, q := 127, b := 65535 }
def LiveMap.none : LiveMap := { v := 0, s := 0, p := 0, q := 0, b := 0 }
def LiveMap.or (a b : LiveMap) : LiveMap := { v := a.v ||| b.v, s := a.s ||| b.s, p := a.p ||| b.p, q := a.q ||| b.q, b := a.b ||| b.b }

/-- `n` words of a safe-point entry as a number. -/
def spNat (s : State) (l : Launch) (k w : Nat) : Nat → Nat
  | 0 => 0
  | n + 1 => spWord s l k w + 2 ^ 32 * spNat s l k (w + 1) n

/-- The live map of the place where a split stands: nothing before an EXIT, its safe point's at a safe point, everything after a single step. -/
def liveAt (s : State) (l : Launch) (pc : Nat) : LiveMap :=
  if (match fetchBytes s none l pc 4 with | .ok bs => natOfBytes bs / 2 ^ 24 == 0x26 | .error _ => false) then LiveMap.none
  else match (List.range l.spCount).find? fun k => spWord s l k 0 == pc with
  | some k =>
    let w := spWord s l k 12
    { v := spNat s l k 2 8, s := spNat s l k 10 2, p := fld w 0 7, q := fld w 8 7, b := fld w 16 16 }
  | none => LiveMap.all

/-- Ranges of registers, and register numbers, as bits. -/
def bitsOf (rs : List (Nat × Nat)) : Nat := rs.foldl (fun a r => a ||| (2 ^ (r.1 + r.2) - 2 ^ r.1)) 0
def bitSet (ns : List Nat) : Nat := bitsOf (ns.map fun n => (n, 1))
/-- The registers that an operation names. -/
def opLive (i : Instr) : LiveMap :=
  { v := bitsOf (laneNames i), s := bitsOf (uniNames i), p := bitSet (guardNames i), q := 0, b := bitSet (bufNames i) }
/-- The registers of a group that its outstanding operations name: a parked instruction, a copy, a tile instruction. -/
def opsLive (s : State) (g : Nat) : LiveMap :=
  ((s.opsOf g).filter fun e => e.2.phase != .done).foldl (fun m e => m.or (opLive e.2.instr)) LiveMap.none
/-- The registers of a group that an image holds: those live where one of its splits stands, and those that its operations name. -/
def groupLive (s : State) (g : Nat) (l : Launch) : LiveMap :=
  ((s.splitsOf g).filterMap (s.split? g)).foldl (fun m x => m.or (liveAt s l x.pc.toNat)) (opsLive s g)

/-! ## Writing (R285, R387, R388) -/

def zeros (n : Nat) : List Byte := List.replicate n 0
def StackState.code : StackState → Nat
  | .unserved => 1 | .waiting => 2
/-- A serial stack entry (R285). -/
def StackEnt.bytes (e : StackEnt) : List Byte :=
  bytesOfNat 32 (StackState.code e.state + e.token.toNat * 2 ^ 112 + e.pc.toNat * 2 ^ 128 + e.fmt.toNat * 2 ^ 160 + e.mask.toNat * 2 ^ 192)
/-- What a split does when it is stopped. -/
def Split.code (x : Split) (handler : Bool) : Nat :=
  if handler then 5
  else match x.wait with
  | .recv => 2
  | .barrier _ _ _ => 3
  | .waitc _ _ _ => 4
  | .roll _ _ => 4
  | .parkedTask => 4
  | _ => 1
/-- A split record. -/
def splitBytes (s : State) (l : Launch) (x : Split) (pc : BitVec 32) (handler : Bool) : List Byte :=
  bytesOfNat 4 pc.toNat ++ bytesOfNat 4 x.fmt.toNat ++ bytesOfNat 8 x.mask.toNat ++ bytesOfNat 8 x.j.toNat ++
  [BitVec.ofNat 8 (x.code handler), BitVec.ofNat 8 x.stack.length, 0, 0] ++ bytesOfNat 4 ((ordinalAt s l pc.toNat).getD 0xFFFFFF)
/-- The trap shadow, or the halt record of a halted group (R388, R410). -/
def shadowBytes (x : Group) : List Byte :=
  match x.halt, x.shadow with
  | some h, _ => (h.frame.flatMap fun w => bytesOfNat 4 w.toNat) ++ zeros 56 ++ bytesOfNat 4 0 ++
      ((List.replicate 9 (0 : BitVec 32)) ++ [h.tag, 0, 0]).flatMap (fun w => bytesOfNat 4 w.toNat) |>.take 128
  | none, some t =>
    (t.frame.flatMap fun w => bytesOfNat 4 w.toNat) ++ bytesOfNat 16 (t.b15.getD 0).toNat ++ bytesOfNat 4 t.fmt.toNat ++
    [t.q.setWidth 8, BitVec.ofNat 8 (1 + 2 * t.split + 8 * t.kind), 0, 0] ++ bytesOfNat 4 t.resume.toNat ++
    ((t.words ++ [t.resume, t.mask.extractLsb' 0 32, t.mask.extractLsb' 32 32, word (t.split + 4 * t.kind), t.fmt, t.code, t.origin,
      t.codeId.setWidth 32]).flatMap fun w => bytesOfNat 4 w.toNat) ++ zeros 20
  | none, none => zeros 128

/-- A number where its bit of a map is set, else 0. -/
def kept (map i v : Nat) : Nat := if bitAt map i then v else 0

/-- A group record (R388). `pcOf` says where each split is to go on.
[DEDUCED, log 24] -/
def groupBytes (s : State) (g : Nat) (x : Group) (l : Launch) (pcOf : Split → BitVec 32) : List Byte :=
  let m := groupLive s g l
  let handlerSplit (n : Nat) : Bool := match x.shadow with | some t => t.split == n | none => false
  let splits := (List.range 4).map fun n => match s.split? g n with
    | some y => splitBytes s l y (pcOf y) (handlerSplit n)
    | none => zeros 32
  let stks := (List.range 4).map fun n => match s.split? g n with
    | some y => (y.stack.flatMap StackEnt.bytes) ++ zeros (256 - 32 * y.stack.length)
    | none => zeros 256
  let join (e : Option JoinEnt) : List Byte := bytesOfNat 8 (match e with | some j => j.oldJ.toNat | none => 0)
  let wait := match x.waitStart with | some t => s.us - t | none => 0
  ((List.range 64).flatMap fun i => bytesOfNat 4 (kept m.s i (s.sreg g i).toNat)) ++
  ((List.range 16).flatMap fun i => bytesOfNat 16 (kept m.b i (s.breg g i).toNat)) ++
  ((List.range 7).flatMap fun i => bytesOfNat 8 (kept m.p i (s.preg g i).toNat)) ++
  [BitVec.ofNat 8 (x.q.toNat &&& m.q), BitVec.ofNat 8 x.depth, BitVec.ofNat 8 ((s.splitsOf g).length - 1), 0] ++
  bytesOfNat 4 x.flags.toNat ++ bytesOfNat 8 (s.groupTimer x) ++ bytesOfNat 4 x.gtthr.toNat ++ bytesOfNat 4 x.locks ++
  bytesOfNat 8 x.live.toNat ++ bytesOfNat 4 x.cychi.toNat ++ bytesOfNat 4 x.gthi.toNat ++ bytesOfNat 4 x.thandle.toNat ++
  bytesOfNat 4 (x.nlast.getD 0) ++ bytesOfNat 4 wait ++ zeros 4 ++ join x.join0 ++ join x.join1 ++ join x.join2 ++
  splits.flatten ++ zeros 248 ++ stks.flatten ++
  ((List.range 16).flatMap fun d => match Tab.wps.val none (g * 16 + d) s with
    | some p => bytesOfNat 8 (2 ^ 32 + p.toNat)
    | none => zeros 8) ++
  shadowBytes x ++ zeros 256 ++
  ((List.range l.vregs).flatMap fun r => (List.range l.width).flatMap fun i =>
    bytesOfNat 4 (kept m.v r (s.vreg g r i).toNat))

/-- The members of a list, as bits by group index. -/
def State.memberBits (s : State) (b : Block) (gs : List Nat) : Nat :=
  (b.gids.filter gs.contains).foldl (fun a g => match s.group? g with | some x => a + 2 ^ x.gidx | none => a) 0

/-- The block state (R387): 256 bytes. -/
def blockBytes (s : State) (b : Block) (l : Launch) (nops : Nat) : List Byte :=
  let t : Barrier := match s.team? b.tid with | some x => x.bar | none => Barrier.open_
  let inHandler := b.gids.filter fun g => match s.group? g with | some x => x.shadow.isSome | none => false
  bytesOfNat 4 b.linear ++ [BitVec.ofNat 8 l.gpb, BitVec.ofNat 8 l.width, BitVec.ofNat 8 (l.vregs / 8), BitVec.ofNat 8 l.tiles] ++
  bytesOfNat 2 b.bar.arrived.length ++ bytesOfNat 2 (b.bar.fixed.getD 0) ++ bytesOfNat 2 (s.memberBits b b.bar.arrived) ++
  bytesOfNat 2 (s.memberBits b b.bar.land) ++ bytesOfNat 2 (s.memberBits b inHandler) ++ [BitVec.ofNat 8 (b2n b.escaped), 0] ++
  bytesOfNat 4 nops ++ bytesOfNat 8 (b.adopt.getD 0) ++ bytesOfNat 2 (s.memberBits b t.arrived) ++
  bytesOfNat 2 (s.memberBits b t.land) ++ bytesOfNat 4 b.seq ++ zeros 216

/-- A block's group records, each group at its index; a group that has ended leaves zeros. -/
def groupsBytes (s : State) (b : Block) (l : Launch) (pcOf : Split → BitVec 32) : List Byte :=
  (List.range l.gpb).flatMap fun i =>
    match b.gids.find? fun g => match s.group? g with | some x => x.gidx == i | none => false with
    | some g => match s.group? g with
      | some x => groupBytes s g x l pcOf
      | none => zeros l.grec
    | none => zeros l.grec
/-- A block's tiles, in row order. -/
def tilesBytes (s : State) (bid : Nat) (l : Launch) : List Byte :=
  (List.range (l.tiles * 512)).flatMap fun w => bytesOfNat 4 (Tab.tiles.val 0 (bid * 65536 + w) s).toNat

/-! ## Reading back -/

/-- Reads `n` bytes at an offset of an image as a number. -/
abbrev Reader := Nat → Nat → Nat

def readStack (rd : Reader) (at_ depth now : Nat) : List StackEnt :=
  (List.range depth).map fun i =>
    let w := rd (at_ + 32 * i) 32
    { mask := BitVec.ofNat 64 (w / 2 ^ 192), fmt := BitVec.ofNat 32 (w / 2 ^ 160), pc := BitVec.ofNat 32 (w / 2 ^ 128),
      token := BitVec.ofNat 16 (w / 2 ^ 112), state := if fld w 0 2 == 2 then .waiting else .unserved,
      since := now, told := false }

/-- A split from its record. Each stopped split issues from where it stands, but one at a RECV waits there. -/
def readSplit (rd : Reader) (n now : Nat) (jent : Option Nat) : Split :=
  let p := 648 + 32 * n
  { pc := word (rd p 4), fmt := word (rd (p + 4) 4), mask := BitVec.ofNat 64 (rd (p + 8) 8), j := BitVec.ofNat 64 (rd (p + 16) 8),
    jent := jent, stack := readStack rd (1024 + 256 * n) (rd (p + 25) 1) now, outs := [],
    wait := .ready, skid := 0, last := 0, stage := 0, pre := 8 }

def readShadow (rd : Reader) (l : Launch) (s : State) (swapped dead : Bool) (op : Option Nat) : Option Shadow :=
  let p := 2176
  let c := rd (p + 53) 1
  if !bitAt c 0 then none
  else
    let w (n : Nat) : BitVec 32 := word (rd (p + 60 + 4 * n) 4)
    let pc := rd (p + 56) 4
    some { split := fld c 1 2, resume := word pc, mask := w 6 ++ w 5, fmt := word (rd (p + 48) 4), q := BitVec.ofNat 7 (rd (p + 52) 1),
           b15 := if swapped then some (BitVec.ofNat 128 (rd (p + 32) 16)) else none, kind := fld c 3 2, op := op,
           length := lengthAt s none l pc, frame := (List.range 8).map fun i => word (rd (p + 4 * i) 4),
           words := [w 0, w 1, w 2, w 3], code := w 9, origin := w 10, codeId := (w 11).setWidth 16, since := s.dev.nextId, dead := dead }

/-- What the model keeps beside an image: what joins a split or an entry of the join table to the entry above it, how a shadow was
entered and which operations came before it, and the causes that wait for a safe point. By launch, block, group and place. -/
def noteKey (lid linear gidx place : Nat) : Nat := ((lid * 2 ^ 32 + linear) * 16 + gidx) * 16 + place
def noteOf (notes : List (Nat × Nat)) (k : Nat) : Option Nat :=
  match notes.find? fun e => e.1 == k with
  | some (_, v) => if v == 0 then none else some (v - 1)
  | none => none
/-- The notes of a group. -/
def groupNotes (s : State) (g : Nat) (x : Group) (b : Block) : List (Nat × Nat) :=
  let key (p : Nat) : Nat := noteKey b.lid b.linear x.gidx p
  let put (o : Option Nat) : Nat := match o with | some v => v + 1 | none => 0
  ((List.range 4).map fun n => (key n, put ((s.split? g n).bind (·.jent)))) ++
  [(key 4, put (x.join0.bind (·.oldEnt))), (key 5, put (x.join1.bind (·.oldEnt))), (key 6, put (x.join2.bind (·.oldEnt))),
   (key 7, put ((x.shadow.bind (·.op)).bind fun id => (Tab.ops.at id s).map (·.seq))),
   (key 8, put (x.shadow.bind fun t => if t.b15.isSome then some 0 else none)),
   (key 9, put (x.shadow.bind fun t => if t.dead then some 0 else none)),
   (key 12, put (x.shadow.map fun t => ((s.opsOf g).filter fun e => e.1 < t.since).foldl (fun m e => max m (e.2.seq + 1)) 0)),
   (key 10, put (if x.gttPending then some 0 else none)), (key 11, put (if x.capPending then some 0 else none))]

/-- Fill a group from its record: everything but its operations. `drop` says that a trap shadow is not taken. -/
def loadGroup (g bid gidx : Nat) (b : Block) (l : Launch) (rd : Reader) (notes : List (Nat × Nat)) (drop : Bool) : Act := .read fun s =>
  let key (p : Nat) : Nat := noteKey b.lid b.linear gidx p
  let join (i : Nat) : Option JoinEnt :=
    let j := rd (624 + 8 * i) 8
    if j == 0 then none else some { oldJ := BitVec.ofNat 64 j, oldEnt := noteOf notes (key (4 + i)) }
  let nl := rd 612 4
  let live := BitVec.ofNat 64 (rd 592 8)
  let x := { Group.start bid gidx 0 s.dev.cycle.toNat live bid with
    q := BitVec.ofNat 7 (rd 568 1), depth := rd 569 1, flags := BitVec.ofNat 6 (rd 572 4), timer := rd 576 8, gtthr := word (rd 584 4),
    locks := rd 588 4, cychi := word (rd 600 4), gthi := word (rd 604 4), thandle := word (rd 608 4),
    nlast := if nl == 0 then none else some nl, gttPending := (noteOf notes (key 10)).isSome, capPending := (noteOf notes (key 11)).isSome, join0 := join 0, join1 := join 1, join2 := join 2,
    shadow := if drop then none
      else readShadow rd l s (noteOf notes (key 8)).isSome (noteOf notes (key 9)).isSome (noteOf notes (key 7)) }
  .all [ .put .groups g x, clearRegs g, .clear .wps (g * 16) ((g + 1) * 16),
         .each (List.range 4) fun n => if rd (648 + 32 * n + 24) 1 == 0 then .del .splits (splitKey g n)
           else .put .splits (splitKey g n) (readSplit rd n s.us (noteOf notes (key n))),
         .each (List.range 63) fun i => wrS g i (word (rd (4 * i) 4)),
         .each (List.range 16) fun i => wrB g i (BitVec.ofNat 128 (rd (256 + 16 * i) 16)),
         .each (List.range 7) fun i => .put .pregs (g * 8 + i) (BitVec.ofNat 64 (rd (512 + 8 * i) 8)),
         .each (List.range 16) fun d =>
           let w := rd (2048 + 8 * d) 8
           .when (bitAt w 32) (.put .wps (g * 16 + d) (some (word w))),
         .each (List.range l.vregs) fun r => .each (List.range l.width) fun i =>
           wrV g r i (word (rd (2560 + 4 * (r * l.width + i)) 4)) ]

/-- Fill the tiles of a block. -/
def loadTiles (bid : Nat) (l : Launch) (rd : Reader) : Act :=
  .each (List.range (l.tiles * 512)) fun w => .put .tiles (bid * 65536 + w) (word (rd (4 * w) 4))

end Sys2Proof.Machine
end

