-- ==== Sys2Proof/Machine/Barrier.lean ====
section
/-! DEFINITION. Barriers and roll call (14_barriers_and_roll_call.md R332 to R345), and landings (18_reliability.md R398, R399). -/

namespace Sys2Proof.Machine

open Sys2Proof

/-- Let a split that waits at an instruction issue it: past it, its windows shorter. -/
def passSplit (g n : Nat) (i : Instr) : Act := .read fun s =>
  match Iss.of s g n i with
  | some c => c.advance
  | none => .skip

/-! ## Landings (R398, R399) -/

/-- Keep what the model holds beside an image. -/
def putNotes (ctx : Nat) (ns : List (Nat × Nat)) : Act :=
  .updD .ctxs Ctx.init ctx fun x => { x with savedNotes := (x.savedNotes.filter fun e => !(ns.any fun n => n.1 == e.1)) ++ ns }

/-- Operations of a block that have not ended. -/
def State.blockOps (s : State) (bid : Nat) : List (Nat × Op) := s.ops.filter fun e => e.2.bid == bid && e.2.phase != .done

/-- Copy the rows that a block has written since its previous landing into its row directory, as far as there are entries. -/
def landRowsOf (bid : Nat) (l : Launch) (k t : Nat) : List Nat → Act
  | [] => .skip
  | row :: rest => .seq (.read fun s => match s.block? bid with
      | none => .skip
      | some b =>
        match b.rowsCopied.findIdx? (· == row) with
        | some i => copyRow l k t row i
        | none =>
          if b.rowsCopied.length < landRows s l then
            .seq (copyRow l k t row b.rowsCopied.length) (.put .blocks bid { b with rowsCopied := b.rowsCopied ++ [row] })
          else .skip) (landRowsOf bid l k t rest)

/-- TAKING A LANDING (R398): block state, group records, tiles and rows go to the block's area, every split standing after its barrier. -/
def takeLanding (bid : Nat) : Act := .read fun s =>
  match s.block? bid with
  | none => .skip
  | some b =>
    match b.landSlot, s.launch? b.lid with
    | some k, some l =>
      let base := landBase s l k
      let b' := { b with escaped := false, bar := Barrier.open_ }
      let notes := b.gids.flatMap fun g => match s.group? g with
        | some x => groupNotes s g x b
        | none => []
      .all [ writeVirt l.ctx base (blockBytes s b' l 0),
             writeVirt l.ctx (base + 256) (groupsBytes s b l fun x => x.pc + 4),
             writeVirt l.ctx (base + 256 + l.gpb * l.grec) (tilesBytes s bid l),
             landRowsOf bid l k b.tid b.rowsWritten, putNotes l.ctx notes,
             .upd .blocks bid fun b => { b with escaped := false, rowsWritten := [], landed := true, rolled := false } ]
    | _, _ => .skip

/-! ## Block and team barriers (R332 to R337) -/

/-- The open instance that a group meets. -/
def State.barOf (s : State) (b : Block) (team : Bool) : Barrier :=
  if team then (match s.team? b.tid with | some t => t.bar | none => Barrier.open_) else b.bar
def setBar (bid tid : Nat) (team : Bool) (f : Barrier → Barrier) : Act :=
  if team then .upd .teams tid fun t => { t with bar := f t.bar } else .upd .blocks bid fun b => { b with bar := f b.bar }
/-- The groups that an instance can still expect (R332). -/
def State.barMembers (s : State) (bid tid : Nat) (team : Bool) : List Nat :=
  if team then (match s.team? tid with
    | some t => t.blocks.flatMap fun i => match s.block? i with | some b => b.gids | none => []
    | none => [])
  else match s.block? bid with | some b => b.gids | none => []

/-- How the splits of a group wait at barriers: team, LAND, count register. -/
def State.barWaits (s : State) (g : Nat) : List (Bool × Bool × Option Nat) :=
  (s.splitsOf g).filterMap fun n => match s.split? g n with
    | some x => match x.wait with
      | .barrier t l k => some (t, l, k)
      | _ => none
    | none => none

/-- What a group finds when it would arrive (R334, R335); `full` when a BARC instance has its arrivals and its landings are still being taken:
the group belongs to the next instance. -/
inductive Arrival where
  | wait | mismatch | again | full | go (land : Bool) (count : Option Nat)
  deriving DecidableEq, Repr

def arrivalOf (s : State) (g : Nat) (x : Group) (b : Block) (ws : List (Bool × Bool × Option Nat)) : Arrival :=
  if ws.length != (s.splitsOf g).length then .wait
  else match ws with
  | [] => .wait
  | (team, _, first) :: _ =>
    let bar := s.barOf b team
    let counts := ws.map fun w => w.2.2.map fun n => (s.sreg g n).toNat
    let count := first.map fun n => (s.sreg g n).toNat
    if ws.any fun w => w.1 != team then .mismatch
    else if (s.splitsOf g).any fun n => match s.split? g n with | some y => !y.stack.isEmpty | none => false then .wait
    else if bar.arrived.contains g then .again
    else if (match bar.fixed with | some f => decide (f ≤ bar.arrived.length) | none => false) then .full
    else if counts.any fun k => k != count then .mismatch
    else match count with
      | some k =>
        if k == 0 || (s.barMembers x.bid b.tid team).length < k || bar.bar || (match bar.fixed with | some f => f != k | none => false)
        then .mismatch
        else .go (ws.any fun w => w.2.1) (some k)
      | none => if bar.fixed.isSome then .mismatch else .go (ws.any fun w => w.2.1) none

/-- The splits of a group leave the barrier, each past its own instruction, with an acquire (R334, R336); one that a stop holds stays
stopped there.
[DEDUCED, log 71] -/
def depart (team : Bool) (g : Nat) : Act := .read fun s =>
  .seq (acquireAt g (some (if team then .team else .blk)))
    (.each (s.splitsOf g) fun n => match s.split? g n with
      | some x => match x.wait with
        | .barrier _ _ _ => .seq (passSplit g n (.bar false team))
            (.when (s.mustStop g n) (.upd .splits (splitKey g n) fun y => { y with wait := .stopped }))
        | _ => .skip
      | none => .skip)

/-- BARRIER_COMPLETE (R332, R335, R336, R398): an instance whose expected members have arrived takes its landings, and they depart. A block
with an operation that is parked, or that has failed and waits for its trap, departs without a landing.
[DEDUCED, log 138] -/
def barComplete (team : Bool) (id : Nat) : Act := .read fun s =>
  let inst : Option (Nat × Nat × Barrier) :=
    if team then (s.team? id).map fun t => (0, id, t.bar) else (s.block? id).map fun b => (id, b.tid, b.bar)
  match inst with
  | none => .skip
  | some (bid, tid, bar) =>
    let expected := match bar.fixed with | some f => f | none => (s.barMembers bid tid team).length
    if bar.arrived.isEmpty || bar.arrived.length < expected then .skip
    else
      let blocks := dedup (bar.arrived.filterMap fun g => (s.group? g).map (·.bid))
      let lands := if bar.land.isEmpty then [] else blocks.filter fun i => match s.block? i with
        | some b => b.landSlot.isSome
        | none => false
      let parked (i : Nat) : Bool := (s.blockOps i).any fun e => e.2.phase == .parked || e.2.phase == .failed
      if lands.any fun i => !parked i && !(s.blockOps i).isEmpty then .due [.barrierComplete team id]
      else .all
        [ setBar bid tid team fun _ => Barrier.open_, .each (lands.filter fun i => !parked i) takeLanding,
          .each (sortNat bar.arrived) (depart team) ]

/-- Arrive at a barrier once every split of the group waits at one: a release, and the arrival is counted, which may complete the instance
(R332, R334 to R336). -/
def tryArrive (c : Iss) (i : Instr) : Act := .read fun s =>
  let ws := s.barWaits c.gid
  match arrivalOf s c.gid c.grp c.blk ws with
  | .wait => .skip
  | .again => .skip
  | .full => c.stall .registrations
  | .mismatch =>
    match (s.splitsOf c.gid).head? with
    | some n => match Iss.of s c.gid n i with
      | some d => d.trap 0x4A 0
      | none => .skip
    | none => .skip
  | .go land count =>
    let team := match ws with | w :: _ => w.1 | [] => false
    c.gated (some (if team then .team else .blk)) (.all
      [ .put .splits c.key c.sp, endInterval c.gid,
        .when (team && !land) (escape c.gid),
        setBar c.bid c.tid team fun b =>
          { arrived := b.arrived ++ [c.gid], fixed := match b.fixed with | some f => some f | none => count, bar := b.bar || count.isNone,
            land := if land then b.land ++ [c.gid] else b.land },
        barComplete team (if team then c.tid else c.bid) ])

/-- A split comes to a barrier. -/
def barForm (i : Instr) (team land : Bool) (count : Option Nat) (s : State) : Host.Outcome State Fault Refusal :=
  issue i (fun c =>
    let sp := { c.sp with wait := .barrier team land count }
    .seq (.put .splits c.key sp) (tryArrive { c with sp := sp } i)) s

def execBar (land team : Bool) (s : State) : Host.Outcome State Fault Refusal := barForm (.bar land team) team land none s
def execBarc (n : BitVec 6) (land team : Bool) (s : State) : Host.Outcome State Fault Refusal :=
  barForm (.barc n land team) team land (some n.toNat) s

def execBarrierComplete (team : Bool) (id : Nat) (s : State) : Host.Outcome State Fault Refusal := .next ((barComplete team id).run s)

/-! ## Roll call (R338 to R345) -/

def stationKey (d n : Nat) : Nat := d * 4096 + n
def State.domain (s : State) (d : Nat) : Domain := Tab.domains.val Domain.init d s
def State.station (s : State) (d n : Nat) : Station := Tab.stations.val Station.init (stationKey d n) s
/-- The stations of a domain that are registered. -/
def State.registered (s : State) (d : Nat) : List (Nat × Station) :=
  (Sparse.range (stationKey d 0) (stationKey (d + 1) 0) s.stations).filter fun e => e.2.reg
def State.census (s : State) (d : Nat) : Nat := (s.registered d).length

/-- Whether a context may use a domain (R339). -/
def Domain.usable (d : Domain) (ctx inc : Nat) : Bool := d.en && d.ctx.toNat == ctx && d.inc.toNat == inc
/-- Whether a device is a member of a spanning domain (R338). -/
def Domain.member (d : Domain) (n : Nat) : Bool :=
  if n < 64 then d.memb0.getLsbD n else if n < 128 then d.memb1.getLsbD (n - 64) else n < 144 && d.memb2.getLsbD (n - 128)
/-- The other devices of a spanning domain. -/
def State.partners (s : State) (d : Domain) : List Nat := (List.range 144).filter fun n => d.member n && n != s.dev.devnum.toNat

/-- The local conditions of a phase (R341): every die releases its line, and the census is the quorum. -/
def State.phaseReady (s : State) (d : Nat) : Bool :=
  (s.domain d).en && s.census d == (s.domain d).quorum.toNat && (s.registered d).all fun e => e.2.c == 0
/-- The third condition, with SPAN (R345): the messages of every member, and two windows since the own one. -/
def State.spanReady (s : State) (d : Nat) : Bool :=
  let x := s.domain d
  !x.span || ((s.partners x).all fun n => x.got.contains (n, x.phase)) && (match x.sentAt with | some w => w + 2 ≤ s.dev.window | none => false)

/-- A station reloads (R340). -/
def Station.reload (x : Station) : Station :=
  if x.reg then { x with c := x.e - min x.e x.x, x := x.x - min x.e x.x } else x

/-- COMPLETION OF A PHASE (R341, R345). A spanning domain first sends its own message. -/
def completePhase (d : Nat) : Act := .read fun s =>
  let x := s.domain d
  if !s.phaseReady d then .skip
  else if x.span && x.sentAt.isNone then
    .seq (.put .domains d { x with sentAt := some s.dev.window }) (.due [.phaseComplete d])
  else if !s.spanReady d then .skip
  else .all
    [ .put .domains d { x with phase := x.phase + 1, sentAt := none, got := x.got.filter fun m => m.2 != x.phase },
      .each (s.registered d) fun e => .put .stations e.1 e.2.reload, .due [.phaseComplete d] ]

/-- One arrival at a station (R340); an arrival beyond 65,535 early ones is refused. -/
def arrive (d n : Nat) : Act := .read fun s =>
  let x := s.station d n
  .seq (if x.reg && 0 < x.c then .put .stations (stationKey d n) { x with c := x.c - 1 }
        else if 65535 ≤ x.x then .skip
        else .put .stations (stationKey d n) { x with x := x.x + 1 })
    (completePhase d)
/-- Whether a station would refuse an arrival. -/
def State.refuses (s : State) (d n : Nat) : Bool := let x := s.station d n; !(x.reg && 0 < x.c) && 65535 ≤ x.x

/-- The word of ROLLARV and of a copy's arrival (R342): reserved bits zero, the device a member. -/
def arvWordOk (d : Domain) (w : BitVec 32) : Bool :=
  w.extractLsb' 21 11 == 0 &&
  (if w.getLsbD 20 then d.span && d.member (fld w.toNat 12 8) else w.extractLsb' 12 8 == 0)
/-- The checks of an arrival (R339, R342). -/
def arvOk (s : State) (ctx inc d : Nat) (w : BitVec 32) : Bool :=
  let x := s.domain d
  x.usable ctx inc && arvWordOk x w && fld w.toNat 0 12 < x.quorum.toNat

def setWp (g d : Nat) (p : Option (BitVec 32)) : Act := .put .wps (g * 16 + d) p

def execRollset (sb : Bool) (n : BitVec 6) (d : BitVec 4) (s : State) : Host.Outcome State Fault Refusal :=
  issue (.rollset sb n d) (fun c => .read fun s =>
    let x := s.domain d.toNat
    let w := s.sreg c.gid n.toNat
    let st := fld w.toNat 16 12
    let e := fld w.toNat 0 16
    let y := s.station d.toNat st
    if !x.usable c.lau.ctx c.lau.inc || w.extractLsb' 28 4 != 0 || x.quorum.toNat ≤ st then c.trap 0x49 0
    else if e != 0 && !y.reg && x.quorum.toNat ≤ s.census d.toNat then c.trap 0x49 0
    else
      let y' : Station :=
        if e == 0 then { y with reg := false, e := 0, c := 0 }
        else if y.reg then { y with e := e }
        else { reg := true, e := e, c := e - min e y.x, x := y.x - min e y.x }
      .all [ c.advance, setWp c.gid d.toNat (some x.phase), .put .stations (stationKey d.toNat st) y', completePhase d.toNat ]) s

def execRollarv (sb : Bool) (n : BitVec 6) (d : BitVec 4) (s : State) : Host.Outcome State Fault Refusal :=
  issue (.rollarv sb n d) (fun c => .read fun s =>
    let x := s.domain d.toNat
    let w := s.sreg c.gid n.toNat
    let remote := w.getLsbD 20
    if !arvOk s c.lau.ctx c.lau.inc d.toNat w then c.trap 0x49 0
    else if !remote && s.refuses d.toNat (fld w.toNat 0 12) then c.trap 0x49 0
    else c.ending (some (if remote then .sys else .dev)) none
      (.all [ setWp c.gid d.toNat (some x.phase), escape c.gid, .when (!remote) (arrive d.toNat (fld w.toNat 0 12)) ])) s

/-- Whether a ROLLWAIT of phase `p` may return. -/
def State.phasePassed (s : State) (d : Nat) (p : BitVec 32) : Bool :=
  let n := ((s.domain d).phase - p).toNat
  1 ≤ n && n < 2 ^ 31

def execRollwait (d : BitVec 4) (s : State) : Host.Outcome State Fault Refusal :=
  issue (.rollwait d) (fun c => .read fun s =>
    let x := s.domain d.toNat
    let p := match Tab.wps.val none (c.gid * 16 + d.toNat) s with
      | some p => p
      | none => match c.sp.wait with
        | .roll _ p => p
        | _ => x.phase
    if !x.usable c.lau.ctx c.lau.inc then c.trap 0x49 0
    else if !s.phasePassed d.toNat p then c.stall (.roll d.toNat p)
    else .seq (setWp c.gid d.toNat (some p)) (c.ending none (some .dev) (setWp c.gid d.toNat none))) s

/-- ROLL_CALL_ARRIVAL (R340, R343): an arrival from another device is counted; one that fails here is reported to the error core. -/
def execRollCallArrival (domain station : Nat) (s : State) : Host.Outcome State Fault Refusal :=
  .next (Act.run (if (s.domain domain).en && station < (s.domain domain).quorum.toNat && !s.refuses domain station then arrive domain station
    else postRas (Ras.unitOf 12 12 domain 0)) s)
def execPhaseComplete (domain : Nat) (s : State) : Host.Outcome State Fault Refusal := .next ((completePhase domain).run s)
/-- PHASE_MESSAGE (R345): a member's message for a phase is received. -/
def execPhaseMessage (domain dev : Nat) (phase : BitVec 32) (s : State) : Host.Outcome State Fault Refusal :=
  .next (Act.run (
    let x := s.domain domain
    .when (x.en && x.span && x.member dev && !x.got.contains (dev, phase))
      (.seq (.put .domains domain { x with got := x.got ++ [(dev, phase)] }) (.due [.phaseComplete domain]))) s)

end Sys2Proof.Machine
end

