-- ==== Sys2Proof/Machine/Engine.lean ====
section
/-! DEFINITION. What the copy engines, the matrix engines, the task instructions and the links share: translating and checking bytes, a
registration whose probes are answered at once (03_stacks_and_home_slices.md R85), engine slots (08_copy_engine.md R186), parks and
failures of engine operations (R196, 11_matrix_engine.md R265). -/

namespace Sys2Proof.Machine

open Sys2Proof

/-! ## Bytes of memory -/

/-- What stands in the way of bytes of memory (stage 4 of R366): the lowest byte that parks, else the lowest that an access table or the
fabric refuses. -/
inductive Probe where
  | ok
  | park (va : Nat) (cause : BitVec 8) (malformed : Bool)
  | fail (va : Nat) (cause : BitVec 8)

def firstPark (s : State) (ctx : Nat) (n : Need) : List Nat → Option (Nat × XFail)
  | [] => none
  | va :: rest =>
    match s.translateFor ctx n va with
    | .error e => some (va, e)
    | .ok _ => firstPark s ctx n rest
/-- The physical address of a byte that translates. -/
def State.phys (s : State) (ctx va : Nat) : Nat := match s.translate ctx va with | .ok x => x.pa | .error _ => 0

/-- Translate and check bytes of one side, by ascending address. -/
def probeBytes (s : State) (ctx master : Nat) (n : Need) (q : Ask) (vas : List Nat) : Probe :=
  let sorted := sortNat vas
  match firstPark s ctx n sorted with
  | some (va, e) => .park va e.cause e.malformed
  | none =>
    match sorted.findSome? fun va => (s.accessFault master q (s.phys ctx va / 128 * 128) 128).map fun c => (va, c) with
    | some (va, c) => .fail va c
    | none => .ok

/-- The sectors of physical bytes, ascending, with the words they touch. -/
def sectorsOf (pas : List Nat) : List (Nat × BitVec 8) :=
  (sortNat (dedup (pas.map (· / 32)))).map fun sec =>
    (sec, (pas.filter fun p => p / 32 == sec).foldl (fun m p => m ||| wordMask (p % 32) 1) 0)

/-! ## A registration with its probes answered at once (R85) -/

/-- The answer of a check. -/
inductive CheckAns where
  | ok
  | conflict (cause : BitVec 8) (slot : BitVec 16) (cls : BitVec 3) (stamp : BitVec 16) (origin : Option (BitVec 24))
  | capacity (cause : BitVec 8)

/-- The party of a check. -/
structure Party where
  slot : BitVec 16
  stamp : BitVec 16
  ctx : Nat
  inc : Nat
  origin : Option (BitVec 24)

/-- The request of a party for a sector. -/
def Party.req (p : Party) (sector : Nat) (cls : BitVec 3) (mask : BitVec 8) : Req :=
  { op := 0, sector := sector, slot := p.slot, stamp := p.stamp, cls := cls, mask := mask, ctx := p.ctx, inc := p.inc, origin := p.origin,
    phase := .sent }
/-- Look through the records of a sector in order (R85): a record of a conflicting class that is dead is cleared, one that is live is the
conflict; where the slice is not sure it asks the slot's owner, whose answer it learns (R84). -/
def settleNow (q : Req) (pass : Act) (conflict : Rec → BitVec 8 → Act) : List Rec → Act
  | [] => pass
  | x :: rest =>
    let next := settleNow q pass conflict rest
    if x.r.valid && x.r.slot != q.slot && (x.r.mask &&& q.mask) != 0 then
      match clash q.cls.toNat x.r.cls.toNat with
      | none => next
      | some cause => .read fun s =>
        let dies := Act.seq (clearRec q.sector x) next
        match knownOf s q x.r with
        | .dead => dies
        | .live => conflict x cause
        | .ask => .seq (learnStamp (homeSlice (q.sector * 32)) x.r.slot (s.stampOf x.r.slot.toNat))
            (if s.slotLive q.ctx x.r.slot.toNat x.r.stamp then conflict x cause else dies)
    else next
/-- One registration whose probes are answered at once (R83 to R86). A stale request is dropped at its slice: nothing follows (R71). When a
full spill log refuses it, the slice walks the log (R94).
[DEDUCED, log 54] -/
def checkNow (p : Party) (sector : Nat) (cls : BitVec 3) (mask : BitVec 8) (k : CheckAns → Act) : Act := .read fun s =>
  let slice := homeSlice (sector * 32)
  let q := p.req sector cls mask
  if mask == 0 || !isHomed (sector * 32) then k .ok
  else if s.stale (.slice slice) p.ctx p.inc then .skip
  else match findOrInstall s sector p.ctx p.inc with
  | .error c => .seq (walkFull slice c) (k (.capacity c))
  | .ok install => .seq install (.read fun s => settleNow q
      (.read fun s => match mergeMark s q with
        | .ok a => .all [ a, learnStamp slice p.slot p.stamp, k .ok ]
        | .error c => k (.capacity c))
      (fun x cause => k (.conflict cause x.r.slot x.r.cls x.r.stamp x.o)) (s.recsOf sector))

/-- Check sectors in order; the continuation gets the failures, in order. Marks of passed checks stand (R76). -/
def checkMany (p : Party) (cls : BitVec 3) : List (Nat × BitVec 8) → List (Nat × CheckAns) → (List (Nat × CheckAns) → Act) → Act
  | [], fails, k => k fails
  | (sector, mask) :: rest, fails, k => checkNow p sector cls mask fun a => match a with
      | .ok => checkMany p cls rest fails k
      | x => checkMany p cls rest (fails ++ [(sector, x)]) k

/-- The cause and the other party of a failed check. -/
def CheckAns.blame (a : CheckAns) (b : Blame) : Blame :=
  match a with
  | .ok => b
  | .conflict c sl cl st _ => { b with cause := c, oslot := sl.toNat, ocls := cl.toNat, ostamp := st.toNat }
  | .capacity c => { b with cause := c }
def CheckAns.cause (a : CheckAns) : BitVec 8 :=
  match a with | .ok => 0 | .conflict c _ _ _ _ => c | .capacity c => c
def CheckAns.origin (a : CheckAns) : BitVec 32 :=
  match a with | .conflict _ _ _ _ (some v) => word (2 ^ 24 + v.toNat) | _ => 0
/-- The failure that is reported: conflicts before capacity causes, else the first (R155). -/
def worst (fails : List (Nat × CheckAns)) : Option (Nat × CheckAns) :=
  match fails.find? fun f => match f.2 with | .conflict _ _ _ _ _ => true | _ => false with
  | some f => some f
  | none => fails.head?

/-! ## Engine slots (R186) -/

/-- Operations that hold an engine slot of a core. -/
def State.engineBusy (s : State) (slot : Nat) : Bool :=
  s.ops.any fun e => e.2.slot.toNat == slot && e.2.phase != .failed && e.2.phase != .done && e.2.phase != .checking
/-- The lowest free engine slot of a core. -/
def State.freeEngine (s : State) (core : Nat) : Option Nat :=
  ((List.range 32).map fun k => slotAt core (96 + k)).find? fun sl =>
    !s.engineBusy sl && !((s.core core).retired.any fun r => r.1 == localOfSlot sl)
/-- The team-local slot of an operation's own slot (R124). -/
def opTslot (s : State) (o : Op) : Nat :=
  match s.launchOf o.gid, s.blockOf o.gid, s.group? o.gid with
  | some l, some b, some x => if localOfSlot o.slot.toNat < 96 then tslotOf l b x else tslotOfEngine l b o.slot.toNat
  | _, _, _ => 0
/-- The party that an operation is at its own team's window. -/
def opGparty (s : State) (o : Op) (tid : Nat) : GParty :=
  let k := opTslot s o
  { foreign := false, slot := k, stamp := (Tab.teamCnt.val 0 (tid * 512 + k) s).toNat % 4096, ctx := o.ctx, inc := o.inc }
/-- The party that an operation is at another team's window (R127). -/
def opForeign (s : State) (o : Op) : GParty :=
  { foreign := true, slot := o.slot.toNat, stamp := (s.stampOf o.slot.toNat).toNat, ctx := o.ctx, inc := o.inc }

def opParty (s : State) (o : Op) : Party :=
  { slot := o.slot, stamp := s.stampOf o.slot.toNat, ctx := o.ctx, inc := o.inc, origin := originOf s o }

/-- Whether an operation may take an engine slot: neither the slot's counter nor its team-local one must wait at a quarter (R92, R128). -/
def State.mayTake (s : State) (o : Op) (slot : Nat) : Bool :=
  s.mayAdvance slot && s.mayAdvanceT (s.opTeam o) (opTslot s { o with slot := BitVec.ofNat 16 slot })

/-- The end of an engine operation's interval: its team-local counter advances, so its scratch records are dead (R124, R169). -/
def endEngine (o : Op) : Act := .read fun s =>
  .when (96 ≤ localOfSlot o.slot.toNat) (advanceTslot (s.opTeam o) (opTslot s o))

/-- Remote writes of a group's instruction are sent in this window (R183). -/
def sentRemote (g : Nat) (pas : List Nat) : Act := .read fun s =>
  .when (pas.any fun p => (peerOf p).isSome) (.upd .groups g fun x => { x with nlast := some s.dev.window })

/-! ## Parks and failures of engine operations -/

/-- The record of an engine operation. -/
def engineRecord (s : State) (o : Op) (b : Blame) : List (BitVec 32) :=
  recordOf b o.ctx o.inc o.slot.toNat (s.stampOf o.slot.toNat).toNat o.site s.window32
/-- An engine operation fails (R196, R265): its interval ends, its engine slot is free, and the sticky flags that it has raised are its
group's (R195). -/
def failEngine (id : Nat) (o : Op) (b : Blame) (origin : BitVec 32) : Act := .read fun s =>
  .all [ endEngine o, orFlags o.gid o.flags,
         failOp id { cause := b.cause, frame := engineRecord s o b, words := opWords s o, origin := origin } ]
/-- As `failEngine`, with the own stamp that a window check gives (R129). -/
def failWindow (id : Nat) (o : Op) (b : Blame) (stamp : Nat) : Act := .read fun s =>
  .all [ endEngine o, orFlags o.gid o.flags,
         failOp id { cause := b.cause, frame := recordOf b o.ctx o.inc o.slot.toNat stamp o.site s.window32, words := opWords s o,
                     origin := 0 } ]
/-- An engine operation parks with a record (R106, R196). -/
def parkEngine (id : Nat) (b : Blame) (malformed : Bool) : Act := .read fun s =>
  match Tab.ops.at id s with
  | none => .skip
  | some o =>
    let b := if malformed then { b with size := 0x3F } else b
    let ws := engineRecord s o b
    .seq (.put .ops id { o with phase := .parked, lines := [(0, .park b.cause malformed false)],
                                fail := some { cause := b.cause, frame := ws, words := opWords s o, origin := 0 } })
      (postFault o.ctx ws fun ok =>
        if ok then .upd .ops id fun o => { o with lines := [(0, .park b.cause malformed true)] } else .due [.faultRecordPost o.ctx])

/-- An engine operation's tag is stale at its engine: it ends (R71, R198). -/
def staleOp (s : State) (o : Op) : Bool :=
  s.stale (.copyEngine (clusterOf (coreOf o.gid))) o.ctx o.inc || s.stale (.core (coreOf o.gid)) o.ctx o.inc

end Sys2Proof.Machine
end

