-- ==== Sys2Proof/Machine/Copy.lean ====
section
/-! DEFINITION. CPY, CPYMC and CPYRED (08_copy_engine.md): their shape, the checks at issue, chunks, failures, completion and
arrival. -/

namespace Sys2Proof.Machine

open Sys2Proof

/-! ## The shape of a copy (R188, R195) -/

/-- Which copy an instruction is. -/
inductive CopyKind where
  | plain | multi | reduce
  deriving DecidableEq, Repr

/-- A copy with its shape, records and element sizes; one element is a byte but for CPYRED. -/
structure Copy where
  kind : CopyKind
  f : CopyForm
  src : Buf
  dst : Buf
  soff : Nat
  doff : Nat
  rows : Nat
  len : Nat
  sp : Nat
  dp : Nat
  drow : Nat
  e : Nat
  de : Nat
  fixed : Bool
  firstTeam : Nat

def copyForm? (i : Instr) : Option (CopyKind × CopyForm) :=
  match i with
  | .cpy f => some (.plain, f)
  | .cpymc f => some (.multi, f)
  | .cpyred f => some (.reduce, f)
  | _ => none

def CopyForm.memSrc (f : CopyForm) : Bool := f.dir == 0 || f.dir == 2
def CopyForm.memDst (f : CopyForm) : Bool := f.dir == 1 || f.dir == 2

/-- A copy from its substituted shape and its records. Through a record with FX set an .f32 or .f64 reduction writes 8 bytes for each element,
and a nonzero DPITCH is in bytes (R195). -/
def Copy.make (kind : CopyKind) (f : CopyForm) (w : Shape) (src dst : BitVec 128) (team : Nat) : Copy :=
  let b := Buf.of dst
  let len := fld w.w2.toNat 0 16
  let rt := f.rtype.toNat
  let e := if kind == .reduce then (if rt == 1 || rt == 3 then 8 else 4) else 1
  let fixed := kind == .reduce && CopyForm.memDst f && b.fx && (rt == 2 || rt == 3)
  let sp := fld w.w3.toNat 0 15
  let dp := fld w.w3.toNat 15 16
  let drow := if fixed then len * 8 / e else len
  { kind := kind, f := f, src := Buf.of src, dst := b, soff := fld w.w0.toNat 0 31, doff := fld w.w1.toNat 0 31,
    rows := fld w.w2.toNat 16 12 + 1, len := len, sp := if sp == 0 then len else 16 * sp, dp := if dp == 0 then drow else if fixed then dp else 16 * dp,
    drow := drow, e := e, de := if fixed then 8 else e, fixed := fixed, firstTeam := team }

/-- Elements of a row. -/
def Copy.count (c : Copy) : Nat := c.len / max c.e 1
def Copy.srcOff (c : Copy) (r i : Nat) : Nat := c.soff + r * c.sp + i * c.e
/-- Offset of an element at destination `k` (R194). -/
def Copy.dstOff (c : Copy) (k r i : Nat) : Nat :=
  c.doff + (if CopyForm.memDst c.f then k * c.rows * c.dp else 0) + r * c.dp + i * c.de
/-- The destinations of a copy. -/
def Copy.dests (c : Copy) : List Nat :=
  if c.kind == .multi then (List.range 32).filter fun k => c.f.x32.getLsbD k else [0]
/-- Where a byte of a memory side stands. -/
def sideVa (b : Buf) (off : Nat) : Nat := (b.place (Int.ofNat off) 1).2
/-- The line of a destination byte: of its virtual address, or of its window offset (R191). -/
def Copy.lineOf (c : Copy) (r i : Nat) : Nat :=
  let o := c.dstOff ((c.dests.head?).getD 0) r i
  (if CopyForm.memDst c.f then sideVa c.dst o else o) / 128
/-- The chunk lines of a row, ascending: those of the first and the last element of each 16 bytes of offset. -/
def Copy.lines (c : Copy) (r : Nat) : List Nat :=
  let step := max 1 (16 / max c.de 1)
  let o := c.dstOff ((c.dests.head?).getD 0) r 0
  let lead := (16 - o % 16) % 16 / max c.de 1
  let at_ := [0, lead - 1, c.count - 1] ++ (List.range (c.count / step + 1)).flatMap fun k => [lead + k * step, lead + k * step + step - 1]
  sortNat (dedup ((at_.filter (· < c.count)).map (c.lineOf r)))
/-- The row and line of chunk number `n`; none past the last. -/
def Copy.chunkFrom (c : Copy) : List Nat → Nat → Option (Nat × Nat)
  | [], _ => none
  | r :: rest, n =>
    let ls := c.lines r
    match ls[n]? with
    | some l => some (r, l)
    | none => c.chunkFrom rest (n - ls.length)
def Copy.chunk (c : Copy) (n : Nat) : Option (Nat × Nat) := c.chunkFrom (List.range c.rows) n
/-- The elements of a chunk. -/
def Copy.elements (c : Copy) (r line : Nat) : List Nat := (List.range c.count).filter fun i => c.lineOf r i == line

/-! ## The checks at issue (R190) -/

/-- A failed check: a cause, or a cause with the side and its lowest failing byte. -/
inductive CopyStop where
  | plain (cause : BitVec 8)
  | side (cause : BitVec 8) (write : Bool) (size : Nat) (addr : Nat)

def shapeTop (w : Shape) : Bool := w.w0.getLsbD 31 || w.w1.getLsbD 31 || w.w2.getLsbD 31 || w.w3.getLsbD 31
/-- Whether offset, row bytes and pitch of a side through a record with MODE 1 are whole units (R188). Row bytes are those of the side: for a
fixed-point reduction's destination its own rows.
[DESIGN CHOICE, log 130] -/
def unitsOk (b : Buf) (off len pitch : Nat) : Bool := b.mode != 1 || (off % 16 == 0 && len % 16 == 0 && pitch % 16 == 0)

/-- Class of a side, coded as R50. -/
def Copy.dstCls (c : Copy) : Cls := if c.kind == .reduce then .add else .data

/-- The lowest byte of rows at `off` that lies at `limit` or beyond. -/
def firstOut (off pitch rows len limit : Nat) : Option Nat :=
  (List.range rows).findSome? fun r =>
    let a := off + r * pitch
    if limit < a + len then some (max a limit) else none

/-- What the shape of a copy may not hold, whatever its records (R188): an encoding check, made for a copy with no executing lane too
(R31, R33). -/
def Copy.shapeBad (c : Copy) (w : Shape) : Bool :=
  let sp := fld w.w3.toNat 0 15
  let dp := fld w.w3.toNat 15 16
  shapeTop w || w.w2.extractLsb' 28 3 != 0 || c.len == 0 || (sp != 0 && c.sp < c.len) || (dp != 0 && c.dp < c.len) ||
  (!CopyForm.memSrc c.f && 2 ^ 23 ≤ c.soff) || (!CopyForm.memDst c.f && 2 ^ 23 ≤ c.doff)

/-- The checks of a copy at issue in the order of R190. -/
def copyStop (s : State) (ctx inc tid : Nat) (lid : Nat) (fmt : BitVec 32) (c : Copy) (station : BitVec 32) :
    Option CopyStop :=
  let f := c.f
  let rt := f.rtype.toNat
  let wsz := s.wsz tid
  let galSrc := !CopyForm.memSrc f
  let galDst := !CopyForm.memDst f
  let bad02 := (CopyForm.memSrc f && !c.src.valid) || (CopyForm.memDst f && !c.dst.valid)
  let misaligned := (CopyForm.memSrc f && !unitsOk c.src c.soff c.len c.sp) || (CopyForm.memDst f && !unitsOk c.dst c.doff c.drow c.dp) ||
    (c.kind == .reduce && (c.soff % c.e != 0 || c.len % c.e != 0 || c.sp % c.e != 0 || c.doff % c.de != 0 || c.dp % c.de != 0))
  let floaty := c.kind == .reduce && 2 ≤ rt
  if bad02 then some (.plain 0x02)
  else if CopyForm.memDst f && c.dst.ro then some (.plain 0x13)
  else if misaligned then some (.plain 0x16)
  else if floaty && fmt.getLsbD 22 && (galDst || !c.dst.fx) then some (.plain 0x31)
  else if floaty && 4 ≤ rt && CopyForm.memDst f && c.dst.fx then some (.plain 0x32)
  else if f.arv && !arvOk s ctx inc f.vb.toNat station then some (.plain 0x49)
  else match (if CopyForm.memSrc f then firstOut c.soff c.sp c.rows c.len c.src.extent else none) with
  | some o => some (.side 0x12 false 0x31 (sideVa c.src o))
  | none =>
    match (if CopyForm.memDst f then c.dests.findSome? fun k => (firstOut (c.dstOff k 0 0) c.dp c.rows c.drow c.dst.extent).map fun o => (k, o)
           else none) with
    | some (k, o) => some (.side 0x12 true (if c.kind == .multi then k else 0x30) (sideVa c.dst o))
    | none =>
      match (if galSrc then firstOut c.soff c.sp c.rows c.len wsz else none) with
      | some o => some (.side 0x15 false 0x31 o)
      | none =>
        if !galDst then none
        else match firstOut c.doff c.dp c.rows c.drow wsz with
          | some o => some (.side 0x15 true (if c.kind == .multi then (c.dests.head?).getD 0 else 0x30) o)
          | none =>
            if c.kind != .multi then none
            else match c.dests.find? fun k => !(s.teams.any fun e => e.2.lid == lid && e.2.index == c.firstTeam + k && e.2.state == .resident) with
              | some k => some (.side 0x15 true k c.doff)
              | none => none

/-- The window that destination `k` of a copy stands in. -/
def Copy.destTeam (s : State) (c : Copy) (lid tid k : Nat) : Nat :=
  if c.kind == .multi then
    match s.teams.find? fun e => e.2.lid == lid && e.2.index == c.firstTeam + k with
    | some e => e.1
    | none => tid
  else tid

/-- CPY, CPYMC, CPYRED at issue (R186, R190): checks, then an engine slot and the copy in flight. A copy with ACQ needs nothing more: the
releases that its group has completed have been performed, and its reads, which pass no L1, come after (R192). -/
def copyIssue (i : Instr) (kind : CopyKind) (f : CopyForm) (s : State) : Host.Outcome State Fault Refusal :=
  issue i (fun c => .read fun s =>
    let w := s.shape c.gid f.shape
    let src := if CopyForm.memSrc f then s.breg c.gid f.va.toNat else 0
    let dst := if CopyForm.memDst f then s.breg c.gid f.vd.toNat else 0
    let team := if kind == .multi && !CopyForm.memDst f then (s.sreg c.gid f.vd.toNat).toNat else 0
    let station := if f.arv then s.sreg c.gid f.vc.toNat else 0
    let k := Copy.make kind f w src dst team
    if k.shapeBad w then c.trap 0x02 0
    else if c.execMask s f.head == 0 then c.advance
    else match copyStop s c.lau.ctx c.lau.inc c.tid c.blk.lid c.sp.fmt k station with
    | some (.plain cause) => c.trap cause 0
    | some (.side cause write size addr) =>
      c.trapWith { kind := 2, cause := cause, write := write, cls := (if write then k.dstCls else Cls.data).code.toNat, lane := 0, size := size,
                   va := addr % 2 ^ 57, oslot := 0xFFFF, ocls := 0, ostamp := 0 } (taskWords c.grp) 0 0
    | none =>
      if 63 ≤ s.counter c.gid 3 then c.stall (.counter 3)
      else match s.freeEngine c.core with
      | none => c.stall .engine
      | some sl =>
        if !s.mayAdvance sl || !s.mayAdvanceT c.tid (tslotOfEngine c.lau c.blk sl) then
          .seq (c.stall .quarter) (.due [.scratchScan (clusterOf c.core)])
        else
          let teams := if kind == .multi && !CopyForm.memDst f then k.dests.map (k.destTeam s c.blk.lid c.tid) else []
          .fresh fun id => .all
            [ advanceSlot sl,
              .read fun s => .put .ops id { c.op s i (some 3) with
                slot := BitVec.ofNat 16 sl, stamp := s.stampOf sl, exec := 1, unf := 1, brec := src, brec2 := dst, shape := w,
                regs := [team, station.toNat, 0, (s.domain f.vb.toNat).gen], sent := teams },
              c.advance, c.count (b2n (c.lau.journals && kind == .reduce && 2 ≤ f.rtype.toNat && !k.fixed)), .due [.copyChunk id] ]) s

def execCpy (f : CopyForm) (s : State) : Host.Outcome State Fault Refusal := copyIssue (.cpy f) .plain f s
def execCpymc (f : CopyForm) (s : State) : Host.Outcome State Fault Refusal := copyIssue (.cpymc f) .multi f s
def execCpyred (f : CopyForm) (s : State) : Host.Outcome State Fault Refusal := copyIssue (.cpyred f) .reduce f s

/-! ## Chunks (R191 to R196) -/

/-- The copy that an operation performs. -/
def copyOf (o : Op) : Option Copy :=
  (copyForm? o.instr).map fun e => Copy.make e.1 e.2 o.shape o.brec o.brec2 ((o.regs[0]?).getD 0)

/-- Blame for a side of a copy (R196). -/
def copyBlame (c : Copy) (cause : BitVec 8) (write : Bool) (k va : Nat) : Blame :=
  { kind := 2, cause := cause, write := write, cls := (if write then c.dstCls else Cls.data).code.toNat, lane := 0,
    size := if !write then 0x31 else if c.kind == .multi then k else 0x30, va := va, oslot := 0xFFFF, ocls := 0, ostamp := 0 }

/-- The bytes of an element at an offset of a memory side. -/
def elemVas (b : Buf) (off n : Nat) : List Nat := (List.range n).map fun j => sideVa b (off + j)

/-- Whether the translation of bytes of a destination, or an access table, stands in a copy's way. -/
def probeDst (s : State) (o : Op) (c : Copy) (vas : List Nat) : Probe :=
  probeBytes s o.ctx (256 + clusterOf (coreOf o.gid)) (if c.kind == .reduce then .atomic else .store)
    (if c.kind == .reduce then .atomic else .store) vas
/-- The first destination that a probe of its bytes stops, lowest `k` first. -/
def firstStop (probe : Nat → Probe) : List Nat → Option (Nat × Probe)
  | [] => none
  | k :: rest => match probe k with
    | .ok => firstStop probe rest
    | p => some (k, p)
/-- What translation and the access tables say of the destinations of elements of a row.
[DEDUCED, log 45] -/
def probeDests (s : State) (o : Op) (c : Copy) (r : Nat) (els : List Nat) : Option (Nat × Probe) :=
  firstStop (fun k => probeDst s o c (els.flatMap fun i => elemVas c.dst (c.dstOff k r i) c.de)) c.dests

/-- Stop at a failed probe: park or fail (R196). -/
def stopAt (id : Nat) (o : Op) (c : Copy) (write : Bool) (k : Nat) (p : Probe) (go : Act) : Act :=
  match p with
  | .ok => go
  | .park va cause bad => parkEngine id (copyBlame c cause write k va) bad
  | .fail va cause => failEngine id o (copyBlame c cause write k va) 0

/-- The stretches of contiguous bytes of destination `k`, as first byte and length: whole rows, or the 16-byte units of a record with
MODE 1. -/
def Copy.stretches (c : Copy) (k : Nat) : List (Nat × Nat) :=
  (List.range c.rows).flatMap fun r =>
    let o := c.dstOff k r 0
    if !CopyForm.memDst c.f then [(o, c.drow)]
    else if c.dst.mode == 1 then (List.range (c.drow / 16)).map fun u => (sideVa c.dst (o + 16 * u), 16)
    else [(sideVa c.dst o, c.drow)]
/-- The lowest byte of each 4 KiB page of destination `k`, ascending (R194). -/
def Copy.pageBytes (c : Copy) (k : Nat) : List Nat :=
  let all := (c.stretches k).flatMap fun x => x.1 :: ((List.range ((x.1 + x.2 - 1) / 4096 - x.1 / 4096)).map fun i => (x.1 / 4096 + 1 + i) * 4096)
  sortNat (dedup (all.map (· / 4096))) |>.filterMap fun p => (sortNat (all.filter fun v => v / 4096 == p)).head?
/-- THE PRE-CHECK of every page of every destination (R194): the lowest address of the lowest destination that fails. -/
def preCheck (s : State) (o : Op) (c : Copy) : Option (Nat × Probe) :=
  firstStop (fun k => ((c.pageBytes k).findSome? fun va => match probeDst s o c [va] with | .ok => none | p => some p).getD .ok) c.dests

/-- The source bytes of an element, as a number. -/
def Copy.read (s : State) (c : Copy) (o : Op) (tid r i : Nat) : Nat :=
  if CopyForm.memSrc c.f then natOfBytes ((elemVas c.src (c.srcOff r i) c.e).map fun va => s.outerByte (s.phys o.ctx va))
  else s.winNat tid (c.srcOff r i) c.e

/-- Type codes of R161 for RTYPE. -/
def Copy.newValue (c : Copy) (fmt : BitVec 32) (old x : Nat) : FRes :=
  let rt := c.f.rtype.toNat
  if c.kind != .reduce then (x, 0)
  else if c.fixed then
    let q := toGrid (if rt == 3 then fp64 else fp32) fmt.toNat c.dst.fxe x
    let r := fixedAdd old q.1
    (r.1, q.2 ||| r.2)
  else if rt < 2 then ((old + x) % 2 ^ (8 * c.e), 0)
  else atomicNew 1 rt (8 * c.e) old x 0

/-- Write the elements of a chunk to one destination, in order, from values read before; the flags are gathered on the operation. -/
def Copy.writeAll (c : Copy) (id : Nat) (o : Op) (tid k r : Nat) : List (Nat × Nat) → Act
  | [] => .skip
  | (i, x) :: rest => .seq (.read fun s =>
      let off := c.dstOff k r i
      if CopyForm.memDst c.f then
        let pas := (elemVas c.dst off c.de).map (s.phys o.ctx)
        let v := c.newValue o.fmt (natOfBytes (pas.map s.outerByte)) x
        .seq (writeBytesAt (256 + clusterOf (coreOf o.gid)) (pas.zip (bytesOfNat c.de v.1))) (.upd .ops id fun o => { o with flags := o.flags ||| BitVec.ofNat 6 v.2 })
      else
        let v := c.newValue o.fmt (s.winNat tid off c.de) x
        .seq (wrWin tid off c.de v.1) (.upd .ops id fun o => { o with flags := o.flags ||| BitVec.ofNat 6 v.2 }))
    (c.writeAll id o tid k r rest)

/-- The failure of a conversion under TINV (R195, R196). -/
def Copy.invalid (s : State) (c : Copy) (o : Op) (tid r : Nat) (els : List Nat) : Option Nat :=
  if !c.fixed || !o.fmt.getLsbD 23 then none
  else els.find? fun i =>
    bitAt (toGrid (if c.f.rtype.toNat == 3 then fp64 else fp32) o.fmt.toNat c.dst.fxe (c.read s o tid r i)).2 0

/-- A failed check of a chunk: its record, its origin word, whether it is a conflict. -/
structure ChunkFail where
  blame : Blame
  origin : BitVec 32
  conflict : Bool
/-- The failure that a chunk reports: the first conflict, else the first.
[DEDUCED, log 125] -/
def chunkWorst (fs : List ChunkFail) : Option ChunkFail :=
  match fs.find? (·.conflict) with | some f => some f | none => fs.head?
/-- The worst of the failures of a window check. -/
def gWorst (fs : List GFail) : Option GFail :=
  match fs.find? fun f => f.other.isSome with | some f => some f | none => fs.head?

/-- The registrations of bytes of memory for a copy; `k` gets the failures (R191). -/
def checkHome (o : Op) (cls : BitVec 3) (vas : List Nat) (b : Blame) (k : List ChunkFail → Act) : Act := .read fun s =>
  checkMany (opParty s o) cls (sectorsOf (vas.map (s.phys o.ctx))) [] fun fails => k (fails.map fun f =>
    { blame := f.2.blame { b with va := ((sortNat vas).find? fun v => s.phys o.ctx v / 32 == f.1).getD 0 }, origin := f.2.origin,
      conflict := match f.2 with | .conflict _ _ _ _ _ => true | _ => false })
/-- The checks of bytes of a window for a copy; `k` gets the failures (R126, R129). A request whose tag is stale at the Gallery control is
dropped (R122). -/
def checkBank (o : Op) (t : Nat) (p : GParty) (cls : BitVec 3) (offs : List Nat) (b : Blame) (k : List ChunkFail → Act) : Act := .read fun s =>
  let cl := match s.team? t with | some t => t.cluster | none => 0
  let r := gCheckAll cl t p cls (sectorsOf offs) s
  if s.stale (.gallery cl) o.ctx o.inc then .skip
  else .seq r.1 (.read fun s => k (r.2.map fun f =>
    let oth := s.gOther t f.other
    { blame := { b with cause := f.cause, va := ((sortNat offs).find? fun x => x / 32 == f.sector).getD 0, oslot := oth.1, ocls := oth.2.1,
                        ostamp := oth.2.2 },
      origin := 0, conflict := f.other.isSome }))

/-- The bytes of elements at the source of a copy: virtual addresses or window offsets. -/
def Copy.srcBytes (c : Copy) (r : Nat) (els : List Nat) : List Nat :=
  els.flatMap fun i => if CopyForm.memSrc c.f then elemVas c.src (c.srcOff r i) c.e else (List.range c.e).map (c.srcOff r i + ·)
/-- The bytes of elements at destination `k`. -/
def Copy.dstBytes (c : Copy) (k r : Nat) (els : List Nat) : List Nat :=
  els.flatMap fun i => if CopyForm.memDst c.f then elemVas c.dst (c.dstOff k r i) c.de else (List.range c.de).map (c.dstOff k r i + ·)

/-- Check the source of a chunk (R191): through an RO record there is nothing to check. -/
def checkSource (o : Op) (c : Copy) (tid r : Nat) (els : List Nat) (k : List ChunkFail → Act) : Act := .read fun s =>
  if CopyForm.memSrc c.f then (if c.src.ro then k [] else checkHome o mcRead (c.srcBytes r els) (copyBlame c 0 false 0 0) k)
  else checkBank o tid (opGparty s o tid) mcRead (c.srcBytes r els) (copyBlame c 0 false 0 0) k
/-- Check the destinations of a chunk, `k` ascending, then go on with the failures (R191, R194). -/
def checkDests (o : Op) (c : Copy) (lid tid r : Nat) (els : List Nat) (fails : List ChunkFail) (go : List ChunkFail → Act) : List Nat → Act
  | [] => go fails
  | k :: rest => .read fun s =>
    let cls : BitVec 3 := if c.kind == .reduce then mcAdd else mcWrite
    let next (more : List ChunkFail) : Act := checkDests o c lid tid r els (fails ++ more) go rest
    if CopyForm.memDst c.f then checkHome o cls (c.dstBytes k r els) (copyBlame c 0 true k 0) next
    else
      let t := c.destTeam s lid tid k
      checkBank o t (if t == tid then opGparty s o tid else opForeign s o) cls (c.dstBytes k r els) (copyBlame c 0 true k 0) next

/-- The spans of a side of a chunk, for watchpoints. -/
def spansOf (vas : List Nat) : List Span := vas.map fun v => { lane := 0, va := v, n := 1 }

/-- Perform one chunk whose checks have passed (R191, R194, R195). -/
def performChunk (id : Nat) (o : Op) (c : Copy) (lid tid r : Nat) (els : List Nat) : Act := .read fun s =>
  let vals := els.map fun i => (i, c.read s o tid r i)
  let srcVas := els.flatMap fun i => elemVas c.src (c.srcOff r i) c.e
  let rec_ (write : Bool) (k : Nat) (_ va : Nat) : List (BitVec 32) := engineRecord s o (copyBlame c 0x51 write k va)
  let dstVas (k : Nat) : List Nat := els.flatMap fun i => elemVas c.dst (c.dstOff k r i) c.de
  let touch : Touch := if c.kind == .reduce then .atomic else .write
  let far := CopyForm.memDst c.f && c.dests.any fun k => (dstVas k).any fun v => (peerOf (s.phys o.ctx v)).isSome
  .all
    [ .each c.dests fun k => .read fun s =>
        let t := c.destTeam s lid tid k
        .seq (.when (!CopyForm.memDst c.f) (noteRows o.bid t (els.map fun i => (c.dstOff k r i, c.de)))) (c.writeAll id o t k r vals),
      .when far (.upd .ops id fun o => { o with remote := true, regs := o.regs.set 2 s.dev.window }),
      .when (far || (CopyForm.memSrc c.f && srcVas.any fun v => !isHomed (s.phys o.ctx v))) (escape o.gid),
      (if CopyForm.memSrc c.f then watchDie o.gid (some id) (dieOf (coreOf o.gid)) o.ctx .read (spansOf srcVas) (rec_ false 0)
       else watchGallery o.gid (some id) tid .read (spansOf (els.map (c.srcOff r))) (rec_ false 0)),
      .each c.dests fun k =>
        if CopyForm.memDst c.f then watchDie o.gid (some id) (dieOf (coreOf o.gid)) o.ctx touch (spansOf (dstVas k)) (rec_ true k)
        else watchGallery o.gid (some id) (c.destTeam s lid tid k) touch (spansOf (els.map (c.dstOff k r))) (rec_ true k),
      .upd .ops id fun o => { o with prog := o.prog + 1 },
      if (c.chunk (o.prog + 1)).isSome then .due [.copyChunk id] else .due [.copyComplete id] ]

/-- Whether the journal holds a chunk of a float CPYRED (R423, R425), and what recording it does. -/
def chunkJournal (s : State) (o : Op) (c : Copy) (lid : Nat) (l : Launch) (r : Nat) (els : List Nat) : Act × BitVec 64 :=
  if l.journals && c.kind == .reduce && 2 ≤ c.f.rtype.toNat && !c.fixed then
    match s.blockOf o.gid, s.group? o.gid with
    | some b, some x => journalLanes o lid l b.linear x.gidx
        ((els.map fun i => (({ lane := i % 64, va := if CopyForm.memDst c.f then sideVa c.dst (c.dstOff 0 r i) else c.dstOff 0 r i,
                               b := 0, c := 0 } : LaneAcc), 0))) s
    | _, _ => (.skip, 0)
  else (.skip, 0)

/-- The destination bytes of a copy as stretches, each with the space it lies in: 0 for memory, one more than a team for its window. -/
def Copy.places (s : State) (c : Copy) (lid tid : Nat) : List (Nat × Nat × Nat) :=
  c.dests.flatMap fun k =>
    let space := if CopyForm.memDst c.f then 0 else c.destTeam s lid tid k + 1
    (c.stretches k).map fun x => (space, x)
/-- An earlier copy of the group that has not ended and whose destination bytes overlap this one's: it goes first (R185). -/
def copyBefore (s : State) (id : Nat) (o : Op) (c : Copy) (lid tid : Nat) : Bool :=
  (s.opsOf o.gid).any fun e => e.1 < id && e.2.phase != .done && e.2.phase != .failed && (match copyOf e.2 with
    | some d => (d.places s lid tid).any fun x => (c.places s lid tid).any fun y => x.1 == y.1 && meetsRange x.2.1 x.2.2 y.2.1 y.2.2
    | none => false)

/-- A copy that starts again takes the lowest free engine slot of its core, under a new occupancy; it waits while none is free, or while
the slot's counters may not advance (R92, R128). -/
def seatCopy (id : Nat) (o : Op) : Act := .read fun s =>
  if staleOp s o then .del .ops id
  else match s.freeEngine (coreOf o.gid) with
  | some sl =>
    if s.mayTake o sl then .seq (advanceSlot sl) (.read fun s => .seq
      (.put .ops id { o with phase := .running, slot := BitVec.ofNat 16 sl, stamp := s.stampOf sl }) (.due [.copyChunk id]))
    else .due [.scratchScan (clusterOf (coreOf o.gid)), .copyChunk id]
  | none => .due [.copyChunk id]

/-- A request for bytes of memory is dropped at a home slice where its tag is stale (R71). -/
def State.droppedAt (s : State) (o : Op) (pas : List Nat) : Bool := pas.any fun p => isHomed p && s.stale (.slice (homeSlice p)) o.ctx o.inc
/-- A read of bytes of memory has to fetch a sector from a stack whose channel is paused (R408). -/
def State.heldAt (s : State) (pas : List Nat) : Bool := pas.any fun p => isHomed p && !s.held? (sectorOf p) && s.pausedAt p
/-- The home slices fetch what they lack of bytes that are read there (R70). -/
def fetchAll (pas : List Nat) : Act := .each (sectorsOf pas) fun e => fetchSector e.1

/-- The checks of a chunk whose bytes have translated, and the chunk, when every one has passed (R191). Data that cannot be corrected is
consumed (R402), and an invalid element fails, once the source's own checks have passed (R196). The record of an invalid element names the
destination, at address 0.
[DESIGN CHOICE, log 131] -/
def chunkChecks (id : Nat) (o : Op) (c : Copy) (b : Block) (l : Launch) (r : Nat) (els : List Nat) : Act :=
  checkSource o c b.tid r els fun srcFails => .read fun s =>
    let pas := if CopyForm.memSrc c.f then (c.srcBytes r els).map (s.phys o.ctx) else []
    let j := chunkJournal s o c b.lid l r els
    if s.droppedAt o pas then .skip
    else if srcFails.isEmpty && pas.any fun p => s.poisoned (p / 32) then
      .seq (.put .ops id { o with phase := .waiting }) (.due [.rollback o.bid])
    else if srcFails.isEmpty && (c.invalid s o b.tid r els).isSome then failEngine id o (copyBlame c 0x30 true 0 0) 0
    else checkDests o c b.lid b.tid r els srcFails (fun fails => match chunkWorst fails with
      | some f => failEngine id o f.blame f.origin
      | none => .all [ j.1, fetchAll pas, performChunk id o c b.lid b.tid r els ]) c.dests

/-- COPY_CHUNK (R191): translate, check, and write the next chunk.
[DEDUCED, log 45] -/
def copyStep (id : Nat) : Act := .read fun s =>
  match Tab.ops.at id s with
  | none => .skip
  | some o =>
    match copyOf o, s.blockOf o.gid, s.launchOf o.gid with
    | some c, some b, some l =>
      if o.phase == .checking then seatCopy id o
      else if o.phase != .running then .skip
      else if staleOp s o then .del .ops id
      else if s.frozen o.gid && (c.chunk o.prog).isSome then .skip
      else if copyBefore s id o c b.lid b.tid then .due [.copyChunk id]
      else match (if CopyForm.memDst c.f && c.kind != .plain && o.prog == 0 then preCheck s o c else none) with
      | some (k, p) => stopAt id o c true k p .skip
      | none => match c.chunk o.prog with
        | none => .due [.copyComplete id]
        | some (r, line) =>
          let els := c.elements r line
          let src := c.srcBytes r els
          stopAt id o c false 0 (if CopyForm.memSrc c.f then probeBytes s o.ctx (256 + clusterOf (coreOf o.gid)) .load .load src else .ok)
            (match (if CopyForm.memDst c.f then probeDests s o c r els else none) with
             | some (k, p) => stopAt id o c true k p .skip
             | none =>
               if (chunkJournal s o c b.lid l r els).2 != 0 || (CopyForm.memSrc c.f && s.heldAt (src.map (s.phys o.ctx))) then .due [.copyChunk id]
               else chunkChecks id o c b l r els)
    | _, _, _ => .skip

def execCopyChunk (op : Nat) (s : State) : Host.Outcome State Fault Refusal := .next ((copyStep op).run s)

/-! ## Completion and arrival (R192, R193) -/

/-- A copy ends: flags, interval, counter (R44, R192, R195). -/
def endCopy (id : Nat) : Act := .read fun s =>
  match Tab.ops.at id s with
  | none => .skip
  | some o => .all [ orFlags o.gid o.flags, endEngine o, endOp id, offerTeams ]

/-- COPY_COMPLETE (R192, R193): the last chunk is written; the release, the arrival, and the end. The writes of a copy are performed at
their homes and banks when they are written, so a release has nothing to wait for but the window rule. The arrival is counted at once; it is
refused when its early count would pass 65,535, or when the domain has been given up or assigned again since the copy issued, with a record
that names the destination at address 0.
[DESIGN CHOICE, log 132] -/
def copyFinish (id : Nat) : Act := .read fun s =>
  match Tab.ops.at id s with
  | none => .skip
  | some o =>
    match copyOf o with
    | none => .skip
    | some c =>
      let f := c.f
      let d := f.vb.toNat
      let station := BitVec.ofNat 32 ((o.regs[1]?).getD 0)
      let there := station.getLsbD 20
      if o.phase != .running || (c.chunk o.prog).isSome || o.rows != 0 then .skip
      else if ((f.rel && f.scope == .sys) || (f.arv && there)) && o.remote && s.dev.window < (o.regs[2]?).getD 0 + 2 then .due [.copyComplete id]
      else .seq (.when (f.rel || f.arv || c.kind == .reduce) (escape o.gid))
        (if !f.arv then endCopy id
         else if !((s.domain d).usable o.ctx o.inc && (s.domain d).gen == (o.regs[3]?).getD 0) ||
             (!there && s.refuses d (fld station.toNat 0 12)) then failEngine id o (copyBlame c 0x49 true 0 0) 0
         else .all [ .when (!there) (arrive d (fld station.toNat 0 12)), .upd .ops id fun o => { o with rows := 1 },
                     .due [.copyArrivalAccepted id] ])
def execCopyComplete (op : Nat) (s : State) : Host.Outcome State Fault Refusal := .next ((copyFinish op).run s)
/-- COPY_ARRIVAL_ACCEPTED (R193): the station's unit, or the port, has accepted the arrival that the copy has sent; the copy completes. -/
def execCopyArrivalAccepted (op : Nat) (s : State) : Host.Outcome State Fault Refusal :=
  .next (Act.run (match Tab.ops.at op s with
    | some o => .when (o.phase == .running && (copyOf o).isSome && o.rows == 1) (endCopy op)
    | none => .skip) s)

/-- Start a failed or parked copy again. One that has lost its engine slot, by failing (R197) or by a switch (R198), takes a new one; an
arrival that was refused is sent again. -/
def restartCopy (id : Nat) : Act := .seq
  (.upd .ops id fun o => { o with phase := if o.phase == .parked && o.slot != 0xFFFF then .running else .checking, lines := [], fail := none })
  (.due [.copyChunk id])

end Sys2Proof.Machine
end

