-- ==== Sys2Proof/Machine/Tile.lean ====
section
/-! DEFINITION. The matrix engine (11_matrix_engine.md): TRD, TWR, TZERO, MMA, TLOAD, TDRAIN, the order of tile instructions, their
failures, and the self-test of the sub-arrays; and PRODUCER_COMPLETE. -/

namespace Sys2Proof.Machine

open Sys2Proof

/-! ## Rows and words (R253 to R255) -/

/-- Whether a lane base is legal for a group width. -/
def lbOk (width : Nat) (lb : BitVec 2) : Bool := 16 * lb.toNat + 16 ≤ max width 16
/-- The lane that owns a row. -/
def rowOwner (width : Nat) (lb : BitVec 2) (r : Nat) : Nat := if width == 8 then r % 8 else 16 * lb.toNat + r
/-- The rows whose owner executes. -/
def selRows (width : Nat) (lb : BitVec 2) (m : BitVec 64) : List Nat := (List.range 16).filter fun r => m.getLsbD (rowOwner width lb r)
def rowMask (rows : List Nat) : BitVec 16 := (maskOf rows).setWidth 16
def Op.rowList (o : Op) : List Nat := (List.range 16).filter fun r => o.rows.getLsbD r
/-- The key of a word of a tile. -/
def tileKey (bid t r c : Nat) : Nat := (bid * 128 + t) * 512 + 32 * r + c
def State.tile (s : State) (bid t r c : Nat) : BitVec 32 := Tab.tiles.val 0 (tileKey bid t r c) s
/-- Write a word of a tile as a good word.
[DEDUCED, log 59] -/
def wrTile (bid t r c : Nat) (v : BitVec 32) : Act := .seq (.put .tiles (tileKey bid t r c) v) (.put .tpoison (tileKey bid t r c) false)

def isTileOp (i : Instr) : Bool := !(tileNames i).isEmpty
def Op.tile (o : Op) : Nat := (tileNames o.instr).headD 0
/-- Whether a TDRAIN has its snapshot, so that its tile is free for later instructions. -/
def Op.freed (o : Op) : Bool := match o.instr with | .tdrain _ => !o.snap.isEmpty | _ => false
/-- Whether it is an operation's turn in the tile order of its block (R255, R265). -/
def tileTurn (s : State) (id : Nat) (o : Op) : Bool :=
  s.ops.all fun e => e.2.bid != o.bid || id ≤ e.1 || !isTileOp e.2.instr || e.2.phase == .done ||
    (e.2.phase != .failed && (e.2.tile != o.tile || e.2.freed))

/-- A tile instruction that another one keeps from beginning for as long as its block stops: a failed one (R265), or one on its tile that is
parked, that waits for what becomes of its block, or that the stop has caught (R266). -/
def State.tileStuck (s : State) (id : Nat) (o : Op) : Bool :=
  isTileOp o.instr && s.ops.any fun e => e.1 < id && e.2.bid == o.bid && isTileOp e.2.instr && (e.2.phase == .failed ||
    (e.2.tile == o.tile && (e.2.phase == .parked || e.2.phase == .waiting || (e.2.phase != .done && s.frozen e.2.gid))))
/-- Whether every outstanding producer of a split has completed or parked (R43), or is a TRD that a stop takes before it begins (R266). -/
def State.outsSettled (s : State) (y : Split) : Bool :=
  y.outs.all fun o => match Tab.ops.at o.op s with
    | some x => x.phase.settled || s.tileStuck o.op x
    | none => true
/-- Whether no producer of a split that stands still runs any more (R43). -/
def State.outsQuiet (s : State) (g : Nat) : Bool :=
  (s.splitsOf g).all fun n => match s.split? g n with | some x => !x.wait.long || s.outsSettled x | none => true

/-- Poisoned words of a tile are consumed: the operation waits for what becomes of its block (R273, R402). -/
def consumeTile (id : Nat) (o : Op) : Act := .seq (.put .ops id { o with phase := .waiting }) (.due [.rollback o.bid])

/-! ## TRD, TWR, TZERO (R267, R268) -/

/-- The executing lanes of TRD and TWR with the rows that they own. -/
def laneRows (width : Nat) (lb : BitVec 2) (hi : Bool) (m : BitVec 64) : List (Nat × Nat) :=
  (lanesOf width m).filterMap fun l =>
    if width == 8 then some (l, l + 8 * b2n hi)
    else if 16 * lb.toNat ≤ l && l < 16 * lb.toNat + 16 then some (l, l - 16 * lb.toNat) else none

/-- The checks of a tile register instruction that depend on the group, and its operation. -/
def moveForm (i : Instr) (f : TForm) (s : State) : Host.Outcome State Fault Refusal :=
  issue i (fun c =>
    if !lbOk c.lau.width f.lb || (f.hi && c.lau.width != 8) then c.trap 0x02 0
    else c.checked (laneNames i) (tileNames i) (.read fun s =>
      let m := c.execMask s f.head
      let lr := laneRows c.lau.width f.lb f.hi m
      let rows := selRows c.lau.width f.lb m
      let o := { c.op s i none with exec := m, rows := rowMask rows }
      match i with
      | .trd _ =>
        if lr.isEmpty then c.advance
        else .fresh fun id => .all
          [ .put .ops id { o with dest := some (f.vd.toNat, 2 ^ f.n.toNat) }, c.advance, c.count 0, c.produce id f.head.la,
            .due [.producerComplete id] ]
      | .twr _ =>
        if lr.isEmpty then c.advance
        else
          let vals := lr.flatMap fun e => (List.range (2 ^ f.n.toNat)).map fun k =>
            ({ reg := 32 * e.2 + f.col.toNat + k, lane := e.1, val := s.vreg c.gid (f.va.toNat + k) e.1 } : RegVal)
          .fresh fun id => .all [ .put .ops id { o with results := vals }, c.advance, c.count 0, .due [.producerComplete id] ]
      | _ =>
        if rows.isEmpty then c.advance
        else .fresh fun id => .all [ .put .ops id o, c.advance, c.count 0, .due [.producerComplete id] ])) s

def execTrd (f : TForm) (s : State) : Host.Outcome State Fault Refusal := moveForm (.trd f) f s
def execTwr (f : TForm) (s : State) : Host.Outcome State Fault Refusal := moveForm (.twr f) f s
def execTzero (f : TForm) (s : State) : Host.Outcome State Fault Refusal := moveForm (.tzero f) f s

/-- A tile register instruction at its turn (R255, R268).
[DEDUCED, log 59] -/
def moveTile (id : Nat) (o : Op) : Act := .read fun s =>
  if s.stale (.core (coreOf o.gid)) o.ctx o.inc then .del .ops id
  else if !tileTurn s id o then .due [.producerComplete id]
  else match o.instr with
  | .trd f =>
    let width := match s.launchOf o.gid with | some l => l.width | none => 0
    let words := (laneRows width f.lb f.hi o.exec).flatMap fun e => (List.range (2 ^ f.n.toNat)).map fun k => (e.1, e.2, k)
    if words.any fun w => Tab.tpoison.val false (tileKey o.bid o.tile w.2.1 (f.col.toNat + w.2.2)) s then consumeTile id o
    else .seq (.each words fun w => wrV o.gid (f.vd.toNat + w.2.2) w.1 (s.tile o.bid o.tile w.2.1 (f.col.toNat + w.2.2))) (endOp id)
  | .twr _ => .seq (.each o.results fun r => wrTile o.bid o.tile (r.reg / 32) (r.reg % 32) r.val) (endOp id)
  | _ => .seq (.each o.rowList fun r => .each (List.range 32) fun k => wrTile o.bid o.tile r k 0) (endOp id)

/-- PRODUCER_COMPLETE (R40): a producer writes its destination; a tile register instruction comes to its turn. -/
def execProducerComplete (op : Nat) (s : State) : Host.Outcome State Fault Refusal :=
  .next (Act.run (match Tab.ops.at op s with
    | some o => if isTileOp o.instr then (if o.phase == .running then moveTile op o else .skip) else completeProducer op
    | none => .skip) s)

/-! ## MMA: shape and formats (R256 to R258) -/

structure Mma where
  af : Nat
  bf : Nat
  as : Bool
  bs : Bool
  acc : Nat
  fmt : Nat
  k : Nat
  ap : Nat
  astr : Nat
  aoff : Nat
  bp : Nat
  bstr : Nat
  boff : Nat
  soff : Nat

def Mma.make (w : Shape) (fmt : BitVec 32) : Mma :=
  let n := fmt.toNat
  { af := fld n 0 4, bf := fld n 4 4, as := bitAt n 8, bs := bitAt n 9, acc := fld n 10 2, fmt := n, k := fld w.w2.toNat 0 10,
    ap := fld w.w0.toNat 25 6, astr := fld w.w0.toNat 23 2, aoff := fld w.w0.toNat 0 23,
    bp := fld w.w1.toNat 25 6, bstr := fld w.w1.toNat 23 2, boff := fld w.w1.toNat 0 23, soff := fld w.w3.toNat 0 23 }

def isIntCode (c : Nat) : Bool := c ≤ 3 || c == 7
/-- Reserved bits and values of the shape, and a K beyond 384 bytes. -/
def Mma.shapeBad (m : Mma) (w : Shape) : Bool :=
  w.w0.getLsbD 31 || w.w1.getLsbD 31 || w.w2.extractLsb' 10 22 != 0 || w.w3.extractLsb' 23 9 != 0 || m.astr == 3 || m.bstr == 3 ||
  m.ap == 0 || m.bp == 0 || m.k == 0 || (m.soff != 0 && !m.as && !m.bs) ||
  (m.af < 10 && m.bf < 10 && 3072 < m.k * max (codeBits m.af) (codeBits m.bf))
def Mma.misaligned (m : Mma) : Bool :=
  (8 ≤ m.af && m.af < 10 && m.aoff % 2 != 0) || (8 ≤ m.bf && m.bf < 10 && m.boff % 2 != 0) || m.soff % 4 != 0
def Mma.formatsBad (m : Mma) : Bool :=
  10 ≤ m.af || 10 ≤ m.bf || isIntCode m.af != isIntCode m.bf ||
  (m.acc != 0 && (!isIntCode m.af || !isIntCode m.bf || m.as || m.bs))
/-- Blocks of 32 K-elements. -/
def Mma.nb (m : Mma) : Nat := (m.k + 31) / 32

/-- Where element `k` of row or column `i` of an operand stands, in bits from the start of the window. -/
def elemBit (code pitch str off i k : Nat) : Nat := 8 * (off + 64 * pitch * i) + k * 2 ^ str * codeBits code
def winElem (s : State) (t code pitch str off i k : Nat) : Nat :=
  let p := elemBit code pitch str off i k
  fld (s.winNat t (p / 8) (if codeBits code == 16 then 2 else 1)) (p % 8) (codeBits code)
/-- The bytes that a row or column reads, as offset and length. -/
def elemSpans (code pitch str off i n : Nat) : List (Nat × Nat) :=
  let at_ (k : Nat) : Nat := elemBit code pitch str off i k / 8
  let w := if codeBits code == 16 then 2 else 1
  if str == 0 then [(at_ 0, at_ (n - 1) + w - at_ 0)] else (List.range n).map fun k => (at_ k, w)
/-- Where the scale record of a row of A, or a column of B, for a block stands (R258). -/
def Mma.scaleA (m : Mma) (r j : Nat) : Nat := m.soff + 4 * (m.nb * r + j)
def Mma.scaleB (m : Mma) (c j : Nat) : Nat := m.soff + 4 * (16 * m.nb * b2n m.as + m.nb * c + j)

/-- The parts that an MMA reads: size code and bytes.
[DEDUCED, log 58] -/
def Mma.parts (m : Mma) (rows : List Nat) : List (Nat × List (Nat × Nat)) :=
  [ (0x28, rows.flatMap fun r => elemSpans m.af m.ap m.astr m.aoff r m.k),
    (0x29, (List.range 32).flatMap fun c => elemSpans m.bf m.bp m.bstr m.boff c m.k),
    (0x2A, (if m.as then rows.map fun r => (m.scaleA r 0, 4 * m.nb) else []) ++
           (if m.bs then (List.range 32).map fun c => (m.scaleB c 0, 4 * m.nb) else [])) ]

def minOpt (xs : List Nat) : Option Nat := xs.foldl (fun a x => match a with | some y => some (min x y) | none => some x) none
/-- The lowest byte of a part that lies at `limit` or beyond. -/
def spansOut (limit : Nat) (xs : List (Nat × Nat)) : Option Nat :=
  minOpt ((xs.filter fun x => limit < x.1 + x.2).map fun x => max x.1 limit)
/-- The sectors of spans, ascending, with the words that they touch. -/
def spanSectors (xs : List (Nat × Nat)) : List (Nat × BitVec 8) :=
  let secs := sortNat (dedup (xs.flatMap fun x => (List.range ((x.1 + x.2 - 1) / 32 - x.1 / 32 + 1)).map fun k => x.1 / 32 + k))
  secs.map fun v => (v, xs.foldl (fun m x =>
    let lo := max x.1 (v * 32)
    let hi := min (x.1 + x.2) (v * 32 + 32)
    if lo < hi then m ||| wordMask (lo - v * 32) (hi - lo) else m) 0)

/-- The record of a tile instruction (R265). -/
def tileBlame (cause : BitVec 8) (write add : Bool) (lane size va : Nat) : Blame :=
  { kind := 3, cause := cause, write := write, cls := (if add then Cls.add else Cls.data).code.toNat, lane := lane, size := size, va := va,
    oslot := 0xFFFF, ocls := 0, ostamp := 0 }

/-! ## Self-test (R273, R274) -/

/-- Before the first operation after a block starts, after every 256, and at least every 100 µs while the engine is busy, each sub-array is
tested; `n` counts the operation that begins, 0 between the blocks of one.
[DESIGN CHOICE, log 60] -/
def testArrays (core n : Nat) : Act := .read fun s =>
  let k := s.core core
  if 256 ≤ k.sinceTest || k.testAt + 100 ≤ s.us then
    .seq (.put .cores core { k with sinceTest := n, testAt := s.us })
      (.due (((List.range 8).filter fun n => !k.fenced.getLsbD n).map fun n => .selfTestInjection core n true))
  else .put .cores core { k with sinceTest := k.sinceTest + n }

/-- The sub-array that computes a group of four columns: its own, or, when that is fenced, a working one, which the spec does not name.
[DESIGN CHOICE, log 60] -/
def CoreRec.computes (k : CoreRec) (core group : Nat) : Nat :=
  let works := (List.range 8).filter fun n => !k.fenced.getLsbD n
  if k.fenced.getLsbD group then (works[Config.standIn core k.fenced group % works.length]?).getD group else group
/-- Who has computed the columns of a row, as bits by sub-array and group of columns. -/
def CoreRec.wrote (k : CoreRec) (core : Nat) : BitVec 64 := maskOf ((List.range 8).map fun c => 8 * k.computes core c + c)

/-- SELF_TEST_INJECTION (R273, R274): a passing sub-array vouches for what it has written; a failing one is fenced, its words since its last
passing injection are poisoned, and a core with none left is drained from service.
[DESIGN CHOICE, log 60] -/
def execSelfTestInjection (core sub : Nat) (pass : Bool) (s : State) : Host.Outcome State Fault Refusal :=
  .next (Act.run (
    let k := s.core core
    let of_ (m : BitVec 64) : Nat := fld m.toNat (8 * sub) 8
    let mine := s.tsince.filter fun e => (match s.block? (e.1 / 2048) with | some b => b.core == core | none => false) && of_ e.2 != 0
    let unmark : Act := .each mine fun e => .updD .tsince 0 e.1 fun m => m &&& ~~~(BitVec.ofNat 64 (255 * 2 ^ (8 * sub)))
    if 8 ≤ sub || k.fenced.getLsbD sub then .skip
    else if pass then .seq unmark (.put .cores core { k with tests := k.tests + 1 })
    else
      let fenced := k.fenced ||| BitVec.ofNat 8 (2 ^ sub)
      .all [ .each mine fun e => .each ((List.range 8).filter (bitAt (of_ e.2))) fun n => .each (List.range 4) fun c =>
               .put .tpoison (e.1 / 16 * 512 + 32 * (e.1 % 16) + 4 * n + c) true,
             unmark,
             .put .cores core { k with fenced := fenced, rate := k.rate - 1, service := k.service && fenced != 0xFF },
             postRas (Ras.unitOf 10 11 core 0) ]) s)

/-! ## MMA: issue and checks (R256 to R259) -/

/-- Check the window sectors of a tile instruction; a failure ends it, at the part that the sector belongs to (R259, R265). A request whose tag
is stale at the Gallery control is dropped (R122).
[DEDUCED, log 56; DEDUCED, log 58] -/
def checkParts (id : Nat) (o : Op) (tid : Nat) (p : GParty) (cls : BitVec 3) (parts : List (Nat × List (Nat × Nat))) (write : Bool)
    (lane : Nat) (k : Act) : Act := .read fun s =>
  let cl := match s.team? tid with | some t => t.cluster | none => 0
  let r := gCheckAll cl tid p cls (spanSectors (parts.flatMap (·.2))) s
  if s.stale (.gallery cl) o.ctx o.inc then .skip
  else .seq r.1 (.read fun s => match gWorst r.2 with
    | none => k
    | some f =>
      let inSec (x : Nat × Nat) : Bool :=
        (spanSectors [x]).any fun e => e.1 == f.sector && (e.2 &&& f.words) != 0
      let part := parts.find? fun q => q.2.any inSec
      let va := match part with
        | some q => (minOpt ((q.2.filter inSec).map fun x => max x.1 (f.sector * 32))).getD 0
        | none => 0
      let oth := s.gOther tid f.other
      failWindow id o { tileBlame f.cause write (cls == mcAdd) lane (match part with | some q => q.1 | none => 0) va with
        oslot := oth.1, ocls := oth.2.1, ostamp := oth.2.2 } p.stamp)

/-- The first scale record of an MMA with a wrong TAG or reserved bits set (R231, R259). -/
def Mma.badScale (s : State) (t : Nat) (m : Mma) (rows : List Nat) : Option Nat :=
  let js := List.range m.nb
  let a := if m.as then rows.flatMap fun r => js.map fun j => (m.scaleA r j, m.af) else []
  let b := if m.bs then (List.range 32).flatMap fun c => js.map fun j => (m.scaleB c j, m.bf) else []
  ((a ++ b).find? fun e => !scaleOk (s.winNat t e.1 4) e.2).map (·.1)

def State.opWidth (s : State) (o : Op) : Nat := match s.launchOf o.gid with | some l => l.width | none => 0
/-- The lane that a tile instruction's record names: the owner of its lowest selected row. -/
def tileLane (s : State) (o : Op) (lb : BitVec 2) : Nat := rowOwner (s.opWidth o) lb ((o.rowList.head?).getD 0)

/-- The checks that precede the first block (R259): every sector, then every scale record.
[DEDUCED, log 58] -/
def mmaCheck (id : Nat) : Act := .read fun s =>
  match Tab.ops.at id s with
  | none => .skip
  | some o =>
    match o.instr with
    | .mma f =>
      let m := Mma.make o.shape o.fmt
      let t := s.opTeam o
      let lane := tileLane s o f.lb
      checkParts id o t (opGparty s o t) mcRead (m.parts o.rowList) false lane (.read fun s =>
        match m.badScale s t o.rowList with
        | some va => failEngine id o (tileBlame 0x33 false false lane 0x2A va) 0
        | none => .all
          [ .put .ops id { o with phase := .running }, .due [.mmaBlock id],
            watchGallery o.gid (some id) t .read ((m.parts o.rowList).flatMap fun q => q.2.map fun x => { lane := q.1, va := x.1, n := x.2 })
              fun size va => engineRecord s o (tileBlame 0x51 false false lane size va) ])
    | _ => .skip

def execMma (f : MmaForm) (s : State) : Host.Outcome State Fault Refusal :=
  issue (.mma f) (fun c => .read fun s =>
    let w := s.shape c.gid f.shape
    let m := Mma.make w c.sp.fmt
    let rows := selRows c.lau.width f.lb (c.execMask s f.head)
    if !lbOk c.lau.width f.lb || m.shapeBad w then c.trap 0x02 0
    else c.checked [] (tileNames (.mma f)) (
      if m.misaligned then c.trap 0x16 0
      else if m.formatsBad then c.trap 0x32 0
      else if rows.isEmpty then c.advance
      else
        let lane := rowOwner c.lau.width f.lb ((rows.head?).getD 0)
        match (m.parts rows).findSome? fun q => (spansOut (s.wsz c.tid) q.2).map fun va => (q.1, va) with
        | some (size, va) => c.trapWith (tileBlame 0x15 false false lane size va) (taskWords c.grp) 0 0
        | none =>
          let spans := (m.parts rows).flatMap (·.2)
          let o := { c.op s (.mma f) (some 4) with
            phase := .checking, shape := w, rows := rowMask rows,
            lanes := spans.map fun x => ({ lane := 0, va := x.1, b := x.2, c := 0 } : LaneAcc) }
          if 63 ≤ s.counter c.gid 4 then c.stall (.counter 4)
          else c.winOrdered o (.fresh fun id => .all
            [ .put .ops id o, c.advance, c.count 0, .due [.mmaBlock id] ]))) s

/-! ## MMA: the summation (R260 to R262) -/

/-- A product of two elements and whether it is invalid (R262). -/
def mulExact (x y : FV) : FV × Bool :=
  if x.isNan || y.isNan then (.nan false true 0, x.isSNan || y.isSNan)
  else
    let s := x.sign != y.sign
    match x, y with
    | .fin _ m1 e1, .fin _ m2 e2 => (.fin s (m1 * m2) (e1 + e2), false)
    | _, _ => if x.isZero || y.isZero then (.nan false true 0, true) else (.inf s, false)

/-- ⌊log2⌋ of a finite nonzero value. -/
def FV.log2? : FV → Option Int
  | .fin _ m e => if m == 0 then none else some (Int.ofNat (Nat.log2 m) + e)
  | _ => none
/-- Truncation toward zero to a multiple of 2^u (R261). -/
def FV.truncTo (u : Int) : FV → FV
  | .fin s m e => if e < u then .fin s (m / 2 ^ (u - e).toNat) u else .fin s m e
  | v => v
/-- The 96-bit window of BF16: products truncated 90 places below the largest (R261). -/
def windowed (xs : List FV) : List FV :=
  match xs.filterMap FV.log2? with
  | [] => xs
  | l :: ls => let top := ls.foldl max l; xs.map (FV.truncTo (top - 90))

/-- The exact sum of products, with NV (R260, R262). -/
def sumExact (xs : List (FV × Bool)) (bf : Bool) : FV × Bool :=
  let vs := xs.map (·.1)
  let pos := vs.any fun v => v.isInf && !v.sign
  let neg := vs.any fun v => v.isInf && v.sign
  let nv := (xs.any (·.2)) || (pos && neg)
  if (vs.any FV.isNan) || (pos && neg) then (.nan false true 0, nv)
  else if pos || neg then (.inf neg, nv)
  else
    let t := (if bf then windowed vs else vs).foldl (fun (a : Bool × Nat × Int) v => match v with
      | .fin s m e => if m == 0 then a else if a.2.1 == 0 then (s, m, e) else sumFin a.1 a.2.1 a.2.2 s m e
      | _ => a) (false, 0, 0)
    (.fin t.1 t.2.1 t.2.2, nv)

/-- An integer element; SP2 times 64 (R260). -/
def codeInt (c w : Nat) : Int :=
  match c with
  | 0 => sext 8 w | 1 => Int.ofNat (w % 256) | 2 => sext 4 w | 3 => Int.ofNat (w % 16) | _ => sp2Times64 w

/-- The block value rounded to fp32 after the scales, as bits and flags (R260). -/
def roundBlock (fo : Bool) (ma : Nat) (ea : Int) (mb : Nat) (eb : Int) (v : FV) : FRes :=
  match v with
  | .nan _ _ _ => (fp32.dnan, 0)
  | .inf s => (fp32.infBits s, 0)
  | .fin s m e => fp32.finishZ fo .rne false s (m * ma * mb) (e + ea + eb)

/-- The new accumulator word of one block under FP32, with NV and OF. -/
def accF (fo : Bool) (old : FV) (v : FRes) (nv : Bool) : FRes :=
  let x := fp32.value v.1
  let f := (if nv then fNV else 0) ||| (if bitAt v.2 2 then fOF else 0)
  if x.isNan || old.isNan then (fp32.dnan, f)
  else
    let r := addF fp32 fo .rne old x
    ((if (fp32.value r.1).isNan then fp32.dnan else r.1), f ||| (r.2 % 2) ||| (if bitAt r.2 2 then fOF else 0))

/-- A scale record's factors; 1 for an operand without records. -/
def scaleOf (s : State) (t : Nat) (on : Bool) (addr : Nat) : Nat × Int :=
  if on then let r := s.winNat t addr 4; (scaleM r, scaleE r) else (1, 0)

/-- Block `j` of an MMA on one word of its tile (R260).
[DEDUCED, log 59] -/
def Mma.word (s : State) (m : Mma) (f : MmaForm) (t : Nat) (r c j : Nat) (old : BitVec 32) : BitVec 32 × Nat :=
  let ks := (List.range (min 32 (m.k - 32 * j))).map (· + 32 * j)
  let a (k : Nat) : Nat := winElem s t m.af m.ap m.astr m.aoff r k
  let b (k : Nat) : Nat := winElem s t m.bf m.bp m.bstr m.boff c k
  let neg := f.nega != f.negb
  let fresh := j == 0 && f.noacc
  if m.acc == 0 then
    let sum := sumExact (ks.map fun k => mulExact (readCode m.af m.fmt (a k)) (readCode m.bf m.fmt (b k))) (m.af == 9 || m.bf == 9)
    let v := if neg then sum.1.neg else sum.1
    let sa := scaleOf s t m.as (m.scaleA r j)
    let sb := scaleOf s t m.bs (m.scaleB c j)
    let fo := flushOut fp32 m.fmt
    let x := accF fo (if fresh then .fin false 0 0 else readF fp32 m.fmt false false old.toNat) (roundBlock fo sa.1 sa.2 sb.1 sb.2 v) sum.2
    (BitVec.ofNat 32 x.1, x.2)
  else
    let sum := (ks.map fun k => codeInt m.af (a k) * codeInt m.bf (b k)).foldl (· + ·) 0
    let v := (if fresh then 0 else old.toInt) + (if neg then -sum else sum)
    (BitVec.ofInt 32 (if m.acc == 2 then max (-(2 ^ 31)) (min (2 ^ 31 - 1) v) else v), 0)

/-- MMA_BLOCK (R255, R259, R260): at its turn in the tile order the MMA checks its operands; then the engine accumulates one block of K, and
the MMA ends with its last. -/
def mmaStep (id : Nat) : Act := .read fun s =>
  match Tab.ops.at id s with
  | none => .skip
  | some o =>
    match o.instr with
    | .mma f =>
      let m := Mma.make o.shape o.fmt
      let t := s.opTeam o
      if s.stale (.core (coreOf o.gid)) o.ctx o.inc then .del .ops id
      else if s.frozen o.gid then .skip
      else if o.phase == .checking then
        (if tileTurn s id o then .seq (testArrays (coreOf o.gid) 1) (mmaCheck id) else .due [.mmaBlock id])
      else if o.phase != .running then .skip
      else
        let words := o.rowList.flatMap fun r => (List.range 32).map fun c => (r, c, m.word s f t r c o.prog (s.tile o.bid o.tile r c))
        let flags := words.foldl (fun a w => a ||| w.2.2.2) 0
        let o' := { o with prog := o.prog + 1, flags := o.flags ||| BitVec.ofNat 6 flags }
        .all [ .when (o.prog != 0) (testArrays (coreOf o.gid) 0),
               .each words fun w => .seq (.put .tiles (tileKey o.bid o.tile w.1 w.2.1) w.2.2.1)
                 (.when (o.prog == 0 && f.noacc) (.put .tpoison (tileKey o.bid o.tile w.1 w.2.1) false)),
               .each o.rowList fun r => .updD .tsince 0 ((o.bid * 128 + o.tile) * 16 + r) fun x => x ||| (s.core (coreOf o.gid)).wrote (coreOf o.gid),
               .put .ops id o',
               if m.nb ≤ o'.prog then .seq (orFlags o.gid o'.flags) (endOp id) else .due [.mmaBlock id] ]
    | _ => .skip
def execMmaBlock (op : Nat) (s : State) : Host.Outcome State Fault Refusal := .next ((mmaStep op).run s)

/-! ## TLOAD and TDRAIN: shape and checks at issue (R269, R270) -/

/-- The side of a tile transfer: its record, offset, pitch and bytes per row. -/
structure Xfer where
  buf : Buf
  off : Nat
  pitch : Nat
  len : Nat
  es : Nat

/-- Bytes per element that TDRAIN writes. -/
def XferForm.es (f : XferForm) : Nat :=
  match f.mode.toNat with
  | 1 => if f.cvt == 8 || f.cvt == 9 then 2 else 1
  | 3 => 8
  | _ => 4
def cvtOk (c : BitVec 4) : Bool := c == 0 || c == 1 || c == 4 || c == 5 || c == 8 || c == 9

def Xfer.make (f : XferForm) (drain : Bool) (w : Shape) (rec : BitVec 128) : Xfer :=
  let len := fld w.w2.toNat 0 16
  let p := if drain then fld w.w3.toNat 15 16 else fld w.w3.toNat 0 15
  { buf := Buf.of rec, off := fld (if drain then w.w1 else w.w0).toNat 0 31, pitch := if p == 0 then len else 16 * p, len := len,
    es := XferForm.es f }
/-- What the shape may not hold. -/
def Xfer.shapeBad (x : Xfer) (f : XferForm) (drain : Bool) (w : Shape) : Bool :=
  shapeTop w || fld w.w2.toNat 16 15 != 15 || x.pitch < x.len || (!f.mem && 2 ^ 23 ≤ x.off) ||
  (if drain then fld w.w0.toNat 0 31 != 0 || fld w.w3.toNat 0 15 != 0 || ((f.mode != 1 || cvtOk f.cvt) && x.len != 32 * x.es) ||
      x.len == 0
   else fld w.w1.toNat 0 31 != 0 || fld w.w3.toNat 15 16 != 0 || x.len != 128)

/-- The offset of a row's first byte. -/
def Xfer.row (x : Xfer) (r : Nat) : Nat := x.off + r * x.pitch
/-- Where byte `i` of a row stands: a virtual address or a window offset. -/
def Xfer.at_ (x : Xfer) (f : XferForm) (r i : Nat) : Nat := if f.mem then sideVa x.buf (x.row r + i) else x.row r + i
def Xfer.bytesOf (x : Xfer) (f : XferForm) (rows : List Nat) : List Nat :=
  rows.flatMap fun r => (List.range x.len).map fun i => x.at_ f r i
def XferForm.adds (f : XferForm) : Bool := f.mode == 2 || f.mode == 3
/-- The size code of a transfer's memory or Gallery side (R265). -/
def XferForm.sizeCode (f : XferForm) (drain : Bool) : Nat := if !f.mem then 0x2B else if drain then 0x30 else 0x31

def xferForm? (i : Instr) : Option (XferForm × Bool) :=
  match i with | .tload f => some (f, false) | .tdrain f => some (f, true) | _ => none
/-- The transfer that an operation performs. -/
def xferOf (o : Op) : Option (XferForm × Bool × Xfer) := (xferForm? o.instr).map fun e => (e.1, e.2, Xfer.make e.1 e.2 o.shape o.brec)

/-- The checks of a transfer in the order of R366, after those of R54, for the selected rows. -/
def xferStop (s : State) (tid : Nat) (fmt : BitVec 32) (f : XferForm) (drain : Bool) (x : Xfer) (rows : List Nat) :
    Option (BitVec 8 × Option Nat) :=
  let plainAdd := drain && f.mode == 2 && !f.ti
  if f.mem && !x.buf.valid then some (0x02, none)
  else if drain && f.mode == 3 && !x.buf.fx then some (0x02, none)
  else if plainAdd && f.mem && x.buf.fx then some (0x02, none)
  else if drain && f.mem && x.buf.ro then some (0x13, none)
  else if (f.mem && !unitsOk x.buf x.off x.len x.pitch) || (drain && XferForm.adds f && (x.off % x.es != 0 || x.pitch % x.es != 0)) then
    some (0x16, none)
  else if plainAdd && fmt.getLsbD 22 then some (0x31, none)
  else if drain && f.mode == 1 && !cvtOk f.cvt then some (0x32, none)
  else
    let limit := if f.mem then x.buf.extent else s.wsz tid
    (rows.find? fun r => limit < x.row r + x.len).map fun r =>
      let o := max (x.row r) limit
      (if f.mem then 0x12 else 0x15, some (if f.mem then sideVa x.buf o else o))

/-- TLOAD and TDRAIN at issue. `k` starts the operation that it is given. -/
def xferForm (i : Instr) (f : XferForm) (drain : Bool) (k : Iss → Op → Act) (s : State) : Host.Outcome State Fault Refusal :=
  issue i (fun c => .read fun s =>
    let w := s.shape c.gid f.shape
    let rec_ := if f.mem then s.breg c.gid f.buf.toNat else 0
    let x := Xfer.make f drain w rec_
    let rows := selRows c.lau.width f.lb (c.execMask s f.head)
    if !lbOk c.lau.width f.lb || x.shapeBad f drain w then c.trap 0x02 0
    else c.checked [] (tileNames i) (
      if rows.isEmpty then c.advance
      else match xferStop s c.tid c.sp.fmt f drain x rows with
      | some (cause, none) => c.trap cause 0
      | some (cause, some va) =>
        c.trapWith (tileBlame cause drain (drain && XferForm.adds f) (rowOwner c.lau.width f.lb ((rows.head?).getD 0))
          (XferForm.sizeCode f drain) va) (taskWords c.grp) 0 0
      | none =>
        if 63 ≤ s.counter c.gid 4 then c.stall (.counter 4)
        else
          let lanes : List LaneAcc := if drain then []
            else if f.mem then rows.flatMap fun r => (List.range 32).map fun n => { lane := r, va := x.at_ f r (4 * n), b := 0, c := 0 }
            else rows.map fun r => { lane := r, va := x.row r, b := x.len, c := 0 }
          k c { c.op s i (some 4) with
            shape := w, brec := rec_, rows := rowMask rows, lanes := lanes, exec := maskOf rows, unf := maskOf rows })) s

/-! ## TLOAD (R271) -/

/-- The reads of a TLOAD, under its group's slot: from memory as `.nc` reads through the filter, or at the banks. -/
def tloadRead (id : Nat) : Act := .read fun s =>
  match Tab.ops.at id s with
  | none => .skip
  | some o =>
    match xferOf o with
    | none => .skip
    | some (f, _, x) =>
      let rows := o.rowList
      let lane := tileLane s o f.lb
      let core := coreOf o.gid
      let t := s.opTeam o
      let size := XferForm.sizeCode f false
      let bad (cause : BitVec 8) (va : Nat) : Blame := tileBlame cause false false lane size va
      let take (vals : List (Nat × List Byte)) : Act :=
        let words := (List.range 512).map fun n => match vals.find? fun e => e.1 == n / 32 with
          | some e => word (natOfBytes ((e.2.drop (4 * (n % 32))).take 4))
          | none => 0
        .seq (.put .ops id { o with phase := .running, snap := words, unf := 0, lines := [], fail := none }) (.due [.tloadComplete id])
      if !f.mem then
        checkParts id o t (opGparty s o t) mcRead [(size, rows.map fun r => (x.row r, x.len))] false lane (.read fun s =>
          .seq (watchGallery o.gid (some id) t .read (rows.map fun r => { lane := lane, va := x.row r, n := x.len })
              fun _ va => engineRecord s o (bad 0x51 va))
            (take (rows.map fun r => (r, s.winBytes t (x.row r) x.len))))
      else
        let vas := x.bytesOf f rows
        match probeBytes s o.ctx core .load .load vas with
        | .park va cause m => parkEngine id (bad cause va) m
        | .fail va cause => failEngine id o (bad cause va) 0
        | .ok =>
          let pas := vas.map (s.phys o.ctx)
          let secs := (sectorsOf pas).filter fun e => isHomed (e.1 * 32)
          if s.heldAt pas then .due [.tloadComplete id] else
          let need := if x.buf.ro then [] else secs.map fun e => (e.1, e.2 &&& ~~~(s.covered o.gid e.1 mcRead))
          checkMany (opParty s o) mcRead need [] fun fails => match worst fails with
            | some (sec, a) => failEngine id o (a.blame (bad 0 ((vas.find? fun v => s.phys o.ctx v / 32 == sec).getD 0))) a.origin
            | none => .read fun s =>
              if s.droppedAt o pas then .skip
              else if secs.any fun e => s.poisoned e.1 then consumeTile id o
              else
                let byte (va : Nat) : Byte :=
                  let pa := s.phys o.ctx va
                  if isHomed pa then sectorByte (s.pastL1 core (pa / 32)) (pa % 32) else s.outerByte pa
                .all [ fetchAll pas, .each need fun e => filterAdd o.gid e.1 mcRead e.2,
                       .when (pas.any fun p => !isHomed p) (escape o.gid),
                       watchDie o.gid (some id) (dieOf core) o.ctx .read (vas.map fun v => { lane := lane, va := v, n := 1 })
                         (fun _ va => engineRecord s o (bad 0x51 va)),
                       take (rows.map fun r => (r, (List.range x.len).map fun i => byte (x.at_ f r i))) ]

def execTload (f : XferForm) (s : State) : Host.Outcome State Fault Refusal :=
  xferForm (.tload f) f false (fun c o =>
    let go : Act := .fresh fun id => .all [ .put .ops id o, c.advance, c.count 0, .due [.tloadComplete id] ]
    c.afterSync (if f.mem then c.ordered o go else c.winOrdered o go)) s

/-- TLOAD_COMPLETE (R255, R271): at its turn in the tile order the TLOAD reads; then it writes its rows, as good words, and ends. -/
def tloadFinish (id : Nat) : Act := .read fun s =>
  match Tab.ops.at id s with
  | none => .skip
  | some o =>
    match o.instr with
    | .tload _ =>
      if s.stale (.core (coreOf o.gid)) o.ctx o.inc then .del .ops id
      else if o.phase != .running then .skip
      else if !tileTurn s id o then .due [.tloadComplete id]
      else if o.snap.isEmpty then tloadRead id
      else .seq (.each o.rowList fun r => .each (List.range 32) fun c => wrTile o.bid o.tile r c ((o.snap[32 * r + c]?).getD 0)) (endOp id)
    | _ => .skip
def execTloadComplete (op : Nat) (s : State) : Host.Outcome State Fault Refusal := .next ((tloadFinish op).run s)

/-! ## TDRAIN (R270, R272) -/

/-- Whether the additions of a drain are journaled (R423). -/
def XferForm.journaled (f : XferForm) : Bool := f.mode == 2 && !f.ti

def execTdrain (f : XferForm) (s : State) : Host.Outcome State Fault Refusal :=
  xferForm (.tdrain f) f true (fun c o => .fresh fun id => .all
    [ .put .ops id { o with unf := 0 }, c.advance, c.count (b2n (c.lau.journals && XferForm.journaled f)), .due [.tdrainSnapshot id] ]) s

/-- TDRAIN_SNAPSHOT (R272): at its turn the drain takes the selected rows. -/
def tdrainSnap (id : Nat) : Act := .read fun s =>
  match Tab.ops.at id s with
  | none => .skip
  | some o =>
    match o.instr with
    | .tdrain _ =>
      if s.stale (.core (coreOf o.gid)) o.ctx o.inc then .del .ops id
      else if o.phase != .running || !o.snap.isEmpty then .skip
      else if !tileTurn s id o then .due [.tdrainSnapshot id]
      else if o.rowList.any fun r => (List.range 32).any fun c => Tab.tpoison.val false (tileKey o.bid o.tile r c) s then consumeTile id o
      else .seq (.put .ops id { o with snap := (List.range 512).map fun n => s.tile o.bid o.tile (n / 32) (n % 32) })
        (.due [.tdrainComplete id])
    | _ => .skip
def execTdrainSnapshot (op : Nat) (s : State) : Host.Outcome State Fault Refusal := .next ((tdrainSnap op).run s)

/-- fp32 to an 8-bit integer, to FP16 or BF16, and to E4M3 or E5M2, and the same from i32 (R270). -/
def drainCvt (fmt : Nat) (ti : Bool) (cvt : Nat) (w : BitVec 32) : FRes :=
  let x := readF fp32 fmt false false w.toNat
  let small : ITy := if cvt == 0 then .i8x4 else .n8x4
  let wide := if cvt == 8 then fp16 else bf16
  if cvt < 2 then
    if ti then
      let v := max (ityMin small) (min (ityMax small) w.toInt)
      (wrap 8 v, if v == w.toInt then 0 else fNV)
    else cvtInt small .rne x
  else if cvt < 8 then cvtNarrow cvt true (flushOut (narrowFmt cvt) fmt) .rne (if ti then FV.ofInt w.toInt 0 else x)
  else if ti then intCvt wide (flushOut wide fmt) .rne .i32 w.toNat
  else
    let r := cvtWide wide (flushOut wide fmt) .rne x
    if !x.isInf && bitAt r.2 2 then (wide.maxBits x.sign, fOF + fNX) else r
/-- What a drain writes for one word, over the old value for its adding modes. -/
def drainValue (f : XferForm) (x : Xfer) (fmt : Nat) (old : Nat) (w : BitVec 32) : FRes :=
  match f.mode.toNat with
  | 0 => (w.toNat, 0)
  | 1 => drainCvt fmt f.ti f.cvt.toNat w
  | 2 => if f.ti then ((old + w.toNat) % 2 ^ 32, 0) else atomicNew 1 2 32 old w.toNat 0
  | 3 =>
    let q := toGrid fp32 fmt x.buf.fxe w.toNat
    let r := fixedAdd old q.1
    (r.1, q.2 ||| r.2)
  | _ => cvtInt .i32 .rne (readF fp32 fmt false false w.toNat)

/-- Write the elements of a drain, rows and columns ascending; the flags gather on the operation. -/
def drainWrite (id : Nat) (o : Op) (f : XferForm) (x : Xfer) (t : Nat) : Act :=
  .each o.rowList fun r => .each (List.range 32) fun c => .read fun s =>
    let w := (o.snap[32 * r + c]?).getD 0
    let flag (v : FRes) : Act := .when (v.2 != 0) (.upd .ops id fun o => { o with flags := o.flags ||| BitVec.ofNat 6 v.2 })
    if f.mem then
      let pas := (List.range x.es).map fun i => s.phys o.ctx (x.at_ f r (x.es * c + i))
      let v := drainValue f x o.fmt.toNat (if XferForm.adds f then natOfBytes (pas.map s.outerByte) else 0) w
      .seq (writeBytesAt (coreOf o.gid) (pas.zip (bytesOfNat x.es v.1))) (flag v)
    else
      let off := x.row r + x.es * c
      let v := drainValue f x o.fmt.toNat (if XferForm.adds f then s.winNat t off x.es else 0) w
      .seq (wrWin t off x.es v.1) (flag v)

/-- The first NaN word of a drain into a fixed-point record under TINV (R270).
[DEDUCED, log 61] -/
def drainNan (o : Op) (f : XferForm) : Option (Nat × Nat) :=
  if f.mode == 3 && o.fmt.getLsbD 23 then
    (o.rowList.flatMap fun r => (List.range 32).map fun c => (r, c)).find? fun e =>
      (readF fp32 o.fmt.toNat false false ((o.snap[32 * e.1 + e.2]?).getD 0).toNat).isNan
  else none

/-- What the journal says of the additions of a drain (R423, R425). -/
def drainJournal (s : State) (o : Op) (f : XferForm) (x : Xfer) : Act × BitVec 64 :=
  match s.blockOf o.gid, s.launchOf o.gid, s.group? o.gid with
  | some b, some l, some g =>
    if l.journals && XferForm.journaled f then
      journalLanes o b.lid l b.linear g.gidx (o.rowList.flatMap fun r => (List.range 32).map fun c =>
        (({ lane := c, va := x.at_ f r (x.es * c), b := 0, c := 0 } : LaneAcc), 0)) s
    else (.skip, 0)
  | _, _, _ => (.skip, 0)

/-- The checks and the writes of a drain that holds its engine slot (R272, steps 4 to 7). -/
def drainRun (id : Nat) : Act := .read fun s =>
  match Tab.ops.at id s with
  | none => .skip
  | some o =>
    match xferOf o with
    | none => .skip
    | some (f, _, x) =>
      let core := coreOf o.gid
      let t := s.opTeam o
      let add := XferForm.adds f
      let lane := tileLane s o f.lb
      let size := XferForm.sizeCode f true
      let cls : BitVec 3 := if add then mcAdd else mcWrite
      let touch : Touch := if add then .atomic else .write
      let bad (cause : BitVec 8) (va : Nat) : Blame := tileBlame cause true add lane size va
      let spans := o.rowList.map fun r => (x.row r, x.len)
      let done : Act := .all
        [ .when (add || f.rel) (escape o.gid),
          .read fun s => match Tab.ops.at id s with
            | some o => .all [ orFlags o.gid o.flags, endEngine o, endOp id ]
            | none => .skip ]
      match drainNan o f with
      | some (r, c) => failEngine id o (bad 0x30 (x.at_ f r (x.es * c))) 0
      | none =>
        if !f.mem then
          checkParts id o t (opGparty s o t) cls [(size, spans)] true lane (.read fun s =>
            let j := drainJournal s o f x
            if j.2 != 0 then .due [.tdrainComplete id] else .all
            [ j.1, noteRows o.bid t spans, drainWrite id o f x t,
              watchGallery o.gid (some id) t touch (spans.map fun e => { lane := lane, va := e.1, n := e.2 }) (fun _ va => engineRecord s o (bad 0x51 va)),
              done ])
        else
          let vas := x.bytesOf f o.rowList
          match probeBytes s o.ctx core (if add then .atomic else .store) (if add then .atomic else .store) vas with
          | .park va cause m => parkEngine id (bad cause va) m
          | .fail va cause => failEngine id o (bad cause va) 0
          | .ok =>
            let pas := vas.map (s.phys o.ctx)
            checkMany (opParty s o) cls (sectorsOf pas) [] fun fails => match worst fails with
              | some (sec, a) => failEngine id o (a.blame (bad 0 ((vas.find? fun v => s.phys o.ctx v / 32 == sec).getD 0))) a.origin
              | none => .read fun s =>
                let j := drainJournal s o f x
                if j.2 != 0 then .due [.tdrainComplete id] else .all
                [ j.1, drainWrite id o f x t, sentRemote o.gid pas, .when (pas.any fun p => !isHomed p) (escape o.gid),
                  watchDie o.gid (some id) (dieOf core) o.ctx touch (vas.map fun v => { lane := lane, va := v, n := 1 })
                    (fun _ va => engineRecord s o (bad 0x51 va)),
                  done ]

/-- TDRAIN_COMPLETE (R272): under the core's lowest free engine slot, which it waits for, the drain checks, writes every row and ends. A drain
with ACQ or REL needs nothing more: it reads no L1, and its writes are performed at their homes and banks when they are written.
[DEDUCED, log 61] -/
def tdrainFinish (id : Nat) : Act := .read fun s =>
  match Tab.ops.at id s with
  | none => .skip
  | some o =>
    match o.instr with
    | .tdrain _ =>
      if s.stale (.core (coreOf o.gid)) o.ctx o.inc then .del .ops id
      else if o.phase != .running || o.snap.isEmpty then .skip
      else if !o.regs.isEmpty then drainRun id
      else match s.freeEngine (coreOf o.gid) with
        | none => .due [.tdrainComplete id]
        | some sl =>
          if !s.mayTake o sl then .due [.scratchScan (clusterOf (coreOf o.gid)), .tdrainComplete id]
          else .all [ advanceSlot sl,
                      .read fun s => .put .ops id { o with slot := BitVec.ofNat 16 sl, stamp := s.stampOf sl, regs := [1] }, drainRun id ]
    | _ => .skip
def execTdrainComplete (op : Nat) (s : State) : Host.Outcome State Fault Refusal := .next ((tdrainFinish op).run s)

/-! ## Starting again (R265) -/

/-- A failed or parked tile instruction runs again: an MMA from its checks, a TLOAD from its reads, a TDRAIN from its snapshot, under a new
engine slot when it had failed. -/
def restartTile (id : Nat) : Act := .upd .ops id fun o =>
  match o.instr with
  | .mma _ => { o with phase := .checking, fail := none, lines := [] }
  | .tload _ => { o with phase := .running, fail := none, lines := [], snap := [], unf := maskOf o.rowList }
  | _ => { o with phase := .running, fail := none, lines := [], regs := if o.phase == .failed then [] else o.regs }
/-- The step that goes on with it. -/
def tileEvent (id : Nat) (o : Op) : Instr :=
  match o.instr with
  | .mma _ => .mmaBlock id
  | .tload _ => .tloadComplete id
  | .tdrain _ => if o.snap.isEmpty then .tdrainSnapshot id else .tdrainComplete id
  | _ => .producerComplete id

end Sys2Proof.Machine
end

