-- ==== Sys2Proof/Machine/Task.lean ====
section
/-! DEFINITION. Tasks, futures, locks, queues and helping (13_tasks_and_helping.md R301 to R331, 23_program_helping.md R451): task tables,
the access of a task object, waiting and helping, adoption and its return, and the task instructions. -/

namespace Sys2Proof.Machine

open Sys2Proof

/-! ## Handles and the task table (R301 to R303) -/

/-- No task. -/
def noTask : Nat := 0xFFFFFFFF
def handleGen (h : Nat) : Nat := h / 2 ^ 20
def handleIdx (h : Nat) : Nat := h % 2 ^ 20
/-- The handle of an entry under a generation. -/
def handleOf (gen i : Nat) : Nat := gen * 2 ^ 20 + i

/-- Entries of a context's task table; 0 when it is disabled. -/
def State.taskCap (s : State) (ctx : Nat) : Nat :=
  let n := (s.ctx ctx).ttsize.toNat
  if 10 ≤ n && n ≤ 20 then 2 ^ n else 0
def State.taskAddr (s : State) (ctx i : Nat) : Nat := (s.ctx ctx).ttbase.toNat + 64 * i

/-- A task table entry (R303); `blocker` is its 64-bit word. -/
structure TaskEnt where
  gen : Nat
  state : Nat
  entry : Nat
  code : Nat
  width : Nat
  args : List Nat
  future : Nat
  runner : Nat
  blocker : Nat
  core : Nat
  parent : Nat
  frame : Nat
  deriving DecidableEq, Repr

/-- The lanes of a width code (R303). -/
def lanesOfCode (w : Nat) : Nat := 8 * 2 ^ w

def State.taskEnt (s : State) (ctx i : Nat) : TaskEnt :=
  let a := s.taskAddr ctx i
  let w (o n : Nat) : Nat := s.homeNat (a + o) n
  { gen := fld (w 0 4) 20 12, state := fld (w 0 4) 0 4, entry := w 4 4, code := w 8 2, width := w 10 1 % 4,
    args := (List.range 4).map fun k => w (12 + 4 * k) 4, future := w 28 8 % 2 ^ 57, runner := w 36 4 % 65536, blocker := w 40 8,
    core := w 48 4 % 512, parent := w 52 4, frame := w 56 8 }

def TaskEnt.bytes (e : TaskEnt) : List Byte :=
  bytesOfNat 4 (e.gen * 2 ^ 20 + e.state) ++ bytesOfNat 4 e.entry ++ bytesOfNat 2 e.code ++ bytesOfNat 2 e.width ++
  e.args.flatMap (bytesOfNat 4) ++ bytesOfNat 8 e.future ++ bytesOfNat 4 e.runner ++ bytesOfNat 8 e.blocker ++ bytesOfNat 4 e.core ++
  bytesOfNat 4 e.parent ++ bytesOfNat 8 e.frame
/-- Write an entry; the task table is neither registered nor marked (R303). -/
def putTask (ctx i : Nat) (e : TaskEnt) : Act := .read fun s => writeHome (s.taskAddr ctx i) e.bytes
/-- Whether a handle stands for an entry of the table that is not FREE (R301). -/
def State.taskKnown (s : State) (ctx h : Nat) : Bool :=
  handleGen h != 0xFFF && handleIdx h < s.taskCap ctx && (let e := s.taskEnt ctx (handleIdx h); e.gen == handleGen h && e.state != 0)
/-- Change an entry that still carries a handle's generation and is not FREE. -/
def updTask (ctx h : Nat) (f : TaskEnt → TaskEnt) : Act := .read fun s =>
  .when (s.taskKnown ctx h) (putTask ctx (handleIdx h) (f (s.taskEnt ctx (handleIdx h))))

/-- A task is DONE when its entry is FREE or carries another generation (R301). -/
def State.taskDone (s : State) (ctx h : Nat) : Bool :=
  handleGen h != 0xFFF && (s.taskCap ctx ≤ handleIdx h || (let e := s.taskEnt ctx (handleIdx h); e.state == 0 || e.gen != handleGen h))

/-- The lowest FREE entry of a table.
[DESIGN CHOICE, log 117] -/
def State.freeTask (s : State) (ctx : Nat) : Option Nat := (List.range (s.taskCap ctx)).find? fun i => (s.taskEnt ctx i).state == 0
/-- An entry leaves FREE, or returns to it, in TTUSED (R302). -/
def countTask (ctx : Nat) (up : Bool) : Act :=
  .updD .ctxs Ctx.init ctx fun x => { x with ttused := if up then x.ttused + 1 else x.ttused - 1 }
/-- Free an entry: bytes 0 to 3 only, the generation advanced past 0xFFF (R301, R324, R451). -/
def freeTaskEnt (ctx h : Nat) : Act := .read fun s =>
  let e := s.taskEnt ctx (handleIdx h)
  .when (s.taskKnown ctx h) (.all
    [ writeHomeNat (s.taskAddr ctx (handleIdx h)) 4 ((if e.gen == 0xFFE then 0 else e.gen + 1) * 2 ^ 20), countTask ctx false,
      .del .spawns (ctx * 2 ^ 20 + handleIdx h) ])

/-! ## Waking (R313) -/

/-- Wake the parked groups that satisfy a test: their own task runs again, and they act again. -/
def wakeGroups (ctx : Nat) (p : Nat → Blocker → Bool) : Act := .read fun s =>
  .each (s.groups.filter fun e => match e.2.blocker, s.launchOf e.1 with
      | some b, some l => l.ctx == ctx && !b.woken && p e.1 b
      | _, _ => false) fun e => .all
    [ .upd .groups e.1 fun x => { x with blocker := x.blocker.map fun b => { b with woken := true } },
      updTask ctx e.2.thandle.toNat fun t => { t with state := 2, blocker := 0 }, .due [.groupWake e.1] ]
/-- Wake the groups parked on an object. -/
def wakeObject (ctx kind pa : Nat) : Act := wakeGroups ctx fun _ b => b.kind == kind && b.pa == pa

/-! ## The access of a task object (R308, R323) -/

/-- Size codes of task objects. -/
def objCode (n : Nat) : Nat := match n with | 4 => 4 | 16 => 6 | 32 => 7 | _ => 8
/-- Blame for a task object.
[DEDUCED, log 62; DEDUCED, log 63] -/
def objBlame (i : Instr) (cause : BitVec 8) (n va : Nat) : Blame :=
  { kind := 1, cause := cause,
    write := (match i with | .tspawn _ _ _ => false | .twait _ _ => false | _ => true),
    cls := (match i with | .tspawn _ _ _ => 0 | _ => 1), lane := 0, size := objCode n, va := va, oslot := 0xFFFF, ocls := 0, ostamp := 0 }
/-- Blame for a future that an instruction writes beside its own object.
[DEDUCED, log 63] -/
def futureBlame (cause : BitVec 8) (va : Nat) : Blame :=
  { kind := 1, cause := cause, write := true, cls := 1, lane := 0, size := 6, va := va, oslot := 0xFFFF, ocls := 0, ostamp := 0 }

/-- Where an object stands, or what R323 finds first. -/
inductive ObjAt where
  | trap (cause : BitVec 8)
  | bad (cause : BitVec 8) (va : Nat)
  | at_ (va : Nat)

def objFront (c : Iss) (s : State) (m : UMem) (n : Nat) (spawn : Bool) : ObjAt :=
  let b := Buf.of (s.breg c.gid m.buf.toNat)
  let p := b.place (b.offset (s.sreg c.gid m.sa.toNat) (4 * Int.ofNat m.off.toNat)) n
  if !b.valid then .trap 0x02
  else if b.ro && !spawn then .bad 0x13 p.2
  else if p.2 % n != 0 then .bad 0x16 p.2
  else if p.1 then .bad 0x12 p.2
  else .at_ p.2

def vasOf (va n : Nat) : List Nat := (List.range n).map (va + ·)

/-- A trap of a task instruction at its object.
[DEDUCED, log 62] -/
def Iss.trapObj (c : Iss) (b : Blame) : Act := c.trapWith b (taskWords c.grp) 0 0
/-- A failed check of the issuing split's access. -/
def Iss.trapCheck (c : Iss) (b : Blame) (a : CheckAns) : Act := c.trapWith (a.blame b) (taskWords c.grp) 0 a.origin
/-- The instruction parks where it stands; a replay issues it again (R106, R323). -/
def Iss.parkHere (c : Iss) (i : Instr) (b : Blame) (malformed : Bool) : Act := .fresh fun id => .read fun s => .all
  [ .put .ops id { c.op s i none with blocking := true, exec := 1, unf := 1 }, c.stallAt 0 (.op id), parkEngine id b malformed ]

/-- Translate and check an object of the issuing split; `k` gets its physical address. -/
def Iss.probed (c : Iss) (i : Instr) (n : Need) (q : Ask) (va size : Nat) (b : Blame) (k : Nat → Act) : Act := .read fun s =>
  match probeBytes s c.lau.ctx c.core n q (vasOf va size) with
  | .park _ cause bad => c.parkHere i { b with cause := cause } bad
  | .fail _ cause => c.trapObj { b with cause := cause }
  | .ok => k (s.phys c.lau.ctx va)

/-- Whether an object lies in a sector that cannot be corrected: reading it is a consumption (R62). -/
def State.badObj (s : State) (pa n : Nat) : Bool := (sectorsOf (vasOf pa n)).any fun x => s.poisoned x.1
/-- The core's own bytes of an object go home before the operation there (R153). -/
def flushObj (core pa n : Nat) : Act := .each (sectorsOf (vasOf pa n)) fun x => if isHomed (x.1 * 32) then flushSector core x.1 else .skip

/-- The SYNC access of the issuing split to an object: its own bytes of the object go home, the instruction's object check, which `bad` fails
with a trap, then the registration, or a trap; `k` follows at the object's home (R308, R323). -/
def Iss.synced (c : Iss) (i : Instr) (pa n : Nat) (b : Blame) (bad : State → Option Act) (k : Act) : Act := .read fun s =>
  if s.badObj pa n then .seq (c.stall .registrations) (.due [.rollback c.bid])
  else .seq (flushObj c.core pa n) (.read fun s => match bad s with
    | some a => a
    | none => checkMany (opParty s (c.op s i none)) mcSync (sectorsOf (vasOf pa n)) [] fun fails => match worst fails with
      | some f => c.trapCheck b f.2
      | none => k)
/-- An access without an object check. -/
def noCheck : State → Option Act := fun _ => none
/-- The object check that traps with 0x43 unless `ok` (R325, R329, R330). -/
def Iss.only43 (c : Iss) (i : Instr) (n va : Nat) (ok : State → Bool) : State → Option Act :=
  fun s => if ok s then none else some (c.trapObj (objBlame i 0x43 n va))

/-- The watchpoints of an object access (R414). -/
def Iss.watchObj (c : Iss) (i : Instr) (t : Touch) (b : Blame) (n : Nat) : Act := .read fun s =>
  .all [ .when (!isHomed (s.phys c.lau.ctx b.va)) (escape c.gid), .when (t != .read) (sentRemote c.gid [s.phys c.lau.ctx b.va]),
    watchDie c.gid none (dieOf c.core) c.lau.ctx t [{ lane := 0, va := b.va, n := n }] fun _ va =>
      opRecord s (c.op s i none) { b with cause := 0x51, va := va } ]

/-! ## The journal of tasks (R423, R425) -/

/-- Count journaled events of a group. -/
def countEvents (g n : Nat) : Act := .upd .groups g fun x => { x with jseq := (x.jseq + n) % 2 ^ 28 }
/-- An object access of LKACQ, QPUSH or QPOP under the journal: held, or recorded and followed by `k`. -/
def Iss.journalObj (c : Iss) (va : Nat) (k : Act) : Act := .read fun s =>
  if !c.lau.journals then k
  else match journalAsk s c.blk.lid c.lau { head := 2 ^ 60 + va, linear := c.blk.linear, gidx := c.grp.gidx, jseq := c.grp.jseq, w16 := 0,
                                            w20 := 0 } with
    | .hold => c.stall .journal
    | .go a => .all [a, countEvents c.gid 1, k]
/-- A claim under the journal. -/
def Iss.journalClaim (c : Iss) (h : Nat) (k : Act) : Act := .read fun s =>
  match (if c.lau.journals then Tab.spawns.at (c.lau.ctx * 2 ^ 20 + handleIdx h) s else none) with
  | none => k
  | some p =>
    match journalAsk s c.blk.lid c.lau { head := 2 * 2 ^ 60, linear := c.blk.linear, gidx := c.grp.gidx, jseq := c.grp.jseq,
                                         w16 := p.linear, w20 := p.gidx * 2 ^ 28 + p.jseq } with
    | .hold => c.stall .journal
    | .go a => .all [a, countEvents c.gid 1, k]

/-! ## The start of a task (R310, R311) -/

/-- Claim a task: its entry becomes RUNNING under the claiming slot.
[DEDUCED, log 66] -/
def claimTask (ctx h g : Nat) : Act := updTask ctx h fun e => { e with state := 2, runner := slotOf g }

/-- A task starts in a group, which has ended its interval.
[DEDUCED, log 137] -/
def startTask (g h depth : Nat) (e : TaskEnt) (l : Launch) : Act :=
  let live := fullMask (lanesOfCode e.width)
  .all [ clearRegs g, .each (List.range 4) fun n => .del .splits (splitKey g n),
         .put .splits (splitKey g 0) (Split.start e.entry live l.fmt0),
         .upd .groups g fun x => { x with q := 0, live := live, thandle := word h, depth := depth, locks := 0, join0 := none, join1 := none,
                                          join2 := none, blocker := none, shadow := none },
         .each e.args.zipIdx fun a => wrS g a.2 (word a.1), .each (List.range l.width) fun i => wrV g 0 i (word i),
         wrB g 0 (paramRecord l) ]

/-- Whether a group may run a task of an entry: its code object, and its width (R310, R315). -/
def Iss.fits (c : Iss) (e : TaskEnt) : Bool := e.code == c.lau.codeId.toNat && lanesOfCode e.width ≤ c.lau.width

/-- Whether a handle of a task queue still stands for an UNSTARTED task (R309). -/
def State.unstarted (s : State) (ctx h : Nat) : Bool :=
  handleIdx h < s.taskCap ctx && (let e := s.taskEnt ctx (handleIdx h); e.state == 1 && e.gen == handleGen h)
/-- Whether a handle of a task queue is of the group's own context, under its own incarnation. -/
def Iss.owns (c : Iss) (t : Nat × BitVec 32) : Bool := t.1 == tagKey c.lau.ctx c.lau.inc
/-- The oldest task of a core's queue that a group may run. -/
def Iss.oldestTask (c : Iss) (s : State) : Option Nat :=
  if (s.ctx c.lau.ctx).cstate != 1 then none
  else ((s.core c.core).tasks.find? fun t => c.owns t && s.unstarted c.lau.ctx t.2.toNat && c.fits (s.taskEnt c.lau.ctx (handleIdx t.2.toNat))).map
    (·.2.toNat)
/-- The oldest UNSTARTED task of a core's queue, whoever's it is (R319). -/
def Iss.firstTask (c : Iss) (s : State) : Option (Nat × BitVec 32) :=
  if (s.ctx c.lau.ctx).cstate != 1 then none else (s.core c.core).tasks.find? fun t => s.unstarted (t.1 / 256) t.2.toNat

/-- Rows of a FIFO bank that no queue holds (R123). -/
def State.fifoFree (s : State) (cl bank : Nat) : Nat :=
  s.goodRows cl bank s.dev.point - (((s.cluster cl).fifo.filter fun f => f.1 == bank).map (·.2.2.2)).foldl (· + ·) 0
/-- The lowest FIFO bank of a cluster with a free row.
[DEDUCED, log 67] -/
def State.fifoBank (s : State) (cl : Nat) : Option Nat :=
  (List.range 32).find? fun b => (s.cluster cl).modeOf b == .fifo && s.fifoFree cl b != 0
/-- What stands for a core's task queue among the queues that hold FIFO rows. -/
def coreQueue (core : Nat) : Nat := 2 ^ 20 + core
/-- The rows of a core's task queue: one for each 64 handles, as far as its cluster has them; the handles beyond are spilled to memory (R123, R309).
[DESIGN CHOICE, log 133] -/
def fitTaskRows (core : Nat) : Act := .read fun s =>
  let cl := clusterOf core
  let want := ((s.core core).tasks.length + 63) / 64
  let others := (s.cluster cl).fifo.filter fun f => f.2.1 != coreQueue core
  let have_ := ((s.cluster cl).fifo.filter fun f => f.2.1 == coreQueue core).flatMap fun f => List.replicate f.2.2.2 f.1
  if have_.length == want then .skip
  else .seq (.updD .clusters Cluster.init cl fun k => { k with fifo := others ++ (have_.take want).map fun b => (b, coreQueue core, 0, 1) })
    (.each (List.range (want - have_.length)) fun _ => .read fun s => .with? (s.fifoBank cl) fun b =>
      .updD .clusters Cluster.init cl fun k => { k with fifo := k.fifo ++ [(b, coreQueue core, 0, 1)] })
/-- Change a core's task queue. -/
def updTasks (core : Nat) (f : List (Nat × BitVec 32) → List (Nat × BitVec 32)) : Act :=
  .seq (.updD .cores CoreRec.init core fun k => { k with tasks := f k.tasks }) (fitTaskRows core)
/-- Discard the entries of a core's queue that stand for no UNSTARTED task (R309). -/
def sweepTasks (core : Nat) : Act := .read fun s => updTasks core fun ts => ts.filter fun t => s.unstarted (t.1 / 256) t.2.toNat

/-! ## Adoption frames (R316, R317) -/

def frameAddr (b : Block) (x : Group) (l : Launch) (f : Nat) : Option Nat := b.adopt.map fun a => a + (4 * x.gidx + f) * l.fsz
/-- Where the model keeps the wait records of a frame (R343).
[DEDUCED, log 68] -/
def frameWp (frame d : Nat) : Nat := 2 ^ 60 + frame * 16 + d

/-- What is written into a frame, by offset: of the registers only those of a live map. -/
def frameParts (s : State) (c : Iss) (m : LiveMap) : List (Nat × List Byte) :=
  let regs (n : Nat) (map : Nat) (f : Nat → Nat × List Byte) : List (Nat × List Byte) := ((List.range n).filter (bitAt map)).map f
  regs 64 m.s (fun i => (4 * i, bytesOfNat 4 (s.sreg c.gid i).toNat)) ++
  regs 16 m.b (fun i => (256 + 16 * i, bytesOfNat 16 (s.breg c.gid i).toNat)) ++
  regs 7 m.p (fun i => (512 + 8 * i, bytesOfNat 8 (s.preg c.gid i).toNat)) ++
  [(568, [BitVec.ofNat 8 (c.grp.q.toNat &&& m.q), BitVec.ofNat 8 c.grp.depth, 0, 0] ++ bytesOfNat 4 c.sp.fmt.toNat ++
    bytesOfNat 4 c.sp.pc.toNat ++ bytesOfNat 4 c.grp.thandle.toNat ++ bytesOfNat 4 c.grp.locks ++
    bytesOfNat 4 ((ordinalAt s c.lau c.sp.pc.toNat).getD 0xFFFFFF) ++ bytesOfNat 8 c.grp.live.toNat ++ zeros 424)] ++
  regs c.lau.vregs m.v fun r =>
    (1024 + 4 * (r * c.lau.width), (List.range c.lau.width).flatMap fun i => bytesOfNat 4 (s.vreg c.gid r i).toNat)
/-- The map of the registers that a frame holds, kept beside it: those live at the waiting instruction, and those that outstanding operations
of the group name (R34, R316). -/
def frameKey (frame i : Nat) : Nat := 2 ^ 200 + frame * 8 + i
def frameNotes (frame : Nat) (m : LiveMap) : List (Nat × Nat) :=
  [(frameKey frame 0, m.v + 1), (frameKey frame 1, m.s + 1), (frameKey frame 2, m.p + 1), (frameKey frame 3, m.b + 1)]
def State.frameMap (s : State) (ctx frame : Nat) : LiveMap :=
  let w (i : Nat) : Nat := (noteOf (s.ctx ctx).savedNotes (frameKey frame i)).getD 0
  { v := w 0, s := w 1, p := w 2, q := 127, b := w 3 }
/-- Write a group's state into a frame (R316).
[DEDUCED, log 64] -/
def writeFrame (frame : Nat) (c : Iss) : Act := .read fun s =>
  let m := (liveAt s c.lau c.sp.pc.toNat).or (opsLive s c.gid)
  .seq (.each (frameParts s c m) fun e => writeHome (frame + e.1) e.2) (putNotes c.lau.ctx (frameNotes frame m))

/-- The tasks that a group holds: the one it runs, and those in its frames (R314). -/
def Iss.held (c : Iss) (s : State) : List Nat :=
  (c.grp.thandle.toNat :: (List.range c.grp.depth).map fun f => match frameAddr c.blk c.grp c.lau f with
    | some a => s.homeNat (a + 580) 4
    | none => noTask).filter (· != noTask)

/-- What stands against an adoption, but for its claim (R315). -/
def Iss.mayAdopt (c : Iss) (s : State) (drain : Bool) : Bool :=
  c.blk.adopt.isSome && s.splitsOf c.gid == [c.n] && c.sp.stack.isEmpty && c.grp.depth < (if drain then 3 else min c.lau.adopt 3)

/-- The operations of a split's outstanding producers. -/
def Iss.outOps (c : Iss) (s : State) : List (Nat × Op) := c.sp.outs.filterMap fun o => (Tab.ops.at o.op s).map fun x => (o.op, x)
/-- A stop of the issuing split: each outstanding producer completes or parks, and a failed one is reported (R43).
[DEDUCED, log 115] -/
def Iss.stopped (c : Iss) (s : State) (k : Act) : Act :=
  match (c.outOps s).find? fun e => e.2.phase == .failed && !s.kept c.gid e.1 with
  | some (id, o) => lateTrap c id o
  | none => if (c.outOps s).any fun e => !e.2.phase.settled then c.stall .producers else k

/-- ADOPTION (R315): the frame, the chain record, the interval, the depth, and the task's start. `blocker` is the waiting instruction's.
[DEDUCED, log 64] -/
def adoptTask (c : Iss) (h blocker : Nat) (e : TaskEnt) : Act := .read fun s =>
  let d := c.grp.depth
  match frameAddr c.blk c.grp c.lau d, frameAddr c.blk c.grp c.lau 3 with
  | some frame, some chain => .all
    [ claimTask c.lau.ctx h c.gid,
      writeFrame frame c,
      .each (List.range 16) fun i => .put .wps (frameWp frame i) (Tab.wps.val none (c.gid * 16 + i) s),
      writeHome (chain + 16 * d) (bytesOfNat 8 c.grp.thandle.toNat ++ bytesOfNat 8 blocker),
      updTask c.lau.ctx c.grp.thandle.toNat fun t => { t with frame := frame },
      endInterval c.gid, acquireAct c.gid, escape c.gid, startTask c.gid h (d + 1) e c.lau, sweepTasks c.core ]
  | _, _ => .skip

/-- RETURN FROM A TASK (R317): the frame of depth d is restored, every register that it does not hold reads zero (R34), and its waiting instruction issues again. -/
def returnTask (c : Iss) : Act := .read fun s =>
  let d := c.grp.depth - 1
  match frameAddr c.blk c.grp c.lau d with
  | none => .skip
  | some frame =>
    let rd (o n : Nat) : Nat := s.homeNat (frame + o) n
    let live := BitVec.ofNat 64 (rd 592 8)
    let m := s.frameMap c.lau.ctx frame
    .all [ clearRegs c.gid, .each (List.range 4) fun n => .del .splits (splitKey c.gid n),
           .each ((List.range 63).filter (bitAt m.s)) fun i => wrS c.gid i (word (rd (4 * i) 4)),
           .each ((List.range 16).filter (bitAt m.b)) fun i => wrB c.gid i (BitVec.ofNat 128 (rd (256 + 16 * i) 16)),
           .each ((List.range 7).filter (bitAt m.p)) fun i => .put .pregs (c.gid * 8 + i) (BitVec.ofNat 64 (rd (512 + 8 * i) 8)),
           .each ((List.range c.lau.vregs).filter (bitAt m.v)) fun r => .each (List.range c.lau.width) fun i =>
             wrV c.gid r i (word (rd (1024 + 4 * (r * c.lau.width + i)) 4)),
           .each (List.range 16) fun i => .seq (.put .wps (c.gid * 16 + i) (Tab.wps.val none (frameWp frame i) s))
             (.put .wps (frameWp frame i) none),
           .upd .groups c.gid fun x => { x with q := BitVec.ofNat 7 (rd 568 1), live := live, thandle := word (rd 580 4), locks := rd 584 4,
                                                depth := d, join0 := none, join1 := none, join2 := none, blocker := none,
                                                shadow := none },
           updTask c.lau.ctx (rd 580 4) fun t => { t with frame := 0 },
           .put .splits (splitKey c.gid 0) (Split.start (rd 576 4) live (word (rd 572 4))) ]

/-- A task goes on: it is no longer PARKED (R303). -/
def TaskEnt.goesOn (e : TaskEnt) : TaskEnt := if e.state == 3 then { e with state := 2, blocker := 0 } else e
/-- A group that received another slot is the runner of the tasks that it holds, and its own task issues its waiting instruction again (R322). -/
def renameRunner (c : Iss) : Act := .read fun s => .each (c.held s) fun h => updTask c.lau.ctx h fun e => { e.goesOn with runner := c.slot }

/-! ## Waiting and helping (R313 to R319) -/

/-- The group parks on an object; its own task is PARKED (R313). -/
def parkGroup (c : Iss) (kind va pa owner : Nat) : Act := .all
  [ c.stallAt 0 .parkedTask,
    .upd .groups c.gid fun x => { x with blocker := some { kind := kind, va := va, pa := pa, owner := word owner, woken := false } },
    updTask c.lau.ctx c.grp.thandle.toNat fun e => { e with state := 3, blocker := kind * 2 ^ 60 + va } ]

/-- The object of a BLOCKER: its address and size (R303). -/
def blockerObj (w : Nat) : Nat × Nat := (w % 2 ^ 57, match w / 2 ^ 60 with | 1 => 16 | 2 => 4 | _ => 64)
/-- Whether the blocker of a PARKED task is satisfied, and its owner (R313). A blocker that does not translate, or that the access tables deny
the core that reads it, is not, and has none. -/
def State.blockerAt (s : State) (ctx : Nat) (core : Option Nat) (w : Nat) : Bool × Nat :=
  let va := w % 2 ^ 57
  match s.translateFor ctx .load va with
  | .error _ => (false, noTask)
  | .ok pa =>
    if (match core with | some c => (s.accessFault c .load pa (blockerObj w).2).isSome | none => false) then (false, noTask) else
    match w / 2 ^ 60 with
    | 1 => let own := s.homeNat (pa + 12) 4; let st := s.homeNat (pa + 8) 1
           (st != 0 || s.taskDone ctx own, own)
    | 2 => let own := s.homeNat pa 4; (own == noTask || s.taskDone ctx own, own)
    | 3 => (s.homeNat (pa + 24) 8 - s.homeNat (pa + 16) 8 < s.homeNat (pa + 8) 4, noTask)
    | _ => (s.homeNat (pa + 16) 8 < s.homeNat (pa + 24) 8, noTask)

/-- What the table of R313 says for an owner, after the chain of R314. -/
inductive Chain where
  | park
  | adopt (h : Nat)
  | wake (slot : Nat)
  | cycle (h last n : Nat)

/-- Follow a chain from a handle: at most 16 links. `n` handles have been met, `last` is the runner of the last.
[DEDUCED, log 65] -/
def followChain (s : State) (ctx core : Nat) (held : List Nat) : Nat → Nat → List Nat → Nat → Nat → Chain
  | 0, _, _, _, _ => .park
  | fuel + 1, h, seen, last, n =>
    if handleGen h == 0xFFF then .park
    else if held.contains h || seen.contains h then .cycle h last (n + 1)
    else if s.taskDone ctx h then .park
    else
      let e := s.taskEnt ctx (handleIdx h)
      match e.state with
      | 1 => .adopt h
      | 3 =>
        let b := s.blockerAt ctx (some core) e.blocker
        if b.1 then .wake e.runner else followChain s ctx core held fuel b.2 (h :: seen) e.runner (n + 1)
      | _ => .park

/-- The objects that a chain reads on its way.
[DEDUCED, log 65] -/
def chainReads (s : State) (ctx core : Nat) (held : List Nat) : Nat → Nat → List Nat → List (Nat × Nat)
  | 0, _, _ => []
  | fuel + 1, h, seen =>
    let e := s.taskEnt ctx (handleIdx h)
    if handleGen h == 0xFFF || held.contains h || seen.contains h || s.taskDone ctx h || e.state != 3 then []
    else
      let b := s.blockerAt ctx (some core) e.blocker
      blockerObj e.blocker :: if b.1 then [] else chainReads s ctx core held fuel b.2 (h :: seen)
/-- The reads of a chain are SYNC accesses of the waiting instruction (R308). -/
def Iss.readChain (c : Iss) (i : Instr) (k : Act) : List (Nat × Nat) → Act
  | [] => k
  | (va, n) :: rest => .read fun s => match probeBytes s c.lau.ctx c.core .load .load (vasOf va n) with
    | .ok => c.synced i (s.phys c.lau.ctx va) n { objBlame i 0 n va with write := false } noCheck (readChain c i k rest)
    | _ => readChain c i k rest

/-- An adoption that R315 allows, else the group parks. A drain task has no TSPAWN that a claim could name (R331). -/
def tryAdopt (c : Iss) (drain : Bool) (h kind va pa owner : Nat) (e : TaskEnt) (before : Act) : Act := .read fun s =>
  if !c.mayAdopt s drain || !c.fits e then parkGroup c kind va pa owner
  else c.stopped s
    (if (c.outOps s).any fun x => x.2.phase == .parked then parkGroup c kind va pa owner
     else c.gated (some .dev) (let go := .seq before (adoptTask c h (kind * 2 ^ 60 + va) e)
                               if drain then go else c.journalClaim h go))

/-- A wait cycle (R314, R321): the trap at the waiting instruction.
[DEDUCED, log 65] -/
def cycleTrap (c : Iss) (i : Instr) (size va h last n : Nat) : Act :=
  c.trapWith { objBlame i 0x41 size va with oslot := last } [c.grp.thandle, word (c.grp.depth % 4), word h, word (n % 32)] 0 0

/-- ACT ON AN OWNER (R313, R314): `size` is the object's, `kind` the BLOCKER's. -/
def actOnOwner (c : Iss) (i : Instr) (size kind va pa owner : Nat) : Act := .read fun s =>
  if owner == noTask then parkGroup c kind va pa owner
  else c.readChain i (match followChain s c.lau.ctx c.core (c.held s) 17 owner [] 0xFFFF 0 with
    | .park => parkGroup c kind va pa owner
    | .wake slot => .seq (wakeGroups c.lau.ctx fun g _ => slotOf g == slot) (parkGroup c kind va pa owner)
    | .adopt h => tryAdopt c false h kind va pa owner (s.taskEnt c.lau.ctx (handleIdx h)) .skip
    | .cycle h last n => cycleTrap c i size va h last n) (chainReads s c.lau.ctx c.core (c.held s) 17 owner [])

/-- A queue wait without an owner (R319): the oldest UNSTARTED task of the core's queue is adopted when no lock is held and the group may run it.
[DEDUCED, log 67] -/
def helpQueue (c : Iss) (kind va pa : Nat) : Act := .read fun s =>
  match (if c.grp.locks == 0 then c.firstTask s else none) with
  | some t => if c.owns t then tryAdopt c false t.2.toNat kind va pa noTask (s.taskEnt c.lau.ctx (handleIdx t.2.toNat)) .skip
    else parkGroup c kind va pa noTask
  | none => parkGroup c kind va pa noTask

/-! ## Drains (R318) -/

/-- Whether 32 bytes are a task descriptor that a launch can run (R304, R324): reserved fields, entry point, future address.
[DEDUCED, log 63] -/
def descOk (s : State) (l : Launch) (d : Nat) : Bool :=
  fld d 34 6 == 0 && fld d 40 24 == 0 && isEntry s l (fld d 0 32) && fld d 192 64 / 2 ^ 57 == 0 && fld d 192 64 % 16 == 0
def descFuture (d : Nat) : Nat := fld d 192 57
/-- The entry of a task made from a descriptor. -/
def descEnt (c : Nat) (l : Launch) (d gen state runner : Nat) (parent : BitVec 32) : TaskEnt :=
  { gen := gen, state := state, entry := fld d 0 32, code := l.codeId.toNat, width := fld d 32 2,
    args := (List.range 4).map fun k => fld d (64 + 32 * k) 32, future := descFuture d, runner := runner, blocker := 0, core := c,
    parent := parent.toNat, frame := 0 }
/-- Write the OWNER of a future. -/
def setOwner (pa h : Nat) : Act := writeHomeNat (pa + 12) 4 h

/-- A full queue with a drain (R318): its descriptor is checked, and a fresh task made of it is adopted at once.
[DEDUCED, log 67] -/
def drainQueue (c : Iss) (i : Instr) (va pa dva : Nat) : Act :=
  let bq (cause : BitVec 8) : Blame := objBlame i cause 64 va
  let bd : Blame := { objBlame i 0 32 dva with write := false, cls := 0 }
  c.probed i .load .load dva 32 bd fun dpa => .read fun s =>
    let need (x : Nat × BitVec 8) : Nat × BitVec 8 := (x.1, x.2 &&& ~~~(s.covered c.gid x.1 mcRead))
    .seq (touchSector c.gid c.core c.lau.ctx c.lau.inc (dpa / 32) false (BitVec.allOnes 32)) (.read fun s =>
      let d := (if isHomed dpa then s.seen c.gid c.core (dpa / 32) false else s.outerSector (dpa / 32)).toNat
      let park := parkGroup c 3 va pa noTask
      if !descOk s c.lau d then c.trapObj (bq 0x43)
      else checkMany (opParty s (c.op s i none)) mcRead ((sectorsOf (vasOf dpa 32)).map need) [] fun fails => match worst fails with
      | some f => c.trapCheck bd f.2
      | none => match s.freeTask c.lau.ctx with
        | none => if c.mayAdopt s true && lanesOfCode (fld d 32 2) ≤ c.lau.width then c.trapObj (bq 0x40) else park
        | some n =>
          let gen := (s.taskEnt c.lau.ctx n).gen
          let h := handleOf gen n
          let e := descEnt c.core c.lau d gen 2 c.slot c.grp.thandle
          let make (own : Act) : Act := .all
            [ own, putTask c.lau.ctx n e, countTask c.lau.ctx true, .del .spawns (c.lau.ctx * 2 ^ 20 + n) ]
          if !c.mayAdopt s true || !c.fits e then park
          else if descFuture d == 0 then tryAdopt c true h 3 va pa noTask e (make .skip)
          else
            let fva := descFuture d
            c.probed i .atomic .atomic fva 16 (futureBlame 0 fva) fun fpa => c.synced i fpa 16 (futureBlame 0 fva)
              (fun s => if s.homeNat (fpa + 8) 1 != 0 then some (c.trapObj (bq 0x43)) else none)
              (tryAdopt c true h 3 va pa noTask e (make (setOwner fpa h))))

/-! ## TWAIT, LKACQ, QPUSH, QPOP, QREG (R325, R328 to R330) -/

/-- The front of a task instruction: the object's place, its translation, and `k` on virtual and physical address (R323). -/
def Iss.object (c : Iss) (i : Instr) (m : UMem) (n : Nat) (need : Need) (ask : Ask) (k : Nat → Nat → Act) : Act := .read fun s =>
  match objFront c s m n false with
  | .trap cause => c.trap cause 0
  | .bad cause va => c.trapObj (objBlame i cause n va)
  | .at_ va => c.probed i need ask va n (objBlame i 0 n va) (k va)

/-- The interval end of an acquire at dev, past the instruction. -/
def Iss.acquired (c : Iss) (k : Act) : Act := .all [c.advance, endInterval c.gid, acquireAct c.gid, k]

def execTwait (d : BitVec 6) (m : UMem) (s : State) : Host.Outcome State Fault Refusal :=
  let i := Instr.twait d m
  issue i (fun c => c.object i m 16 .load .load fun va pa => c.gated none (c.synced i pa 16 (objBlame i 0 16 va)
    (c.only43 i 16 va fun s => s.homeNat (pa + 8) 1 ≤ 2)
    (.seq (c.watchObj i .read (objBlame i 0 16 va) 16) (.read fun s =>
      let st := s.homeNat (pa + 8) 1
      let own := s.homeNat (pa + 12) 4
      if st != 0 || s.taskDone c.lau.ctx own then
        c.acquired (wrSD c.gid d.toNat (if st == 1 then BitVec.ofNat 64 (s.homeQuad pa) else 0))
      else actOnOwner c i 16 1 va pa own)))) s

/-- The own handle of a group (R301, R328).
[DEDUCED, log 68] -/
def Iss.ownHandle (c : Iss) : Nat := if c.grp.thandle.toNat == noTask then 0xFFF00000 + c.slot else c.grp.thandle.toNat

/-- A lock that its group holds already is a wait cycle of one (R314, R328). -/
def Iss.notOwn (c : Iss) (i : Instr) (va pa : Nat) : State → Option Act :=
  fun s => if s.homeNat pa 4 == c.ownHandle then some (cycleTrap c i 4 va c.ownHandle 0xFFFF 1) else none

def execLkacq (m : UMem) (s : State) : Host.Outcome State Fault Refusal :=
  let i := Instr.lkacq m
  issue i (fun c => c.object i m 4 .atomic .atomic fun va pa => c.gated none (c.synced i pa 4 (objBlame i 0 4 va)
    (c.notOwn i va pa)
    (.seq (c.watchObj i .atomic (objBlame i 0 4 va) 4) (.read fun s =>
      let w := s.homeNat pa 4
      if w == noTask || s.taskDone c.lau.ctx w then
        c.journalObj va (c.acquired (.all [ writeHomeNat pa 4 c.ownHandle, escape c.gid,
          .upd .groups c.gid fun x => { x with locks := x.locks + 1 } ]))
      else actOnOwner c i 4 2 va pa w)))) s

/-- The fields of a queue descriptor (R307). -/
structure QDesc where
  ring : Nat
  cap : Nat
  head : Nat
  tail : Nat
  drain : Nat
  reg : Bool
def State.queueAt (s : State) (pa : Nat) : QDesc :=
  { ring := s.homeNat pa 8 % 2 ^ 57, cap := s.homeNat (pa + 8) 4, head := s.homeNat (pa + 16) 8, tail := s.homeNat (pa + 24) 8,
    drain := s.homeNat (pa + 32) 8, reg := bitAt (s.homeNat (pa + 40) 4) 31 }
def QDesc.slot (q : QDesc) (n : Nat) : Nat := q.ring + 16 * (n % max q.cap 1)
/-- FIFO rows that a queue has (R123, R330). -/
def State.fifoRows (s : State) (l : Launch) (va : Nat) : Nat :=
  ((List.range 32).flatMap fun cl => (s.cluster cl).fifo.filter fun f => f.2.1 == tagKey l.ctx l.inc && f.2.2.1 == va).foldl (fun a f => a + f.2.2.2) 0
/-- Four uniform registers as an entry. -/
def State.squad (s : State) (g r : Nat) : BitVec 128 := s.sreg g (r + 3) ++ s.sreg g (r + 2) ++ s.sreg g (r + 1) ++ s.sreg g r

/-- The place of entry number `n` of a queue: FIFO rows, or its ring slot, translated, checked and registered. -/
def Iss.entrySlot (c : Iss) (i : Instr) (q : QDesc) (n : Nat) (need : Need) (ask : Ask) (k : Nat → Act) : Act :=
  let b : Blame := objBlame i 0 64 (q.slot n)
  c.probed i need ask (q.slot n) 16 b fun pa => c.synced i pa 16 b noCheck (k pa)

def execQpush (d : BitVec 6) (m : UMem) (s : State) : Host.Outcome State Fault Refusal :=
  let i := Instr.qpush d m
  issue i (fun c => c.object i m 64 .atomic .atomic fun va pa => c.gated (some .dev) (c.synced i pa 64 (objBlame i 0 64 va)
    (c.only43 i 64 va fun s => (s.queueAt pa).reg)
    (.seq (c.watchObj i .atomic (objBlame i 0 64 va) 64) (.read fun s =>
      let q := s.queueAt pa
      let v := s.squad c.gid d.toNat
      let done (put : Act) : Act := c.journalObj va (.all
        [ put, writeHomeNat (pa + 24) 8 (q.tail + 1), c.advance, endInterval c.gid, escape c.gid, wakeObject c.lau.ctx 4 pa ])
      if q.tail - q.head < q.cap then
        (if (s.fifoOf c.tag va).length < 64 * s.fifoRows c.lau va then done (.put .fifo (fifoKey c.tag va q.tail) v)
         else c.entrySlot i q q.tail .atomic .atomic fun epa => done (writeHomeNat epa 16 v.toNat))
      else .all [ endInterval c.gid, escape c.gid,
                  if q.drain != 0 then drainQueue c i va pa q.drain else helpQueue c 3 va pa ])))) s

def execQpop (d : BitVec 6) (m : UMem) (s : State) : Host.Outcome State Fault Refusal :=
  let i := Instr.qpop d m
  issue i (fun c => c.object i m 64 .atomic .atomic fun va pa => c.gated none (c.synced i pa 64 (objBlame i 0 64 va)
    (c.only43 i 64 va fun s => (s.queueAt pa).reg)
    (.seq (c.watchObj i .atomic (objBlame i 0 64 va) 64) (.read fun s =>
      let q := s.queueAt pa
      let key := fifoKey c.tag va q.head
      let done (v : Nat) : Act := c.journalObj va (c.acquired (.all
        [ writeHomeNat (pa + 16) 8 (q.head + 1), .del .fifo key, escape c.gid,
          .each (List.range 4) fun k => wrS c.gid (d.toNat + k) (BitVec.ofNat 32 (v / 2 ^ (32 * k))), wakeObject c.lau.ctx 3 pa ]))
      if q.head < q.tail then
        (match Tab.fifo.at key s with
         | some v => done v.toNat
         | none => c.entrySlot i q q.head .load .load fun epa => .read fun s => done (s.homeNat epa 16))
      else helpQueue c 4 va pa)))) s

/-- Whether a descriptor may be registered (R307, R330). -/
def queueOk (s : State) (pa : Nat) : Bool :=
  let w (o n : Nat) : Nat := s.homeNat (pa + o) n
  let fl := w 12 2
  w 0 8 / 2 ^ 57 == 0 && w 0 8 % 16 == 0 && 1 ≤ w 8 4 && w 8 4 ≤ 2 ^ 24 && fl / 2 == 0 && w 14 2 ≤ 256 && (fl == 1 || w 14 2 == 0) &&
  w 32 8 % 32 == 0 && !bitAt (w 40 4) 31 && !bitAt (w 40 4) 30 && fld (w 40 4) 10 19 == 0 && w 44 20 == 0

def execQreg (sb : Bool) (m : UMem) (s : State) : Host.Outcome State Fault Refusal :=
  let i := Instr.qreg sb m
  issue i (fun c => c.object i m 64 .atomic .atomic fun va pa => c.gated none (c.synced i pa 64 (objBlame i 0 64 va)
    (c.only43 i 64 va fun s => queueOk s pa)
    (.seq (c.watchObj i .atomic (objBlame i 0 64 va) 64) (.read fun s =>
        let cl := clusterOf c.core
        let rows := if s.homeNat (pa + 12) 2 == 1 then s.homeNat (pa + 14) 2 else 0
        let got := match (if rows == 0 then none else s.fifoBank cl) with
          | some b => some (b, min rows (s.fifoFree cl b))
          | none => none
        .all [ writeHomeNat (pa + 16) 16 0,
               (match got with
                | some (b, n) => .seq (writeHomeNat (pa + 40) 4 (2 ^ 31 + 2 ^ 29 + 32 * b + cl))
                    (.updD .clusters Cluster.init cl fun k => { k with fifo := k.fifo ++ [(b, tagKey c.lau.ctx c.lau.inc, va, n)] })
                | none => writeHomeNat (pa + 40) 4 (2 ^ 31)),
               c.advance ])))) s

/-! ## TSPAWN, TFILL, LKREL: operations of the path tk (R323, R324, R326, R328) -/

/-- A task operation parks or fails at its object, or goes on with the physical address. -/
def opProbed (id : Nat) (o : Op) (n : Need) (q : Ask) (va size : Nat) (b : Blame) (k : Nat → Act) : Act := .read fun s =>
  match probeBytes s o.ctx (coreOf o.gid) n q (vasOf va size) with
  | .park _ cause bad => parkEngine id { b with cause := cause } bad
  | .fail _ cause => failEngine id o { b with cause := cause } 0
  | .ok => k (s.phys o.ctx va)
/-- The access of a task operation to an object, by class: its core's own bytes of an object that is no descriptor go home, the object check,
which `bad` fails, then the registration. -/
def opSynced (id : Nat) (o : Op) (cls : BitVec 3) (pa n : Nat) (b : Blame) (bad : State → Option Act) (k : Act) : Act := .read fun s =>
  if s.badObj pa n then .seq (.put .ops id { o with phase := .waiting }) (.due [.rollback o.bid])
  else .seq (.when (cls != mcRead) (flushObj (coreOf o.gid) pa n)) (.read fun s => match bad s with
    | some a => a
    | none =>
      let need (x : Nat × BitVec 8) : Nat × BitVec 8 := (x.1, x.2 &&& ~~~(s.covered o.gid x.1 cls))
      checkMany (opParty s o) cls ((sectorsOf (vasOf pa n)).map need) [] fun fails => match worst fails with
        | some f => failEngine id o (f.2.blame b) f.2.origin
        | none => k)
/-- The watchpoints of a task operation's access (R414). -/
def opWatch (o : Op) (t : Touch) (b : Blame) (n : Nat) : Act := .read fun s =>
  watchDie o.gid none (dieOf (coreOf o.gid)) o.ctx t [{ lane := 0, va := b.va, n := n }] fun _ va => opRecord s o { b with cause := 0x51, va := va }

/-- The effect of a task operation is done: it was a release at dev, and its object will acknowledge (R169, R323). -/
def opReleased (id : Nat) (o : Op) (k : Act) : Act := .all
  [ k, endInterval o.gid, escape o.gid, .put .ops id { o with phase := .responding }, .due [.taskAcknowledge id] ]

/-- The entry that a TSPAWN takes: the one the journal names in a replay when it is FREE, else the lowest FREE one (R324, R425). -/
inductive SpawnAt where
  | full | hold
  | take (gen i : Nat) (a : Act)

def spawnAt (s : State) (lid : Nat) (l : Launch) (linear gidx jseq : Nat) : SpawnAt :=
  let actor (h : Nat) : JEvent := { head := 3 * 2 ^ 60, linear := linear, gidx := gidx, jseq := jseq, w16 := h, w20 := 0 }
  match (if s.replays l then (jPending s l lid).find? fun i => (jRead s l i).head / 2 ^ 60 == 3 && (jRead s l i).sameActor (actor 0) else none) with
  | some i =>
    let h := (jRead s l i).w16
    if s.taskCap l.ctx ≤ handleIdx h then .full
    else if (s.taskEnt l.ctx (handleIdx h)).state == 0 then .take (handleGen h) (handleIdx h) (.put .jdone (lid * 2 ^ 40 + i) true)
    else .hold
  | none => match s.freeTask l.ctx with
    | none => .full
    | some i =>
      let gen := (s.taskEnt l.ctx i).gen
      .take gen i (match journalAsk s lid l (actor (handleOf gen i)) with | .go a => a | .hold => .skip)

/-- TSPAWN at its object (R324). -/
def spawnRun (id : Nat) (o : Op) (d : BitVec 6) (va : Nat) (ro : Bool) : Act :=
  let b : Blame := objBlame o.instr 0 32 va
  let g := o.gid
  let core := coreOf g
  let fails (cause : BitVec 8) : Act := failEngine id o { b with cause := cause } 0
  opProbed id o .load .load va 32 b fun pa =>
  .seq (.when (isHomed pa) (touchSector g core o.ctx o.inc (pa / 32) ro (BitVec.allOnes 32)))
    (.read fun s => match s.blockOf g, s.launchOf g, s.group? g with
      | some blk, some l, some x =>
        let desc := (if isHomed pa then s.seen g core (pa / 32) ro else s.outerSector (pa / 32)).toNat
        let make (gen i : Nat) (a own : Act) : Act := opReleased id o (.all
          [ a, own, putTask o.ctx i (descEnt core l desc gen 1 0xFFFF x.thandle), countTask o.ctx true,
            updTasks core fun ts => ts ++ [(tagKey o.ctx o.inc, word (handleOf gen i))],
            if l.journals then .put .spawns (o.ctx * 2 ^ 20 + i) { linear := blk.linear, gidx := x.gidx, jseq := o.jseq }
            else .del .spawns (o.ctx * 2 ^ 20 + i),
            wrS g d.toNat (word (handleOf gen i)) ])
        let registered (k : Act) : Act := .seq (opWatch o .read b 32) (if ro then k else opSynced id o mcRead pa 32 b noCheck k)
        if !descOk s l desc then fails 0x43
        else match spawnAt s blk.lid l blk.linear x.gidx o.jseq with
        | .full => fails 0x40
        | .hold => .due [.taskAcknowledge id]
        | .take gen i a => registered
          (if descFuture desc == 0 then make gen i a .skip
           else
             let fva := descFuture desc
             let fb := futureBlame 0 fva
             opProbed id o .atomic .atomic fva 16 fb fun fpa =>
               opSynced id o mcSync fpa 16 fb (fun s => if s.homeNat (fpa + 8) 1 != 0 then some (fails 0x43) else none)
                 (.seq (opWatch o .atomic fb 16) (make gen i a (setOwner fpa (handleOf gen i)))))
      | _, _, _ => .skip)

/-- TFILL and LKREL at their object (R326, R328): `ok` is the object check, `eff` the effect. -/
def objRun (id : Nat) (o : Op) (n va : Nat) (t : Touch) (ok : State → Nat → Bool) (eff : Nat → Act) (cause : BitVec 8) : Act :=
  let b : Blame := objBlame o.instr 0 n va
  opProbed id o .atomic .atomic va n b fun pa =>
    opSynced id o mcSync pa n b (fun s => if ok s pa then none else some (failEngine id o { b with cause := cause } 0))
      (opReleased id o (.all [opWatch o t b n, .when (!isHomed pa) (escape o.gid), sentRemote o.gid [pa], eff pa]))

/-- Perform a task operation. -/
def taskRun (id : Nat) : Act := .read fun s =>
  match Tab.ops.at id s with
  | none => .skip
  | some o => match o.lanes with
    | [] => .skip
    | l :: _ => match o.instr with
      | .tspawn _ d _ => spawnRun id o d l.va (Buf.of o.brec).ro
      | .tfill _ _ _ => objRun id o 16 l.va .write (fun s pa => s.homeNat (pa + 8) 1 == 0)
          (fun pa => .all [writeHomeNat pa 9 (l.b + 2 ^ 64), wakeObject o.ctx 1 pa]) 0x43
      | .lkrel _ _ => objRun id o 4 l.va .atomic (fun s pa => s.homeNat pa 4 == l.b)
          (fun pa => .all [writeHomeNat pa 4 noTask, .upd .groups o.gid fun x => { x with locks := x.locks - 1 }, wakeObject o.ctx 2 pa]) 0x46
      | _ => .skip

/-- TSPAWN, TFILL and LKREL: the release at dev, then the operation, and the split goes on (R323). `v` is the word that goes with it.
[DEDUCED, log 72] -/
def tkForm (i : Instr) (m : UMem) (n : Nat) (spawn : Bool) (events : Nat) (v : Iss → State → Nat) (s : State) : Host.Outcome State Fault Refusal :=
  issue i (fun c => .read fun s =>
    if 63 ≤ s.counter c.gid 5 then c.stall (.counter 5)
    else match objFront c s m n spawn with
    | .trap cause => c.trap cause 0
    | .bad cause va => c.trapObj (objBlame i cause n va)
    | .at_ va => c.gated (some .dev) (.fresh fun id => .all
        [ .put .ops id { c.op s i (some 5) with exec := 1, unf := 1, brec := s.breg c.gid m.buf.toNat,
                                                lanes := [{ lane := 0, va := va, b := v c s, c := 0 }] },
          c.advance, countEvents c.gid events, taskRun id ])) s

def execTspawn (sb : Bool) (d : BitVec 6) (m : UMem) (s : State) : Host.Outcome State Fault Refusal :=
  tkForm (.tspawn sb d m) m 32 true 1 (fun _ _ => 0) s
def execTfill (sb : Bool) (d : BitVec 6) (m : UMem) (s : State) : Host.Outcome State Fault Refusal :=
  tkForm (.tfill sb d m) m 16 false 0 (fun c s => (s.spair c.gid d.toNat).toNat) s
def execLkrel (sb : Bool) (m : UMem) (s : State) : Host.Outcome State Fault Refusal :=
  tkForm (.lkrel sb m) m 4 false 0 (fun c _ => c.ownHandle) s

/-- TASK_ACKNOWLEDGE (R44, R323): the object of a task operation acknowledges, and tk falls. An operation that was started again is
performed here, once no earlier check of its group is open. -/
def execTaskAcknowledge (op : Nat) (s : State) : Host.Outcome State Fault Refusal :=
  .next (Act.run (.read fun s => match Tab.ops.at op s with
    | none => .skip
    | some o =>
      if o.path != some 5 then .skip
      else match o.phase with
      | .responding => endOp op
      | .running =>
        if ((s.opsOf o.gid).any fun e => e.1 != op && e.2.unanswered) || !s.mayAdvance o.slot.toNat then .due [.taskAcknowledge op]
        else taskRun op
      | _ => .skip) s)

/-- Start a task operation again (R110, R197, R374). -/
def restartTask (id : Nat) : Act :=
  .seq (.upd .ops id fun o => { o with phase := .running, lines := [], fail := none }) (.due [.taskAcknowledge id])

/-! ## The end of tasks and groups (R286, R310, R312, R327) -/

/-- What stands between a group and its end: a failed operation to report, or one to wait for (R286). -/
def Iss.settling (c : Iss) (k : Act) : Act := .read fun s =>
  match s.failedOp c.gid with
  | some (id, o) => lateTrap c id o
  | none => if (s.opsOf c.gid).any fun e => e.2.phase != .done && !s.kept c.gid e.1 then c.stall .drained else k

/-- Whether the group's end would end its team's last block while a copy into the team's window is in flight (R190). -/
def Iss.lastOfTeam (c : Iss) (s : State) : Bool :=
  c.blk.gids == [c.gid] && (match s.team? c.tid with | some t => t.blocks == [c.bid] | none => false) && s.copyInto c.tid

/-- A group without a task of its own left: it claims the oldest task of its core's queue, or it ends (R286, R310). `before` is what its
EXIT or TEND did.
[DEDUCED, log 66] -/
def claimOrEnd (c : Iss) (before : Act) : Act := .read fun s =>
  match c.oldestTask s with
  | some h => c.journalClaim h (.seq before (.read fun s =>
      let e := s.taskEnt c.lau.ctx (handleIdx h)
      .all [ claimTask c.lau.ctx h c.gid, endInterval c.gid, acquireAct c.gid, escape c.gid, startTask c.gid h 0 e c.lau, sweepTasks c.core ]))
  | none =>
    let x := s.ctx c.lau.ctx
    if x.cstate == 2 && (match x.preempt with | some p => !p.drain | none => false) &&
        ((s.core c.core).tasks.any fun t => c.owns t && s.unstarted c.lau.ctx t.2.toNat) then c.stall .drained
    else if c.lastOfTeam s then c.stall .drained
    else .seq before (leaveBlock c.gid)

/-- The interval counters may advance twice (R92, R128). -/
def Iss.mayAdvanceTwice (c : Iss) (s : State) : Bool :=
  let st := ((s.icountOf c.slot).toNat + 2) % 65536
  let k := c.tid * 512 + tslotOf c.lau c.blk c.grp
  (st % 16384 != 0 || (Tab.notices.at (c.slot * 4 + (st / 16384 + 2) % 4) s).isNone) &&
  ((Tab.teamCnt.val 0 k s).toNat % 1024 < 1022 || Tab.tscan.val false k s)

/-- THE END OF A TASK (R317, R327): VOID for its own future when that is EMPTY, its entry free, waiters awake; then the frame, the next
task, or the group's end.
[DEDUCED, log 64; DEDUCED, log 66] -/
def endTask (c : Iss) (i : Instr) : Act :=
  let h := c.grp.thandle.toNat
  let void (k : Act → Act) : Act := .read fun s =>
    let fva := if s.taskKnown c.lau.ctx h then (s.taskEnt c.lau.ctx (handleIdx h)).future else 0
    if fva == 0 then k .skip
    else c.probed i .atomic .atomic fva 16 (futureBlame 0 fva) fun pa => c.synced i pa 16 (futureBlame 0 fva) noCheck
      (.seq (c.watchObj i .atomic (futureBlame 0 fva) 16)
        (k (.seq (.read fun s => .when (s.homeNat (pa + 8) 1 == 0) (writeHomeNat (pa + 8) 1 2)) (wakeObject c.lau.ctx 1 pa))))
  let free : Act := .seq (freeTaskEnt c.lau.ctx h) (wakeGroups c.lau.ctx fun _ b => b.owner.toNat == h)
  if h == noTask then c.trap 0x43 0
  else c.settling
    (if c.grp.locks != 0 then c.trap 0x48 0
     else c.gated (some .dev) (.read fun s =>
       if !c.mayAdvanceTwice s then .seq (c.stall .quarter) (.due [.scratchScan (clusterOf c.core)])
       else .all [ endInterval c.gid, escape c.gid,
         void fun fill =>
           if c.grp.depth == 0 then claimOrEnd c (.seq fill free)
           else .all [fill, free, endInterval c.gid, acquireAct c.gid, returnTask c] ]))

/-! ## Waits without end (R320) -/

/-- Whether every condition of R320 holds for a context now. -/
def State.queuesDead (s : State) (ctx : Nat) : Bool :=
  let gs := s.groups.filter fun e => match s.launchOf e.1 with | some l => l.ctx == ctx | none => false
  !gs.isEmpty &&
  (gs.all fun e => match e.2.blocker with
    | some b => 3 ≤ b.kind && !b.woken && !(s.blockerAt ctx none (b.kind * 2 ^ 60 + b.va)).1 && e.2.halt.isNone
    | none => false) &&
  !(s.cores.any fun k => k.2.tasks.any fun t => t.1 / 256 == ctx && s.unstarted ctx t.2.toNat) &&
  !(s.ops.any fun e => e.2.ctx == ctx && e.2.phase != .done) &&
  (List.range (s.taskCap ctx)).all fun i => s.homeNat (s.taskAddr ctx i) 1 % 16 != 3 || !(s.blockerAt ctx none (s.taskEnt ctx i).blocker).1

/-- QUEUE_DEADLOCK (R320): after 10 µs, every waiting group traps with 0x42 at its instruction. -/
def execQueueDeadlock (ctx : Nat) (s : State) : Host.Outcome State Fault Refusal :=
  .next (Act.run (.read fun s =>
    match (s.ctx ctx).qdead with
    | none => .skip
    | some t =>
      if !s.queuesDead ctx then .updD .ctxs Ctx.init ctx fun x => { x with qdead := none }
      else if s.us < t + 10 then .skip
      else .seq (.updD .ctxs Ctx.init ctx fun x => { x with qdead := none })
        (.each (s.groups.filter fun e => match s.launchOf e.1 with | some l => l.ctx == ctx | none => false) fun e =>
          .each (List.range 4) fun n => .read fun s =>
            match Iss.of s e.1 n (.qpop 0 { sa := 63, buf := 0, off := 0 }), e.2.blocker with
            | some c, some b =>
              if c.sp.wait == .parkedTask then .all
                [ .upd .groups e.1 fun x => { x with blocker := none },
                  updTask ctx c.grp.thandle.toNat fun t => { t with state := 2, blocker := 0 },
                  { c with sp := { c.sp with wait := .ready } }.trapObj (objBlame (.qpop 0 { sa := 63, buf := 0, off := 0 }) 0x42 64 b.va) ]
              else .skip
            | _, _ => .skip)) s)

/-- GROUP_WAKE (R313): a woken group issues its waiting instruction again. -/
def execGroupWake (gid : Nat) (s : State) : Host.Outcome State Fault Refusal :=
  .next (Act.run (.read fun s => match s.group? gid with
    | some x => match x.blocker with
      | some b => .when b.woken (.seq (.put .groups gid { x with blocker := none })
          (.each (List.range 4) fun n => .upd .splits (splitKey gid n) fun y =>
            if y.wait == .parkedTask then { y with wait := .ready } else y))
      | none => .skip
    | none => .skip) s)

end Sys2Proof.Machine
end

