-- ==== Sys2Proof/Machine/Stop.lean ====
section
/-! DEFINITION. Stops (02_encoding.md R34, R37, R43, 16_traps.md R375, 19_debug_and_replay.md R410, R411, R416, R417): where a split
stops, why it must, halts for the debug core, resumption, replays, and what a wait depends on. -/

namespace Sys2Proof.Machine

open Sys2Proof

/-! ## Where a split stops -/

/-- Where a split may stop: a safe point, or an EXIT (R34, R37). -/
def isStopSite (i : Instr) : Bool := i.stop || (match i with | .exit _ => true | _ => false)

/-- A wait that R287 lists; time in it counts towards the residency timer when it is no SLEEP (R346). -/
def Wait.counts : Wait → Bool
  | .ready => false
  | .yield => false
  | .sleep _ => false
  | .delay _ => false
  | _ => true

/-! ## Resumption -/

/-- The splits of a group that nothing keeps any more go on from where they stopped, their instructions from their start (R43, R165, R199); what the others
wait for is looked at again.
[DEDUCED, log 110] -/
def resumeGroup (g : Nat) : Act := .read fun s =>
  match s.group? g, s.blockOf g with
  | some x, some b => .seq
    (.each (s.splitsOf g) fun n => .when (!s.mustStop g n)
      (.upd .splits (splitKey g n) fun y => match y.wait with
        | .stopped => { y with wait := .ready, stage := 0 }
        | .waitc _ _ _ => { y with wait := .ready, stage := 0 }
        | _ => y))
    (.when (!s.stopping g)
      (.due ([.recvResolve g, .barrierComplete false x.bid, .barrierComplete true b.tid] ++
        (match x.blocker with | some k => if k.woken then [.groupWake g] else [] | none => []))))
  | _, _ => .skip
/-! ## Starting a failed or parked operation again (R43, R110, R197, R265, R374) -/

def restartOp (id : Nat) : Act := .read fun s =>
  match Tab.ops.at id s with
  | none => .skip
  | some o => match o.instr with
    | .ldg _ => galPerform id
    | .stg _ => galPerform id
    | .atg _ => galPerform id
    | .cpy _ => restartCopy id
    | .cpymc _ => restartCopy id
    | .cpyred _ => restartCopy id
    | .tspawn _ _ _ => restartTask id
    | .tfill _ _ _ => restartTask id
    | .lkrel _ _ => restartTask id
    | i =>
      if isMemory i then startOp id
      else if isTileOp i then .seq (restartTile id) (.due [tileEvent id o])
      else if o.blocking then .del .ops id
      else .seq (.put .ops id { o with phase := .running, fail := none }) (.due [.producerComplete id])
/-- The failed operation ends as it stands: what it has not written keeps what it held (R374).
[DEDUCED, log 110] -/
def endFailed (id : Nat) : Act := .read fun s =>
  match Tab.ops.at id s with
  | some o => .seq (.when (isMemory o.instr) (clearPending o)) (endOp id)
  | none => .skip
/-- The parked producers of a split that resumes, in issue order (R43). -/
def replayParked (g n : Nat) : Act := .read fun s =>
  match s.split? g n with
  | some x => .each (x.outs.filterMap fun o => match Tab.ops.at o.op s with | some k => if k.phase == .parked then some o.op else none | none => none)
      restartOp
  | none => .skip

/-- A hold ends (R375): the splits of the block that it stopped replay their parked producers and go on. -/
def resumeBlock (gs : List Nat) : Act :=
  .each gs fun g => .read fun s => .seq
    (.each (s.splitsOf g) fun n => .when (!s.mustStop g n && (match s.split? g n with | some y => y.wait.long | none => false)) (replayParked g n))
    (resumeGroup g)

/-! ## Halts (R410, R411) -/

/-- The record of a halt without an access, at a text offset, with the slot of the group that brought it about.
[DEDUCED, log 112] -/
def haltFrame (s : State) (g pc : Nat) (cause : BitVec 8) (other : Nat) : List (BitVec 32) :=
  match s.launchOf g with
  | some l => groupRecord s g l pc { Blame.plain 1 cause 0 with oslot := other }
  | none => List.replicate 8 0

/-- The groups that a stop of a scope reaches beside the stopping one: its block, or those of its context on the cluster. -/
def haltReach (s : State) (g scope : Nat) (also : Option Nat) : List Nat :=
  match s.blockOf g, s.launchOf g with
  | some b, some l =>
    if scope == 1 then b.gids.filter (· != g)
    else if scope == 2 then (s.groups.filter fun e =>
      e.1 != g && (clusterOf (coreOf e.1) == clusterOf (coreOf g) || some (clusterOf (coreOf e.1)) == also) &&
      (match s.launchOf e.1 with | some k => k.ctx == l.ctx | none => false)).map (·.1)
    else []
  | _, _ => []

/-- A stop goes out to its scope (R411, R460): every other group that it reaches, and that is neither halted nor held for a trap, is to halt
with 0x53 (scope 3; the tag names the group that sends it). Their skid counts from now.
[DEDUCED, log 50] -/
def broadcast (g scope : Nat) (also : Option Nat) : Act := .read fun s =>
  .each ((haltReach s g scope also).filter fun k => match s.group? k with
      | some x => x.halt.isNone && !((List.range 4).any (s.held k))
      | none => false) fun k => .seq
    (.each (List.range 4) fun m => .upd .splits (splitKey k m) fun z => { z with skid := 0 })
    (requestHalt k { cause := 0x53, tag := word (slotOf g), scope := 3, frame := [], also := none })

/-- A GROUP HALTS at a split's stop (R410): the halt record, and the stop goes out to its scope. A stop that reached the group from
elsewhere (scope 3) names the group that sent it, and records the split's skid (R373, R460).
[DEDUCED, log 50] -/
def haltNow (g n : Nat) (q : HaltReq) : Act := .read fun s =>
  match s.group? g, s.split? g n with
  | some x, some y =>
    let pc := y.pc.toNat
    let h : Halt := { cause := q.cause, tag := if q.scope == 3 then word (min y.skid 255) else q.tag, split := n,
                      frame := if q.frame.isEmpty then haltFrame s g pc q.cause (if q.scope == 3 then q.tag.toNat else 0xFFFF) else q.frame }
    .all [ .put .groups g { x with halt := some h, stop := true, haltReq := none },
           .put .splits (splitKey g n) { y with wait := if y.wait.long then y.wait else .stopped },
           traceGroup 4 g q.cause pc 0,
           .when (q.scope != 3) (broadcast g q.scope q.also) ]
  | _, _ => .skip

/-- The debug core resumes a group (R411). -/
def unhalt (g : Nat) : Act := .read fun s =>
  match s.group? g with
  | some x => match x.halt with
    | some h => .all
      [ traceGroup 5 g h.cause (match s.split? g h.split with | some y => y.pc.toNat | none => 0) 0,
        .put .groups g { x with halt := none, stop := false },
        .each (s.splitsOf g) fun n => replayParked g n, resumeGroup g ]
    | none => .skip
  | none => .skip

/-! ## Waits that depend on a halted party (R375, R417) -/

/-- A group that counts as halted for those that wait on it. -/
def State.haltedOrHeld (s : State) (g : Nat) : Bool :=
  match s.group? g with
  | some x => x.halt.isSome || (s.splitsOf g).any fun n => s.held g n
  | none => false

def State.dependsOnHalted (s : State) (g : Nat) : Bool :=
  match s.group? g, s.blockOf g, s.launchOf g with
  | some x, some b, some l =>
    s.haltedOrHeld g || (s.splitsOf g).any fun n => match s.split? g n with
      | none => false
      | some y => match y.wait with
        | .barrier team _ _ => (s.barMembers x.bid b.tid team).any fun m => !(s.barOf b team).arrived.contains m && s.haltedOrHeld m
        | .parkedTask => (match x.blocker with
            | some k => handleGen k.owner.toNat != 0xFFF &&
                s.haltedOrHeld (gidOfSlot (s.taskEnt l.ctx (handleIdx k.owner.toNat)).runner)
            | none => false)
        | .recv => (s.splitsOf g).any fun m => match s.split? g m with | some z => z.wait == .stopped | none => false
        | .roll d _ => s.groups.any fun e => (match s.launchOf e.1 with | some k => k.ctx == (s.domain d).ctx.toNat | none => false) &&
            s.haltedOrHeld e.1
        | .journal => s.groups.any fun e => (match s.blockOf e.1 with | some k => k.lid == b.lid | none => false) && s.haltedOrHeld e.1
        | _ => false
  | _, _, _ => false

end Sys2Proof.Machine
end

