-- ==== Sys2Proof/Machine/Flow.lean ====
section
/-! DEFINITION. Branches, divergence and merging (12_execution_model.md R280 to R287, R297 to R300), EXIT, SLEEP and YIELD, WAITC
(08_copy_engine.md R199), TRAP, BRK, TRET and TINFO (16_traps.md R373, R374, R379), DBGMARK (19_debug_and_replay.md R427), and the timers
of waits (14_barriers_and_roll_call.md R346, R347). -/

namespace Sys2Proof.Machine

open Sys2Proof

/-! ## Branches (R297, R298) -/

/-- A branch target: PC + 4 × off, as a text byte offset (R297). -/
def branchTarget (c : Iss) (o : BitVec 19) : BitVec 32 := c.sp.pc + (o.signExtend 32) * 4
/-- Whether a target is an instruction place of the text (R24). -/
def inText (c : Iss) (t : BitVec 32) : Bool := t.toNat < c.lau.textSize && t.toNat % 4 == 0
/-- Go to a target, or trap with 0x06. -/
def Iss.goTo (c : Iss) (t : BitVec 32) (k : Act) : Act :=
  if inText c t then .all [c.advance, c.jump t, k] else c.trap 0x06 0
/-- The guard of BRA and CALL. -/
def Iss.taken (c : Iss) (g : BitVec 3) (neg : Bool) : Bool := c.grp.qreg g.toNat != neg

def execBra (sb : Bool) (g : BitVec 3) (neg : Bool) (o : BitVec 19) (s : State) : Host.Outcome State Fault Refusal :=
  issue (.bra sb g neg o) (fun c => if c.taken g neg then c.goTo (branchTarget c o) .skip else c.advance) s
def execCall (sb : Bool) (g : BitVec 3) (neg : Bool) (o : BitVec 19) (s : State) : Host.Outcome State Fault Refusal :=
  issue (.call sb g neg o) (fun c =>
    if c.taken g neg then c.goTo (branchTarget c o) (wrS c.gid 62 (c.sp.pc + 4)) else c.advance) s
def execRet (sb : Bool) (s : State) : Host.Outcome State Fault Refusal :=
  issue (.ret sb) (fun c => .read fun s => c.goTo (s.sreg c.gid 62) .skip) s
def execJmpi (sb : Bool) (a : BitVec 6) (s : State) : Host.Outcome State Fault Refusal :=
  issue (.jmpi sb a) (fun c => .read fun s => c.goTo (s.sreg c.gid a.toNat) .skip) s

/-! ## Divergence (R280, R284) -/

def Group.join (x : Group) (i : Nat) : Option JoinEnt := match i with | 0 => x.join0 | 1 => x.join1 | _ => x.join2
def Group.setJoin (x : Group) (i : Nat) (e : Option JoinEnt) : Group :=
  match i with | 0 => { x with join0 := e } | 1 => { x with join1 := e } | _ => { x with join2 := e }
/-- The lowest free join entry. -/
def Group.freeJoin (x : Group) : Option Nat := (List.range 3).find? fun i => (x.join i).isNone
/-- The lowest free split number. -/
def State.freeSplit (s : State) (g : Nat) : Option Nat := (List.range 4).find? fun n => (s.split? g n).isNone

/-- A push, a switch or a pop waits for the split's producers to complete; a failed one is reported (R284). -/
def Iss.completed (c : Iss) (s : State) (k : Act) : Act :=
  match (c.outOps s).find? fun e => e.2.phase != .done && !s.kept c.gid e.1 with
  | some (id, o) => if o.phase == .failed then lateTrap c id o else c.stall (.op id)
  | none => k

/-- The top of a serial stack, and the entries below it.
[DEDUCED, log 69] -/
def stackTop (xs : List StackEnt) : Option (StackEnt × List StackEnt) :=
  match xs.getLast? with
  | some e => some (e, xs.dropLast)
  | none => none

def execBrp (sb : Bool) (g : BitVec 3) (neg : Bool) (o : BitVec 19) (s : State) : Host.Outcome State Fault Refusal :=
  issue (.brp sb g neg o) (fun c => .read fun s =>
    let p := s.preg c.gid g.toNat
    let m := c.sp.mask
    let t := m &&& (if neg then ~~~p else p)
    let target := branchTarget c o
    if t == 0 then c.advance
    else if !inText c target then c.trap 0x06 0
    else if t == m then .seq c.advance (c.jump target)
    else match s.freeSplit c.gid, c.grp.freeJoin with
    | some n, some e => .all
      [ c.advance,
        .upd .groups c.gid fun x => x.setJoin e (some { oldJ := c.sp.j, oldEnt := c.sp.jent }),
        .read fun s => match s.split? c.gid c.n with
          | some y => .seq
              (.put .splits (splitKey c.gid n) { y with pc := target, mask := t, j := m, jent := some e, stack := [], wait := .ready })
              (.put .splits c.key { y with mask := m &&& ~~~t, j := m, jent := some e })
          | none => .skip ]
    | _, _ =>
      if 8 ≤ c.sp.stack.length then c.trap 0x05 0
      else c.completed s (.seq c.advance (.upd .splits c.key fun y =>
        { y with mask := m &&& ~~~t, stack := y.stack ++ [{ mask := t, fmt := c.sp.fmt, pc := target, token := 0, state := .unserved,
                                                            since := s.us, told := false }] }))) s

/-! ## Merging (R281, R282) -/

/-- The fmt of the path that holds the lowest lane. -/
def lowFmt (a : BitVec 64 × BitVec 32) (b : BitVec 64 × BitVec 32) : BitVec 32 :=
  if a.1 == 0 then b.2 else if b.1 == 0 then a.2 else if lowLane a.1 < lowLane b.1 then a.2 else b.2

/-- The smaller of two windows; none is LA = 15 (R41). -/
def minWindow : Option Nat → Option Nat → Option Nat
  | some a, some b => some (min a b)
  | some a, none => some a
  | none, b => b
/-- Enter a producer at its place in issue order. -/
def putOut (xs : List Out) (p : Out) : List Out := xs.takeWhile (fun o => o.op < p.op) ++ p :: xs.dropWhile fun o => o.op < p.op
/-- The outstanding producers of two splits that merge, in issue order (R41, R43). -/
def mergeOuts (xs ys : List Out) : List Out :=
  (ys.filter fun p => !(xs.any fun o => o.op == p.op)).foldl putOut (xs.map fun o => match ys.find? fun p => p.op == o.op with
    | some p => { o with rem := minWindow o.rem p.rem }
    | none => o)

/-- The splits of a group that wait at a RECV with an empty stack, ascending; one that is held for a trap stays as it is (R281, R375). -/
def State.recvWaiters (s : State) (g : Nat) : List (Nat × Split) :=
  (s.splitsOf g).filterMap fun n => match s.split? g n with
    | some x => if x.wait == .recv && x.stack.isEmpty && !s.held g n then some (n, x) else none
    | none => none

/-- A split whose mask is J ∩ live mask undoes the divergence that set its J (R281). -/
def undone (x : Group) (y : Split) : Option (Group × Split) :=
  match y.jent with
  | none => none
  | some e =>
    if y.mask != y.j &&& x.live then none
    else match x.join e with
      | some k => some (x.setJoin e none, { y with j := k.oldJ, jent := k.oldEnt })
      | none => none

/-- The first application of rule 1: the merged or undone split, and the splits that leave. -/
inductive Rule1 where
  | merge (n : Nat) (y : Split) (gone : List Nat)
  | undo (n : Nat) (x : Group) (y : Split)

def rule1 (x : Group) (ws : List (Nat × Split)) : List (Nat × Split) → Option Rule1
  | [] => none
  | (n, y) :: rest =>
    let same := ws.filter fun e => n < e.1 && e.2.pc == y.pc && e.2.j == y.j
    if !same.isEmpty then
      let m := same.foldl (fun (a : Split) e => { a with fmt := lowFmt (a.mask, a.fmt) (e.2.mask, e.2.fmt), mask := a.mask ||| e.2.mask,
                                                         outs := mergeOuts a.outs e.2.outs }) y
      some (.merge n m (same.map (·.1)))
    else match undone x y with
      | some (x', y') => some (.undo n x' y')
      | none => rule1 x ws rest

/-- RECV_RESOLVE: the two rules of R281, rule 1 first, until neither applies; rule 2 looks at every waiting split at once.
[DEDUCED, log 70] -/
def resolveRecv (g : Nat) : Nat → Act
  | 0 => .skip
  | fuel + 1 => .read fun s =>
    match s.group? g with
    | none => .skip
    | some x =>
      let ws := s.recvWaiters g
      match rule1 x ws ws with
      | some (.merge n m gone) => .all
        [ .put .splits (splitKey g n) m, .each gone fun k => .del .splits (splitKey g k),
          .each (s.opsOf g) fun e => if gone.contains e.2.split then .put .ops e.1 { e.2 with split := n } else .skip, resolveRecv g fuel ]
      | some (.undo n x' y) => .all [.put .groups g x', .put .splits (splitKey g n) y, resolveRecv g fuel]
      | none =>
        let running := (s.splitsOf g).filterMap fun n => match s.split? g n with
          | some y => if y.wait == .recv then none else some y.mask
          | none => none
        .each (ws.filter fun e => !(running.any fun m => m &&& ~~~e.2.j == 0)) fun e => passSplit g e.1 (.recv false 0)

def execRecvResolve (gid : Nat) (s : State) : Host.Outcome State Fault Refusal :=
  .next (Act.run (.read fun s => if s.stopping gid then .skip else resolveRecv gid 32) s)

/-- A RECV at its place: a switch, a pop, a no-op, or the wait (R281, R284). Entries whose lanes have all exited are dropped. -/
def recvAt (c : Iss) (t : BitVec 16) : Nat → Act
  | 0 => .skip
  | fuel + 1 => .read fun s =>
    match stackTop c.sp.stack with
    | none => .seq (c.stall .recv) (.due [.recvResolve c.gid])
    | some (e, rest) =>
      if e.mask == 0 && e.state == .unserved then recvAt { c with sp := { c.sp with stack := rest } } t fuel
      else match e.state with
      | .unserved => c.completed s (.seq c.advance (.upd .splits c.key fun y =>
          { y with mask := e.mask, fmt := e.fmt, pc := e.pc,
                   stack := rest ++ [{ mask := c.sp.mask, fmt := c.sp.fmt, pc := c.sp.pc, token := t, state := .waiting, since := s.us,
                                       told := false }] }))
      | .waiting =>
        if e.pc == c.sp.pc && e.token == t then
          c.completed s (recvAt { c with sp := { c.sp with stack := rest, mask := c.sp.mask ||| e.mask,
                                                           fmt := lowFmt (c.sp.mask, c.sp.fmt) (e.mask, e.fmt) } } t fuel)
        else c.advance

def execRecv (sb : Bool) (t : BitVec 16) (s : State) : Host.Outcome State Fault Refusal := issue (.recv sb t) (fun c => recvAt c t 16) s

/-! ## EXIT (R286, R312) -/

/-- The issuing split's lanes leave: the live mask, and every other split's J and stack masks lose them; the split goes on with a path of
its stack, or is gone (R284, R286).
[DEDUCED, log 69; DEDUCED, log 137] -/
def leaveLanes (c : Iss) : Act := .read fun s =>
  let m := c.sp.mask
  let drop (y : Split) : Split := { y with j := y.j &&& ~~~m, stack := y.stack.map fun e => { e with mask := e.mask &&& ~~~m } }
  let join (e : Option JoinEnt) : Option JoinEnt := e.map fun k => { k with oldJ := k.oldJ &&& ~~~m }
  let alive := (drop c.sp).stack.filter fun e => e.mask != 0
  .all [ .upd .groups c.gid fun x => { x with live := x.live &&& ~~~m, join0 := join x.join0, join1 := join x.join1, join2 := join x.join2,
                                                  shadow := none },
         .each (s.splitsOf c.gid) fun n => .upd .splits (splitKey c.gid n) drop,
         (match stackTop alive with
          | some (e, rest) => .upd .splits c.key fun y =>
              { y with mask := e.mask, fmt := e.fmt, pc := (match e.state with | .unserved => e.pc | .waiting => e.pc + 4), stack := rest }
          | none => .del .splits c.key),
         .due [.recvResolve c.gid],
         .read fun s => match (s.splitsOf c.gid).find? fun n => match s.split? c.gid n with
             | some y => (match y.wait with | .barrier _ _ _ => true | _ => false)
             | none => false with
           | some n => match Iss.of s c.gid n (.bar false false) with
             | some d => tryArrive d (.bar false false)
             | none => .skip
           | none => .skip ]

/-- The final EXIT of a group without a task (R286, R310, R328). -/
def endGroup (c : Iss) : Act := c.settling
  (if c.grp.locks != 0 then c.trap 0x48 0
   else c.gated (some .dev) (.read fun s =>
     if !c.mayAdvanceTwice s then .seq (c.stall .quarter) (.due [.scratchScan (clusterOf c.core)])
     else claimOrEnd c (.seq (endInterval c.gid) (escape c.gid))))

/-- An EXIT or a TEND that takes effect in a handler ends it: its group is in it no more, and the hold of its block may end (R375).
[DEDUCED, log 137] -/
def endingHandler (c : Iss) (a : Act) : Act :=
  if c.inHandler then .seq a (.read fun s => .when (match s.group? c.gid with | some x => x.shadow.isNone | none => true)
    (resumeBlock c.blk.gids)) else a

def execTend (sb : Bool) (s : State) : Host.Outcome State Fault Refusal :=
  issue (.tend sb) (fun c => endingHandler c (endTask c (.tend sb))) s
def execExit (sb : Bool) (s : State) : Host.Outcome State Fault Refusal :=
  issue (.exit sb) (fun c => endingHandler c (.read fun s =>
    if c.grp.live &&& ~~~c.sp.mask == 0 then (if c.grp.thandle.toNat == noTask then endGroup c else endTask c (.exit sb))
    else
      let go : Act := c.gated (some .dev) (.all [c.advance, endInterval c.gid, escape c.gid, leaveLanes c])
      if c.sp.stack.isEmpty then go else c.completed s go)) s

/-! ## SLEEP, YIELD (R299) -/

def execSleep (sb : Bool) (n : BitVec 20) (s : State) : Host.Outcome State Fault Refusal :=
  uform (.sleep sb n) (fun c s => .when (n != 0)
    (.upd .splits c.key fun y => { y with wait := .sleep (s.dev.cycle.toNat + n.toNat) })) s
/-- SLEEP_END: the ac of a SLEEP have passed. -/
def execSleepEnd (gid split : Nat) (s : State) : Host.Outcome State Fault Refusal :=
  .next (Act.run (.read fun s => .upd .splits (splitKey gid split) fun y => match y.wait with
    | .sleep t => if t ≤ s.dev.cycle.toNat then { y with wait := if s.mustStop gid split then .stopped else .ready } else y
    | _ => y) s)
def execYield (sb : Bool) (s : State) : Host.Outcome State Fault Refusal :=
  uform (.yield sb) (fun c _ => .upd .splits c.key fun y => { y with wait := .yield }) s

/-! ## WAITC (R199) -/

/-- The operations that a wait counts when it issues: the earliest that have to end for the counter to reach the limit. -/
def countedOps (s : State) (g path limit : Nat) : List (Nat × Op) :=
  let mine := s.pathOps g path
  if 63 ≤ limit then [] else mine.take (mine.length - limit)
/-- The counted operations as the first id and one more than the last: kept while the split waits, taken anew when the instruction runs again
from its start. -/
def countedIds (s : State) (c : Iss) (p n : Nat) : Nat × Nat :=
  match (match c.sp.wait with | .waitc q first _ => if q == p && c.sp.stage != 0 then some (first, c.sp.stage) else none | _ => none) with
  | some r => r
  | none =>
    let ops := countedOps s c.gid p (s.sreg c.gid n).toNat
    ((ops.head?.map (·.1)).getD 0, (ops.getLast?.map (·.1 + 1)).getD 0)
/-- Whether a counted operation keeps its WAITC: it has not ended. A tile instruction behind a failed one is held unstarted, and keeps none
(R265). -/
def keepsWait (ops : List (Nat × Op)) (e : Nat × Op) : Bool :=
  e.2.phase != .done && e.2.phase != .failed && !(e.2.path == some 4 && ops.any fun f => f.1 < e.1 && f.2.phase == .failed)

def execWaitc (sb : Bool) (p : BitVec 3) (n : BitVec 6) (s : State) : Host.Outcome State Fault Refusal :=
  issue (.waitc sb p n) (fun c => .read fun s =>
    let r := countedIds s c p.toNat n.toNat
    let ops := (s.opsOf c.gid).filter fun e => e.2.path == some p.toNat && r.1 ≤ e.1 && e.1 < r.2
    if ops.any (keepsWait ops) then c.stallAt r.2 (.waitc p.toNat r.1 sb)
    else match ops.find? fun e => e.2.phase == .failed && !s.kept c.gid e.1 with
      | some (id, o) => lateTrap c id o
      | none => c.advance) s

/-! ## Traps by instruction, and the handler (R373, R374, R379) -/

/-- TRAP (R379). -/
def execTrap (sb : Bool) (code : BitVec 8) (s : State) : Host.Outcome State Fault Refusal :=
  issue (.trap sb code) (fun c => c.trapWith (.plain 1 0x56 0) (taskWords c.grp) (code.setWidth 32) 0) s
/-- BRK (R365, R379, R411): to the debug core when the launch asks for it and the debug core holds the context, else to the handler.
[DEDUCED, log 50] -/
def execBrk (sb : Bool) (tag : BitVec 16) (s : State) : Host.Outcome State Fault Refusal :=
  issue (.brk sb tag) (fun c => .read fun s =>
    if c.lau.flags.getLsbD 3 && (s.ctx c.lau.ctx).attached then c.stopped s
      (.read fun s => .all
        [ c.advance, haltNow c.gid c.n { cause := 0x50, tag := tag.setWidth 32, scope := 0,
                                         frame := haltFrame s c.gid c.sp.pc.toNat 0x50 0xFFFF, also := none } ])
    else c.trapWith (.plain 1 0x50 0) (taskWords c.grp) (tag.setWidth 32) 0) s

/-- An operation that the handler split issued and that has not ended.
[DEDUCED, log 109] -/
def handlerOp (s : State) (c : Iss) (sh : Shadow) : Option (Nat × Op) :=
  (s.opsOf c.gid).find? fun e => sh.since ≤ e.1 && e.2.split == c.n && e.2.phase != .done

/-- TRET (R374): the shadow is restored; the trapping instruction or the failed operation starts again, or is skipped. -/
def execTret (sb : Bool) (skip : Bool) (s : State) : Host.Outcome State Fault Refusal :=
  issue (.tret sb skip) (fun c => .read fun s =>
    match c.grp.shadow with
    | none => c.trap 0x07 0
    | some sh => match handlerOp s c sh with
      | some (id, o) => if o.phase == .failed then lateTrap c id o else c.stall (.op id)
      | none => .all
        [ c.advance, leaveHandler c sh (if skip && sh.kind == 0 then sh.resume + BitVec.ofNat 32 sh.length else sh.resume),
          .when (sh.kind == 1) (.with? sh.op fun id => if skip then endFailed id else restartOp id),
          replayParked c.gid c.n, resumeBlock c.blk.gids ]) s

/-- TINFO word n (R373). -/
def infoWord (sh : Shadow) (n : Nat) : BitVec 32 :=
  if n < 8 then (sh.frame[n]?).getD 0
  else match n with
  | 8 => (sh.words[0]?).getD 0
  | 9 => (sh.words[1]?).getD 0
  | 10 => (sh.words[2]?).getD 0
  | 11 => (sh.words[3]?).getD 0
  | 12 => sh.resume
  | 13 => sh.mask.extractLsb' 0 32
  | 14 => sh.mask.extractLsb' 32 32
  | 15 => word (sh.split + 4 * sh.kind)
  | 16 => sh.fmt
  | 17 => sh.code
  | 18 => sh.origin
  | 19 => sh.codeId.setWidth 32
  | _ => 0
def execTinfo (sb : Bool) (d n : BitVec 6) (s : State) : Host.Outcome State Fault Refusal :=
  issue (.tinfo sb d n) (fun c => match c.grp.shadow with
    | none => c.trap 0x07 0
    | some sh => .seq c.advance (wrS c.gid d.toNat (infoWord sh n.toNat))) s

/-! ## DBGMARK (R427) -/

/-- Progress counter `k` and its match value. -/
def Ctx.matchAt (x : Ctx) (k : Nat) : BitVec 16 := x.pmatch.extractLsb' (16 * k) 16
def Ctx.progress (x : Ctx) (v : BitVec 16) : Ctx :=
  let up (k : Nat) (p : BitVec 32) : BitVec 32 := if x.matchAt k == v then p + 1 else p
  { x with prog0 := up 0 x.prog0, prog1 := up 1 x.prog1, prog2 := up 2 x.prog2, prog3 := up 3 x.prog3 }
def execDbgmark (sb : Bool) (v : BitVec 16) (s : State) : Host.Outcome State Fault Refusal :=
  issue (.dbgmark sb v) (fun c => .read fun s =>
    if s.traceHeld c.lau.ctx then c.stall .trace
    else .all [ c.advance, traceGroup 1 c.gid 0 c.sp.pc.toNat v.toNat, .updD .ctxs Ctx.init c.lau.ctx fun x => x.progress v ]) s

/-! ## Residency timers and the group timer (R290, R346, R347) -/

/-- Since when a group waits, in µs; none when it does not. -/
def State.waited (s : State) (g : Nat) : Option Nat := (s.group? g).bind fun x => x.waitStart.map fun t => s.us - t

/-- CLOCK_GATE (R346): a group that has waited 2 µs is gated; nothing else changes. -/
def execClockGate (gid : Nat) (s : State) : Host.Outcome State Fault Refusal :=
  .next (Act.run (match s.waited gid with
    | some t => .when (2 ≤ t) (.upd .groups gid fun x => { x with gated := true })
    | none => .skip) s)
/-- The groups of a core. -/
def State.groupsOn (s : State) (core : Nat) : List (Nat × Group) := Sparse.range (core * 96) (core * 96 + 96) s.groups
/-- CORE_RETENTION (R346): a core whose every group has waited 100 µs keeps its contents and sleeps. -/
def execCoreRetention (core : Nat) (s : State) : Host.Outcome State Fault Refusal :=
  .next (Act.run (.when (!(s.groupsOn core).isEmpty && (s.groupsOn core).all fun e => match s.waited e.1 with
      | some t => 100 ≤ t
      | none => false)
    (.updD .cores CoreRec.init core fun k => { k with retention := true })) s)

/-- What a waiting split waits for, as the event of R347 names it: kind, object, and two more words.
[DEDUCED, log 71] -/
def waitEvent (s : State) (g : Nat) (x : Group) (y : Split) : Nat × Nat × BitVec 32 × BitVec 32 :=
  match y.wait with
  | .barrier team _ _ => match s.blockOf g with
    | some b => (1, b2n team, word (s.barOf b team).arrived.length, 0)
    | none => (1, b2n team, 0, 0)
  | .roll d _ => (2, d, (s.domain d).phase, word (s.census d))
  | .parkedTask => (3, match x.blocker with | some b => b.va | none => 0, 0, 0)
  | .waitc p _ _ => (4, p, 0, 0)
  | _ => (6, 0, 0, 0)
/-- The event of R347. -/
def postWait (s : State) (g : Nat) (l : Launch) (pc kind obj : Nat) (a b : BitVec 32) : Act :=
  postEvent [word (kind * 2 ^ 28 + l.ctx * 2 ^ 16 + l.inc * 256), word (slotOf g), word (obj % 2 ^ 32), word (obj / 2 ^ 32), siteOf s l pc, a, b,
             s.window32]
/-- A path of a split's stack that has been held for HANGTHR and not reported. -/
def heldPath (s : State) (y : Split) : Bool := y.stack.any fun e => !e.told && s.dev.hangthr.toNat ≤ s.us - e.since

/-- WAIT_EXCEEDED (R347): a wait, or a held path, has lasted HANGTHR; one event is posted, and the group keeps waiting. -/
def execWaitExceeded (gid split : Nat) (s : State) : Host.Outcome State Fault Refusal :=
  .next (Act.run (match s.group? gid, s.split? gid split, s.launchOf gid with
    | some x, some y, some l =>
      if s.dev.hangthr == 0 || s.dependsOnHalted gid then .skip
      else
        let t := (s.waited gid).getD 0
        let e := waitEvent s gid x y
        .seq (.when (s.dev.hangthr.toNat ≤ t && !x.hung && y.wait.counts && x.waitStart.isSome)
            (.seq (.put .groups gid { x with hung := true }) (postWait s gid l y.pc.toNat e.1 e.2.1 e.2.2.1 e.2.2.2)))
          (.when (heldPath s y)
            (.seq (.put .splits (splitKey gid split) { y with stack := y.stack.map fun k =>
                if s.dev.hangthr.toNat ≤ s.us - k.since then { k with told := true } else k })
              (postWait s gid l y.pc.toNat 5 0 0 0)))
    | _, _, _ => .skip) s)

/-- Whether a group's timer has reached its threshold (R290). -/
def State.overTimer (s : State) (x : Group) : Bool := x.gtthr != 0 && x.gtthr.toNat * 4096 ≤ s.groupTimer x
/-- GROUP_TIMER_THRESHOLD (R290): GTTHR becomes 0, and the trap 0x58 waits for the next safe point. -/
def execGroupTimerThreshold (gid : Nat) (s : State) : Host.Outcome State Fault Refusal :=
  .next (Act.run (match s.group? gid with
    | some x => .when (s.overTimer x) (.put .groups gid { x with gtthr := 0, gttPending := true })
    | none => .skip) s)

end Sys2Proof.Machine
end

