-- ==== Sys2Proof/Machine/SliceEvents.lean ====
section
/-! DEFINITION. The steps of the home slices, the memory controllers, the walkers and the fault rings
(03_stacks_and_home_slices.md R62, R70 to R73, R84, R85, R91 to R93; 04_addressing.md R104, R105, R107 to R110, R113;
07_memory_model.md R182). -/

namespace Sys2Proof.Machine

open Sys2Proof

/-! ## Registrations (R84, R85) -/

/-- A request goes on, and its operation with it when that was its last answer. -/
def stepRequest (req : Nat) (k : Nat → Req → Act) : Act := .read fun s =>
  match Tab.reqs.at req s with
  | some q => .seq (k req q) (settleChecks q.op)
  | none => .skip

def execRegistration (req : Nat) (s : State) : Host.Outcome State Fault Refusal := .next ((stepRequest req handleRequest).run s)
def execLivenessProbe (req : Nat) (s : State) : Host.Outcome State Fault Refusal := .next ((stepRequest req handleProbe).run s)
def execProbeAnswer (req : Nat) (s : State) : Host.Outcome State Fault Refusal := .next ((stepRequest req handleAnswer).run s)

/-! ## Write-backs and sectors (R62, R70 to R72) -/

/-- WRITE_BACK (R70, R72): bytes of an L1 are merged at the home slice, and dropped there when their tag is stale; a slice writes a dirty
sector to its controller, where it is dropped when its tag is stale, and lets go of a clean one.
[DESIGN CHOICE, log 37] -/
def execWriteBack (w : WriteBackRef) (s : State) : Host.Outcome State Fault Refusal :=
  .next (Act.run (match w with
    | .fromL1 id => match Tab.wbs.at id s with
      | some b => landWriteBack id b
      | none => .skip
    | .fromSlice sector => match Tab.l2.at sector s with
      | some e =>
        if s.stale (.slice (homeSlice (sector * 32))) e.ctx e.inc || !e.dirty then .del .l2 sector
        else if s.pausedAt (sector * 32) then .due [.writeBack w]
        else .seq (storeLine sector e) (.put .l2 sector { e with dirty := false })
      | none => .skip) s)

/-- MEMORY_RESPONSE (R62): a sector that its slice does not hold comes from the controller, good, corrected, or uncorrectable and so
poisoned, its MARK with it. The controller drops a request whose tag is stale there (R71).
[DESIGN CHOICE, log 42] -/
def execMemoryResponse (sector : Nat) (st : SectorStatus) (s : State) : Host.Outcome State Fault Refusal :=
  let pa := sector * 32
  let own := s.lineTag sector
  .next (Act.run (
    if s.held? sector || !isHomed pa || s.stale (.controller (stackOf pa)) own.1 own.2 then .skip
    else if s.pausedAt pa then .due [.memoryResponse sector st]
    else
      let bad := if st == .uncorrectable then BitVec.allOnes 32 else Tab.poison.val 0 sector s
      let hbm := isHbm pa
      .all [ .put .l2 sector { ctx := own.1, inc := own.2, data := s.cells sector, dirty := false, poison := bad },
             .put .poison sector bad,
             .when (st == .uncorrectable && hbm && (Tab.marks.at sector s).isNone && (MarkRec.ofBits (Tab.side.val 0 sector s)).valid)
               (.due [.markStructureError (.side sector)]),
             .when (st == .corrected) (.due [.correctedError (if hbm then 1 else 2) (if hbm then stackOf pa else fld pa 40 4 - 1) pa]) ]) s)

/-! ## Quarters (R91 to R93) and windows (R182) -/

def execQuarterNotice (slot : Nat) (u : NoticeUnit) (s : State) : Host.Outcome State Fault Refusal := .next ((handleNotice slot u).run s)
def execQuarterNoticeAck (slot : Nat) (u : NoticeUnit) (s : State) : Host.Outcome State Fault Refusal :=
  .next ((handleNoticeAck slot u).run s)

/-- The notices of a slice that it has not acknowledged, with their quarters. -/
def State.fnoticesOf (s : State) (slice : Nat) : List (Nat × Nat) := Sparse.range (slice * 4) (slice * 4 + 4) s.fnotices
/-- FABRIC_QUARTER_NOTICE (R93): the slice clears every dead peer record, which does its part of every notice that it has; then it
acknowledges. -/
def execFabricQuarterNotice (slice : Nat) (s : State) : Host.Outcome State Fault Refusal :=
  .next (Act.run (.all
    [ sweepSlice slice fun ctx r => isPeerSlot r.slot.toNat && !s.recLive ctx slice r,
      .each (s.fnoticesOf slice) fun e => .put .fnotices e.1 (e.2 / 2 * 2 + 1), .due [.fabricQuarterNoticeAck slice] ]) s)
/-- FABRIC_QUARTER_NOTICE_ACK (R93): the notices for which the slice has done its part are acknowledged. -/
def execFabricQuarterNoticeAck (slice : Nat) (s : State) : Host.Outcome State Fault Refusal :=
  .next (Act.run (.each ((s.fnoticesOf slice).filter fun e => e.2 % 2 == 1) fun e => .del .fnotices e.1) s)

/-- The device's time in ns: its local clock, in a domain as the fabric core has set it (R182, R439).
[DESIGN CHOICE, log 105] -/
def State.timeNs (s : State) : Int := Int.ofNat (s.dev.ticks / nsTicks) + (if s.dev.domen then s.dev.clockAdj else 0)
/-- (t − E) div W (R182). -/
def State.windowDue (s : State) : Nat :=
  ((s.timeNs - (if s.dev.domen then Int.ofNat s.dev.epoch.toNat else 0)) / Int.ofNat (250 * 2 ^ s.dev.wk.toNat)).toNat

/-- WINDOW_ADVANCE (R93, R182): the counter takes its value, never going back; a new window quarter sends the fabric quarter notices; the
phases of spanning domains that wait for windows are looked at again. A counter above what the local clock gives, after the device has left a
domain, holds until the clock has passed it.
[DESIGN CHOICE, log 128] -/
def execWindowAdvance (s : State) : Host.Outcome State Fault Refusal :=
  let w := max s.dev.window s.windowDue
  .next (Act.run (.all
    [ .dev fun d => { d with window := w },
      .when (w / 16384 != s.dev.window / 16384)
        (.all [ .each (List.range 64) fun k => .updD .fnotices 0 (k * 4 + w / 16384 % 4) fun n => if n == 0 then fnote (w / 16384 * 16384) else n,
                .due ((List.range 64).map .fabricQuarterNotice) ]),
      .due (((s.domains.filter fun e => e.2.span && e.2.sentAt.isSome).map fun e => .phaseComplete e.1)) ]) s)

/-! ## Pages and translations (R73, R104, R105) -/

def execPagePurge (page count : Nat) (s : State) : Host.Outcome State Fault Refusal :=
  .next ((Act.each (pageSectors page count) purgeSector).run s)
def execPageMove (src dst count : Nat) (s : State) : Host.Outcome State Fault Refusal :=
  .next ((Act.each (List.range (count * 128)) fun i => moveSector (src * 128 + i) (dst * 128 + i)).run s)
def execPageTableWalk (walk : Nat) (s : State) : Host.Outcome State Fault Refusal := .next ((finishWalk walk).run s)

/-- Drop a context's entries of one TLB table that meet a virtual range. -/
def dropRange (t : Tab TlbEnt) (ctx va len : Nat) : Act := .read fun s =>
  .each ((t.get s).filter fun e => e.1 / 2 ^ 45 % 4096 == ctx && meetsRange (e.1 % 2 ^ 45 * 4096) (2 ^ e.2.size) va len) fun e => .del t e.1
/-- SHOOTDOWN (R104): every TLB drops the range; a walk in flight reads the tables as they are when it answers.
[DEDUCED, log 43] -/
def shootdown (ctx va len : Nat) : Act := .seq (dropRange .tlb1 ctx va len) (dropRange .tlb2 ctx va len)
def execShootdown (ctx va len : Nat) (s : State) : Host.Outcome State Fault Refusal := .next ((shootdown ctx va len).run s)

/-! ## Parks and the fault ring (R107 to R110) -/

/-- The parked operations of a context, oldest first. -/
def State.parkedOps (s : State) (ctx : Nat) : List (Nat × Op) := s.ops.filter fun e => e.2.ctx == ctx && e.2.phase == .parked
/-- Whether a record of an operation is not posted yet. -/
def Op.unposted (o : Op) : Bool := o.lines.any fun e => match e.2 with | .park _ _ posted => !posted | _ => false
/-- Whether a context's fault ring has room (R108). -/
def State.ringRoom (s : State) (ctx : Nat) : Bool :=
  let x := s.ctx ctx
  let n := x.frsize.toNat
  ringOn n && (x.frtail.toNat + 1) % 2 ^ n != x.frhead.toNat % 2 ^ n

/-- Post the record of a parked engine operation or instruction, written with the window counter of now. -/
def postRecord (id : Nat) (o : Op) (f : Failure) : Act := .read fun s =>
  .when (s.ringRoom o.ctx)
    (postFault o.ctx (f.frame.take 7 ++ [s.window32]) fun ok => .when ok
      (.upd .ops id fun o => { o with lines := o.lines.map fun e => match e.2 with
        | .park c b _ => (e.1, .park c b true)
        | t => (e.1, t) }))

/-- FAULT_RECORD_POST (R108): while the ring has room, those that could not post do so, in order. -/
def postWaiting (ctx : Nat) : Act := .read fun s =>
  .each ((s.parkedOps ctx).filter fun e => e.2.unposted) fun e => .read fun s =>
    if !s.ringRoom ctx then .skip
    else match e.2.fail with
      | some f => postRecord e.1 e.2 f
      | none => postParks e.1
def execFaultRecordPost (ctx : Nat) (s : State) : Host.Outcome State Fault Refusal := .next ((postWaiting ctx).run s)

/-- Whether a master may write a register of management space.
[DEDUCED, log 84] -/
def State.mayWrite (s : State) (master off : Nat) : Bool := s.granted master .store (mgmtBase + off) 8

/-- FRHEAD takes a value (R108); records that waited go in. -/
def setFrhead (ctx : Nat) (v : BitVec 20) : Act :=
  .seq (.updD .ctxs Ctx.init ctx fun x => { x with frhead := v }) (.due [.faultRecordPost ctx])
/-- FRHEAD_WRITE (R108): by a master that the access tables grant it. -/
def execFrheadWrite (master ctx : Nat) (v : BitVec 20) (s : State) : Host.Outcome State Fault Refusal :=
  .next (Act.run (.when (s.mayWrite master (0x10000010 + 64 * ctx)) (setFrhead ctx v)) s)

/-- Every parked instruction of a context retries its unfinished lanes, in issue order (R110). -/
def replayAll (ctx : Nat) : Act := .read fun s => .each (s.parkedOps ctx) fun e => restartOp e.1
def execReplay (ctx : Nat) (s : State) : Host.Outcome State Fault Refusal := .next ((replayAll ctx).run s)

/-- The first record of a parked memory operation, as a failure. -/
def parkFailure (s : State) (o : Op) : Option Failure :=
  match o.fail with
  | some f => some f
  | none => o.lines.findSome? fun e => match e.2 with
    | .park cause bad _ => some { cause := cause, frame := parkRecord s o e.1 cause bad, words := opWords s o, origin := 0 }
    | _ => none
/-- CONVERT (R110): the slot's oldest park ends as a trap with the cause of its first record. -/
def convertPark (ctx : Nat) (slot : BitVec 16) : Act := .read fun s =>
  match (s.parkedOps ctx).find? fun e => e.2.slot == slot with
  | some (id, o) => .with? (parkFailure s o) fun f => .seq (endEngine o) (failOp id f)
  | none => .skip
def execConvert (ctx : Nat) (slot : BitVec 16) (s : State) : Host.Outcome State Fault Refusal := .next ((convertPark ctx slot).run s)

/-! ## The fabric's response timer (R113) -/

/-- The lowest lane of an operation with a piece in a peer's window, and its line. -/
def remoteLane (o : Op) : Option (Nat × Nat) :=
  o.lines.findSome? fun e => match e.2 with
    | .ok l => if (peerOf (l * 128)).isSome then some (lowLane (o.lanesIn fun v => v == e.1), e.1) else none
    | _ => none
/-- Whether the peers of an operation can no longer be reached.
[DESIGN CHOICE, log 76] -/
def lostPeer (s : State) (o : Op) : Bool :=
  o.lines.any fun e => match e.2 with
    | .ok l => (match peerOf (l * 128) with | some p => !s.reachable p (l * 128) | none => false)
    | _ => false
/-- The bytes at the peer that a lost write or atomic addressed have any value.
[DESIGN CHOICE, log 76] -/
def freeBytes (o : Op) : Act :=
  .each (o.pieces.filter fun p => match o.psec p.vsec with | some sec => (peerOf (sec * 32)).isSome | none => false) fun p =>
    .each (List.range p.len) fun i => .free fun n => .with? (o.psec p.vsec) fun sec => putCell (sec * 32 + p.first + i) (Config.freeByte n)
/-- FABRIC_RESPONSE_TIMEOUT (R113): a request already sent to a peer that is now unreachable traps with 0x17.
[DESIGN CHOICE, log 76] -/
def execFabricResponseTimeout (op : Nat) (s : State) : Host.Outcome State Fault Refusal :=
  .next (Act.run (match Tab.ops.at op s with
    | some o =>
      if o.phase == .responding && lostPeer s o then
        match remoteLane o with
        | some (lane, line) => .all
          [ clearPending o, .when (memKind o.instr).write (freeBytes o),
            failOp op { cause := 0x17, frame := opRecord s o (o.blame 0x17 lane line), words := opWords s o, origin := 0 } ]
        | none => .skip
      else .skip
    | none => .skip) s)

end Sys2Proof.Machine
end

