-- ==== Sys2Proof/Machine/Ending.lean ====
section
/-! DEFINITION. Kills and reclaims (17_contexts_and_incarnations.md R390 to R394; 03_stacks_and_home_slices.md R95, 05_gallery.md R122,
14_barriers_and_roll_call.md R339), and the answer of a context control request (20_firmware_host_fabric.md R464). -/

namespace Sys2Proof.Machine

open Sys2Proof

/-! ## Mailbox responses (R429, R464) -/

/-- A response: header with TAG and STATUS, then the body (R429). -/
def responseWords (func : Nat) (tag : BitVec 16) (status : Nat) (body : List (BitVec 64)) : List (BitVec 64) :=
  let head := BitVec.ofNat 64 (func + tag.toNat * 2 ^ 16 + body.length % 8 * 2 ^ 32 + status * 2 ^ 56)
  (head :: body ++ List.replicate 8 0).take 8
/-- The request in service at a mailbox is answered. -/
def answerBox (core status : Nat) (body : List (BitVec 64)) : Act :=
  .updD .boxes Mailbox.init core fun m =>
    if m.busy then { m with busy := false, done := true, resp := responseWords m.func m.tag status body, func := 0, arg := 0, tag := 0 } else m
/-- A context control request waits until PSTAT is not 1 (R464). -/
def answerControl (ctx : Nat) : Act := .read fun s =>
  let m := Tab.boxes.val Mailbox.init 1 s
  let x := s.ctx ctx
  .when (m.busy && m.func == 0x0103 && m.arg == ctx && x.pstat != 1)
    (answerBox 1 0 [BitVec.ofNat 64 (x.controlReg 0), x.pstat.setWidth 64])
/-- The result of a PCTL is known. -/
def endControl (ctx : Nat) (pstat : BitVec 8) (f : Ctx → Ctx) : Act :=
  .seq (.updD .ctxs Ctx.init ctx fun x => { f x with pstat := pstat }) (answerControl ctx)

/-! ## What a unit discards (R392) -/

def ofTag (ctx inc : Nat) (l : Option Launch) : Bool := match l with | some l => l.ctx == ctx && l.inc == inc | none => false

/-- A core discards a context's groups, tiles, frames, tasks and lines, and retires the local indices and engine slots they held. -/
def discardCore (core ctx inc : Nat) : Act := .read fun s =>
  let gs := ((Sparse.range (core * 96) (core * 96 + 96) s.groups).filter fun e => ofTag ctx inc (s.launchOf e.1)).map (·.1)
  let slots := dedup ((s.ops.filter fun e => e.2.ctx == ctx && e.2.inc == inc && coreOf e.2.gid == core && 96 ≤ localOfSlot e.2.slot.toNat).map
    fun e => localOfSlot e.2.slot.toNat)
  let bs := ((s.blocksOn core).filter fun e => ofTag ctx inc (s.launch? e.2.lid))
  .all [ .each gs dropGroup, .each bs fun e => .seq (dropBlock e.1) (.upd .teams e.2.tid fun t => { t with blocks := t.blocks.filter (· != e.1) }),
         .each ((s.l1Lines core).filter fun e => e.2.ctx == ctx && e.2.inc == inc) fun e => .del .l1 (lineKey core e.1),
         .each ((Sparse.range (lineKey core 0) (lineKey (core + 1) 0) s.icache).filter fun e => e.2.ctx == ctx && e.2.inc == inc) fun e => .del .icache e.1,
         .each (s.wbs.filter fun e => e.2.core == core && e.2.ctx == ctx && e.2.inc == inc) fun e => .del .wbs e.1,
         .updD .cores CoreRec.init core fun k =>
           { k with retired := k.retired ++ ((gs.map localOf ++ slots).filter fun li => !(k.retired.any fun r => r.1 == li)).map (fun li => (li, ctx, inc)) },
         .when ((s.core core).tasks.any fun t => t.1 == tagKey ctx inc) (updTasks core fun ts => ts.filter fun t => t.1 != tagKey ctx inc) ]

/-- A cluster's TLBs and walks drop a tag. -/
def discardTlb (cluster ctx inc : Nat) : Act := .read fun s =>
  .all [ .each (s.tlb1.filter fun e => clusterOf (e.1 / 2 ^ 45 / 4096) == cluster && e.1 / 2 ^ 45 % 4096 == ctx && e.2.inc == inc) fun e => .del .tlb1 e.1,
         .each (s.tlb2.filter fun e => e.1 / 2 ^ 45 / 4096 == cluster && e.1 / 2 ^ 45 % 4096 == ctx && e.2.inc == inc) fun e => .del .tlb2 e.1,
         .each (s.walks.filter fun e => clusterOf e.2.core == cluster && e.2.ctx == ctx && e.2.inc == inc) fun e => .del .walks e.1 ]

/-- A record of a tag in a scratch overflow store: a foreign one, or one of a team of the tag. -/
def State.ofScratchTag (s : State) (ctx inc : Nat) : ScratchRec → Bool
  | .foreign _ _ _ c i => c == ctx && i == inc
  | .own team _ _ => match s.team? team with | some t => t.tag == tagKey ctx inc | none => false
/-- A Gallery control frees the FIFO entries, the records and the cached sectors of a tag; the queues keep their rows until RECLAIM (R330, R392).
[DEDUCED, log 83] -/
def discardGallery (cluster ctx inc : Nat) : Act := .read fun s => .all
  [ .each ((s.cluster cluster).fifo.filter fun f => f.2.1 == tagKey ctx inc) fun f =>
      .clear .fifo (fifoKey f.2.1 f.2.2.1 0) (fifoKey f.2.1 f.2.2.1 0 + 2 ^ 64),
    .updD .clusters Cluster.init cluster fun k => { k with overflow := k.overflow.filter fun r => !s.ofScratchTag ctx inc r },
    .each (s.gways.filter fun e => e.1 / 2 ^ 47 == cluster && e.2.ctx == ctx && e.2.inc == inc) fun e => .del .gways e.1 ]
/-- The FIFO rows of a tag's queues are free (R330). -/
def freeFifo (cluster ctx inc : Nat) : Act :=
  .updD .clusters Cluster.init cluster fun k => { k with fifo := k.fifo.filter fun f => f.2.1 != tagKey ctx inc }

/-- A home slice drops the queued requests of a tag (R71). -/
def discardRequests (slice ctx inc : Nat) : Act := .read fun s =>
  .each (s.reqs.filter fun e => homeSlice (e.2.sector * 32) == slice && e.2.ctx == ctx && e.2.inc == inc) fun e => .del .reqs e.1

/-- A copy engine ends the copies of a tag; their engine slots retire (R198). -/
def discardCopies (cluster ctx inc : Nat) : Act := .read fun s =>
  .each (s.ops.filter fun e => e.2.ctx == ctx && e.2.inc == inc && clusterOf (coreOf e.2.gid) == cluster && 96 ≤ localOfSlot e.2.slot.toNat &&
      (match e.2.instr with | .cpy _ => true | .cpymc _ => true | .cpyred _ => true | _ => false)) fun e =>
    .seq (.del .ops e.1) (.updD .cores CoreRec.init (coreOf e.2.gid) fun k =>
      { k with retired := k.retired ++ [(localOfSlot e.2.slot.toNat, ctx, inc)] })

/-- What a unit does with the state of a tag that it is told dead. -/
def discardAt (u : UnitRef) (ctx inc : Nat) : Act :=
  match u with
  | .core n => discardCore n ctx inc
  | .tlb c => discardTlb c ctx inc
  | .gallery c => discardGallery c ctx inc
  | .slice k => discardRequests k ctx inc
  | .copyEngine c => discardCopies c ctx inc
  | _ => .skip

/-! ## KILL (R390) -/

/-- A KILL begins: the context is killed at once, and every unit is told. One that finds the context free or killed is complete.
[DEDUCED, log 82] -/
def killContext (ctx : Nat) (cause : BitVec 8) (cmd : Option Nat) : Act := .read fun s =>
  let x := s.ctx ctx
  let done : Act := .with? cmd finishCmd
  if x.cstate == 0 || x.cstate == 5 then done
  else
    let inc := x.cinc.toNat
    .all [ .put .ctxs ctx
             { x with
               cstate := 5, lastkill := x.cinc, unrecl := x.unrecl + 1, unreclaimed := x.unreclaimed ++ [x.cinc],
               preempt := none, attached := false, qdead := none, savedTeams := [], savedBlocks := [], savedNotes := [], tracePost := [],
               pstat := if cause == 0x57 then 0x57 else if x.pstat == 1 then 2 else x.pstat },
           answerControl ctx, .read fun s => .each (s.savedOps.filter fun e => e.2.ctx == ctx) fun e => .del .savedOps e.1,
           .put .kills (tagKey ctx inc) { cause := cause, left := allUnits, cmd := cmd, revive := false },
           .due (allUnits.map fun u => .deadBroadcast u ctx inc) ]

/-- The next incarnation: the first after CINC that is not unreclaimed (R395). -/
def nextInc (x : Ctx) : BitVec 8 :=
  (((List.range 256).map fun i => x.cinc + 1 + BitVec.ofNat 8 i).find? fun i => i != x.cinc && !x.unreclaimed.contains i).getD x.cinc
/-- The pages that hold the page tables of a tree. -/
def State.tablePages (s : State) : Nat → Nat → List Nat
  | 0, _ => []
  | level + 1, base => base / 4096 :: (List.range 512).flatMap fun i =>
      let e := s.homeQuad (base + 8 * i)
      if bitAt e 0 && !bitAt e 2 then s.tablePages level (fld e 12 40 * 4096) else []
/-- A context is live under its next incarnation (R395), to which none of the pages of the killed one is mapped (R393): it has no page table.
[DEDUCED, log 136] -/
def reviveNow (ctx : Nat) : Act := .read fun s =>
  let x := s.ctx ctx
  let old := if x.root == 0 then [] else s.tablePages 5 x.root.toNat
  .all [ .put .tags (tagKey ctx (nextInc x).toNat) true, .dev fun d => { d with tables := d.tables.filter fun p => !old.contains p },
         endControl ctx 0 fun y => { y with cinc := nextInc x, cstate := 1, root := 0 } ]

/-- Every unit has acknowledged: the queues stop, the launches get their completion records, the command is complete.
[DEDUCED, log 82] -/
def endKill (ctx inc : Nat) (e : Ending) : Act := .read fun s =>
  let qs := (s.queues.filter fun q => q.2.ctx.toNat == ctx && q.2.inc.toNat == inc).map (·.1)
  let ls := s.launches.filter fun l => l.2.ctx == ctx && l.2.inc == inc
  .all [ .del .kills (tagKey ctx inc),
         .each qs fun q => .updD .queues Queue.init q fun k =>
           if k.qstat == 0 then { k with qstat := e.cause, qoff := k.qhead, chains := [], barrier := false } else k,
         .each ls fun l => .seq (completionRecord l.1 { l.2 with cause := e.cause } 0) (.del .launches l.1),
         .each (s.tts.filter fun t => t.2.ctx == ctx && t.2.inc == inc) fun t => .del .tts t.1,
         .each (s.teams.filter fun t => t.2.state == .pending && ls.any fun l => l.1 == t.2.lid) fun t => .del .teams t.1,
         .each (s.cmds.filter fun c => qs.contains c.2.q && some c.1 != e.cmd) fun c => .del .cmds c.1,
         .with? e.cmd finishCmd, .when e.revive (reviveNow ctx), kick, offerTeams ]

/-- DEAD_BROADCAST (R391, R392): the unit discards what it holds, ignores the tag from now on, and acknowledges. -/
def execDeadBroadcast (u : UnitRef) (ctx inc : Nat) (s : State) : Host.Outcome State Fault Refusal :=
  .next (Act.run (match Tab.kills.at (tagKey ctx inc) s with
    | none => .skip
    | some e =>
      if !e.left.contains u then .skip
      else
        let left := e.left.filter (· != u)
        .all [ discardAt u ctx inc, .put .deadAt (unitCode u * 2 ^ 20 + tagKey ctx inc) true,
               if left.isEmpty then endKill ctx inc e else .put .kills (tagKey ctx inc) { e with left := left } ]) s)

/-! ## RECLAIM (R393) -/

/-- A RECLAIM begins. One of an incarnation that is live, never killed or already reclaimed is complete. -/
def reclaimContext (ctx inc : Nat) (cmd : Option Nat) : Act := .read fun s =>
  if (s.ctx ctx).unreclaimed.contains (BitVec.ofNat 8 inc) && (Tab.reclaims.at (tagKey ctx inc) s).isNone then
    .seq (.put .reclaims (tagKey ctx inc) { cause := 0, left := allUnits, cmd := cmd, revive := false }) (.due [.reclaimComplete ctx inc])
  else .with? cmd finishCmd

/-- The head of a slice's spill log goes past its retired entries. -/
def trimLog (slice : Nat) : Act := .read fun s =>
  let sp := spillOf s slice
  let gone := (List.range (sp.tail - sp.head)).takeWhile fun i => (logEntry s slice (sp.head + i)).isNone
  .updD .spills { head := 0, tail := 0 } slice fun x => { x with head := x.head + gone.length }
/-- A home slice lets go of a tag (R95): requests, lines, entries, and log entries with the MARK of their HBM sectors; other contexts' stay
where they are. -/
def reclaimSlice (slice ctx inc : Nat) : Act := .read fun s =>
  let sp := spillOf s slice
  .all [ discardRequests slice ctx inc,
         .each (s.l2.filter fun e => homeSlice (e.1 * 32) == slice && e.2.ctx == ctx && e.2.inc == inc) fun e => .del .l2 e.1,
         .each (s.marks.filter fun e => homeSlice (e.1 * 32) == slice && e.2.ctx == ctx && e.2.inc == inc) fun e => .del .marks e.1,
         .each (List.range (sp.tail - sp.head)) fun i => .read fun s => .with? (logEntry s slice (sp.head + i)) fun w =>
           .when (fld w 47 12 == ctx && fld w 39 8 == inc)
             (.seq (.when (isHbm (w % 2 ^ 39 * 32)) (.updD .side 0 (w % 2 ^ 39) fun v => ({ MarkRec.ofBits v with valid := false } : MarkRec).bits))
               (retireEntry slice (sp.head + i))),
         trimLog slice ]
/-- The overflow area of a reclaimed incarnation (R89, R95): released whole, unless the context is live again or another of its incarnations is
not reclaimed; then the records of the sectors of the tag leave it.
[DEDUCED, log 83] -/
def releaseArea (ctx inc : Nat) : Act := .read fun s =>
  let x := s.ctx ctx
  let area : List Nat := match s.oaSets ctx with | some n => s.listedEntries x.oabase.toNat (128 * n) | none => []
  if (x.cstate == 0 || x.cstate == 5) && x.unreclaimed.all (· == BitVec.ofNat 8 inc) then
    .updD .ctxs Ctx.init ctx fun x => { x with oabase := 0, oasets := 0 }
  else .each (area.filter fun pa => let e := s.ovfEntry pa; e.1.valid && s.ownerOf (e.2.1 * 32) == (ctx, inc)) fun pa =>
    writeOvf pa MarkRec.empty 0 none

/-- The roll-call domains of a tag lose their stations and are given up; PHASE stays (R339). -/
def reclaimDomains (ctx inc : Nat) : Act := .read fun s =>
  .each (s.domains.filter fun e => e.2.en && e.2.ctx.toNat == ctx && e.2.inc.toNat == inc) fun e =>
    .seq (.clear .stations (stationKey e.1 0) (stationKey (e.1 + 1) 0))
      (.put .domains e.1 { e.2 with en := false, sentAt := none, got := [], gen := e.2.gen + 1 })

/-- RECLAIM_COMPLETE (R393): once no kill of the tag is under way, no unit holds anything of it; indices and pages are free.
[DEDUCED, log 83] -/
def execReclaimComplete (ctx inc : Nat) (s : State) : Host.Outcome State Fault Refusal :=
  .next (Act.run (match Tab.reclaims.at (tagKey ctx inc) s with
    | none => .skip
    | some e =>
      if (Tab.kills.at (tagKey ctx inc) s).isSome then .due [.reclaimComplete ctx inc]
      else
        let teams := s.teams.filter fun t => t.2.state != .pending && t.2.tag == tagKey ctx inc && t.2.blocks.isEmpty
        .all [ .each (List.range 64) fun k => reclaimSlice k ctx inc,
               .each (List.range 256) fun c => .seq (discardCore c ctx inc)
                 (.updD .cores CoreRec.init c fun k => { k with retired := k.retired.filter fun r => !(r.2.1 == ctx && r.2.2 == inc) }),
               .each (List.range 32) fun c => .all [discardTlb c ctx inc, discardGallery c ctx inc, freeFifo c ctx inc],
               .each teams fun t => dropTeam t.1, reclaimDomains ctx inc, releaseArea ctx inc,
               .each (s.pages.filter fun p => p.2.ctx == ctx && p.2.inc == inc) fun p => .del .pages p.1,
               .each allUnits fun u => .del .deadAt (unitCode u * 2 ^ 20 + tagKey ctx inc),
               .del .tags (tagKey ctx inc), .del .reclaims (tagKey ctx inc),
               .updD .ctxs Ctx.init ctx fun x =>
                 { x with unrecl := x.unrecl - 1, unreclaimed := x.unreclaimed.filter (· != BitVec.ofNat 8 inc) },
               .with? e.cmd finishCmd, offerTeams ]) s)

end Sys2Proof.Machine
end

