-- ==== Sys2Proof/Machine/Queue.lean ====
section
/-! DEFINITION. Command queues, launches, the Timetable and the Prefect (15_launch_and_scheduling.md R348 to R359, R362, R363;
18_reliability.md R396; 17_contexts_and_incarnations.md R390, R393). -/

namespace Sys2Proof.Machine

open Sys2Proof

/-! ## Packets (R350 to R353) -/

/-- A packet (R350). -/
structure Packet where
  op : Nat
  flags : Nat
  count : Nat
  param : Nat
  addr : Nat
  deriving DecidableEq, Repr

def Packet.of (w : Nat) : Packet :=
  { op := fld w 0 8, flags := fld w 8 8, count := fld w 16 16, param := fld w 32 32, addr := fld w 64 64 }
def Packet.barrier (p : Packet) : Bool := bitAt p.flags 0 || p.op == 5
def Packet.irq (p : Packet) : Bool := bitAt p.flags 1

/-- The alignment that an opcode asks of ADDR, 0 when ADDR is zero; whether COUNT, which PARAM and which FLAGS bits it uses (R351).
[DEDUCED, log 77] -/
def packetRule (op : Nat) : Option (Nat × Bool × Nat × Nat) :=
  match op with
  | 0 => some (0, false, 0, 3) | 1 => some (128, false, 0, 3) | 2 => some (64, true, 0, 3) | 3 => some (16, true, 0, 3)
  | 4 => some (8, false, 2 ^ 32 - 1, 7) | 5 => some (8, false, 2 ^ 32 - 1, 3) | 6 => some (1, false, 0, 3)
  | 7 => some (0, false, 2 ^ 32 - 1, 3) | 8 => some (0, false, 2 ^ 12 - 1, 3) | 9 => some (0, false, 2 ^ 20 - 1, 3)
  | _ => none
/-- The cause that stops the queue at a packet before it is tried (R353).
[DEDUCED, log 77] -/
def packetFault (k : Queue) (p : Packet) : Option (BitVec 8) :=
  match packetRule p.op with
  | none => some 0x01
  | some (al, cnt, par, fl) =>
    if (if al == 0 then p.addr != 0 else p.addr % al != 0) || (p.count != 0 && !cnt) || (p.op == 3 && p.count == 0) ||
       p.param &&& par != p.param || p.flags &&& fl != p.flags then some 0x02
    else if (p.op == 8 || p.op == 9) && !k.priv then some 0x07
    else if p.op == 3 && 4 ≤ k.chains.length then some 0x4C
    else none

/-- STOPPING A QUEUE (R353): QSTAT and QOFF, a RAS event; an open chain is given up, its started commands run on.
[DEDUCED, log 77; DEDUCED, log 78] -/
def stopQueue (q : Nat) (cause : BitVec 8) : Act := .read fun s =>
  let k := Tab.queues.val Queue.init q s
  let off := match k.chains.getLast? with
    | some (id, _, _) => (match Tab.cmds.at id s with | some c => BitVec.ofNat 32 c.ringIndex | none => k.qhead)
    | none => k.qhead
  .all [ .each k.chains fun c => .del .cmds c.1,
         .put .queues q { k with qstat := cause, qoff := off, chains := [], barrier := false },
         postRas { kind := 12, ctx := k.ctx.toNat, inc := k.inc.toNat, cause := 0, struct := 0, slot := 0xFFFF, pa := 0, site := 0, unit := q,
                   count := 0 } ]

/-- What a packet is when it is its queue's turn. -/
inductive Parse where
  | idle
  | stop (cause : BitVec 8)
  | hold
  | start (k : Queue) (p : Packet)

/-- The next packet of a queue (R349, R353). A BARRIER waits for every earlier command but the chains it stands in. -/
def State.parse (s : State) (q : Nat) : Parse :=
  let k := Tab.queues.val Queue.init q s
  if !s.parseable q then .idle
  else match nextPacket k with
  | none => .idle
  | some va => match s.readBy 0 k.ctx.toNat va 16 with
    | .error c => .stop c
    | .ok bs =>
      let p := Packet.of (natOfBytes bs)
      match packetFault k p with
      | some c => .stop c
      | none =>
        if p.barrier && s.cmds.any (fun e => e.2.q == q && !cmdOver s e.1 e.2 && !(k.chains.any fun c => c.1 == e.1)) then .hold
        else .start k p

/-- The command core moves past a packet: in its innermost chain, or in the ring. A chain whose last packet this is closes. -/
def movePast (q : Nat) (k : Queue) : Act :=
  match k.chains with
  | [] => .put .queues q { k with qhead := k.qhead + 1 }
  | (id, va, left) :: rest =>
    if left ≤ 1 then .seq (.put .queues q { k with chains := rest }) (.upd .cmds id fun c => { c with open_ := false })
    else .put .queues q { k with chains := (id, va + 16, left - 1) :: rest }

/-- A command starts: a record of it, past its packet; the queue goes on. `k` gets its number. -/
def startCmd (q : Nat) (p : Packet) (kind : CmdKind) (open_ : Bool) (k : Nat → Act) : Act := .fresh fun id => .read fun s =>
  let x := Tab.queues.val Queue.init q s
  let ring := match x.chains.getLast? with
    | some (c, _, _) => (match Tab.cmds.at c s with | some c => c.ringIndex | none => x.qhead.toNat)
    | none => x.qhead.toNat
  .all [ .put .cmds id { q := q, ringIndex := ring, parent := x.chains.head?.map (·.1), irq := p.irq, kind := kind, done := false, open_ := open_ },
         movePast q x, .dev fun d => { d with lastQ := q }, k id, kick ]

/-- One parse of a queue at a packet of an opcode: `k` starts the command, or gives the cause that stops the queue (R353).
[DEDUCED, log 78] -/
def parseAs (q op : Nat) (k : State → Queue → Packet → Except (BitVec 8) Act) : Act := .read fun s =>
  match s.parse q with
  | .idle => .skip
  | .stop c => .seq (stopQueue q c) kick
  | .hold => .updD .queues Queue.init q fun x => { x with barrier := true }
  | .start x p =>
    if p.op != op then kick
    else match k s x p with
      | .ok a => a
      | .error c => .seq (stopQueue q c) kick

/-- DOORBELL (R348): a granted write to QTAIL; while the command core hands over it waits (R431).
[DEDUCED, log 78] -/
def ringDoorbell (q : Nat) (v : BitVec 32) : Act := .seq (.updD .queues Queue.init q fun k => { k with qtail := v }) kick
/-- QTAIL takes a value, or the doorbell waits for the command core's hand-over (R431). -/
def setQtail (q : Nat) (v : BitVec 32) : Act := .read fun s =>
  if (Tab.fws.val FwCore.init 0 s).hand == 3 then .updD .fws FwCore.init 0 fun f => { f with held := f.held ++ [.doorbell q v] }
  else ringDoorbell q v
def execDoorbell (master q : Nat) (v : BitVec 32) (s : State) : Host.Outcome State Fault Refusal :=
  .next (Act.run (.when (q < 1024 && s.mayWrite master (0x60000018 + 64 * q)) (setQtail q v)) s)

/-! ## NOP, MARKER, WAIT, SIGNAL, COPY, CHAIN, KILL, RECLAIM (R351, R352) -/

/-- CMD_NOP: also the parse of a packet that cannot be read or has an unlisted opcode, which stops the queue. -/
def execCmdNop (q : Nat) (s : State) : Host.Outcome State Fault Refusal :=
  .next (Act.run (parseAs q 0 fun _ _ p => .ok (startCmd q p .nop false finishCmd)) s)
def execMarker (q : Nat) (s : State) : Host.Outcome State Fault Refusal :=
  .next (Act.run (parseAs q 7 fun s k p => .ok (startCmd q p .marker false fun id =>
    .seq (postTrace k.ctx.toNat (traceWords s 8 k.ctx.toNat k.inc.toNat 0 0 0xFFFF 0 0 p.param)) (finishCmd id))) s)

/-- A context's 64-bit word, read or written by the command core; the cause that it does not translate with, or that its row refuses it with
(R112).
[DEDUCED, log 79] -/
def wordAt (s : State) (ctx : Nat) (n : Need) (va : Nat) : Except (BitVec 8) Nat :=
  match s.translateFor ctx n va with
  | .ok pa => if s.fwMay 0 (if n == .store then .store else .load) pa 8 then .ok pa else .error 0x14
  | .error e => .error e.cause
/-- Whether a WAIT is satisfied. -/
def waitMet (atLeast : Bool) (v : BitVec 32) (w : Nat) : Bool := if atLeast then v.toNat ≤ w else w == v.toNat
def execWait (q : Nat) (s : State) : Host.Outcome State Fault Refusal :=
  .next (Act.run (parseAs q 4 fun s k p =>
    match wordAt s k.ctx.toNat .load p.addr with
    | .error c => .error c
    | .ok pa =>
      let v := word p.param
      .ok (startCmd q p (.wait p.addr v (bitAt p.flags 2) false) false fun id =>
        .when (waitMet (bitAt p.flags 2) v (s.homeQuad pa)) (finishCmd id))) s)
/-- An event that names an address of a context (R353, R357, R407). -/
def postAddress (ctx inc va : Nat) : Act := .read fun s =>
  postEvent [word (12 * 2 ^ 28 + ctx * 2 ^ 16 + inc * 256), 0xFFFF, word (va % 2 ^ 32), word (va / 2 ^ 32), 0, 0, 0, s.window32]
/-- WAIT_REREAD (R351, R353): every started WAIT of the queue reads its word again; one that no longer translates posts one event. -/
def execWaitReread (q : Nat) (s : State) : Host.Outcome State Fault Refusal :=
  let k := Tab.queues.val Queue.init q s
  .next (Act.run (.each (s.cmds.filter fun e => e.2.q == q && !e.2.done) fun e => match e.2.kind with
    | .wait va v g failed => .read fun s => match wordAt s k.ctx.toNat .load va with
      | .ok pa => .when (waitMet g v (s.homeQuad pa)) (finishCmd e.1)
      | .error _ => .when (!failed) (.seq (.put .cmds e.1 { e.2 with kind := .wait va v g true }) (postAddress k.ctx.toNat k.inc.toNat va))
    | _ => .skip) s)
def execSignal (q : Nat) (s : State) : Host.Outcome State Fault Refusal :=
  .next (Act.run (parseAs q 5 fun s k p =>
    match wordAt s k.ctx.toNat .store p.addr with
    | .error c => .error c
    | .ok pa => .ok (.seq (writeHomeNat pa 8 p.param) (startCmd q p .signal false finishCmd))) s)

/-- The physical bytes of a range for a master, or the cause that one of them fails with. -/
def rangeFor (s : State) (ctx master : Nat) (n : Need) (ask : Ask) (va : Nat) : Nat → Except (BitVec 8) (List Nat)
  | 0 => .ok []
  | len + 1 => match s.translateFor ctx n va with
    | .error e => .error e.cause
    | .ok pa => match s.accessFault master ask pa 1 with
      | some c => .error c
      | none => match rangeFor s ctx master n ask (va + 1) len with
        | .error c => .error c
        | .ok rest => .ok (pa :: rest)
/-- COPY (R351): the whole range is checked, then read, then written.
[DEDUCED, log 79] -/
def execCopy (q : Nat) (s : State) : Host.Outcome State Fault Refusal :=
  .next (Act.run (parseAs q 6 fun s k p =>
    match s.readBy 0 k.ctx.toNat p.addr 32 with
    | .error c => .error c
    | .ok bs =>
      let r := natOfBytes bs
      if fld r 192 64 != 0 then .error 0x02
      else match rangeFor s k.ctx.toNat 256 .load .load (fld r 0 64) (fld r 128 64) with
      | .error c => .error c
      | .ok src => match rangeFor s k.ctx.toNat 256 .store .store (fld r 64 64) (fld r 128 64) with
        | .error c => .error c
        | .ok dst => .ok (.seq (writeBytesAt 256 (dst.zip (src.map s.outerByte))) (startCmd q p .copy false finishCmd))) s)

/-- CHAIN (R352): the packets of the buffer are parsed next. -/
def execChain (q : Nat) (s : State) : Host.Outcome State Fault Refusal :=
  .next (Act.run (parseAs q 3 fun s k p =>
    match s.readBy 0 k.ctx.toNat p.addr 16 with
    | .error c => .error c
    | .ok _ => .ok (startCmd q p .chain true fun id =>
        .updD .queues Queue.init q fun x => { x with chains := (id, p.addr, p.count) :: x.chains })) s)

def execKill (q : Nat) (s : State) : Host.Outcome State Fault Refusal :=
  .next (Act.run (parseAs q 8 fun _ _ p => .ok (startCmd q p (.kill (p.param % 4096)) false fun id =>
    killContext (p.param % 4096) 0x59 (some id))) s)
def execReclaim (q : Nat) (s : State) : Host.Outcome State Fault Refusal :=
  .next (Act.run (parseAs q 9 fun _ _ p => .ok (startCmd q p (.reclaim (p.param % 4096) (fld p.param 12 8)) false fun id =>
    reclaimContext (p.param % 4096) (fld p.param 12 8) (some id))) s)

/-! ## Launch descriptors and code objects (R354 to R356, R396) -/

/-- The launch that a descriptor and a header describe, as numbers `d` and `h`. -/
def launchOfDesc (ctx inc : Nat) (src : LaunchSrc) (d h : Nat) : Launch :=
  let b (o n : Nat) : Nat := fld d (8 * o) (8 * n)
  let c (o n : Nat) : Nat := fld h (8 * o) (8 * n)
  { ctx := ctx, inc := inc, src := src, code := b 0 8, entry := b 8 4, gridx := b 12 4, gridy := b 16 4, gridz := b 20 4, gpb := b 24 1,
    width := b 25 1, vregs := 8 * b 26 1, tiles := b 27 1, gal := b 28 4, team := b 32 1, land := bitAt (b 33 1) 0, floor := b 34 1,
    prio := b 35 1, adopt := b 36 1, place := b 37 1, flags := BitVec.ofNat 16 (b 38 2), fmt := word (b 40 4), param := b 48 8, psize := b 56 4,
    landarea := b 64 8, journal := b 72 8, doneaddr := b 80 8, doneval := BitVec.ofNat 64 (b 88 8), codeId := BitVec.ofNat 16 (c 4 2),
    textOff := c 8 4, textSize := c 12 4, spOff := c 16 4, spCount := c 20 4, handler := c 24 4, nextTeam := 0, running := 0, cause := 0 }

/-- The values and reserved bytes of R354 and the limits of R355.
[DEDUCED, log 80] -/
def descValid (d : Nat) (l : Launch) : Bool :=
  let b (o n : Nat) : Nat := fld d (8 * o) (8 * n)
  l.code % 4096 == 0 && 1 ≤ l.gridx && 1 ≤ l.gridy && 1 ≤ l.gridz && l.blockCount ≤ 2 ^ 32 && 1 ≤ l.gpb && l.gpb ≤ 16 &&
  (l.width == 8 || l.width == 16 || l.width == 32 || l.width == 64) && 1 ≤ b 26 1 && b 26 1 ≤ 32 && l.tiles ≤ 128 && l.gal ≤ 2 ^ 23 &&
  1 ≤ l.team && l.team ≤ 8 && b 33 1 < 2 && l.floor ≤ 5 && l.prio ≤ 7 && l.adopt ≤ 3 && l.place ≤ 1 && b 38 2 < 16 && b 44 4 == 0 &&
  b 60 4 == 0 && b 96 32 == 0 && (l.land || l.landarea == 0) && (l.journals || l.journal == 0) && l.doneaddr % 16 == 0 &&
  l.fmt.toNat < 2 ^ 24 && fld l.fmt.toNat 10 2 != 3 && l.gpb * l.width ≤ 4096 && l.vregs * l.width * l.gpb ≤ 131072
/-- A header that keeps R356. -/
def headerValid (h : Nat) (l : Launch) : Bool :=
  fld h 0 32 == 0x4F435454 && fld h 48 16 == 0 && l.textOff % 4096 == 0 && l.spOff % 64 == 0 && fld h 288 224 == 0
/-- The landing pool of a launch keeps R396.
[DEDUCED, log 80; DEDUCED, log 138] -/
def landValid (s : State) (l : Launch) : Bool :=
  !l.land ||
  (l.landarea % 4096 == 0 &&
   (match s.readVirt l.ctx l.landarea 4096 with | .ok bs => (bs.drop 16).all (· == 0) | .error _ => false) &&
   1 ≤ landSlots s l && landSlots s l ≤ 2 ^ 20 && landRows s l ≤ 8192 && landSize s l % 4096 == 0 &&
   (256 + l.gpb * l.grec + l.tiles * 2048 + landRows s l * 1028 + 4095) / 4096 * 4096 ≤ landSize s l)

/-- A launch from a descriptor, with its checks (R355); the cause that it cannot be read. -/
def readLaunch (s : State) (ctx inc : Nat) (src : LaunchSrc) (va : Nat) : Except (BitVec 8) (Launch × Bool) :=
  match s.readBy 0 ctx va 128 with
  | .error c => .error c
  | .ok bs =>
    let d := natOfBytes bs
    match s.readBy 0 ctx (fld d 0 64) 64 with
    | .error c => .error c
    | .ok hs =>
      let h := natOfBytes hs
      let l := launchOfDesc ctx inc src d h
      .ok (l, descValid d l && headerValid h l && isEntry s l l.entry && landValid s l)

/-- A launch starts: the next launch id; rejected, it ends with 0x4B at once; else its teams are offered (R355, R360). -/
def beginLaunch (l : Launch) (ok : Bool) : Act := .read fun s =>
  let lid := s.dev.nextLaunch.toNat
  .all [ .dev fun d => { d with nextLaunch := d.nextLaunch + 1 },
         if ok then .seq (.put .launches lid l) (.due [.teamPlacement lid])
         else .seq (.put .launches lid { l with cause := 0x4B, nextTeam := l.teamCount, doneaddr := if l.doneaddr % 16 == 0 then l.doneaddr else 0 })
           (.due [.launchComplete lid]) ]

def execLaunch (q : Nat) (s : State) : Host.Outcome State Fault Refusal :=
  .next (Act.run (parseAs q 1 fun s k p =>
    match readLaunch s k.ctx.toNat k.inc.toNat (.cmd 0) p.addr with
    | .error c => .error c
    | .ok (l, ok) => .ok (startCmd q p .launch false fun id => beginLaunch { l with src := .cmd id } ok)) s)

/-! ## The Timetable (R358, R359) -/

/-- A node as a number of 64 bytes. -/
def nodeAt (s : State) (ctx va i : Nat) : Nat := s.virtNat ctx (va + 64 * i) 64
def nodePred (n : Nat) : Nat := fld n 64 16
def nodeLeft (n : Nat) : Nat := fld n 80 16
def nodeState (n : Nat) : Nat := fld n 112 8
def nodeSucc (n : Nat) : List Nat := (List.range (fld n 96 16)).map fun k => fld n (128 + 16 * k) 16
def putNode (t : Timetable) (i off : Nat) (bs : List Byte) : Act := writeVirt t.ctx (t.va + 64 * i + off) bs
/-- STATE of a node; a failed one gets its CAUSE too. -/
def putState (t : Timetable) (i st : Nat) (cause : BitVec 8) : Act :=
  putNode t i 14 (if st == 3 then [BitVec.ofNat 8 st, cause] else [BitVec.ofNat 8 st])

/-- The check of a node table (R359).
[DEDUCED, log 81] -/
def tableValid (ns : List Nat) : Bool :=
  let succ := ns.map nodeSucc
  (ns.zipIdx).all fun e =>
    let mine := nodeSucc e.1
    fld e.1 96 16 ≤ 24 && mine.all (· < ns.length) && (dedup mine).length == mine.length &&
    nodePred e.1 == (succ.filter fun x => x.contains e.2).length

/-- Launch one node (R359): STATE 1, or 3 with the cause when its descriptor cannot be read. -/
def launchNode (tt i : Nat) : Act := .read fun s =>
  match Tab.tts.at tt s with
  | none => .skip
  | some t =>
    match readLaunch s t.ctx t.inc (.node tt i) (fld (nodeAt s t.ctx t.va i) 0 64) with
    | .error c => putState t i 3 c
    | .ok (l, ok) => .all [ putState t i 1 0, .put .tts tt { t with running := t.running + 1 }, beginLaunch l ok ]

/-- Launch every node whose predecessors have completed, ascending; with none launched or launchable the command completes, and the nodes
that remain are skipped. A context that is not live launches nothing (R381). -/
def advanceTimetable (tt : Nat) : Act := .read fun s =>
  match Tab.tts.at tt s with
  | none => .skip
  | some t =>
    let isReady (s : State) (i : Nat) : Bool := let n := nodeAt s t.ctx t.va i; nodeState n == 0 && nodeLeft n == 0
    if (s.ctx t.ctx).cstate != 1 then .skip
    else .seq (.each ((List.range t.nodes).filter (isReady s)) (launchNode tt)) (.read fun s =>
      match Tab.tts.at tt s with
      | none => .skip
      | some t =>
        .when (t.running == 0)
          (.all [ .each ((List.range t.nodes).filter fun i => nodeState (nodeAt s t.ctx t.va i) == 0) fun i => putState t i 4 0,
                  .del .tts tt, finishCmd t.cmd ]))

/-- TIMETABLE: the table is read and checked; a table that fails the check ends the command before any node launches.
[DEDUCED, log 81] -/
def execTimetable (q : Nat) (s : State) : Host.Outcome State Fault Refusal :=
  .next (Act.run (parseAs q 2 fun s k p =>
    let n := p.count + 1
    let ctx := k.ctx.toNat
    match s.readBy 0 ctx p.addr (64 * n) with
    | .error c => .error c
    | .ok _ =>
      let ns := (List.range n).map (nodeAt s ctx p.addr)
      .ok (startCmd q p .timetable false fun id =>
        if !tableValid ns then finishCmd id
        else
          let t : Timetable := { cmd := id, ctx := ctx, inc := k.inc.toNat, va := p.addr, nodes := n, running := 0 }
          .all [ .put .tts id t,
                 .each (ns.zipIdx) fun e => putNode t e.2 10 (bytesOfNat 2 (nodePred e.1)),
                 .each (List.range n) fun i => putState t i 0 0, advanceTimetable id ])) s)

/-- TIMETABLE_NODE_COMPLETE (R359): a node that succeeded releases its successors; one that failed does not. -/
def execTimetableNodeComplete (tt node : Nat) (s : State) : Host.Outcome State Fault Refusal :=
  .next (Act.run (match s.launches.find? fun e => e.2.src == .node tt node, Tab.tts.at tt s with
    | some e, some t =>
      if e.2.running != 0 || e.2.nextTeam < e.2.teamCount then .skip
      else .all
        [ .del .launches e.1, .put .tts tt { t with running := t.running - 1 },
          putState t node (if e.2.cause == 0 then 2 else 3) e.2.cause,
          .when (e.2.cause == 0) (.each (nodeSucc (nodeAt s t.ctx t.va node)) fun i => .read fun s =>
            putNode t i 10 (bytesOfNat 2 (nodeLeft (nodeAt s t.ctx t.va i) - 1))),
          advanceTimetable tt ]
    | _, _ => .skip) s)

/-! ## The Prefect (R362, R363) -/

/-- Whether a task may move to a core: UNSTARTED, and its code object resident there. -/
def mayMove (s : State) (dst : Nat) (t : Nat × BitVec 32) : Bool :=
  s.unstarted (t.1 / 256) t.2.toNat && (s.blocksOn dst).any fun b => match s.launch? b.2.lid with
    | some l => tagKey l.ctx l.inc == t.1 && l.codeId.toNat == (s.taskEnt l.ctx (handleIdx t.2.toNat)).code
    | none => false
/-- One migration command: UNSTARTED tasks between cores, or the placement of a launch's waiting team.
[DEDUCED, log 87] -/
def migrate (m : Migration) : Act := .read fun s =>
  match m with
  | .tasks src dst count =>
    let moved := ((s.core src).tasks.filter (mayMove s dst)).take count
    if src == dst || 256 ≤ src || 256 ≤ dst then .skip
    else .all
      [ updTasks src fun ts => ts.filter fun t => !moved.contains t, updTasks dst fun ts => ts ++ moved,
        .each moved fun t => updTask (t.1 / 256) t.2.toNat fun e => { e with core := dst } ]
  | .team lid cluster =>
    match s.launch? lid with
    | some l =>
      if l.nextTeam < l.teamCount && cluster < 32 then .seq
        (.with? (s.movedTeam lid) fun e => .del .teams e.1)
        (.fresh fun tid => .seq
          (.put .teams tid { lid := lid, tag := tagKey l.ctx l.inc, index := l.nextTeam, cluster := cluster, rows := l.rows, bankRows := [],
                             state := .pending, blocks := [], bar := Barrier.open_ })
          (.due [.teamPlacement lid]))
      else .skip
    | none => .skip
/-- PREFECT_SCAN: its choice of moves is its own. -/
def execPrefectScan (moves : List Migration) (s : State) : Host.Outcome State Fault Refusal :=
  .next ((Act.each moves migrate).run s)

end Sys2Proof.Machine
end

