-- ==== Sys2Proof/Machine/Context.lean ====
section
/-! DEFINITION. Contexts switched out and in (17_contexts_and_incarnations.md R380 to R389, R395, R465): pre-emption with save and with
drain, its deadline, the save image, restore, revival, OPEN; and TEAM_PLACEMENT, which places saved teams ahead of unstarted ones. -/

namespace Sys2Proof.Machine

open Sys2Proof

/-! ## Operation records (R389) -/

def isTask (i : Instr) : Bool := match i with | .tspawn _ _ _ => true | .tfill _ _ _ => true | .lkrel _ _ => true | _ => false
def isGallery (i : Instr) : Bool := match i with | .ldg _ => true | .stg _ => true | .atg _ => true | _ => false
/-- The kind of the record of an operation; none for one that a save image does not hold. -/
def Op.kind (o : Op) : Option Nat :=
  match o.instr with
  | .cpy _ => some 2
  | .cpymc _ => some 2
  | .cpyred _ => some 2
  | .mma _ => some 3
  | .tload _ => some 3
  | .tdrain _ => some 3
  | i => if isTileOp i then some 3 else if isMemory i || isTask i || isGallery i then some 1 else none

/-- Whether a stopped block's operation stands where the image can take it (R43, R198, R266). A copy does before a chunk, a tile
instruction before a block or unstarted; a copy that only has to complete, and a drain that has its snapshot, complete first. -/
def Op.takeable (o : Op) : Bool :=
  match o.phase with
  | .parked => true
  | .failed => true
  | .done => true
  | .waiting => true
  | .walking => false
  | .responding => false
  | _ => match o.instr with
    | .tdrain _ => o.snap.isEmpty
    | i => isTileOp i || (match copyOf o with
      | some c => o.phase == .checking || (c.chunk o.prog).isSome
      | none => false)

/-- The parcels of an operation, with its substituted shape words. -/
def Op.parcels (o : Op) : List (BitVec 32) :=
  let ps := encode o.instr
  if ps.length == 7 then ps.take 3 ++ [o.shape.w0, o.shape.w1, o.shape.w2, o.shape.w3] else (ps ++ List.replicate 7 0).take 7
/-- An operation record: 64 bytes. -/
def opBytes (o : Op) (gidx : Nat) : List Byte :=
  let k := o.kind.getD 1
  [BitVec.ofNat 8 k, BitVec.ofNat 8 gidx, BitVec.ofNat 8 o.split, BitVec.ofNat 8 (if k == 3 then o.prog % 32 else 0)] ++ bytesOfNat 4 o.seq ++
  (o.parcels.flatMap fun w => bytesOfNat 4 w.toNat) ++ bytesOfNat 4 o.fmt.toNat ++ bytesOfNat 8 o.unf.toNat ++
  bytesOfNat 4 (if k == 2 then o.prog else 0) ++ bytesOfNat 2 o.rows.toNat ++ zeros 10

/-- The operations of a block that an image holds, in issue order. -/
def State.keptOps (s : State) (bid : Nat) : List (Nat × Op) := (s.blockOps bid).filter fun e => e.2.kind.isSome
def State.gidxOf (s : State) (g : Nat) : Nat := match s.group? g with | some x => x.gidx | none => 0

/-! ## The save image (R386, R387) -/

/-- A resident team with its launch and its blocks, ascending. -/
structure TeamView where
  tid : Nat
  team : Team
  lau : Launch
  blocks : List (Nat × Block)

def State.teamViews (s : State) (ctx : Nat) : List TeamView :=
  s.teams.filterMap fun e => match s.launch? e.2.lid with
    | some l => if l.ctx == ctx && e.2.state != .pending then
        some { tid := e.1, team := e.2, lau := l, blocks := e.2.blocks.filterMap fun i => (s.block? i).map fun b => (i, b) } else none
    | none => none

def blockSize (l : Launch) (nops : Nat) : Nat := 256 + l.gpb * l.grec + l.tiles * 2048 + 64 * nops
def teamHead (rows : Nat) : Nat := 64 + 1024 + 1024 * rows
def TeamView.size (s : State) (v : TeamView) : Nat :=
  teamHead v.team.rows + (v.blocks.map fun b => blockSize v.lau (s.keptOps b.1).length).sum
def imageSize (s : State) (ctx : Nat) : Nat := 64 + ((s.teamViews ctx).map (TeamView.size s)).sum

/-- Blocks of a team whose groups meet a list, as bits by block index in the team. -/
def TeamView.summary (s : State) (v : TeamView) (gs : List Nat) : Nat :=
  (v.blocks.filter fun b => s.memberBits b.2 gs != 0).foldl (fun a b => a + 2 ^ (b.2.linear % max v.lau.team 1)) 0
def TeamView.bytes (s : State) (v : TeamView) : List Byte :=
  let bar := v.team.bar
  bytesOfNat 4 v.team.lid ++ bytesOfNat 4 v.team.index ++ bytesOfNat 4 v.blocks.length ++ bytesOfNat 4 v.team.rows ++
  bytesOfNat 2 bar.arrived.length ++ bytesOfNat 2 (bar.fixed.getD 0) ++ bytesOfNat 4 (v.summary s bar.arrived) ++
  bytesOfNat 4 (v.summary s bar.land) ++ zeros 36 ++
  ((List.range 512).flatMap fun k => bytesOfNat 2 (Tab.teamCnt.val 0 (v.tid * 512 + k) s).toNat) ++
  s.winBytes v.tid 0 (1024 * v.team.rows) ++
  v.blocks.flatMap fun b =>
    let ops := s.keptOps b.1
    blockBytes s b.2 v.lau ops.length ++ groupsBytes s b.2 v.lau (fun x => x.pc) ++ tilesBytes s b.1 v.lau ++
    ops.flatMap fun e => opBytes e.2 (s.gidxOf e.2.gid)
def imageBytes (s : State) (ctx : Nat) : List Byte :=
  let vs := s.teamViews ctx
  bytesOfNat 4 0x4D495653 ++ bytesOfNat 2 ctx ++ bytesOfNat 2 (s.ctx ctx).cinc.toNat ++ bytesOfNat 4 vs.length ++
  bytesOfNat 4 (imageSize s ctx) ++ bytesOfNat 8 s.dev.window ++ zeros 40 ++ vs.flatMap (TeamView.bytes s)

/-! ## Saving (R381) -/

/-- The groups of a context that are resident. -/
def State.groupsOf (s : State) (ctx : Nat) : List Nat :=
  (s.groups.filter fun e => match s.launchOf e.1 with | some l => l.ctx == ctx | none => false).map (·.1)

/-- Whether every block of a context is stopped, or, in a drain, gone.
[DEDUCED, log 87] -/
def State.saveReady (s : State) (ctx : Nat) : Bool :=
  let x := s.ctx ctx
  let gs := s.groupsOf ctx
  if x.cstate == 2 then
    (gs.all s.allStill) && (s.ops.all fun e => e.2.ctx != ctx || e.2.takeable) && (s.teams.all fun e => e.2.state != .clearing ||
      (match s.launch? e.2.lid with | some l => l.ctx != ctx | none => true))
  else x.cstate == 4 && gs.isEmpty

/-- What the model keeps of a team that is saved at a place of the image. -/
def keepTeam (s : State) (v : TeamView) (at_ : Nat) : SavedTeam × List SavedBlock :=
  let place (k : Nat) : Nat := at_ + teamHead v.team.rows + ((v.blocks.take k).map fun b => blockSize v.lau (s.keptOps b.1).length).sum
  ({ lid := v.team.lid, index := v.team.index, at_ := at_, rows := v.team.rows },
   v.blocks.zipIdx.map fun e =>
     let b := e.1.2
     { lid := b.lid, team := v.team.index, linear := b.linear, at_ := place e.2, stack := b.adopt.map fun p => (p, v.lau.adoptSize),
       landSlot := b.landSlot, rowsCopied := b.rowsCopied, rowsWritten := b.rowsWritten,
       notes := b.gids.flatMap fun g => match s.group? g with
         | some x => groupNotes s g x b
         | none => [],
       poison := (Sparse.range (e.1.1 * 65536) ((e.1.1 + 1) * 65536) s.tpoison).map fun w => w.1 - e.1.1 * 65536 })
/-- The places of the teams of an image. -/
def keepTeams (s : State) (at_ : Nat) : List TeamView → List (SavedTeam × List SavedBlock)
  | [] => []
  | v :: vs => keepTeam s v at_ :: keepTeams s (at_ + v.size s) vs

/-- Keep an operation beside the image, with the splits that have it outstanding. -/
def keepOp (ctx : Nat) (b : Block) (id : Nat) (o : Op) : Act := .read fun s =>
  let outs := (s.splitsOf o.gid).filterMap fun n => (s.split? o.gid n).bind fun x =>
    (x.outs.find? fun k => k.op == id).map fun k => (n, k.rem)
  .fresh fun k => .put .savedOps k { ctx := ctx, lid := b.lid, linear := b.linear, gidx := s.gidxOf o.gid, op := o, outs := outs }

/-- The stopped blocks leave the machine. -/
def freeTeam (v : TeamView) : Act := .seq
  (.each v.blocks fun b => .seq (.each b.2.gids dropGroup) (dropBlock b.1)) (dropTeam v.tid)

/-- Where the journal keeps a group's JSEQ (R424); none without a journal. -/
def jseqAt (s : State) (l : Launch) (linear gidx : Nat) : Option Nat :=
  if l.journals then some (l.journal + jField s l 24 8 + 4 * (linear * l.gpb + gidx)) else none
/-- A group is stopped by a pre-emption: its trace record (R419), and its JSEQ in the journal. -/
def stopGroup (g : Nat) : Act := .read fun s =>
  match s.group? g, s.blockOf g, s.launchOf g with
  | some x, some b, some l => .seq
    (match (s.splitsOf g).head?.bind (s.split? g) with | some y => traceGroup 9 g 0 y.pc.toNat 0 | none => .skip)
    (.with? (jseqAt s l b.linear x.gidx) fun va => writeVirt l.ctx va (bytesOfNat 4 x.jseq))
  | _, _, _ => .skip

/-- The image is written, and everything resident is freed (R381, steps 4 and 5).
[DEDUCED, log 85; DEDUCED, log 87] -/
def writeImage (ctx : Nat) : Act := .read fun s =>
  let vs := s.teamViews ctx
  let kept := keepTeams s 64 vs
  .all
    [ writeHome (s.ctx ctx).savebase.toNat (imageBytes s ctx),
      .each vs fun v => .each v.blocks fun b => .each (s.keptOps b.1) fun e => keepOp ctx b.2 e.1 e.2,
      .updD .ctxs Ctx.init ctx fun x =>
        { x with savedTeams := x.savedTeams ++ kept.map (·.1), savedBlocks := x.savedBlocks ++ kept.flatMap (·.2) },
      .each vs freeTeam ]

/-- A context is switched out. -/
def switchedOut (ctx : Nat) : Act := .seq (endControl ctx 0 fun x => { x with cstate := 3, preempt := none }) offerTeams

/-- Everything of a context that stood still goes on: its groups, copies and tile instructions, queues, Timetables and teams. -/
def goOn (ctx : Nat) : Act := .read fun s => .all
  [ resumeBlock (s.groupsOf ctx),
    .due ((s.ops.filter fun e => e.2.ctx == ctx && e.2.phase != .parked && e.2.phase != .failed).filterMap fun e =>
      if (copyOf e.2).isSome then some (.copyChunk e.1) else match e.2.instr with | .mma _ => some (.mmaBlock e.1) | _ => none),
    .each (s.tts.filter fun t => t.2.ctx == ctx) fun t => advanceTimetable t.1, offerTeams, kick ]

/-- SAVE_COMPLETE (R381, R382): every split of the context's blocks has stopped. An image that is too large gives the blocks back. The
stop is a release at dev: dirty bytes leave the L1s first. Then each group's interval ends, the image is written, and the blocks leave. -/
def execSaveComplete (ctx : Nat) (s : State) : Host.Outcome State Fault Refusal :=
  .next (Act.run (
    let x := s.ctx ctx
    let gs := s.groupsOf ctx
    let cores := dedup (gs.map coreOf)
    if !s.saveReady ctx then .skip
    else if x.cstate == 4 then switchedOut ctx
    else if x.savesize.toNat < imageSize s ctx then .seq (endControl ctx 3 fun x => { x with cstate := 1, preempt := none }) (goOn ctx)
    else if cores.any fun c => s.dirtyCount c != 0 then
      .seq (.each (cores.filter fun c => s.dirtyCount c != 0) fun c => .seq
        (.updD .cores CoreRec.init c fun k => { k with relwb := k.relwb + BitVec.ofNat 32 (s.dirtyCount c) }) (writeBackCore c))
        (.due [.saveComplete ctx])
    else if s.wbs.any fun e => cores.contains e.2.core then .due [.saveComplete ctx]
    else if gs.any fun g => match s.group? g, s.blockOf g, s.launchOf g with
        | some x, some b, some l => !s.mayAdvance (slotOf g) || !s.mayAdvanceT b.tid (tslotOf l b x)
        | _, _, _ => false then
      .due ((dedup (cores.map clusterOf)).map (fun c => .scratchScan c) ++ [.saveComplete ctx])
    else .all [ .each gs fun g => .seq (.upd .groups g fun x => { x with halt := none, stop := false, haltReq := none, hit := none, step := false }) (.seq (stopGroup g) (endInterval g)),
                writeImage ctx, switchedOut ctx ]) s)

/-! ## Control operations (R380, R382, R383, R395, R465) -/

/-- An operation that starts from one state only; any other state is refused with PSTAT 2. -/
def fromState (ctx : Nat) (st : BitVec 3) (k : State → Ctx → Act) : Act := .read fun s =>
  if ctx == 0 || 4096 ≤ ctx then .skip
  else if (s.ctx ctx).cstate == st then k s (s.ctx ctx) else endControl ctx 2 fun x => x

/-- Pre-emption begins (R381, R382). -/
def preempt (ctx : Nat) (drain : Bool) : Act :=
  fromState ctx 1 fun s x => .put .ctxs ctx
    { x with cstate := if drain then 4 else 2, pstat := 1, preempt := some { drain := drain, start := s.dev.ticks } }
def execPreemptWithSave (ctx : Nat) (s : State) : Host.Outcome State Fault Refusal := .next ((preempt ctx false).run s)
def execPreemptWithDrain (ctx : Nat) (s : State) : Host.Outcome State Fault Refusal := .next ((preempt ctx true).run s)

/-- Whether the deadline of a pre-emption has passed (R383). -/
def State.deadlinePassed (s : State) (ctx : Nat) : Bool :=
  let x := s.ctx ctx
  match x.preempt with
  | some p => x.deadline != 0 && p.start + x.deadline.toNat * usTicks ≤ s.dev.ticks
  | none => false
/-- PREEMPT_DEADLINE (R383): the context is killed. -/
def execPreemptDeadline (ctx : Nat) (s : State) : Host.Outcome State Fault Refusal :=
  .next ((Act.when (s.deadlinePassed ctx) (killContext ctx 0x57 none)).run s)

/-- RESTORE (R384): the context is live, and its saved teams wait to be placed. -/
def restoreCtx (ctx : Nat) : Act := fromState ctx 3 fun _ _ => .seq (endControl ctx 0 fun x => { x with cstate := 1 }) (goOn ctx)
def execRestore (ctx : Nat) (s : State) : Host.Outcome State Fault Refusal := .next ((restoreCtx ctx).run s)

/-- REVIVE (R395): once the kill is complete.
[DEDUCED, log 136] -/
def revive (ctx : Nat) : Act := fromState ctx 5 fun s x =>
  if 128 ≤ x.unrecl.toNat then endControl ctx 2 fun x => x
  else match Tab.kills.at (tagKey ctx x.cinc.toNat) s with
    | some e => .seq (.put .kills (tagKey ctx x.cinc.toNat) { e with revive := true }) (.updD .ctxs Ctx.init ctx fun y => { y with pstat := 1 })
    | none => reviveNow ctx
def execRevive (ctx : Nat) (s : State) : Host.Outcome State Fault Refusal := .next ((revive ctx).run s)
/-- OPEN (R465). -/
def openContext (ctx : Nat) : Act := fromState ctx 0 fun _ _ => .seq (.put .tags (tagKey ctx 0) true)
  (endControl ctx 0 fun x => { x with cinc := 0, lastkill := 0, unrecl := 0, unreclaimed := [], cstate := 1 })
def execOpenCtx (ctx : Nat) (s : State) : Host.Outcome State Fault Refusal := .next ((openContext ctx).run s)
/-- What a value of PCTL starts (R380). -/
def control (ctx pctl : Nat) : Act :=
  match pctl with
  | 1 => preempt ctx false | 2 => preempt ctx true | 3 => restoreCtx ctx | 4 => revive ctx | 5 => openContext ctx | _ => .skip

/-! ## Restoring a team (R384) -/

/-- An operation of a restored block starts again under its group's new slot; one that had failed waits for its TRET, and one that was issued
before its group entered its handler stays such a one (R377).
[DEDUCED, log 86] -/
def reopenOp (g bid : Nat) (rd : Reader) (e : SavedOp) (shadowed before : Bool) : Act := .fresh fun id => .read fun s =>
  let k := e.op.kind.getD 1
  let w (n : Nat) : BitVec 32 := word (rd (20 + 4 * n) 4)
  let engine := k == 2
  let o : Op :=
    { e.op with
      gid := g, bid := bid, slot := if engine then 0xFFFF else BitVec.ofNat 16 (slotOf g), stamp := s.stampOf (slotOf g),
      unf := BitVec.ofNat 64 (rd 40 8), fmt := word (rd 36 4), rows := BitVec.ofNat 16 (rd 52 2),
      prog := if k == 2 then rd 48 4 else if k == 3 then rd 3 1 else e.op.prog,
      shape := if (encode e.op.instr).length == 7 then { w0 := w 0, w1 := w 1, w2 := w 2, w3 := w 3 } else e.op.shape,
      regs := (match e.op.instr with | .tdrain _ => [] | _ => e.op.regs), lines := [], secs := [] }
  .all [ .put .ops id o,
         .each e.outs fun k => .upd .splits (splitKey g k.1) fun x => { x with outs := x.outs ++ [{ op := id, rem := k.2 }] },
         .when shadowed (.upd .groups g fun x => { x with shadow := x.shadow.map fun t => { t with op := some id } }),
         .when before (.upd .groups g fun x => { x with shadow := x.shadow.map fun t => { t with since := id + 1 } }),
         .when (o.phase != .failed) (restartOp id) ]

/-- A group of a restored block: its state, a new occupancy, an acquire at dev; it is the runner of the tasks it holds (R322). -/
def restoreGroup (g bid gidx : Nat) (b : Block) (l : Launch) (rd : Reader) (notes : List (Nat × Nat)) : Act := .all
  [ loadGroup g bid gidx b l rd notes false, advanceSlot (slotOf g), acquireAct g,
    .read fun s => .upd .groups g fun x =>
      { x with jseq := (match jseqAt s l b.linear gidx with | some va => s.virtNat l.ctx va 4 % 2 ^ 28 | none => 0),
               waitStart := if rd 616 4 == 0 then none else some (s.us - rd 616 4) },
    .read fun s => match (s.splitsOf g).head? with
      | some n => match Iss.of s g n (.nop false) with
        | some c => .seq (renameRunner c) (traceGroup 10 g 0 c.sp.pc.toNat 0)
        | none => .skip
      | none => .skip ]

def restoreBlock (lid tid core : Nat) (l : Launch) (k : SavedBlock) : Act := .fresh fun bid => .read fun s =>
  let rd (at_ : Nat) : Reader := fun o n => s.homeNat ((s.ctx l.ctx).savebase.toNat + k.at_ + at_ + o) n
  let ops := (s.savedOps.filter fun e => e.2.ctx == l.ctx && e.2.lid == lid && e.2.linear == k.linear)
  let opsAt := 256 + l.gpb * l.grec + l.tiles * 2048
  let live := (List.range l.gpb).filter fun i => (List.range 4).any fun n => rd (256 + i * l.grec) (672 + 32 * n) 1 != 0
  let mine := live.zip (((s.freeIndices core).take live.length).map fun li => core * 96 + li)
  let pick (bits : Nat) : List Nat := (mine.filter fun e => bitAt bits e.1).map (·.2)
  let count := rd 0 10 2
  let b : Block :=
    { lid := lid, tid := tid, linear := k.linear, core := core, gids := mine.map (·.2),
      bar := { arrived := pick (rd 0 12 2), fixed := if count == 0 then none else some count,
               bar := count == 0 && rd 0 12 2 != 0, land := pick (rd 0 14 2) },
      escaped := bitAt (rd 0 18 1) 0, landSlot := k.landSlot, rowsCopied := k.rowsCopied, rowsWritten := k.rowsWritten,
      adopt := k.stack.map (·.1), seq := rd 0 36 4, rolled := false, landed := false }
  .all [ .put .blocks bid b,
         .upd .teams tid fun t =>
           { t with blocks := t.blocks ++ [bid],
                    bar := { t.bar with arrived := t.bar.arrived ++ pick (rd 0 32 2), land := t.bar.land ++ pick (rd 0 34 2) } },
         dropRoLines core lid l, .updD .cores CoreRec.init core fun x => { x with sinceTest := 256 },
         loadTiles bid l (rd (256 + l.gpb * l.grec)), .each k.poison fun w => .put .tpoison (bid * 65536 + w) true,
         .each mine fun e => restoreGroup e.2 bid e.1 b l (rd (256 + e.1 * l.grec)) k.notes,
         .each ops.zipIdx fun e => .with? (mine.find? fun m => m.1 == e.1.2.gidx) fun m =>
           reopenOp m.2 bid (rd (opsAt + 64 * e.2)) e.1.2
             (noteOf k.notes (noteKey lid k.linear m.1 7) == some e.1.2.op.seq && e.1.2.op.phase == .failed)
             (match noteOf k.notes (noteKey lid k.linear m.1 12) with | some n => e.1.2.op.seq < n | none => false),
         .each ops fun e => .del .savedOps e.1 ]

/-- A saved team is resident again: its window and counters from the image, every side record invalid, then its blocks. -/
def restoreTeam (c : Choice) (t : SavedTeam) (bs : List SavedBlock) : Act := .fresh fun tid => .read fun s =>
  let l := c.lau
  let rd : Reader := fun o n => s.homeNat ((s.ctx l.ctx).savebase.toNat + t.at_ + o) n
  let fixed := rd 18 2
  .all [ .put .teams tid
           { lid := c.lid, tag := tagKey l.ctx l.inc, index := t.index, cluster := c.seat.cluster, rows := t.rows,
             bankRows := s.fitRows c.seat.cluster t.rows, state := .resident, blocks := [],
             bar := { Barrier.open_ with fixed := if fixed == 0 then none else some fixed, bar := fixed == 0 && rd 16 2 != 0 } },
         clearWindow tid,
         .each (List.range 512) fun k => .put .teamCnt (tid * 512 + k) (BitVec.ofNat 16 (rd (64 + 2 * k) 2)),
         .each (List.range (1024 * t.rows)) fun o => .put .win (winKey tid o) (BitVec.ofNat 8 (rd (1088 + o) 1)),
         .updD .ctxs Ctx.init l.ctx fun x =>
           { x with savedTeams := x.savedTeams.filter (· != t),
                    savedBlocks := x.savedBlocks.filter fun b => !(b.lid == t.lid && b.team == t.index) },
         .each (bs.zip c.seat.cores) fun e => restoreBlock c.lid tid e.2 l e.1 ]

/-- TEAM_PLACEMENT (R139, R360, R384): a team that can never fit ends its launch's unstarted teams; otherwise the team that is first in
order and fits is placed. -/
def execTeamPlacement (lid : Nat) (s : State) : Host.Outcome State Fault Refusal :=
  .next (Act.run (match s.launch? lid with
    | none => .skip
    | some l =>
      if !s.hasTeam lid l || (s.ctx l.ctx).cstate != 1 then .skip
      else if (s.savedTeam lid l).isNone && s.capMax < l.rows then
        .seq (.put .launches lid { l with nextTeam := l.teamCount, cause := 0x44 }) (checkLaunch lid)
      else match s.firstToPlace with
        | none => .skip
        | some c => if !s.mayStart c.lau c.seat then .due [.teamPlacement lid] else .seq (match c.saved with
            | some (t, bs) => restoreTeam c t bs
            | none => placeTeam c.lid c.lau c.seat)
          (.read fun s => .when (match s.launch? lid with | some l => s.hasTeam lid l | none => false) (.due [.teamPlacement lid]))) s)

end Sys2Proof.Machine
end

