-- ==== Sys2Proof/Machine/Pages.lean ====
section
/-! DEFINITION. The memory core's pages (03_stacks_and_home_slices.md R67, R73, 04_addressing.md R101 to R104, 20_firmware_host_fabric.md
R430): which physical pages may be mapped, its page tables, and mapping, unmapping and migrating pages. -/

namespace Sys2Proof.Machine

open Sys2Proof

/-! ## Physical pages -/

/-- The page of the map that a physical range meets. -/
def State.mappedAt (s : State) (pa n : Nat) : Option (Nat × PageMap) := s.pages.find? fun e => meetsRange (e.1 * 4096) (2 ^ e.2.size) pa n
/-- The spill logs and the memory core's own tables (R67).
[DEDUCED, log 100] -/
def reserved (pa n : Nat) : Bool := meetsRange tablesBase (tablesBytes + spillBytes) pa n
/-- The overflow areas that are placed, but that of one context: they lie outside every mapped page (R89). -/
def State.overflowAreas (s : State) (but : Option Nat) : List (Nat × Nat) :=
  s.ctxs.filterMap fun e => if some e.1 == but then none else (s.oaSets e.1).map fun n => (e.2.oabase.toNat, 128 * n)
def State.inOverflow (s : State) (but : Option Nat) (pa n : Nat) : Bool := (s.overflowAreas but).any fun a => meetsRange a.1 a.2 pa n
def State.retired (s : State) (pa n : Nat) : Bool := s.badPages.any fun e => meetsRange (e.1 * 4096) 4096 pa n
/-- Whether memory stands behind a whole range. -/
def State.populated (s : State) (pa n : Nat) : Bool :=
  pa + n ≤ 0x8000000000 || (isFar pa && pa / 2 ^ 40 == (pa + n - 1) / 2 ^ 40 && !(s.unmapped (pa + n - 1)))
/-- Whether a window of a row that another context owns covers a range (R430). -/
def State.ownedByOther (s : State) (ctx pa n : Nat) : Bool :=
  s.accOwner.any fun e => e.2 != ctx && (List.range 4).any fun w =>
    let x := Tab.access.val AccWin.closed (e.1 * 4 + w) s
    (x.rd || x.wr || x.at_) && x.wbase.toNat ≤ x.limit.toNat &&
      meetsRange (x.wbase.toNat * 4096) ((x.limit.toNat + 1 - x.wbase.toNat) * 4096) pa n
/-- Whether a context may be given a range: it is memory, in service, mapped to no one, and neither reserved, an overflow area nor owned.
[DESIGN CHOICE, log 88] -/
def State.mappable (s : State) (ctx pa n : Nat) : Bool :=
  s.populated pa n && (s.mappedAt pa n).isNone && !reserved pa n && !s.inOverflow none pa n && !s.retired pa n && !s.ownedByOther ctx pa n

/-- The lowest `n` bytes of a target that a context may be given, aligned to `2 ^ size`: HBM, or a far port.
[DESIGN CHOICE, log 88] -/
def State.freePlace (s : State) (ctx target size n : Nat) : Option Nat :=
  let lo := target * 2 ^ 40
  let up (a : Nat) : Nat := (a + 2 ^ size - 1) / 2 ^ size * 2 ^ size
  let ends := (s.pages.map fun e => e.1 * 4096 + 2 ^ e.2.size) ++ (s.badPages.map fun e => (e.1 + 1) * 4096) ++
    (s.overflowAreas none).map fun a => a.1 + a.2
  (sortNat (lo :: (ends.map up).filter (lo ≤ ·))).find? fun p =>
    (if target == 0 then p + n ≤ 0x8000000000 else p / 2 ^ 40 == target) && s.mappable ctx p n

/-! ## Page tables (R101, R102) -/

/-- The level at which a page of a size is a leaf, and the sizes that a request names (R464). -/
def levelOfSize (size : Nat) : Nat := if size == 30 then 3 else if size == 21 then 2 else 1
def pageSize (code : Nat) : Nat := match code with | 0 => 12 | 1 => 16 | 2 => 21 | _ => 30
def tableIndex (va level : Nat) : Nat := fld va (12 + 9 * (level - 1)) 9
/-- A page-table entry of a leaf. -/
def leafEntry (pa size rights : Nat) : Nat := pa + (if size == 16 then 1024 else 0) + rights * 8 + 5

/-- Where the leaf entry of an address stands and what it holds; none when no leaf maps the address. -/
def leafOf (s : State) (va : Nat) : Nat → Nat → Option (Nat × Nat × Nat)
  | 0, _ => none
  | level + 1, base =>
    let at_ := base + 8 * tableIndex va (level + 1)
    let e := s.homeQuad at_
    if !bitAt e 0 then none
    else if bitAt e 2 then some (at_, e, if level == 0 then (if fld e 10 2 == 1 then 16 else 12) else 12 + 9 * level)
    else leafOf s va level (fld e 12 40 * 4096)
def State.leaf (s : State) (ctx va : Nat) : Option (Nat × Nat × Nat) :=
  if (s.ctx ctx).root == 0 then none else leafOf s va 5 (s.ctx ctx).root.toNat
/-- Whether the place of a leaf is free: nothing maps the address, and no table stands in its place. -/
def placeFree (s : State) (va target : Nat) : Nat → Nat → Bool
  | 0, _ => true
  | level + 1, base =>
    let e := s.homeQuad (base + 8 * tableIndex va (level + 1))
    if !bitAt e 0 then true
    else if level + 1 ≤ target || bitAt e 2 then false
    else placeFree s va target level (fld e 12 40 * 4096)
def State.vaFree (s : State) (ctx va size : Nat) : Bool :=
  (s.ctx ctx).root == 0 || ((List.range (if size == 16 then 16 else 1)).all fun i =>
    placeFree s (va + 4096 * i) (levelOfSize size) 5 (s.ctx ctx).root.toNat)

/-- The highest free page of the memory core's extent.
[DESIGN CHOICE, log 88] -/
def State.freeTable (s : State) : Option Nat :=
  let top := spillBase / 4096 - 1
  (sortNat (top :: s.dev.tables.map (· - 1))).reverse.find? fun p =>
    tablesBase / 4096 ≤ p && p ≤ top && !s.dev.tables.contains p && !s.retired (p * 4096) 4096
/-- Take a page of zeros for a table. -/
def newTable (k : Nat → Act) : Act := .read fun s =>
  match s.freeTable with
  | none => .skip
  | some p => .all
    [ .dev fun d => { d with tables := p :: d.tables },
      .clear .mem (p * 4096) (p * 4096 + 4096), .clear .l2 (p * 128) (p * 128 + 128), .clear .poison (p * 128) (p * 128 + 128),
      k (p * 4096) ]
/-- Write a leaf entry, with the tables on the way to it. -/
def writeLeaf (va entry target : Nat) : Nat → Nat → Act
  | 0, _ => .skip
  | level + 1, base => .read fun s =>
    let at_ := base + 8 * tableIndex va (level + 1)
    if level + 1 == target then writeHomeNat at_ 8 entry
    else
      let e := s.homeQuad at_
      if bitAt e 0 then writeLeaf va entry target level (fld e 12 40 * 4096)
      else newTable fun t => .seq (writeHomeNat at_ 8 (t + 1)) (writeLeaf va entry target level t)
/-- As `writeLeaf`, from the root, for every entry of the page. -/
def setLeaf (ctx va entry size : Nat) : Act := .read fun s =>
  let go (root : Nat) : Act := .each (List.range (if size == 16 then 16 else 1)) fun i =>
    writeLeaf (va + 4096 * i) entry (levelOfSize size) 5 root
  if (s.ctx ctx).root == 0 then newTable fun t => .seq (.updD .ctxs Ctx.init ctx fun x => { x with root := BitVec.ofNat 52 t }) (go t)
  else go (s.ctx ctx).root.toNat

/-! ## Mapping, unmapping and migrating (R73, R104) -/

/-- Dirty bytes of a physical range go home and from the slices to memory, those of a stale tag are dropped; no L1, no instruction cache, no
cache way, no write-back and no slice holds any of it any more (R72, R73). -/
def settleRange (pa n : Nat) : Act := .all
  [ .read fun s => .each (s.wbs.filter fun e => meetsRange (e.2.sector * 32) 32 pa n) fun e => landWriteBack e.1 e.2,
    .read fun s => .each (s.l1.filter fun e => meetsRange (e.1 % 2 ^ 45 * 128) 128 pa n) fun e => .seq
      (.each (dirtySectors s (e.1 / 2 ^ 45) (e.1 % 2 ^ 45) e.2) fun x =>
        .when (!s.stale (.slice (homeSlice (x.1 * 32))) e.2.ctx e.2.inc) (writeSector x.1 x.2.1 x.2.2)) (.del .l1 e.1),
    .read fun s => .each (s.gways.filter fun e => meetsRange (e.1 % 2 ^ 47 * 32) 32 pa n) fun e => .del .gways e.1,
    .read fun s => .each (s.icache.filter fun e => meetsRange (e.1 % 2 ^ 45 * 128) 128 pa n) fun e => .del .icache e.1,
    .read fun s => .each (s.l2.filter fun e => meetsRange (e.1 * 32) 32 pa n) fun e => letGo e.1 ]
/-- Accesses in flight that were translated in a virtual range are translated again: they use the new entry (R104).
[DEDUCED, log 43; DEDUCED, log 89] -/
def retranslate (ctx va n : Nat) : Act := .read fun s =>
  .each (s.ops.filter fun e => e.2.ctx == ctx && isMemory e.2.instr &&
      (e.2.phase == .walking || e.2.phase == .checking || e.2.phase == .responding) &&
      e.2.lines.any fun l => meetsRange (l.1 * 128) 128 va n) fun e => .all
    [ clearPending e.2, .each (s.reqs.filter fun q => q.2.op == e.1) fun q => .del .reqs q.1, startOp e.1 ]

/-- The rights and the incarnation under which a context's pages are mapped: none may be mapped while it is killed (R393). -/
def State.mayMap (s : State) (ctx : Nat) : Bool := ctx != 0 && (s.ctx ctx).cstate != 5

/-- Map one page: no unit holds a line of an earlier owner (R72). -/
def mapPage (ctx va pa size rights : Nat) : Act := .read fun s => .all
  [ settleRange pa (2 ^ size), .put .pages (pa / 4096) { ctx := ctx, inc := (s.ctx ctx).cinc.toNat, va := va, size := size },
    setLeaf ctx va (leafEntry pa size rights) size ]
/-- Unmap one page: purge its marks, clear its entry, shoot it down.
[DEDUCED, log 89] -/
def unmapPage (ctx va pa size : Nat) : Act := .all
  [ settleRange pa (2 ^ size), .each (pageSectors (pa / 4096) (2 ^ size / 4096)) purgeSector,
    setLeaf ctx va 0 size, shootdown ctx va (2 ^ size), .del .pages (pa / 4096), retranslate ctx va (2 ^ size) ]
/-- Move the contents of a page: bytes and poison. -/
def moveBytes (src dst n : Nat) : Act := .read fun s => .all
  [ .clear .mem dst (dst + n), .clear .poison (dst / 32) ((dst + n) / 32),
    .each (Sparse.range src (src + n) s.mem) fun e => .put .mem (dst + (e.1 - src)) e.2,
    .each (Sparse.range (src / 32) ((src + n) / 32) s.poison) fun e => .put .poison (dst / 32 + (e.1 - src / 32)) e.2 ]
/-- PAGE_MOVE of a whole page (R73). -/
def movePage (src dst size : Nat) : Act := .each (List.range (2 ^ size / 32)) fun i => moveSector (src / 32 + i) (dst / 32 + i)
/-- Whether every live record of some pages finds room at their destinations, so that a migration loses none (R73).
[DESIGN CHOICE, log 129] -/
def State.movesWhole (s : State) (ps : List (Nat × Nat)) (size : Nat) : Bool :=
  let t := (Act.each ps fun p => movePage p.1 p.2 size).run s
  ps.all fun p => (List.range (2 ^ size / 32)).all fun i =>
    let sector := p.1 / 32 + i
    (t.allRecs sector).all fun x => !x.r.valid || !s.recLive (s.ownerOf (sector * 32)).1 (homeSlice (sector * 32)) x.r
/-- Groups parked on an object of a page that moves wait for it at its new place (R313). -/
def moveBlockers (src dst n : Nat) : Act := .read fun s =>
  .each (s.groups.filter fun e => match e.2.blocker with | some b => meetsRange src n b.pa 1 | none => false) fun e =>
    .put .groups e.1 { e.2 with blocker := e.2.blocker.map fun b => { b with pa := dst + (b.pa - src) } }
/-- Migrate one page: its marks and contents go to the destination, and its entry changes.
[DEDUCED, log 89] -/
def migratePage (ctx va src dst size : Nat) : Act := .read fun s =>
  match s.leaf ctx va, Tab.pages.at (src / 4096) s with
  | some (_, e, _), some m => .all
    [ settleRange src (2 ^ size), settleRange dst (2 ^ size), .put .pages (dst / 4096) m, movePage src dst size,
      moveBytes src dst (2 ^ size), setLeaf ctx va (leafEntry dst size (fld e 3 3)) size, moveBlockers src dst (2 ^ size),
      shootdown ctx va (2 ^ size), .del .pages (src / 4096), retranslate ctx va (2 ^ size) ]
  | _, _ => .skip

/-- The pages of a range of virtual addresses of a context, when each is mapped by a page of that size. -/
def State.pagesAt (s : State) (ctx va size : Nat) : Nat → Option (List (Nat × Nat))
  | 0 => some []
  | n + 1 => match s.leaf ctx va, s.pagesAt ctx (va + 2 ^ size) size n with
    | some (_, e, sz), some rest => if sz == size then some ((va, fld e 12 40 * 4096) :: rest) else none
    | _, _ => none

end Sys2Proof.Machine
end

