-- ==== Sys2Proof/Machine/Reliab.lean ====
section
/-! DEFINITION. Errors and field service (18_reliability.md R401 to R409, 21_power_and_bring_up.md R447): consumed data, rollback to a
landing and the kill of a block, failed mark structures, corrected-error counts, pin repair, recalibration. -/

namespace Sys2Proof.Machine

open Sys2Proof

/-! ## Consumed data (R402 to R404) -/

/-- The sectors that an operation reads. -/
def State.readSectors (s : State) (o : Op) : List Nat :=
  match copyOf o with
  | some c => match c.chunk o.prog with
    | some (r, line) => (sectorsOf (((c.elements r line).flatMap fun i => elemVas c.src (c.srcOff r i) c.e).map (s.phys o.ctx))).map (·.1)
    | none => []
  | none => match xferOf o with
    | some (f, _, x) => if f.mem then (sectorsOf ((x.bytesOf f o.rowList).map (s.phys o.ctx))).map (·.1) else []
    | none => o.secs.map (·.sector)
/-- What a block has consumed: the operation that waits for its outcome, the structure, the physical address, the unit (R407). -/
structure Consumed where
  op : Option Op
  struct : Nat
  pa : Nat
  unit : Nat

def State.consumed (s : State) (bid : Nat) (b : Block) : Consumed :=
  match (s.blockOps bid).find? fun e => e.2.phase == .waiting &&
      ((s.readSectors e.2).any s.poisoned || (match e.2.instr with | .tdrain _ => true | .trd _ => true | _ => false)) with
  | some (_, o) => match (s.readSectors o).find? s.poisoned with
    | some sec =>
      let pa := sec * 32
      { op := some o, struct := if isHbm pa then 1 else 2, pa := pa, unit := if isHbm pa then stackOf pa else fld pa 40 4 - 1 }
    | none => { op := some o, struct := 9, pa := 0, unit := b.core }
  | none => { op := none, struct := 1, pa := 0, unit := 0 }
/-- The event of a consumption (R407).
[DEDUCED, log 91] -/
def consumedEvent (l : Launch) (k : Consumed) (cause : Nat) : Act :=
  postRas { kind := 9, ctx := l.ctx, inc := l.inc, cause := cause, struct := k.struct, slot := (match k.op with | some o => o.slot.toNat | none => 0xFFFF),
            pa := k.pa, site := (match k.op with | some o => o.site | none => 0), unit := k.unit, count := 0 }

/-- Drop the operations of a group: nothing of them is performed any more.
[DEDUCED, log 90] -/
def dropOps (g : Nat) : Act := .read fun s => .each (s.opsOf g) fun e => .all
  [ clearPending e.2, .each (s.reqs.filter fun q => q.2.op == e.1) fun q => .del .reqs q.1, .del .ops e.1 ]

/-- KILLING A BLOCK (R404): its groups and tiles are discarded, its rows stay as they stand, and its launch completes with 0x55. -/
def killBlock (bid : Nat) : Act := .read fun s =>
  match s.block? bid with
  | none => .skip
  | some b => .all
    [ .each b.gids fun g => .seq (dropOps g) (dropGroup g),
      .upd .launches b.lid fun l => { l with cause := if l.cause == 0 then 0x55 else l.cause },
      endBlock bid, .due [.barrierComplete true b.tid] ]

/-- Write the window rows of an area's directory back (R403). -/
def restoreRows (b : Block) (l : Launch) (k : Nat) : Act :=
  .each b.rowsCopied.zipIdx fun e => .read fun s =>
    .each (List.range 1024) fun i =>
      .put .win (winKey b.tid (1024 * e.1 + i)) (BitVec.ofNat 8 (s.virtNat l.ctx (landDir s l k + 4 * landRows s l + 1024 * e.2 + i) 1))

/-- A group goes back to its landing: its record from the area, its interval ended, an acquire at dev. A halt for the debug core stays
asked for, and its journal sequence goes on (R426). -/
def rollGroup (bid : Nat) (b : Block) (l : Launch) (k g : Nat) : Act := .read fun s =>
  match s.group? g with
  | none => .skip
  | some x =>
    let base := landBase s l k + 256 + x.gidx * l.grec
    let again : Option HaltReq := match x.halt with
      | some h => some { cause := h.cause, tag := h.tag, scope := 0, frame := [], also := none }
      | none => x.haltReq
    .all [ dropOps g, loadGroup g bid x.gidx b l (fun o n => s.virtNat l.ctx (base + o) n) (s.ctx l.ctx).savedNotes true,
           .upd .groups g fun y => { y with jseq := x.jseq, haltReq := again, placed := x.placed, capPending := x.capPending }, endInterval g, acquireAct g ]

/-- ROLLING A BLOCK BACK (R403).
[DEDUCED, log 90] -/
def rollBlock (bid : Nat) (b : Block) (l : Launch) (k : Nat) : Act := .all
  [ .each b.gids (rollGroup bid b l k),
    .clear .tpoison (bid * 65536) ((bid + 1) * 65536),
    .read fun s => loadTiles bid l fun o n => s.virtNat l.ctx (landBase s l k + 256 + l.gpb * l.grec + o) n,
    restoreRows b l k,
    .put .blocks bid { b with bar := Barrier.open_, escaped := false, rowsWritten := [], rolled := true },
    .upd .teams b.tid fun t => { t with bar := { t.bar with arrived := t.bar.arrived.filter fun g => !b.gids.contains g,
                                                            land := t.bar.land.filter fun g => !b.gids.contains g } } ]

/-- An operation of a block that ends before the block may roll back (R198, R266, R403): a copy, a parked one too; a tile instruction that none
before it holds unstarted (R265); another access in flight, where a parked one is dropped. -/
def mustEnd (s : State) (bid : Nat) (id : Nat) (o : Op) : Bool :=
  let ended (p : OpPhase) : Bool := p == .waiting || p == .failed || p == .done
  !ended o.phase && match o.kind with
    | some 2 => true
    | some 3 => !((s.blockOps bid).any fun e => e.1 < id && e.2.kind == some 3 && (e.2.phase == .failed || e.2.phase == .waiting))
    | _ => o.phase != .parked
/-- A split that would still issue. -/
def Split.goes (x : Split) : Bool :=
  match x.wait with
  | .ready => true
  | .yield => true
  | .delay _ => true
  | _ => false

/-- ROLLBACK (R403, R404): a block that holds a landing is held, and once nothing of it is in flight, and no notice stalls the intervals that
end (R92, R128), it goes back there; any other is killed.
[DEDUCED, log 90] -/
def execRollback (block : Nat) (s : State) : Host.Outcome State Fault Refusal :=
  .next (Act.run (match s.block? block with
    | none => .skip
    | some b => match s.launch? b.lid with
      | none => .skip
      | some l =>
        let k := s.consumed block b
        match (if b.escaped || !b.landed || b.rolled then none else b.landSlot) with
        | none => .seq (consumedEvent l k 0x55) (if s.dev.uekill then killContext l.ctx 0x55 none else killBlock block)
        | some a =>
          let going := b.gids.any fun g => (s.splitsOf g).any fun n => match s.split? g n with | some x => x.goes | none => false
          let stalled := b.gids.any fun g => !s.mayAdvance (slotOf g) ||
            (match s.group? g with | some x => !s.mayAdvanceT b.tid (tslotOf l b x) | none => false)
          if going || stalled || (s.blockOps block).any fun e => mustEnd s block e.1 e.2 then
            .seq (.each b.gids fun g => .upd .groups g fun x => { x with stop := true })
              (.due ((if stalled then [.scratchScan (clusterOf b.core)] else []) ++ [.rollback block]))
          else .seq (consumedEvent l k 0x54) (rollBlock block b l a)) s)

/-! ## Failed mark structures (R405) -/

/-- The contexts that own a record of a failed entry, the physical address it covers, and its unit. The records that a stamp-cache entry judges
are those of its slot's occupant.
[DEDUCED, log 91] -/
def State.markOwners (s : State) : MarkPlace → List Nat × Nat × Nat
  | .store sector => ([match Tab.marks.at sector s with | some e => e.ctx | none => (s.ownerOf (sector * 32)).1], sector * 32, homeSlice (sector * 32))
  | .side sector => ([(s.ownerOf (sector * 32)).1], sector * 32, homeSlice (sector * 32))
  | .stamp slice slot =>
    ((match s.launchOf (gidOfSlot slot) with | some l => [l.ctx] | none => []) ++
      dedup ((s.ops.filter fun e => e.2.slot.toNat == slot).map fun e => e.2.ctx), 0, slice)
  | .scratch team _ => (match s.team? team with
    | some t => ([t.tag / 256], 0, t.cluster)
    | none => ([], 0, 0))
  | .overflow cluster i => (match (s.cluster cluster).overflow[i]? with
    | some (.own team _ _) => ((match s.team? team with | some t => [t.tag / 256] | none => []), 0, cluster)
    | some (.foreign team _ _ ctx _) =>
      ((match s.team? team with | some t => [t.tag / 256] | none => []) ++ [ctx], 0, cluster)
    | none => ([], 0, cluster))
/-- Clear an entry of a structure that holds marks. -/
def clearMark : MarkPlace → Act
  | .store sector => .seq (.del .marks sector) (.put .side sector 0)
  | .side sector => .put .side sector 0
  | .stamp slice slot => .del .stamps (slice * 2 ^ 16 + slot)
  | .scratch team sector => .put .gside (team * 2 ^ 19 + sector) SideRec.init
  | .overflow cluster i => .updD .clusters Cluster.init cluster fun k => { k with overflow := k.overflow.eraseIdx i }

/-- MARK_STRUCTURE_ERROR (R405): the entry is cleared, and every context that owns a record of it is killed.
[DEDUCED, log 91] -/
def execMarkStructureError (place : MarkPlace) (s : State) : Host.Outcome State Fault Refusal :=
  let (owners, pa, unit) := s.markOwners place
  .next (Act.run (.seq (clearMark place) (.each (dedup owners) fun ctx => .seq
    (postRas { kind := 9, ctx := ctx, inc := (s.ctx ctx).cinc.toNat, cause := 0x55, struct := 4, slot := 0xFFFF, pa := pa, site := 0,
               unit := unit, count := 0 })
    (.when (ctx != 0) (killContext ctx 0x55 none)))) s)

/-! ## Corrected errors (R406, R409) -/

/-- Every change of what is in service shows in the capability list, whose GEN stays even (R409, R441). -/
def reportChange : Act := .dev fun d => { d with capGen := d.capGen + 2 }
/-- A unit goes out of service or comes back: the list, and a kind 10 event. -/
def serviceEvent (struct unit pa : Nat) : Act := .seq reportChange (postRas { Ras.unitOf 10 struct unit 0 with pa := pa })
/-- A core is drained: nothing new is placed there (R409). -/
def drainCore (core struct : Nat) : Act :=
  .seq (.updD .cores CoreRec.init core fun k => { k with service := false }) (serviceEvent struct core 0)

/-- The page of a failing address is migrated and retired; it is kept while no other place is free.
[DEDUCED, log 92] -/
def retirePage (pa : Nat) : Act := .read fun s =>
  match s.mappedAt pa 1 with
  | none => .seq (.put .badPages (pa / 4096) true) (serviceEvent 1 (stackOf pa) pa)
  | some (p, m) =>
    .with? ((s.freePlace m.ctx 0 m.size (2 ^ m.size)).filter fun dst => s.movesWhole [(p * 4096, dst)] m.size) fun dst => .all
      [ migratePage m.ctx m.va (p * 4096) dst m.size, .each (List.range (2 ^ m.size / 4096)) fun i => .put .badPages (p + i) true,
        serviceEvent 1 (stackOf pa) pa ]

/-- A bank's recalibration begins (R447): its rows move to the other scratch banks; without room, the groups of the teams that have rows
there are to trap with 0x45. -/
def beginRecalibration (cl bank : Nat) : Act := .read fun s =>
  let k := s.cluster cl
  let free := ((k.scratchBanks.filter (· != bank)).map fun b => s.bankFree cl b).foldl (· + ·) 0
  let users := (s.teamsIn cl).filter fun e => (e.2.bankRows[bank]?).getD 0 != 0
  if k.recal.contains bank then .skip
  else .all [ .put .clusters cl { k with recal := k.recal ++ [bank] }, fitWays cl bank 0,
    if s.bankAlloc cl bank ≤ free then .each users fun e => moveTeamRows cl bank e.1 ((e.2.bankRows[bank]?).getD 0)
     else .each users fun e => .each (s.groups.filter fun g => match s.teamOf g.1, s.blockOf g.1 with
        | some _, some b => b.tid == e.1
        | _, _ => false) fun g => .upd .groups g.1 fun x => { x with capPending := true } ]

/-- The unit that counts: a page, a Gallery bank, a core, or the unit itself. -/
def errorKey (struct unit addr : Nat) : Nat := (struct * 2 ^ 16 + unit) * 2 ^ 48 + (if struct == 1 then addr / 4096 else if struct == 10 then addr / 256 else 0)
def hourTicks : Nat := 3600000000 * usTicks
/-- CORRECTED_ERROR (R406): the unit's count of this hour; at CETHR an event and an action. For a Gallery row, `addr` is 256 * bank + row. -/
def execCorrectedError (struct unit addr : Nat) (s : State) : Host.Outcome State Fault Refusal :=
  let hour := s.dev.ticks / hourTicks + 1
  let v := Tab.ecount.val 0 (errorKey struct unit addr) s
  let n := (if v / 2 ^ 32 == hour then v % 2 ^ 32 else 0) + 1
  .next (Act.run (.seq (.put .ecount (errorKey struct unit addr) (hour * 2 ^ 32 + n))
    (.when (s.dev.cethr != 0 && n == s.dev.cethr.toNat)
      (.seq (postRas { Ras.unitOf 8 struct unit n with pa := if struct == 1 || struct == 2 then addr else 0 })
        (match struct with
         | 1 => retirePage addr
         | 10 => beginRecalibration unit (addr / 256)
         | 5 => drainCore unit 5
         | 6 => drainCore unit 6
         | 7 => drainCore unit 7
         | 8 => drainCore unit 8
         | 9 => drainCore unit 9
         | 11 => drainCore unit 11
         | _ => .skip)))) s)

/-! ## Pin repair (R408) -/

/-- PIN_REPAIR: the stack's channel is paused. -/
def execPinRepair (stack : Nat) (s : State) : Host.Outcome State Fault Refusal :=
  .next ((Act.when (stack < 8 && Tab.paused.val 0 stack s == 0) (.put .paused stack (s.dev.ticks + 1))).run s)
/-- CHANNEL_RESUME: the channel goes on, and the repair, or the exhaustion of the redundant lanes, is reported.
[DEDUCED, log 92] -/
def execChannelResume (stack : Nat) (exhausted : Bool) (s : State) : Host.Outcome State Fault Refusal :=
  .next ((Act.when (Tab.paused.val 0 stack s != 0)
    (.seq (.put .paused stack 0) (postRas (Ras.unitOf 11 1 stack (b2n exhausted))))).run s)

/-! ## Recalibration (R136, R409, R447) -/

/-- The rows of scratch capacity that R15 guarantees at a point. -/
def guaranteed (point : Nat) : Nat := match point with | 3 => 7936 | 4 => 7424 | 5 => 6656 | _ => 8192
/-- The first point that a calibration breaks: rows good there that are not good at the next higher point, or capacity below R15.
[DEDUCED, log 93] -/
def State.brokenPoint (s : State) (cl : Nat) : Option Nat :=
  let mask (b p : Nat) : BitVec 256 := Tab.rowMasks.val (BitVec.allOnes 256) ((cl * 32 + b) * 8 + p) s
  (List.range 6).find? fun p => s.ptcap cl p < guaranteed p ||
    (p != 0 && (List.range 32).any fun b => mask b p &&& ~~~(mask b (p - 1)) != 0)

/-- Rows that a bank no longer has at the governing point move to other scratch banks, or their teams are to trap with 0x45.
[DEDUCED, log 93] -/
def fitBank (cl bank : Nat) : Act := .read fun s =>
  let excess := s.bankAlloc cl bank - s.goodRows cl bank s.governing
  let free := ((s.cluster cl).scratchBanks.filter (· != bank)).foldl (fun a b => a + s.bankFree cl b) 0
  if excess == 0 then .skip
  else .each (s.teamsIn cl) fun e => .read fun s =>
    let n := min ((e.2.bankRows[bank]?).getD 0) (s.bankAlloc cl bank - s.goodRows cl bank s.governing)
    if n == 0 then .skip
    else if excess ≤ free then moveTeamRows cl bank e.1 n
    else .each (s.groups.filter fun g => match s.blockOf g.1 with | some b => b.tid == e.1 | none => false) fun g =>
      .upd .groups g.1 fun x => { x with capPending := true }

/-- The answer of the power core to its requester (R464). -/
def answerPower (arg : Nat) (refused : Bool) (short : Nat) : Act := .read fun s =>
  let m := Tab.boxes.val Mailbox.init 4 s
  .when (m.busy && m.func == 0x0401 && m.arg == arg) (answerBox 4 0 [BitVec.ofNat 64 (b2n refused + short * 2 ^ 16)])
/-- What a mailbox waits for: a step, or the recalibration of a bank. -/
def stepArg : Nat := 1
def recalArg (cl bank : Nat) : Nat := 2 + cl * 32 + bank

/-- RECALIBRATION_COMPLETE: the bank's masks, one for each point, lose the rows that failed; rows that it adds back wait for a reset.
[DEDUCED, log 93] -/
def execRecalibrationComplete (cluster bank : Nat) (masks : List (BitVec 256)) (s : State) : Host.Outcome State Fault Refusal :=
  .next (Act.run (
    if !((s.cluster cluster).recal.contains bank) then .skip
    else .all
      [ .each (List.range 6) fun p =>
          .updD .rowMasks (BitVec.allOnes 256) ((cluster * 32 + bank) * 8 + p) fun m => m &&& (masks[p]?).getD (BitVec.allOnes 256),
        .updD .clusters Cluster.init cluster fun k => { k with recal := k.recal.filter (· != bank) },
        .read fun s => .with? (s.brokenPoint cluster) fun p => .seq (.dev fun d => { d with pointsOff := min d.pointsOff p })
          (postRas (Ras.unitOf 12 10 cluster 0)),
        fitBank cluster bank, reportChange, answerPower (recalArg cluster bank) false 0, offerTeams ]) s)
/-- CORE_RECALIBRATION_COMPLETE (R274, R409): a drained core that nothing stands on is returned, its sub-arrays working again, or retired. -/
def execCoreRecalibrationComplete (core : Nat) (ok : Bool) (s : State) : Host.Outcome State Fault Refusal :=
  .next ((Act.when (core < 256 && !(s.core core).service && (s.blocksOn core).isEmpty)
    (.all [ .when ok (.updD .cores CoreRec.init core fun k => { k with service := true, fenced := 0, rate := 8 }),
            serviceEvent 11 core 0, offerTeams ])).run s)

end Sys2Proof.Machine
end

