-- ==== Sys2Proof/Machine/Debug.lean ====
section
/-! DEFINITION. Debug, trace and replay (19_debug_and_replay.md R410 to R425): breakpoints, watchpoint hits and stops, halt requests, resumption
and single step, access to halted state, trace samples and rings, causal trials, held journaled events. -/

namespace Sys2Proof.Machine

open Sys2Proof

/-! ## Safe points -/

/-- The ordinal of the safe point at a text offset, when one stands there (R38, R39). -/
def safePoint (s : State) (l : Launch) (pc : Nat) : Option Nat := (List.range l.spCount).find? fun k => spWord s l k 0 == pc

/-! ## Breakpoints (R412) -/

/-- The lowest enabled breakpoint of the context at the safe point where a split stands, with its scope; the debug core holds the context
(R466). -/
def State.breakpoint (s : State) (c : Iss) : Option (Nat × Nat) :=
  match (if (s.ctx c.lau.ctx).attached then safePoint s c.lau c.sp.pc.toNat else none) with
  | none => none
  | some k => ((s.ctx c.lau.ctx).bps.zipIdx).findSome? fun e =>
      let w := e.1.toNat
      if bitAt w 63 && fld w 40 16 == c.lau.codeId.toNat && fld w 0 24 == k % 2 ^ 24 then
        some (e.2, if fld w 61 2 == 3 then 0 else fld w 61 2) else none

/-- BREAKPOINT_HIT (R365, R412): the split stops before its safe point, for the debug core or in the handler. -/
def execBreakpointHit (gid split : Nat) (s : State) : Host.Outcome State Fault Refusal :=
  .next (Act.run (match Iss.of s gid split (.nop false) with
    | none => .skip
    | some c => match (if bitAt c.sp.pre 0 then none else s.breakpoint c) with
      | none => .skip
      | some (n, scope) =>
        let sp := { c.sp with pre := c.sp.pre ||| 1 }
        let tag := word (0x10000 + n)
        .seq (.put .splits c.key sp) ({ c with sp := sp }.stopped s (.read fun s =>
          if c.lau.flags.getLsbD 3 then
            haltNow gid split { cause := 0x50, tag := tag, scope := scope, frame := [], also := none }
          else takeTrap gid split sp
            { kind := 2, op := none, length := 0, frame := groupRecord s gid c.lau c.sp.pc.toNat (.plain 1 0x50 0), words := taskWords c.grp,
              code := tag, origin := 0 }))) s)

/-! ## Watchpoints (R414, R415) -/

/-- WATCHPOINT_HIT: a performed access of the group has touched watchpoint `wp`, and its instruction has completed; the group is to stop,
and the stop goes out to its scope; or the hit is recorded in its halt.
[DEDUCED, log 114] -/
def execWatchpointHit (gid wp : Nat) (s : State) : Host.Outcome State Fault Refusal :=
  .next (Act.run (match s.group? gid with
    | some x => match x.hit with
      | some q => .when (q.tag == word wp && s.hitEnded x) (.all
          [ .put .groups gid { x with hit := none }, requestHalt gid { q with scope := 0, also := none },
            .when x.halt.isNone (broadcast gid q.scope q.also) ])
      | none => .skip
    | none => .skip) s)

/-- The split at which a group that stands still halts: one that has stopped, else its lowest. -/
def State.stopSplit (s : State) (g : Nat) : Option Nat :=
  let ns := s.splitsOf g
  match ns.find? fun n => match s.split? g n with | some x => x.wait == .stopped | none => false with
  | some n => some n
  | none => if s.allStill g then ns.head? else none
/-- A group that is asked to halt and whose split has stopped halts there, once no producer of a split that stands still runs (R43). -/
def haltIfStill (g : Nat) : Act := .read fun s =>
  match s.group? g with
  | some x => match x.haltReq, s.stopSplit g with
    | some q, some n => .when (x.halt.isNone && s.outsQuiet g) (haltNow g (if q.cause == 0x52 then q.also.getD n else n) q)
    | _, _ => .skip
  | none => .skip
/-- WATCHPOINT_STOP (R415): at a safe point the accessor halts with 0x51.
[DEDUCED, log 114] -/
def execWatchpointStop (gid : Nat) (s : State) : Host.Outcome State Fault Refusal :=
  .next ((Act.when (match s.group? gid with
    | some x => (match x.haltReq with | some q => q.cause == 0x51 | none => false)
    | none => false) (haltIfStill gid)).run s)

/-! ## Halt requests, resumption and single step (R410, R411, R416) -/

/-- The groups that a request names: by slot, linear block index, device cluster, or all of the context (R464). -/
def State.targets (s : State) (ctx scope w : Nat) : List Nat :=
  (s.groupsOf ctx).filter fun g => match scope with
    | 0 => slotOf g == w
    | 1 => (match s.blockOf g with | some b => b.linear == w | none => false)
    | 2 => clusterOf (coreOf g) == w
    | _ => true
/-- Ask groups to halt with 0x53. -/
def haltGroups (gs : List Nat) : Act :=
  .each gs fun g => requestHalt g { cause := 0x53, tag := 0, scope := 0, frame := [], also := none }

/-- The groups that resume with a stepped group when FREEZE is clear: halted ones of its block, and of its team when it stands at a team
barrier. -/
def State.partners' (s : State) (g : Nat) : List Nat :=
  match s.group? g, s.blockOf g with
  | some x, some b =>
    let atTeam := (s.splitsOf g).any fun n => match s.split? g n with
      | some y => (match y.wait with | .barrier t _ _ => t | _ => false)
      | none => false
    (if atTeam then s.barMembers x.bid b.tid true else b.gids).filter (· != g)
  | _, _ => []
/-- Resume a group, for one instruction when `step` is set. -/
def resumeHalted (step : Bool) (g : Nat) : Act := .read fun s =>
  match s.group? g with
  | some x => .when x.halt.isSome (.seq
      (unhalt g) (.when step (.upd .groups g fun y =>
        { y with step := true, haltReq := some { cause := 0x52, tag := 0, scope := 0, frame := [], also := none } })))
  | none => .skip
/-- The debug core resumes groups (R411, R416). -/
def resumeGroups (gs : List Nat) (step freeze : Bool) : Act := .read fun s =>
  let others := if step && !freeze then dedup ((gs.flatMap s.partners').filter fun g => !gs.contains g) else []
  .seq (.each others (resumeHalted false)) (.each gs (resumeHalted step))
/-- The debug core lets go of a context: its breakpoints and watchpoints are disabled, its halted groups resume (R466). -/
def detachContext (ctx : Nat) : Act := .read fun s => .all
  [ .updD .ctxs Ctx.init ctx fun x => { x with attached := false, bps := x.bps.map fun w => w &&& 0x7FFFFFFFFFFFFFFF },
    .each (s.watch.filter fun e => fld e.2.w1.toNat 32 12 == ctx) fun e =>
      .put .watch e.1 { e.2 with w1 := e.2.w1 &&& 0x7FFFFFFFFFFFFFFF },
    .each (s.groupsOf ctx) fun g => .seq (.upd .groups g fun x => { x with haltReq := none, hit := none, step := false }) (resumeHalted false g) ]

/-! ## Halted state (R410, R464) -/

/-- A field of the group record: its place, its size, what it holds, and how it is written. -/
structure RecField where
  at_ : Nat
  n : Nat
  old : Nat
  put : Nat → Act

/-- A serial stack entry from its 32 bytes. -/
def stackOfNat (w since : Nat) : StackEnt :=
  { mask := BitVec.ofNat 64 (w / 2 ^ 192), fmt := BitVec.ofNat 32 (w / 2 ^ 160), pc := BitVec.ofNat 32 (w / 2 ^ 128),
    token := BitVec.ofNat 16 (w / 2 ^ 112), state := if w % 4 == 2 then .waiting else .unserved, since := since, told := false }

/-- The fields of a halted group's record that the debug core writes (R388). -/
def recordFields (s : State) (g : Nat) (x : Group) (l : Launch) : List RecField :=
  let grp (at_ n old : Nat) (f : Group → Nat → Group) : RecField := { at_ := at_, n := n, old := old, put := fun v => .upd .groups g fun y => f y v }
  let join (o : Option JoinEnt) : Nat := match o with | some j => j.oldJ.toNat | none => 0
  let setJ (o : Option JoinEnt) (v : Nat) : Option JoinEnt :=
    if v == 0 then none else some { oldJ := BitVec.ofNat 64 v, oldEnt := o.bind (·.oldEnt) }
  ((List.range 63).map fun i => { at_ := 4 * i, n := 4, old := (s.sreg g i).toNat, put := fun v => wrS g i (word v) }) ++
  ((List.range 16).map fun i => { at_ := 256 + 16 * i, n := 16, old := (s.breg g i).toNat, put := fun v => wrB g i (BitVec.ofNat 128 v) }) ++
  ((List.range 7).map fun i =>
    { at_ := 512 + 8 * i, n := 8, old := (s.preg g i).toNat, put := fun v => .put .pregs (g * 8 + i) (BitVec.ofNat 64 v) }) ++
  [ grp 568 1 x.q.toNat fun y v => { y with q := BitVec.ofNat 7 v },
    grp 569 1 x.depth fun y v => { y with depth := v },
    grp 572 4 x.flags.toNat fun y v => { y with flags := BitVec.ofNat 6 v },
    grp 576 8 (s.groupTimer x) fun y v => { y with timer := v, resTime := s.dev.cycle.toNat },
    grp 584 4 x.gtthr.toNat fun y v => { y with gtthr := word v },
    grp 588 4 x.locks fun y v => { y with locks := v },
    grp 592 8 x.live.toNat fun y v => { y with live := BitVec.ofNat 64 v },
    grp 600 4 x.cychi.toNat fun y v => { y with cychi := word v },
    grp 604 4 x.gthi.toNat fun y v => { y with gthi := word v },
    grp 608 4 x.thandle.toNat fun y v => { y with thandle := word v },
    grp 612 4 (x.nlast.getD 0) fun y v => { y with nlast := if v == 0 then none else some v },
    grp 624 8 (join x.join0) fun y v => { y with join0 := setJ y.join0 v },
    grp 632 8 (join x.join1) fun y v => { y with join1 := setJ y.join1 v },
    grp 640 8 (join x.join2) fun y v => { y with join2 := setJ y.join2 v } ] ++
  ((s.splitsOf g).flatMap fun n => match s.split? g n with
    | none => []
    | some y =>
      let sp (at_ k old : Nat) (f : Split → Nat → Split) : RecField :=
        { at_ := at_, n := k, old := old, put := fun v => .upd .splits (splitKey g n) fun z => f z v }
      let b := 648 + 32 * n
      [ sp b 4 y.pc.toNat fun z v => { z with pc := word v },
        sp (b + 4) 4 y.fmt.toNat fun z v => { z with fmt := word v },
        sp (b + 8) 8 y.mask.toNat fun z v => { z with mask := BitVec.ofNat 64 v },
        sp (b + 16) 8 y.j.toNat fun z v => { z with j := BitVec.ofNat 64 v } ] ++
      (y.stack.zipIdx.map fun e => sp (1024 + 256 * n + 32 * e.2) 32 (natOfBytes e.1.bytes) fun z v =>
        { z with stack := z.stack.set e.2 (stackOfNat v e.1.since) })) ++
  ((List.range 16).map fun d =>
    { at_ := 2048 + 8 * d, n := 8,
      old := match Tab.wps.val none (g * 16 + d) s with | some p => 2 ^ 32 + p.toNat | none => 0,
      put := fun v => .put .wps (g * 16 + d) (if bitAt v 32 then some (word v) else none) }) ++
  ((List.range l.vregs).flatMap fun r => (List.range l.width).map fun i =>
    { at_ := 2560 + 4 * (r * l.width + i), n := 4, old := (s.vreg g r i).toNat, put := fun v => wrV g r i (word v) })

/-- Overlay bytes at an offset onto a field's value.
[DESIGN CHOICE, log 94] -/
def overlay (f : RecField) (off : Nat) (xs : List Byte) : Nat :=
  natOfBytes ((List.range f.n).map fun i =>
    if off ≤ f.at_ + i && f.at_ + i < off + xs.length then xs.getD (f.at_ + i - off) 0 else BitVec.ofNat 8 (f.old / 256 ^ i))
/-- The debug core writes bytes of a halted group's record; bytes that belong to no field are dropped.
[DESIGN CHOICE, log 94] -/
def writeHalted (g off : Nat) (xs : List Byte) : Act := .read fun s =>
  match s.group? g, s.launchOf g with
  | some x, some l => ((recordFields s g x l).filter fun f => meetsRange f.at_ f.n off xs.length).foldr
      (fun f a => .seq (f.put (overlay f off xs)) a) .skip
  | _, _ => .skip
/-- Bytes of a halted group's record.
[DESIGN CHOICE, log 94] -/
def State.haltedBytes (s : State) (g off n : Nat) : List Byte :=
  match s.group? g, s.launchOf g with
  | some x, some l => ((groupBytes s g x l fun y => y.pc).drop off).take n
  | _, _ => []

/-! ## Trace (R418 to R420) and the event ring (R406) -/

/-- Whether a sample is due when a split of a context issues a safe point on a core (R419). -/
def State.sampleDue (s : State) (core ctx : Nat) : Bool :=
  let x := s.ctx ctx
  let last := match (s.core core).samples.find? fun e => e.1 == ctx with | some (_, p) => p | none => 0
  x.tracing && x.sper != 0 && last < s.dev.cycle.toNat / (1024 * x.sper.toNat)
/-- TRACE_SAMPLE: the split at its safe point writes a sample, once in a period on its core. -/
def execTraceSample (gid split : Nat) (s : State) : Host.Outcome State Fault Refusal :=
  .next (Act.run (match Iss.of s gid split (.nop false) with
    | none => .skip
    | some c =>
      let ctx := c.lau.ctx
      .when (s.sampleDue c.core ctx && !s.traceHeld ctx) (.seq (traceGroup 2 gid 0 c.sp.pc.toNat 0)
        (.updD .cores CoreRec.init c.core fun k =>
          { k with samples := (k.samples.filter fun e => e.1 != ctx) ++
              [(ctx, s.dev.cycle.toNat / (1024 * (s.ctx ctx).sper.toNat))] }))) s)

/-- TRHEAD takes a value (R418, R420); records that waited go in. -/
def setTrhead (ctx : Nat) (v : BitVec 20) : Act := .seq (.updD .ctxs Ctx.init ctx fun x => { x with trhead := v }) (flushTrace ctx)
/-- TRHEAD_WRITE (R418, R420): by a master that the access tables grant it. -/
def execTrheadWrite (master ctx : Nat) (v : BitVec 20) (s : State) : Host.Outcome State Fault Refusal :=
  .next (Act.run (.when (s.mayWrite master (0x90000010 + 256 * ctx)) (setTrhead ctx v)) s)

/-- Write the events that were held back, as far as there is room (R406). -/
def flushEvents : Act := .read fun s =>
  .seq (.dev fun d => { d with erPost := [] }) (.each s.dev.erPost postEvent)
/-- ERHEAD takes a value (R406); events that waited go in. -/
def setErhead (v : BitVec 20) : Act := .seq (.dev fun d => { d with erhead := v }) flushEvents
/-- ERHEAD_WRITE (R406). -/
def execErheadWrite (master : Nat) (v : BitVec 20) (s : State) : Host.Outcome State Fault Refusal :=
  .next (Act.run (.when (s.mayWrite master 0x80000010) (setErhead v)) s)

/-! ## Causal trials (R421) -/

/-- Whether a split that is to issue a safe point is delayed first: every safe point but those of the trial's range, in a context that the
debug core holds (R466). -/
def State.trialDelays (s : State) (c : Iss) : Bool :=
  let x := s.ctx c.lau.ctx
  x.attached && x.ctEn && !bitAt c.sp.pre 1 && (match safePoint s c.lau c.sp.pc.toNat with
    | some k => !(c.lau.codeId == x.ctObj && x.ctLo.toNat ≤ k && k ≤ x.ctHi.toNat)
    | none => false)
/-- CAUSAL_TRIAL_DELAY_END: the delay has run out, and the split may issue its safe point. -/
def execCausalTrialDelayEnd (gid split : Nat) (s : State) : Host.Outcome State Fault Refusal :=
  .next ((Act.upd .splits (splitKey gid split) fun x => match x.wait with
    | .delay t => if t ≤ s.dev.cycle.toNat then { x with wait := .ready, pre := x.pre ||| 2 } else x
    | _ => x).run s)

/-! ## The replay journal (R425) -/

/-- JOURNAL_RELEASE: a held access looks again whether every earlier record of its object has been performed. -/
def execJournalRelease (op : Nat) (s : State) : Host.Outcome State Fault Refusal :=
  .next (Act.run (match Tab.ops.at op s with
    | some o => .when (o.phase == .waiting && isMemory o.instr && o.journaled && !consumesPoison s o)
        (.seq (.put .ops op { o with phase := .responding }) (respond op))
    | none => .skip) s)

end Sys2Proof.Machine
end

