-- ==== Sys2Proof/Machine/Power.lean ====
section
/-! DEFINITION. Power and bring-up (05_gallery.md R134, R136 to R138, 21_power_and_bring_up.md R443 to R446): voltage steps, thermal samples,
reset, the boot stages. -/

namespace Sys2Proof.Machine

open Sys2Proof

/-! ## The step register of the clusters (R119, R137) -/

/-- Every cluster shows the state of the step and its target. -/
def setStep (state : BitVec 3) (target : Nat) : Act :=
  .seq (.dev fun d => { d with stepState := state, stepTarget := target })
    (.each (List.range 32) fun c => .updD .clusters Cluster.init c fun k => { k with step := state, target := BitVec.ofNat 3 target })
/-- Rows that a cluster lacks at a point. -/
def State.shortAt (s : State) (cl t : Nat) : Nat := s.allocRows cl - s.usableAt cl t
def State.failing (s : State) (t : Nat) : List Nat := (List.range 32).filter fun c => s.shortAt c t != 0
/-- The clusters that hold a resident launch whose FLOOR stands against a point (R137, R139). -/
def State.floorClusters (s : State) (t : Nat) : List Nat :=
  (List.range 32).filter fun c => (s.teamsIn c).any fun e => match s.launch? e.2.lid with
    | some l => l.running != 0 && l.floor < t
    | none => false
/-- A resident launch's FLOOR stands against a point (R137, R139). -/
def State.floored (s : State) (t : Nat) : Bool := !(s.floorClusters t).isEmpty

/-- The next context to pre-empt for a step: of those with a window in a failing cluster, the one of the lowest PRIO, then number. One whose
image did not fit is left.
[DEDUCED, log 95] -/
def State.stepVictim (s : State) (t : Nat) : Option Nat :=
  let cs := (s.failing t).flatMap fun c => (s.teamsIn c).filterMap fun e => (s.launch? e.2.lid).bind fun l =>
    let x := s.ctx l.ctx
    if x.cstate == 1 && x.pstat != 3 && e.2.rows != 0 then some (l.prio, l.ctx) else none
  (cs.foldl (fun (a : Option (Nat × Nat)) p => match a with
    | none => some p
    | some q => if p.1 < q.1 || (p.1 == q.1 && p.2 < q.2) then some p else some q) none).map (·.2)

/-- A step has ended: its requester is told, unless another step is wanted that is the requester's. -/
def answerStep (refused : Bool) (short : Nat) : Act := .read fun s => .when s.dev.stepWish.isNone (answerPower stepArg refused short)
/-- The step is refused: the failing clusters say by how much, and the requester is told. -/
def refuseStep (t : Nat) : Act := .read fun s =>
  let bad := dedup (s.failing t ++ s.floorClusters t)
  .all [ .each bad fun c => .updD .clusters Cluster.init c fun k => { k with refused := true, short := BitVec.ofNat 16 (s.shortAt c t) },
         setStep 5 t, answerStep true (((bad.map (s.shortAt · t)).foldl max 0) % 65536), .due [.stepCheck] ]

/-- The time of SWITCH between two points: 1 µs, and 5 mV/µs over steps of 50 mV (R15, R444). -/
def switchTicks (a b : Nat) : Nat := usTicks + 10 * (max a b - min a b) * usTicks
/-- SWITCH begins: the lower of the two points is in force (R444). -/
def beginSwitch (t : Nat) : Act := .read fun s =>
  .seq (.dev fun d => { d with point := max d.point t, stepEnd := d.ticks + switchTicks s.dev.point t }) (setStep 4 t)

/-- The tests of CHECK (R137).
[DEDUCED, log 95] -/
def checkStep (t : Nat) : Act := .read fun s =>
  if s.floored t then refuseStep t
  else if (s.failing t).isEmpty then .seq (setStep 3 t) (.due [.stepEvacuateDone])
  else if !(s.dev.preemptPolicy || s.dev.stepForce) then refuseStep t
  else match s.stepVictim t with
    | none => refuseStep t
    | some ctx => .seq (setStep 2 t)
        (.updD .ctxs Ctx.init ctx fun x => { x with cstate := 2, pstat := 1, preempt := some { drain := false, start := s.dev.ticks } })

/-- Whether the pre-emptions of a step have ended. -/
def State.stepSettled (s : State) : Bool := s.dev.stepState != 2 || !(s.ctxs.any fun e => e.2.cstate == 2)

/-- STEP_CHECK (R137): IDLE goes to CHECK on a request, once no GMODE is in progress, or straight to SWITCH upward; a point that calibration has
disabled is refused (R136); CHECK tests; REFUSED returns to IDLE.
[DEDUCED, log 101] -/
def execStepCheck (s : State) : Host.Outcome State Fault Refusal :=
  .next (Act.run (match s.dev.stepState.toNat with
    | 0 => match s.dev.stepWish with
      | none => .skip
      | some t =>
        if (List.range 32).any fun c => (s.cluster c).gmode.isSome then .skip
        else if s.dev.pointsOff ≤ t then
          .seq (.dev fun d => { d with stepWish := none, stepForce := false }) (answerPower stepArg true 0)
        else if t == s.dev.point then
          .seq (.dev fun d => { d with stepWish := none, stepForce := false }) (answerPower stepArg false 0)
        else if t < s.dev.point then .seq (.dev fun d => { d with stepWish := none }) (beginSwitch t)
        else .all [ .dev fun d => { d with stepWish := none }, setStep 1 t, offerTeams, .due [.stepCheck] ]
    | 1 => checkStep s.dev.stepTarget
    | 2 => .when s.stepSettled (.seq (setStep 1 s.dev.stepTarget) (.due [.stepCheck]))
    | 5 => .all [ setStep 0 0, .dev fun d => { d with stepForce := false }, offerTeams ]
    | _ => .skip) s)

/-- Rows of a bank that its good rows at the target cannot hold move to other scratch banks; FIFO queues beyond them move to memory; a cache
bank's lines are dropped. -/
def evacuateBank (cl bank : Nat) : Act := .read fun s =>
  let k := s.cluster cl
  let good := s.goodRows cl bank s.dev.stepTarget
  match k.modeOf bank with
  | .scratch => .each (s.teamsIn cl) fun e => .read fun s =>
      moveTeamRows cl bank e.1 (min (s.bankAlloc cl bank - good) (((s.team? e.1).bind fun t => t.bankRows[bank]?).getD 0))
  | .fifo =>
    let mine := k.fifo.filter fun f => f.1 == bank
    let lost := (mine.zipIdx.filter fun e => good < ((mine.take (e.2 + 1)).map fun f => f.2.2.2).sum).map (·.1)
    .seq (.each lost fun f => fifoToRing cl f.2.1 f.2.2.1)
      (.updD .clusters Cluster.init cl fun k => { k with fifo := k.fifo.filter fun f => !lost.contains f })
  | .cache => fitWays cl bank (s.wayRoom cl bank s.dev.stepTarget)
/-- The L1s give up the ways that are bad at the target of a step (R141): a set with more lines than the good ways hold evicts until it fits.
[DESIGN CHOICE, log 38] -/
def shedWays : Act := .read fun s => .each s.l1 fun e => trimSet (e.1 / 2 ^ 45) (e.1 % 2 ^ 45)
/-- STEP_EVACUATE_DONE (R137, R138): every row stands on a row good at the target, and SWITCH begins. -/
def execStepEvacuateDone (s : State) : Host.Outcome State Fault Refusal :=
  .next ((Act.when (s.dev.stepState == 3)
    (.seq (.each (List.range 32) fun c => .each (List.range 32) fun b => evacuateBank c b)
      (.seq shedWays (beginSwitch s.dev.stepTarget)))).run s)
/-- STEP_SWITCH_DONE (R444): the target is in force. -/
def execStepSwitchDone (s : State) : Host.Outcome State Fault Refusal :=
  .next ((Act.when (s.dev.stepState == 4 && s.dev.stepEnd ≤ s.dev.ticks)
    (.all [ .dev fun d => { d with point := d.stepTarget, stepForce := false }, setStep 0 0, answerStep false 0, offerTeams,
            .when s.dev.stepWish.isSome (.due [.stepCheck]) ])).run s)
/-- A step to a point is asked for. -/
def requestStep (t : Nat) (force : Bool) : Act :=
  .seq (.dev fun d => { d with stepWish := some t, stepForce := d.stepForce || force }) (.due [.stepCheck])

/-! ## Temperature (R443) -/

/-- THERMAL_SAMPLE: at 105 °C a step down of one point, at 115 °C every context is killed and the module holds itself in reset. -/
def execThermalSample (t : BitVec 16) (s : State) : Host.Outcome State Fault Refusal :=
  .next (Act.run (.seq (.dev fun d => { d with tmax := t })
    (if 115 * 16 ≤ t.toNat then .all
        [ .each (s.ctxs.map (·.1)) fun c => killContext c 0x5A none, postRas { Ras.unitOf 12 0 0 0 with cause := 0 },
          .dev fun d => { d with resetHeld := true } ]
     else if 105 * 16 ≤ t.toNat && s.dev.stepState == 0 && s.dev.point + 1 < s.dev.pointsOff then
        .seq (.dev fun d => { d with hot := true }) (requestStep (s.dev.point + 1) true)
     else .skip)) s)

/-! ## Reset and boot (R445, R446) -/

/-- RESET (R445): nothing survives. What the outside world still does, and the counter of the free values, are no part of the device. -/
def execReset (s : State) : Host.Outcome State Fault Refusal :=
  .next { State.reset with dev := { Dev.reset with agenda := s.dev.agenda, freeCtr := s.dev.freeCtr } }

/-- The calibration of this part (R136, R446): every row is good at VP0 to VP2.
[DESIGN CHOICE, log 9] -/
def loadCalibration : Act :=
  .each (List.range 1024) fun b => .each [3, 4, 5] fun p => .put .rowMasks (b * 8 + p) (Config.calibration (b * 8 + p))
/-- The bank modes that the board configuration names at boot; every other bank is in scratch mode (R119).
[DESIGN CHOICE, log 126] -/
def loadModes : Act :=
  .each (List.range 32) fun c => .updD .clusters Cluster.init c fun k =>
    { k with modes := (List.range 32).map fun b => match Config.bankMode (c * 32 + b) with | 0 => .cache | 2 => .fifo | _ => .scratch }
/-- A calibration that is not monotone, or below a guarantee, disables the points from the first offending one down.
[DESIGN CHOICE, log 9] -/
def checkCalibration : Act := .read fun s =>
  .each (List.range 32) fun c => .with? (s.brokenPoint c) fun p =>
    .seq (.dev fun d => { d with pointsOff := min d.pointsOff p }) (postRas (Ras.unitOf 12 10 c 0))
/-- The far tier after enumeration; with code 5 one port is out of service (R64, R445).
[DESIGN CHOICE, log 14] -/
def enumeratePorts (failed : Bool) : Act := .free fun n =>
  .each (List.range 8) fun p =>
    .put .expander p (if failed && (Config.freeByte n).toNat % 8 == p then 0 else min (Config.expanderSize p) 0xC000000000)

/-- The firmware images that stage 3 starts (R445).
[DESIGN CHOICE, log 11] -/
def startCores : Act :=
  .each (List.range 8) fun f => .put .fws f { FwCore.init with active := Config.bootVersion f, mActive := Config.bootDigest f }
/-- The security core opens the mailboxes and HOSTAT to the driver and to itself, and BOOTSTAT's page to the driver.
[DEDUCED, log 21] -/
def openRows : Act :=
  .each [296, 297, 293] fun m => .seq
    (.put .access (m * 4) { wbase := 0xF0000A0000, limit := 0xF0000A0008, at_ := false, wr := true, rd := true })
    (.put .access (m * 4 + 1) { wbase := 0xF0000C0000, limit := 0xF0000C0000, at_ := false, wr := false, rd := true })

/-- BOOT_STAGE_COMPLETE (R445): the stage ends; FAIL codes 1, 2 and 4 stop the boot. Absolute time counts from the end of stage 1.
[DESIGN CHOICE, log 20; DEDUCED, log 21] -/
def execBootStageComplete (fail : BitVec 8) (s : State) : Host.Outcome State Fault Refusal :=
  let st := s.dev.stage.toNat
  let f := s.dev.bootFail.toNat
  .next (Act.run (
    if 7 ≤ st || f == 1 || f == 2 || f == 4 then .skip
    else if fail == 1 || fail == 2 || fail == 4 then .dev fun d => { d with bootFail := fail }
    else .all
      [ .dev fun d => { d with stage := BitVec.ofNat 4 (st + 1), bootFail := if fail == 0 then d.bootFail else fail },
        .when (st == 0) (.dev fun d => { d with ticks := 0, window := 0 }),
        .when (st == 2) (.seq startCores openRows),
        .when (st == 3) (.all [ .dev fun d => { d with point := 2 }, loadCalibration, checkCalibration, loadModes ]),
        .when (st == 4) (.all [ .clear .mem 0 0x8000000000, .clear .poison 0 0x400000000, .clear .side 0 0x400000000 ]),
        .when (st == 5) (enumeratePorts (fail == 5)),
        .when (st == 6) (.dev fun d => { d with capGen := d.capGen + 2 }) ]) s)

end Sys2Proof.Machine
end

