-- ==== Sys2Proof/Machine/Firmware.lean ====
section
/-! DEFINITION. The firmware cores' mailboxes (20_firmware_host_fabric.md R428 to R434, R464): how a request arrives, what its body must
be, each function's effect and answer; live hand-over and attestation. -/

namespace Sys2Proof.Machine

open Sys2Proof

/-! ## Bodies (R464) -/

/-- A word of a body, 0 when the body is shorter, and a field of it. -/
def Request.word (r : Request) (n : Nat) : Nat := ((r.body[n]?).getD 0).toNat
def Request.fld (r : Request) (n lo len : Nat) : Nat := Machine.fld (Request.word r n) lo len
def Request.bit (r : Request) (n i : Nat) : Bool := bitAt (Request.word r n) i

/-- A mask of fields, each by its lowest bit and its length. -/
def fields (fs : List (Nat × Nat)) : Nat := fs.foldl (fun a f => a ||| (2 ^ f.2 - 1) * 2 ^ f.1) 0
def wholeWord : Nat := 2 ^ 64 - 1
/-- A body of at least `need` words, at most seven, whose set bits are all listed: `masks` gives the listed bits of each word.
[DEDUCED, log 96] -/
def Request.fits (r : Request) (need : Nat) (masks : List Nat) : Bool :=
  need ≤ r.body.length && r.body.length ≤ 7 &&
  r.body.zipIdx.all fun e => e.1.toNat &&& ((masks[e.2]?).getD 0) == e.1.toNat
/-- A physical address of a 4 KiB boundary. -/
def aligned4K (a : Nat) : Bool := a % 4096 == 0 && a < 2 ^ 52
/-- Whether memory stands behind a physical range that a firmware core is told to read or write. -/
def State.memoryAt (s : State) (pa n : Nat) : Bool :=
  pa + n ≤ 0xF000000000000 && !s.unmapped pa && !s.unmapped (pa + n - 1)

/-- The answer to a request in service, without a body. -/
def answer (core status : Nat) : Act := answerBox core status []
/-- A request that is malformed, or is refused, changes nothing; any other has its effect and answers itself. -/
def judge (core : Nat) (malformed refused : Bool) (a : Act) : Act :=
  if malformed then answer core 3 else if refused then answer core 2 else a
/-- An effect, and the answer that it is done. -/
def done (core : Nat) (a : Act) : Act := .seq a (answer core 0)

/-! ## The scheduling core -/

/-- FUNC 0x0101 (R348). PRIV stays. With EN set QSTAT clears, and a stopped queue goes on at QOFF (R353).
[DEDUCED, log 97] -/
def fwQueue (r : Request) : Act :=
  let q := Request.fld r 0 0 10
  let en := Request.bit r 0 37
  judge 1 (!Request.fits r 2 [fields [(0, 38)], wholeWord] || 12 < Request.fld r 0 30 4 || Request.word r 1 % 4096 != 0)
    (en && Request.fld r 0 10 12 == 0)
    (done 1 (.seq (.updD .queues Queue.init q fun k =>
        { k with
          qbase := BitVec.ofNat 64 (Request.word r 1), ctx := BitVec.ofNat 12 (Request.fld r 0 10 12), inc := BitVec.ofNat 8 (Request.fld r 0 22 8),
          size := BitVec.ofNat 4 (Request.fld r 0 30 4), prio := BitVec.ofNat 3 (Request.fld r 0 34 3), en := en,
          qhead := if en && k.qstat != 0 then k.qoff else k.qhead, qstat := if en then 0 else k.qstat }) kick))

/-- The phase of a domain, as an answer. -/
def answerPhase (d : Nat) : Act := .read fun s => answerBox 1 0 [(Tab.domains.val Domain.init d s).phase.setWidth 64]
/-- FUNC 0x0102, assign (R338): a domain belongs to one context at a time. PHASE stays.
[DEDUCED, log 97] -/
def fwAssign (r : Request) : Act := .read fun s =>
  let d := Request.fld r 0 0 4
  let x := Tab.domains.val Domain.init d s
  let ctx := BitVec.ofNat 12 (Request.fld r 0 5 12)
  let inc := BitVec.ofNat 8 (Request.fld r 0 17 8)
  let quorum := Request.fld r 0 25 13
  judge 1 (!Request.fits r 4 [fields [(0, 39)], wholeWord, wholeWord, fields [(0, 16)]] || quorum == 0 || 4096 < quorum)
    (x.en && !(x.ctx == ctx && x.inc == inc))
    (.seq (.put .domains d
        { x with
          quorum := BitVec.ofNat 13 quorum, span := Request.bit r 0 38, en := true, inc := inc, ctx := ctx,
          memb0 := BitVec.ofNat 64 (Request.word r 1), memb1 := BitVec.ofNat 64 (Request.word r 2),
          memb2 := BitVec.ofNat 64 (Request.word r 3), gen := x.gen + 1 })
      (answerPhase d))
/-- FUNC 0x0102, release: as RECLAIM does (R339), the stations go and EN is cleared; PHASE stays.
[DEDUCED, log 97] -/
def fwRelease (r : Request) : Act :=
  let d := Request.fld r 0 0 4
  judge 1 (!Request.fits r 1 [fields [(0, 39)], wholeWord, wholeWord, fields [(0, 16)]]) false
    (.all [ .clear .stations (stationKey d 0) (stationKey (d + 1) 0),
            .updD .domains Domain.init d fun x => { x with en := false, sentAt := none, got := [], gen := x.gen + 1 }, answerPhase d ])

/-- FUNC 0x0103 (R380, R465): answered once PSTAT is not 1. -/
def fwContext (r : Request) : Act :=
  let ctx := Request.fld r 0 0 12
  let area := Request.bit r 0 15
  let dead := Request.bit r 0 16
  judge 1 (!Request.fits r (if dead then 4 else if area then 3 else 1) [fields [(0, 17)], wholeWord, wholeWord, fields [(0, 32)]] ||
      ctx == 0 || (area && !aligned4K (Request.word r 1))) false
    (.all
      [ .updD .boxes Mailbox.init 1 fun m => { m with arg := ctx },
        .when area (.updD .ctxs Ctx.init ctx fun x =>
          { x with savebase := BitVec.ofNat 64 (Request.word r 1), savesize := BitVec.ofNat 64 (Request.word r 2) }),
        .when dead (.updD .ctxs Ctx.init ctx fun x => { x with deadline := BitVec.ofNat 32 (Request.word r 3) }),
        control ctx (Request.fld r 0 12 3), answerControl ctx ])

/-! ## The memory core -/

/-- What every request of FUNC 0x0201 is checked for; `listed` are the bits of w0 beside context, op and page size.
[DEDUCED, log 98] -/
def pagesMalformed (r : Request) (listed : List (Nat × Nat)) : Bool :=
  let size := 2 ^ pageSize (Request.fld r 0 14 2)
  let n := Request.fld r 3 0 32
  !Request.fits r 4 [fields ((0, 16) :: listed), fields [(0, 57)], fields [(0, 52)], fields [(0, 32)]] ||
  Request.word r 1 % size != 0 || Request.word r 2 % size != 0 || n == 0 || 2 ^ 57 < Request.word r 1 + n * size ||
  2 ^ 52 < Request.word r 2 + n * size
/-- Map (R73, R101 to R103): each page of a range that is free on both sides, purged of what its sectors held. -/
def fwMap (r : Request) : Act := .read fun s =>
  let ctx := Request.fld r 0 0 12
  let size := pageSize (Request.fld r 0 14 2)
  let rights := Request.fld r 0 16 3
  let va := Request.word r 1
  let n := Request.word r 3
  let place := if Request.word r 2 == 0 then s.freePlace ctx 0 size (n * 2 ^ size)
    else if s.mappable ctx (Request.word r 2) (n * 2 ^ size) then some (Request.word r 2) else none
  judge 2 (pagesMalformed r [(16, 3)] || (bitAt rights 1 && !bitAt rights 0))
    (!s.mayMap ctx || place.isNone || !((List.range n).all fun i => s.vaFree ctx (va + i * 2 ^ size) size))
    (.with? place fun pa => .seq
      (.each (List.range n) fun i => .seq (.each (pageSectors ((pa + i * 2 ^ size) / 4096) (2 ^ size / 4096)) purgeSector)
        (mapPage ctx (va + i * 2 ^ size) (pa + i * 2 ^ size) size rights))
      (answerBox 2 0 [BitVec.ofNat 64 pa]))
/-- Unmap (R73, R104): purge and shootdown complete before the answer. -/
def fwUnmap (r : Request) : Act := .read fun s =>
  let ctx := Request.fld r 0 0 12
  let size := pageSize (Request.fld r 0 14 2)
  let ps := s.pagesAt ctx (Request.word r 1) size (Request.word r 3)
  judge 2 (pagesMalformed r [] || Request.word r 2 != 0) ps.isNone
    (.with? ps fun ps => .seq (.each ps fun p => unmapPage ctx p.1 p.2 size) (answerBox 2 0 [0]))
/-- Migrate (R73): to the lowest free place of the target; refused where a mark record would find no room there. -/
def fwMigrate (r : Request) : Act := .read fun s =>
  let ctx := Request.fld r 0 0 12
  let size := pageSize (Request.fld r 0 14 2)
  let n := Request.word r 3
  let target := Request.fld r 0 19 4
  let ps := s.pagesAt ctx (Request.word r 1) size n
  let place := s.freePlace ctx target size (n * 2 ^ size)
  judge 2 (pagesMalformed r [(19, 4)] || Request.word r 2 != 0 || 8 < target)
    (match ps, place with
     | some ps, some dst => !s.movesWhole (ps.zipIdx.map fun p => (p.1.2, dst + p.2 * 2 ^ size)) size
     | _, _ => true)
    (.with? ps fun ps => .with? place fun dst => .seq
      (.each ps.zipIdx fun p => migratePage ctx p.1.1 p.1.2 (dst + p.2 * 2 ^ size) size) (answerBox 2 0 [BitVec.ofNat 64 dst]))

/-- The context and item of FUNC 0x0202. -/
def itemFields : Nat := fields [(0, 16)]
def fwFaultRing (r : Request) : Act :=
  let ctx := Request.fld r 0 0 12
  let base := Request.word r 1
  judge 2 (!Request.fits r 3 [itemFields, wholeWord, fields [(0, 5)]] || !aligned4K base || !isHbm base) false
    (done 2 (.seq (.updD .ctxs Ctx.init ctx fun x => { x with frbase := BitVec.ofNat 64 base, frsize := BitVec.ofNat 5 (Request.word r 2) })
      (.due [.faultRecordPost ctx])))
def fwFrhead (r : Request) : Act :=
  let ctx := Request.fld r 0 0 12
  judge 2 (!Request.fits r 2 [itemFields, fields [(0, 20)]]) false
    (done 2 (.seq (.updD .ctxs Ctx.init ctx fun x => { x with frhead := BitVec.ofNat 20 (Request.word r 1) }) (.due [.faultRecordPost ctx])))
def fwReplay (r : Request) : Act := judge 2 (!Request.fits r 1 [itemFields]) false (done 2 (replayAll (Request.fld r 0 0 12)))
def fwConvert (r : Request) : Act :=
  judge 2 (!Request.fits r 2 [itemFields, fields [(0, 16)]]) false
    (done 2 (convertPark (Request.fld r 0 0 12) (BitVec.ofNat 16 (Request.word r 1))))
def fwHbase (r : Request) : Act :=
  judge 2 (!Request.fits r 2 [itemFields, fields [(12, 45)]]) false
    (done 2 (.updD .ctxs Ctx.init (Request.fld r 0 0 12) fun x => { x with hbase := BitVec.ofNat 45 (Request.fld r 1 12 45) }))
def fwGmodeen (r : Request) : Act :=
  judge 2 (!Request.fits r 2 [itemFields, 1]) false
    (done 2 (.updD .ctxs Ctx.init (Request.fld r 0 0 12) fun x => { x with gmodeen := Request.bit r 1 0 }))
/-- Entries of a task table that are not FREE (R302, R303).
[DEDUCED, log 99] -/
def State.usedEntries (s : State) (base n : Nat) : Nat :=
  if 10 ≤ n && n ≤ 20 then ((List.range (2 ^ n)).filter fun i => s.homeNat (base + 64 * i) 1 % 16 != 0).length else 0
def fwTaskTable (r : Request) : Act := .read fun s =>
  judge 2 (!Request.fits r 5 [itemFields, wholeWord, fields [(0, 5)], wholeWord, fields [(0, 40)]] || !aligned4K (Request.word r 1)) false
    (done 2 (.updD .ctxs Ctx.init (Request.fld r 0 0 12) fun x =>
      { x with
        ttbase := BitVec.ofNat 64 (Request.word r 1), ttsize := BitVec.ofNat 5 (Request.word r 2),
        ttused := BitVec.ofNat 21 (s.usedEntries (Request.word r 1) (Request.word r 2)),
        aspool := BitVec.ofNat 64 (Request.word r 3), assize := BitVec.ofNat 40 (Request.word r 4) }))
/-- Whether a context still holds a mark record (R89). -/
def State.holdsMarks (s : State) (ctx : Nat) : Bool :=
  (s.marks.any fun e => e.2.ctx == ctx && (e.2.r0.valid || e.2.r1.valid)) ||
  (s.side.any fun e => (s.ownerOf (e.1 * 32)).1 == ctx && (MarkRec.ofBits e.2).valid) ||
  (match s.oaSets ctx with
   | some n => (s.listedEntries (s.ctx ctx).oabase.toNat (128 * n)).any fun pa => (s.ovfEntry pa).1.valid
   | none => false)
/-- The overflow area is zeroed before it is placed, at every slice at once; it changes only while no record of the context stands
anywhere, and lies outside every mapped page (R89).
[DEDUCED, log 99] -/
def fwOverflow (r : Request) : Act := .read fun s =>
  let ctx := Request.fld r 0 0 12
  let base := Request.word r 1
  let n := Request.word r 2
  let size := if 10 ≤ n && n ≤ 24 then 128 * 2 ^ n else 1
  judge 2 (!Request.fits r 3 [itemFields, wholeWord, fields [(0, 5)]] || !aligned4K base || !isHomed base)
    (s.holdsMarks ctx || (10 ≤ n && n ≤ 24 && (!s.populated base size || (s.mappedAt base size).isSome || reserved base size ||
      s.inOverflow (some ctx) base size || s.retired base size)))
    (done 2 (.seq
      (.when (10 ≤ n && n ≤ 24) (.all
        [ .clear .mem base (base + size), .clear .l2 (base / 32) ((base + size) / 32), .clear .poison (base / 32) ((base + size) / 32) ]))
      (.updD .ctxs Ctx.init ctx fun x => { x with oabase := BitVec.ofNat 64 base, oasets := BitVec.ofNat 5 n })))

/-! ## The error and the power core -/

/-- FUNC 0x0301 (R347, R406). -/
def fwErrors (r : Request) : Act :=
  let ring := Request.bit r 0 17
  let hang := Request.bit r 0 18
  let head := Request.bit r 0 19
  judge 3 (!Request.fits r (if head then 5 else if hang then 4 else if ring then 3 else 1)
      [fields [(0, 20)], wholeWord, fields [(0, 5)], fields [(0, 32)], fields [(0, 20)]] || (ring && !aligned4K (Request.word r 1))) false
    (done 3 (.seq (.dev fun d =>
      { d with
        cethr := BitVec.ofNat 16 (Request.word r 0), uekill := Request.bit r 0 16,
        erbase := if ring then BitVec.ofNat 64 (Request.word r 1) else d.erbase,
        ersize := if ring then BitVec.ofNat 5 (Request.word r 2) else d.ersize,
        hangthr := if hang then BitVec.ofNat 32 (Request.word r 3) else d.hangthr,
        erhead := if head then BitVec.ofNat 20 (Request.word r 4) else d.erhead }) flushEvents))

def powerMalformed (r : Request) : Bool := !Request.fits r 1 [fields [(0, 16)]]
/-- FUNC 0x0401 op 0 (R137): answered when the step ends. A point that calibration has disabled is refused (R136).
[DEDUCED, log 101] -/
def fwPoint (r : Request) : Act := .read fun s =>
  let t := Request.fld r 0 2 3
  judge 4 (powerMalformed r || 5 < t) (s.dev.pointsOff ≤ t)
    (.seq (.updD .boxes Mailbox.init 4 fun m => { m with arg := stepArg }) (requestStep t false))
/-- FUNC 0x0401 op 1.
[DEDUCED, log 101] -/
def fwPolicy (r : Request) : Act :=
  judge 4 (powerMalformed r) false (.seq (.dev fun d => { d with preemptPolicy := Request.bit r 0 5 }) (answerBox 4 0 [0]))
/-- FUNC 0x0401 op 2 (R447): answered when the recalibration ends. -/
def fwRecalibrate (r : Request) : Act :=
  let cl := Request.fld r 0 11 5
  let bank := Request.fld r 0 6 5
  judge 4 (powerMalformed r) false
    (.seq (.updD .boxes Mailbox.init 4 fun m => { m with arg := recalArg cl bank }) (beginRecalibration cl bank))

/-! ## The security core -/

/-- Whether a window covers a page that is mapped to another context.
[DEDUCED, log 100] -/
def AccWin.meetsOther (w : AccWin) (s : State) (ctx : Nat) : Bool :=
  (w.rd || w.wr || w.at_) && w.wbase.toNat ≤ w.limit.toNat &&
  s.pages.any fun e => e.2.ctx != ctx && meetsRange (e.1 * 4096) (2 ^ e.2.size) (w.wbase.toNat * 4096) ((w.limit.toNat + 1 - w.wbase.toNat) * 4096)
/-- FUNC 0x0501 (R112, R430): rows of cores, copy engines and firmware cores are never owned; rows from 324 on do not exist.
[DEDUCED, log 40; DEDUCED, log 100] -/
def fwWindow (r : Request) : Act := .read fun s =>
  let m := Request.fld r 0 0 9
  let n := Request.fld r 0 9 2
  let owned := Request.bit r 0 11
  let ctx := Request.fld r 0 12 12
  let w : AccWin :=
    { wbase := BitVec.ofNat 40 (Request.fld r 1 12 40), limit := BitVec.ofNat 40 (Request.fld r 2 12 40),
      at_ := Request.bit r 1 2, wr := Request.bit r 1 1, rd := Request.bit r 1 0 }
  let size := (w.limit.toNat + 1 - w.wbase.toNat) * 4096
  let rest := ((List.range 4).filter (· != n)).map fun k => Tab.access.val AccWin.closed (m * 4 + k) s
  judge 5 (!Request.fits r 3 [fields [(0, 24)], fields [(0, 3), (12, 40)], fields [(12, 40)]] || 324 ≤ m || (!owned && ctx != 0))
    ((owned && (m < 296 || ctx == 0 || (w :: rest).any fun x => AccWin.meetsOther x s ctx)) ||
      ((w.rd || w.wr || w.at_) && w.wbase.toNat ≤ w.limit.toNat && reserved (w.wbase.toNat * 4096) size))
    (done 5 (.seq (.put .access (m * 4 + n) w) (.put .accOwner m (if owned then ctx else 0))))

/-- An entry of a quote (R433, R434): an image that is VERIFIED or in TRANSFER is pending. -/
def quoteEntry (s : State) (f : Nat) : List Byte :=
  let x := Tab.fws.val FwCore.init f s
  let pend := x.hand == 2 || x.hand == 3
  [BitVec.ofNat 8 f, BitVec.ofNat 8 (b2n pend), 0, 0] ++ bytesOfNat 4 x.active.toNat ++ bytesOfNat 64 x.mActive.toNat ++
  bytesOfNat 4 (if pend then x.pending.toNat else 0) ++ zeros 4 ++ bytesOfNat 64 (if pend then x.mPending.toNat else 0)
/-- The quote of one snapshot, with the `k`-th free signature.
[DESIGN CHOICE, log 118] -/
def quoteBytes (s : State) (nonce : List Byte) (k : Nat) : List Byte :=
  bytesOfNat 4 0x4F515445 ++ bytesOfNat 4 1364 ++ nonce ++ bytesOfNat 8 s.dev.window ++ (List.range 8).flatMap (quoteEntry s) ++
  (List.range 132).map (Config.signature k)
/-- Bytes of memory at their homes. -/
def State.homeBytes (s : State) (pa n : Nat) : List Byte := (List.range n).map fun i => s.homeByte (pa + i)
/-- FUNC 0x0502 (R433).
[DEDUCED, log 85; DEDUCED, log 98; DESIGN CHOICE, log 118] -/
def fwQuote (r : Request) : Act := .free fun k => .read fun s =>
  let nonce := Request.word r 0
  let buf := Request.word r 1
  judge 5 (!Request.fits r 3 [fields [(0, 52)], fields [(0, 52)], fields [(0, 32)]] || Request.word r 2 < 1364)
    (!s.memoryAt nonce 64 || !s.memoryAt buf 1364)
    (.seq (writeHome buf (quoteBytes s (s.homeBytes nonce 64) k)) (answerBox 5 0 [BitVec.ofNat 64 buf, 1364]))

/-- FUNC 0x0503 (R431, R432): no image is staged while a core is in a hand-over; one of the security core only while every other core
is in IDLE. The image is copied and measured.
[DESIGN CHOICE, log 11] -/
def fwStage (r : Request) : Act := .read fun s =>
  let f := Request.fld r 0 0 3
  let hand (k : Nat) : BitVec 3 := (Tab.fws.val FwCore.init k s).hand
  let bytes := s.homeBytes (Request.word r 1) (Request.word r 2)
  judge 5 (!Request.fits r 3 [fields [(0, 3)], fields [(0, 52)], fields [(0, 32)]])
    (!s.memoryAt (Request.word r 1) (Request.word r 2) || Request.word r 2 == 0 || (List.range 8).any fun k =>
      if f == 5 && k != 5 then hand k != 0 else hand k != 0 && hand k != 5)
    (.all [ .updD .fws FwCore.init f fun x => { x with hand := 1, pending := Config.imageVersion bytes, mPending := Config.imageDigest bytes },
            reportChange, answerBox 5 0 [1] ])

/-- FUNC 0x0504 op 0 (R64): the port's IDE key is set from the material in memory. -/
def fwKey (r : Request) : Act := .read fun s =>
  judge 5 (!Request.fits r 2 [fields [(0, 4)], fields [(0, 52)]]) (!s.memoryAt (Request.word r 1) 1)
    (done 5 (.put .keys (Request.fld r 0 1 3) true))
/-- FUNC 0x0504 op 1 (R348). -/
def fwPriv (r : Request) : Act :=
  judge 5 (!Request.fits r 1 [fields [(0, 1), (4, 11)]]) false
    (done 5 (.updD .queues Queue.init (Request.fld r 0 4 10) fun k => { k with priv := Request.bit r 0 14 }))

/-! ## The fabric core -/

def answerFabric : Act := .read fun s => answerBox 6 0 [BitVec.ofNat 64 (s.dev.fabricReg 0)]
/-- FUNC 0x0601, join (R437): DEVNUM, WK and EPOCH change only while DOMEN is clear. -/
def fwJoin (r : Request) : Act := .read fun s =>
  let n := Request.fld r 0 1 8
  judge 6 (!Request.fits r 2 [fields [(0, 12)], wholeWord] || 144 ≤ n || 6 < Request.fld r 0 9 3) s.dev.domen
    (.all [ .dev fun d =>
              { d with
                devnum := BitVec.ofNat 8 n, wk := BitVec.ofNat 3 (Request.fld r 0 9 3), epoch := BitVec.ofNat 64 (Request.word r 1),
                domen := true, peers := (List.range 144).filter (· != n) },
            reportChange, answerFabric ])
/-- A remote request of the device is outstanding. -/
def State.remoteOutstanding (s : State) : Bool :=
  s.ops.any fun e => e.2.remote && (e.2.phase == .responding || e.2.phase == .checking || e.2.phase == .running)
/-- The device leaves its domain once no remote request of it is outstanding (R437).
[DEDUCED, log 104] -/
def leaveIfQuiet : Act := .read fun s =>
  let m := Tab.boxes.val Mailbox.init 6 s
  .when (m.busy && m.func == 0x0601 && m.arg == 1 && !s.remoteOutstanding)
    (.all [ .dev fun d => { d with domen := false, peers := [] }, reportChange, answerFabric ])
def fwLeave (r : Request) : Act := .read fun s =>
  judge 6 (!Request.fits r 1 [fields [(0, 12)], wholeWord]) (!s.dev.domen)
    (.seq (.updD .boxes Mailbox.init 6 fun m => { m with arg := 1 }) leaveIfQuiet)

/-- Whether an import entry may go: its local context is saved or killed (R440). -/
def State.importFree (s : State) (n : Nat) : Bool :=
  match Tab.imports.at n s with
  | some e => (s.ctx e.ctx).cstate == 3 || (s.ctx e.ctx).cstate == 5
  | none => true
def importMalformed (r : Request) : Bool := !Request.fits r 1 [fields [(0, 45)]] || 144 ≤ Request.fld r 0 12 8
/-- FUNC 0x0602, write (R440): a new mapping removes the one that its entry held.
[DEDUCED, log 104] -/
def fwImport (r : Request) : Act := .read fun s =>
  let n := Request.fld r 0 0 12
  let e : Import := { peer := Request.fld r 0 12 8, peerCtx := Request.fld r 0 20 12, ctx := Request.fld r 0 32 12 }
  judge 6 (importMalformed r) (e.ctx == 0 || (!s.importFree n && Tab.imports.at n s != some e)) (done 6 (.put .imports n e))
/-- FUNC 0x0602, remove. -/
def fwUnimport (r : Request) : Act := .read fun s =>
  judge 6 (importMalformed r) (!s.importFree (Request.fld r 0 0 12)) (done 6 (.del .imports (Request.fld r 0 0 12)))

/-! ## The debug core -/

/-- A request of FUNC 0x0701 on a held context (R466); `a` is its effect and answer. -/
def onHeld (r : Request) (need : Nat) (masks : List Nat) (malformed refused : Bool) (a : Act) : Act := .read fun s =>
  judge 7 (!Request.fits r need (fields [(0, 21)] :: masks) || malformed) (!(s.ctx (Request.fld r 0 5 12)).attached || refused) a
def fwAttach (r : Request) : Act :=
  let ctx := Request.fld r 0 5 12
  judge 7 (!Request.fits r 1 [fields [(0, 21)]]) (ctx == 0) (done 7 (.updD .ctxs Ctx.init ctx fun x => { x with attached := true }))
def fwDetach (r : Request) : Act :=
  judge 7 (!Request.fits r 1 [fields [(0, 21)]]) false (done 7 (detachContext (Request.fld r 0 5 12)))

/-- The target word of a halt or resume request: a slot, a linear block index, a device cluster. -/
def targetMask (scope : Nat) : Nat := match scope with | 0 => fields [(0, 16)] | 1 => fields [(0, 32)] | 2 => fields [(0, 5)] | _ => 0
def onTargets (r : Request) (k : List Nat → Act) : Act :=
  let scope := Request.fld r 0 17 2
  onHeld r (if scope == 3 then 1 else 2) [targetMask scope] false false
    (.read fun s => done 7 (k (s.targets (Request.fld r 0 5 12) scope (Request.word r 1))))
def fwHalt (r : Request) : Act := onTargets r haltGroups
def fwResume (r : Request) : Act := onTargets r fun gs => resumeGroups gs (Request.bit r 0 19) (Request.bit r 0 20)

/-- The fields of a breakpoint, of the words of a watchpoint, and of the trace and trial registers (R412, R413, R418, R421). -/
def breakFields : Nat := fields [(0, 24), (40, 16), (61, 3)]
def watchFields : Nat := fields [(0, 5), (24, 8), (32, 12), (58, 6)]
def fwBreakpoint (r : Request) : Act :=
  onHeld r 3 [7, breakFields] false false
    (done 7 (.updD .ctxs Ctx.init (Request.fld r 0 5 12) fun x =>
      { x with bps := x.bps.set (Request.fld r 1 0 3) (BitVec.ofNat 64 (Request.word r 2)) }))
/-- A watchpoint acts on the context that the request names.
[DEDUCED, log 103] -/
def setWatch (r : Request) (key : Nat) : Act :=
  done 7 (.put .watch key { w0 := BitVec.ofNat 64 (Request.word r 2), w1 := BitVec.ofNat 64 (Request.word r 3) })
def fwDieWatch (r : Request) : Act :=
  onHeld r 4 [fields [(0, 2), (4, 4)], fields [(0, 57)], watchFields] (21 < Request.fld r 3 0 5 || Request.fld r 3 24 8 != 0)
    (Request.fld r 3 32 12 != Request.fld r 0 5 12) (setWatch r (Request.fld r 1 0 2 * 16 + Request.fld r 1 4 4))
def fwGalleryWatch (r : Request) : Act :=
  onHeld r 4 [fields [(0, 5), (8, 3)], fields [(0, 23), (24, 33)], watchFields] (10 < Request.fld r 3 0 5)
    (Request.fld r 3 32 12 != Request.fld r 0 5 12) (setWatch r (64 + Request.fld r 1 0 5 * 8 + Request.fld r 1 8 3))
/-- A register of the debug block that the debug core writes: the bits it has, and the change. -/
def traceReg (o v : Nat) : Option (Nat × (Ctx → Ctx)) :=
  match o with
  | 0x00 => some (fields [(12, 40)], fun x => { x with trbase := BitVec.ofNat 64 v })
  | 0x08 => some (fields [(0, 5), (8, 20), (31, 1)], fun x =>
      { x with tren := bitAt v 31, sper := BitVec.ofNat 20 (fld v 8 20), trsize := BitVec.ofNat 5 v })
  | 0x10 => some (fields [(0, 20)], fun x => { x with trhead := BitVec.ofNat 20 v })
  | 0x28 => some (wholeWord, fun x =>
      { x with ctLo := word (fld v 40 24), ctHi := word (fld v 16 24), ctObj := BitVec.ofNat 16 v })
  | 0x30 => some (fields [(0, 16), (63, 1)], fun x => { x with ctEn := bitAt v 63, ctDelay := word (fld v 0 16) })
  | 0x38 => some (wholeWord, fun x => { x with pmatch := BitVec.ofNat 64 v })
  | _ => none
def fwTraceReg (r : Request) : Act :=
  let ctx := Request.fld r 0 5 12
  let reg := traceReg (Request.word r 1) (Request.word r 2)
  onHeld r 3 [fields [(0, 8)], match reg with | some (m, _) => m | none => wholeWord] reg.isNone false
    (.with? reg fun x => done 7 (.seq (.updD .ctxs Ctx.init ctx x.2) (flushTrace ctx)))

/-- The halted group that a slot names, when the range stands in its record. -/
def State.haltedGroup (s : State) (ctx slot off n : Nat) : Option Nat :=
  (s.targets ctx 0 slot).find? fun g => match s.group? g, s.launchOf g with
    | some x, some l => x.halt.isSome && off + n ≤ l.grec
    | _, _ => false
def onRecord (r : Request) (k : Nat → Nat → Nat → Nat → Act) : Act := .read fun s =>
  let off := Request.fld r 2 0 16
  let n := Request.fld r 2 16 6
  let buf := Request.word r 3
  let g := s.haltedGroup (Request.fld r 0 5 12) (Request.word r 1) off n
  onHeld r 4 [fields [(0, 16)], fields [(0, 22)], fields [(0, 52)]] (n == 0 || 32 < n) (g.isNone || !s.memoryAt buf n)
    (.with? g fun g => done 7 (k g off n buf))
/-- FUNC 0x0701 op 8: the bytes are in the buffer before the answer.
[DEDUCED, log 103] -/
def fwReadHalted (r : Request) : Act := onRecord r fun g off n buf => .read fun s => writeHome buf (s.haltedBytes g off n)
def fwWriteHalted (r : Request) : Act := onRecord r fun g off n buf => .read fun s => writeHalted g off (s.homeBytes buf n)

/-! ## Services -/

/-- A service of a firmware core: its FUNC, which of its requests it is, and what it does. -/
structure Service where
  core : Nat
  func : Nat
  sel : Request → Bool
  act : Request → Act

/-- The op or item of a request. -/
def opIs (lo len v : Nat) (r : Request) : Bool := Request.fld r 0 lo len == v
def svcQueue : Service := ⟨1, 0x0101, fun _ => true, fwQueue⟩
def svcAssign : Service := ⟨1, 0x0102, opIs 4 1 1, fwAssign⟩
def svcRelease : Service := ⟨1, 0x0102, opIs 4 1 0, fwRelease⟩
def svcContext : Service := ⟨1, 0x0103, fun _ => true, fwContext⟩
def svcMap : Service := ⟨2, 0x0201, opIs 12 2 0, fwMap⟩
def svcUnmap : Service := ⟨2, 0x0201, opIs 12 2 1, fwUnmap⟩
def svcMigrate : Service := ⟨2, 0x0201, opIs 12 2 2, fwMigrate⟩
def svcFaultRing : Service := ⟨2, 0x0202, opIs 12 4 0, fwFaultRing⟩
def svcFrhead : Service := ⟨2, 0x0202, opIs 12 4 1, fwFrhead⟩
def svcReplay : Service := ⟨2, 0x0202, opIs 12 4 2, fwReplay⟩
def svcConvert : Service := ⟨2, 0x0202, opIs 12 4 3, fwConvert⟩
def svcHbase : Service := ⟨2, 0x0202, opIs 12 4 4, fwHbase⟩
def svcGmodeen : Service := ⟨2, 0x0202, opIs 12 4 5, fwGmodeen⟩
def svcTaskTable : Service := ⟨2, 0x0202, opIs 12 4 6, fwTaskTable⟩
def svcOverflow : Service := ⟨2, 0x0202, opIs 12 4 7, fwOverflow⟩
def svcErrors : Service := ⟨3, 0x0301, fun _ => true, fwErrors⟩
def svcPoint : Service := ⟨4, 0x0401, opIs 0 2 0, fwPoint⟩
def svcPolicy : Service := ⟨4, 0x0401, opIs 0 2 1, fwPolicy⟩
def svcRecalibrate : Service := ⟨4, 0x0401, opIs 0 2 2, fwRecalibrate⟩
def svcWindow : Service := ⟨5, 0x0501, fun _ => true, fwWindow⟩
def svcQuote : Service := ⟨5, 0x0502, fun _ => true, fwQuote⟩
def svcStage : Service := ⟨5, 0x0503, fun _ => true, fwStage⟩
def svcKey : Service := ⟨5, 0x0504, opIs 0 1 0, fwKey⟩
def svcPriv : Service := ⟨5, 0x0504, opIs 0 1 1, fwPriv⟩
def svcJoin : Service := ⟨6, 0x0601, opIs 0 1 1, fwJoin⟩
def svcLeave : Service := ⟨6, 0x0601, opIs 0 1 0, fwLeave⟩
def svcImport : Service := ⟨6, 0x0602, opIs 44 1 1, fwImport⟩
def svcUnimport : Service := ⟨6, 0x0602, opIs 44 1 0, fwUnimport⟩
def svcAttach : Service := ⟨7, 0x0701, opIs 0 5 0, fwAttach⟩
def svcDetach : Service := ⟨7, 0x0701, opIs 0 5 1, fwDetach⟩
def svcHalt : Service := ⟨7, 0x0701, opIs 0 5 2, fwHalt⟩
def svcResume : Service := ⟨7, 0x0701, opIs 0 5 3, fwResume⟩
def svcBreakpoint : Service := ⟨7, 0x0701, opIs 0 5 4, fwBreakpoint⟩
def svcDieWatch : Service := ⟨7, 0x0701, opIs 0 5 5, fwDieWatch⟩
def svcGalleryWatch : Service := ⟨7, 0x0701, opIs 0 5 6, fwGalleryWatch⟩
def svcTraceReg : Service := ⟨7, 0x0701, opIs 0 5 7, fwTraceReg⟩
def svcReadHalted : Service := ⟨7, 0x0701, opIs 0 5 8, fwReadHalted⟩
def svcWriteHalted : Service := ⟨7, 0x0701, opIs 0 5 9, fwWriteHalted⟩
def services : List Service :=
  [svcQueue, svcAssign, svcRelease, svcContext, svcMap, svcUnmap, svcMigrate, svcFaultRing, svcFrhead, svcReplay, svcConvert, svcHbase,
   svcGmodeen, svcTaskTable, svcOverflow, svcErrors, svcPoint, svcPolicy, svcRecalibrate, svcWindow] ++
  [svcQuote, svcStage, svcKey, svcPriv, svcJoin, svcLeave, svcImport, svcUnimport, svcAttach, svcDetach, svcHalt, svcResume, svcBreakpoint,
   svcDieWatch, svcGalleryWatch, svcTraceReg, svcReadHalted, svcWriteHalted]

/-- A request in service is performed: a FUNC that the core does not have answers 1, a reserved op or item 3 (R429, R430, R464). -/
def serve (core func : Nat) (r : Request) : Act :=
  match services.find? fun v => v.core == core && v.func == func && v.sel r with
  | some v => v.act r
  | none => answer core (if services.any fun v => v.core == core && v.func == func then 3 else 1)

/-! ## Arrival (R429, R431, R432) -/

def mailboxAddr (core : Nat) : Nat := mgmtBase + 0xA0000000 + 0x1000 * core
/-- Whether a request reaches a mailbox: firmware runs (R445), and the row of its requester grants the write. -/
def State.reachesBox (s : State) (core : Nat) (driver : Bool) : Bool :=
  3 ≤ s.dev.stage.toNat && (if driver then [296, 297] else [293]).any fun m => s.granted m .store (mailboxAddr core) 8
/-- What an old security image still serves while it hands over (R432).
[DEDUCED, log 102] -/
def servedMeanwhile (core func : Nat) : Bool := core == 5 && (func == 0x0501 || func == 0x0502)
/-- A request is accepted: BUSY, its TAG and FUNC; during a TRANSFER it is held, else performed.
[DEDUCED, log 96] -/
def accept (core func : Nat) (tag : BitVec 16) (r : Request) : Act := .read fun s =>
  .seq (.updD .boxes Mailbox.init core fun m => { m with busy := true, tag := tag, func := func, arg := 0 })
    (if (Tab.fws.val FwCore.init core s).hand == 3 && !servedMeanwhile core func then
      .updD .fws FwCore.init core fun f => { f with held := f.held ++ [.request func r] }
     else serve core func r)
/-- A whole message written to a mailbox and rung; ignored while BUSY.
[DEDUCED, log 96] -/
def submit (v : Service) (r : Request) : Act := .read fun s =>
  .when (v.sel r && s.reachesBox v.core r.driver && !(Tab.boxes.val Mailbox.init v.core s).busy)
    (.seq (.updD .boxes Mailbox.init v.core fun m =>
        { m with req := ((BitVec.ofNat 64 (v.func + r.tag.toNat * 2 ^ 16 + r.body.length % 8 * 2 ^ 32)) :: r.body ++ List.replicate 8 0).take 8 })
      (accept v.core v.func r.tag r))

def execConfigureCommandQueue (r : Request) (s : State) : Host.Outcome State Fault Refusal := .next ((submit svcQueue r).run s)
def execAssignRollCallDomain (r : Request) (s : State) : Host.Outcome State Fault Refusal := .next ((submit svcAssign r).run s)
def execReleaseRollCallDomain (r : Request) (s : State) : Host.Outcome State Fault Refusal := .next ((submit svcRelease r).run s)
def execContextControl (r : Request) (s : State) : Host.Outcome State Fault Refusal := .next ((submit svcContext r).run s)
def execMapPages (r : Request) (s : State) : Host.Outcome State Fault Refusal := .next ((submit svcMap r).run s)
def execUnmapPages (r : Request) (s : State) : Host.Outcome State Fault Refusal := .next ((submit svcUnmap r).run s)
def execMigratePages (r : Request) (s : State) : Host.Outcome State Fault Refusal := .next ((submit svcMigrate r).run s)
def execSetFaultRing (r : Request) (s : State) : Host.Outcome State Fault Refusal := .next ((submit svcFaultRing r).run s)
def execWriteFrheadRequest (r : Request) (s : State) : Host.Outcome State Fault Refusal := .next ((submit svcFrhead r).run s)
def execReplayRequest (r : Request) (s : State) : Host.Outcome State Fault Refusal := .next ((submit svcReplay r).run s)
def execConvertRequest (r : Request) (s : State) : Host.Outcome State Fault Refusal := .next ((submit svcConvert r).run s)
def execSetHbase (r : Request) (s : State) : Host.Outcome State Fault Refusal := .next ((submit svcHbase r).run s)
def execSetGmodeen (r : Request) (s : State) : Host.Outcome State Fault Refusal := .next ((submit svcGmodeen r).run s)
def execSetTaskTable (r : Request) (s : State) : Host.Outcome State Fault Refusal := .next ((submit svcTaskTable r).run s)
def execSetOverflowArea (r : Request) (s : State) : Host.Outcome State Fault Refusal := .next ((submit svcOverflow r).run s)
def execSetErrorControls (r : Request) (s : State) : Host.Outcome State Fault Refusal := .next ((submit svcErrors r).run s)
def execRequestOperatingPoint (r : Request) (s : State) : Host.Outcome State Fault Refusal := .next ((submit svcPoint r).run s)
def execSetPowerPolicy (r : Request) (s : State) : Host.Outcome State Fault Refusal := .next ((submit svcPolicy r).run s)
def execRecalibrateBank (r : Request) (s : State) : Host.Outcome State Fault Refusal := .next ((submit svcRecalibrate r).run s)
def execWriteAccessTableWindow (r : Request) (s : State) : Host.Outcome State Fault Refusal := .next ((submit svcWindow r).run s)
def execRequestAttestationQuote (r : Request) (s : State) : Host.Outcome State Fault Refusal := .next ((submit svcQuote r).run s)
def execStageFirmwareImage (r : Request) (s : State) : Host.Outcome State Fault Refusal := .next ((submit svcStage r).run s)
def execSetCxlIdeKey (r : Request) (s : State) : Host.Outcome State Fault Refusal := .next ((submit svcKey r).run s)
def execSetQueuePriv (r : Request) (s : State) : Host.Outcome State Fault Refusal := .next ((submit svcPriv r).run s)
def execJoinDomain (r : Request) (s : State) : Host.Outcome State Fault Refusal := .next ((submit svcJoin r).run s)
def execLeaveDomain (r : Request) (s : State) : Host.Outcome State Fault Refusal := .next ((submit svcLeave r).run s)
def execWriteImportEntry (r : Request) (s : State) : Host.Outcome State Fault Refusal := .next ((submit svcImport r).run s)
def execRemoveImportEntry (r : Request) (s : State) : Host.Outcome State Fault Refusal := .next ((submit svcUnimport r).run s)
def execAttach (r : Request) (s : State) : Host.Outcome State Fault Refusal := .next ((submit svcAttach r).run s)
def execDetach (r : Request) (s : State) : Host.Outcome State Fault Refusal := .next ((submit svcDetach r).run s)
def execHaltRequest (r : Request) (s : State) : Host.Outcome State Fault Refusal := .next ((submit svcHalt r).run s)
def execResume (r : Request) (s : State) : Host.Outcome State Fault Refusal := .next ((submit svcResume r).run s)
def execWriteBreakpoint (r : Request) (s : State) : Host.Outcome State Fault Refusal := .next ((submit svcBreakpoint r).run s)
def execWriteDieWatchpoint (r : Request) (s : State) : Host.Outcome State Fault Refusal := .next ((submit svcDieWatch r).run s)
def execWriteGalleryWatchpoint (r : Request) (s : State) : Host.Outcome State Fault Refusal := .next ((submit svcGalleryWatch r).run s)
def execWriteTraceRegister (r : Request) (s : State) : Host.Outcome State Fault Refusal := .next ((submit svcTraceReg r).run s)
def execReadHaltedState (r : Request) (s : State) : Host.Outcome State Fault Refusal := .next ((submit svcReadHalted r).run s)
def execWriteHaltedState (r : Request) (s : State) : Host.Outcome State Fault Refusal := .next ((submit svcWriteHalted r).run s)

/-! ## Live hand-over (R431, R432) -/

/-- IMAGE_VERIFIED: the staged image is verified, or the hand-over is given up with a kind 10 event.
[DEDUCED, log 102] -/
def execImageVerified (core : Nat) (ok : Bool) (s : State) : Host.Outcome State Fault Refusal :=
  .next ((Act.when (core < 8 && (Tab.fws.val FwCore.init core s).hand == 1)
    (.all [ .updD .fws FwCore.init core fun x =>
              if ok then { x with hand := 2 } else { x with hand := 5, pending := 0, mPending := 0 },
            reportChange, .when (!ok) (postRas (Ras.unitOf 10 0 core 0)) ])).run s)
/-- What was held is served, in order. -/
def serveHeld (core : Nat) : Act := .read fun s =>
  let xs := (Tab.fws.val FwCore.init core s).held
  .seq (.updD .fws FwCore.init core fun x => { x with held := [] })
    (.each xs fun h => match h with
      | .request func r => serve core func r
      | .doorbell q v => ringDoorbell q v)
/-- HANDOVER_TRANSFER: at the quiescent point TRANSFER begins; the next one ends it, in the commit or in ABORTED. Either way what was held is
served, by the image that is then active. COMMITTED and ABORTED end in IDLE.
[DEDUCED, log 102] -/
def execHandoverTransfer (core : Nat) (ok : Bool) (s : State) : Host.Outcome State Fault Refusal :=
  .next ((Act.when (core < 8) (match (Tab.fws.val FwCore.init core s).hand.toNat with
    | 2 => .seq (.updD .fws FwCore.init core fun x => { x with hand := 3 }) reportChange
    | 3 => .all
        [ .updD .fws FwCore.init core fun x =>
            if ok then { x with hand := 4, active := x.pending, mActive := x.mPending, pending := 0, mPending := 0 }
            else { x with hand := 5, pending := 0, mPending := 0 },
          reportChange, .when (!ok) (postRas (Ras.unitOf 10 0 core 0)), serveHeld core ]
    | 4 => .updD .fws FwCore.init core fun x => { x with hand := 0 }
    | 5 => .updD .fws FwCore.init core fun x => { x with hand := 0 }
    | _ => .skip)).run s)

end Sys2Proof.Machine
end

