-- ==== Sys2Proof/Machine/Outside.lean ====
section
/-! DEFINITION. What comes from outside the device (07_memory_model.md R181 to R184, 20_firmware_host_fabric.md R429, R435 to R440,
18_reliability.md R408, R409): host accesses, answers of the companion processor and of peers, fabric requests, time, links, and
writes to management space. -/

namespace Sys2Proof.Machine

open Sys2Proof

/-! ## The Ubpen links (R181, R435, R436) -/

/-- What the link's row grants before the firmware runs: reads of BOOTSTAT's page (R445).
[DEDUCED, log 21] -/
def bootAccess (write : Bool) (pa n : Nat) : Bool := !write && pa / 4096 == 0xF0000C0000 && (pa + n - 1) / 4096 == 0xF0000C0000
/-- Whether the link performs a host access: its row grants it, and a memory page belongs to a live context.
[DEDUCED, log 108] -/
def State.hostGranted (s : State) (a : HostAccess) : Bool :=
  let ask : Ask := if a.write then .store else .load
  s.dev.ubpen.getLsbD a.link && a.bytes != 0 && a.bytes ≤ 64 &&
  (if s.dev.stage.toNat < 3 then a.link == 0 && bootAccess a.write a.pa a.bytes
   else s.granted (296 + a.link) ask a.pa a.bytes && (isManagement a.pa || (isHomed a.pa && !s.unmapped a.pa &&
     (match s.mappedAt a.pa 1, s.mappedAt (a.pa + a.bytes - 1) 1 with
      | some (p, m), some (q, _) => p == q && (s.ctx m.ctx).cstate != 5 && !s.stale (.ubpen a.link) m.ctx m.inc
      | _, _ => false))))
/-- HOST_ACCESS (R181, R435): performed at the home slice, neither registered nor marked nor trapped; otherwise it completes with an error
and has no effect. The companion processor's own memory needs no link.
[DEDUCED, log 108] -/
def execHostAccess (a : HostAccess) (s : State) : Host.Outcome State Fault Refusal :=
  .next (Act.run (
    if isCompanion a.pa then .when (a.write && a.bytes ≤ 64 && isCompanion (a.pa + a.bytes)) (writeHomeNat a.pa a.bytes a.data)
    else if !s.hostGranted a || !a.write then .skip
    else if isManagement a.pa then .when (a.pa % 8 + a.bytes ≤ 8) (writeMgmt (296 + a.link) a.pa a.bytes a.data)
    else writeHomeNat a.pa a.bytes a.data) s)

/-- An address that a link or a port answers for. -/
def isOuter (pa : Nat) : Bool := isCompanion pa || (peerOf pa).isSome
/-- Where an engine operation in progress reaches such an address: what a record of it says, and the physical address. -/
def outerBlame (s : State) (o : Op) : Option (Blame × Nat) :=
  let at_ (va : Nat) (b : Blame) : Blame × Nat := (b, s.phys o.ctx va)
  let hit (vas : List Nat) : Option Nat := (sortNat vas).find? fun va => isOuter (s.phys o.ctx va)
  match copyOf o with
  | some c => match c.chunk o.prog with
    | some (r, line) =>
      let els := c.elements r line
      match (if CopyForm.memSrc c.f then hit (els.flatMap fun i => elemVas c.src (c.srcOff r i) c.e) else none) with
      | some va => some (at_ va (copyBlame c 0x14 false 0 va))
      | none => if CopyForm.memDst c.f then
          c.dests.findSome? fun k => (hit (els.flatMap fun i => elemVas c.dst (c.dstOff k r i) c.de)).map fun va => at_ va (copyBlame c 0x14 true k va)
        else none
    | none => none
  | none => match xferOf o with
    | some (f, drain, x) =>
      if f.mem then (hit (x.bytesOf f o.rowList)).map fun va =>
        at_ va (tileBlame 0x14 drain (drain && XferForm.adds f) (tileLane s o f.lb) (XferForm.sizeCode f drain) va)
      else none
    | none => none
/-- The first line of a memory operation behind a link or a port. -/
def outerLine (o : Op) : Option Nat :=
  o.lines.findSome? fun e => match e.2 with | .ok l => if isOuter (l * 128) then some e.1 else none | _ => none

/-- What an answer other than `done` says in the record of an access (R184, R440): 0x14, or a conflict whose other party is the target
device's slot; a conflict that no peer could answer is none. -/
def peerBlame (peer : Option Nat) (b : Blame) : PeerAnswer → Option Blame
  | .done => none
  | .refused => some b
  | .conflict cause cls stamp => peer.bind fun p =>
      if 0x20 ≤ cause.toNat && cause.toNat ≤ 0x23 then
        some { b with cause := cause, oslot := 0x8100 + p, ocls := cls.toNat, ostamp := stamp.toNat }
      else none
/-- COMPANION_RESPONSE (R436): the access completes; or the other side refuses it, and the group traps with 0x14 at the access, with no
effect. A peer's negative completion (R440) comes in the same way, and so does a peer's answer that the access conflicts with a live record
there: the group traps with the conflict (R184).
[DEDUCED, log 5; DESIGN CHOICE, log 106] -/
def execCompanionResponse (op : Nat) (answer : PeerAnswer) (s : State) : Host.Outcome State Fault Refusal :=
  .next (Act.run (match Tab.ops.at op s with
    | none => .skip
    | some o =>
      if isMemory o.instr then
        match outerLine o with
        | none => .skip
        | some line =>
          if o.phase != .responding then .skip
          else if answer == .done then respond op
          else .with? (peerBlame ((o.lineTr line).bind fun t => match t with | .ok l => peerOf (l * 128) | _ => none)
              (o.blame 0x14 (lowLane (o.lanesIn fun v => v == line)) line) answer) fun b => .seq (clearPending o)
            (failOp op { cause := b.cause, frame := opRecord s o b, words := opWords s o, origin := 0 })
      else if o.phase != .running then .skip
      else .with? (outerBlame s o) fun x => .with? (peerBlame (peerOf x.2) x.1 answer) fun b => failEngine op o b 0) s)

/-- A port or a link has gone or come back: the capability list, and a kind 10 event (R409). -/
def linkEvent (unit : Nat) : Act := serviceEvent 12 unit 0
/-- UBPEN_LINK_FAILURE (R409). -/
def execUbpenLinkFailure (link : Nat) (s : State) : Host.Outcome State Fault Refusal :=
  .next ((Act.when (link < 2 && s.dev.ubpen.getLsbD link)
    (.seq (.dev fun d => { d with ubpen := d.ubpen &&& ~~~(BitVec.ofNat 2 (2 ^ link)) }) (linkEvent link))).run s)

/-! ## The Fjoven ports (R437 to R440) -/

/-- PORT_FAILURE (R438): the routes move; with no port left, requests already sent complete or time out (R113). -/
def execPortFailure (port : Nat) (s : State) : Host.Outcome State Fault Refusal :=
  .next ((Act.when (port < 18 && s.dev.ports.getLsbD port)
    (.all [ .dev fun d => { d with ports := d.ports &&& ~~~(BitVec.ofNat 18 (2 ^ port)) }, linkEvent port,
            .read fun s => .when (s.dev.ports == 0)
              (.due ((s.ops.filter fun e => e.2.remote && e.2.phase == .responding).map fun e => .fabricResponseTimeout e.1)) ])).run s)
/-- PORT_TRAINED (R437): LIVE shows the port. -/
def execPortTrained (port : Nat) (s : State) : Host.Outcome State Fault Refusal :=
  .next ((Act.when (port < 18 && !s.dev.ports.getLsbD port)
    (.seq (.dev fun d => { d with ports := d.ports ||| BitVec.ofNat 18 (2 ^ port) }) (linkEvent port))).run s)

/-- PTP_MESSAGE (R439): the measured offset is in OFFSET, SYNCOK says whether it is within bounds, and the clock is set by it.
[DESIGN CHOICE, log 105] -/
def execPtpMessage (offset : BitVec 64) (s : State) : Host.Outcome State Fault Refusal :=
  .next ((Act.dev fun d => { d with
    offset := offset, syncok := decide (-50 ≤ offset.toInt) && decide (offset.toInt ≤ 50), clockAdj := d.clockAdj - offset.toInt }).run s)

/-- Whether the ports hold a remote access back at its sender: the slice owes a fabric quarter notice of two quarters ago (R93), or the
stack is paused (R408).
[DEDUCED, log 107] -/
def State.heldBack (s : State) (pa : Nat) : Bool :=
  s.owesQuarter (homeSlice pa) 32768 || s.pausedAt pa
/-- The local context and incarnation that a request acts for (R440): imported, its page that context's, the port's row granting it.
[DEDUCED, log 104] -/
def State.imported (s : State) (a : RemoteAccess) : Option (Nat × Nat) :=
  let ask : Ask := match a.kind with | .read => .load | .write => .store | .atomic _ _ => .atomic
  match s.imports.find? fun e => e.2.peer == a.peer && e.2.peerCtx == a.peerCtx with
  | none => none
  | some (_, e) =>
    let inc := (s.ctx e.ctx).cinc.toNat
    let own (pa : Nat) : Bool := (s.mappedAt pa 1).any fun m => m.2.ctx == e.ctx && m.2.inc == inc
    if s.dev.domen && s.dev.syncok && s.dev.peers.contains a.peer && s.dev.ports.getLsbD a.port && s.granted (298 + a.port) ask a.pa a.bytes &&
       own a.pa && own (a.pa + a.bytes - 1) && !s.stale (.fjoven a.port) e.ctx inc then some (e.ctx, inc) else none
/-- The new bytes of a remote write or atomic, performed at home (R162, R440).
[DEDUCED, log 107] -/
def remotePerform (a : RemoteAccess) : Act := .read fun s =>
  match a.kind with
  | .read => .skip
  | .write => writeHomeNat a.pa a.bytes a.data
  | .atomic op type => writeHomeNat a.pa a.bytes (atomicNew op type (8 * a.bytes) (s.homeNat a.pa a.bytes) a.data a.data2).1

/-- REMOTE_REQUEST (R183, R184, R439, R440): performed at the home slice under slot 0x8100 + p with the sending window as its stamp; a request
that is not imported, or that conflicts, has no effect and is answered so.
[DEDUCED, log 107] -/
def execRemoteRequest (a : RemoteAccess) (s : State) : Host.Outcome State Fault Refusal :=
  .next (Act.run (
    let write := match a.kind with | .read => false | _ => true
    if !isHomed a.pa || a.bytes == 0 || 16 < a.bytes || a.port ≥ 18 || s.dev.window + 1 < a.window || a.window + 2 ≤ s.dev.window then .skip
    else if s.heldBack a.pa || s.heldBack (a.pa + a.bytes - 1) then .skip
    else match s.imported a with
      | none => .skip
      | some (ctx, inc) =>
        checkMany { slot := BitVec.ofNat 16 (0x8100 + a.peer), stamp := BitVec.ofNat 16 a.window, ctx := ctx, inc := inc, origin := none }
          (markClass a.cls write) (sectorsOf ((List.range a.bytes).map fun i => a.pa + i)) []
          fun fails => .when fails.isEmpty (remotePerform a)) s)

/-! ## Writes to management space (R5, R429) -/

/-- RING (R429): the message at REQ is submitted; ignored while BUSY. A header with reserved bits set, or words beyond the stated length, is
malformed. -/
def ringBox (core : Nat) : Act := .read fun s =>
  let m := Tab.boxes.val Mailbox.init core s
  let head := ((m.req[0]?).getD 0).toNat
  let n := fld head 32 3
  let r : Request := { driver := true, tag := BitVec.ofNat 16 (fld head 16 16), body := (m.req.drop 1).take n }
  if m.busy then .skip
  else if fld head 35 29 != 0 || (m.req.drop (1 + n)).any (· != 0) then
    .seq (.updD .boxes Mailbox.init core fun m => { m with busy := true, tag := r.tag, func := fld head 0 16 })
      (answer core (if services.any fun v => v.core == core && v.func == fld head 0 16 then 3 else 1))
  else accept core (fld head 0 16) r.tag r
/-- A write of the masked bytes of a word of a mailbox page; a byte that it leaves out clears nothing and rings nothing. -/
def writeBox (core o : Nat) (v : BitVec 64) (m : BitVec 8) : Act :=
  let w := v &&& byteBits m
  if o == 0 then .when (w.getLsbD 0) (ringBox core)
  else if o == 8 then .when (w.getLsbD 1) (.updD .boxes Mailbox.init core fun b => { b with done := false })
  else if 0x100 ≤ o && o < 0x140 then
    .updD .boxes Mailbox.init core fun b =>
      if b.busy then b else { b with req := b.req.set ((o - 0x100) / 8) (putBytes (b.req.getD ((o - 0x100) / 8) 0) v m) }
  else .skip
/-- A write of some bytes of a ring's head or tail: the other bytes stay (R5). -/
def writeHead (a : Nat) (v : BitVec 64) (m : BitVec 8) : Act := .read fun s =>
  let o := a % 2 ^ 24
  let w := putBytes (BitVec.ofNat 64 (s.register a)) v m
  match a / 2 ^ 24 with
  | 0x10 => .when (o < 2 ^ 18 && o % 64 == 0x10) (setFrhead (o / 64) (w.setWidth 20))
  | 0x60 => .when (o < 2 ^ 16 && o % 64 == 0x18) (setQtail (o / 64) (w.setWidth 32))
  | 0x80 => .when (o == 0x10) (setErhead (w.setWidth 20))
  | 0x90 => .when (o < 2 ^ 20 && o % 256 == 0x10) (setTrhead (o / 256) (w.setWidth 20))
  | _ => .skip
/-- REGISTER_WRITE: the masked bytes of mailbox words, bits that a write of 1 clears, heads and tails of rings written in part; every other
register drops the write (R5).
[DEDUCED, log 73] -/
def execRegisterWrite (master addr : Nat) (v : MaskedWord) (s : State) : Host.Outcome State Fault Refusal :=
  let a := addr / 8 * 8
  let o := a % 2 ^ 24
  let w := v.word &&& byteBits v.mask
  .next (Act.run (
    if !s.mayWrite master a then .skip
    else if a / 2 ^ 24 == 0xA0 && o < 0x8000 then .when (3 ≤ s.dev.stage.toNat) (writeBox (o / 4096) (o % 4096) v.word v.mask)
    else if a == 0xC0000008 && w.getLsbD 0 then .dev fun d => { d with hot := false }
    else if a / 2 ^ 24 == 0x20 && o < 32 * 4096 && o % 4096 == 0x10 && w.getLsbD 7 then
      .updD .clusters Cluster.init (o / 4096) fun k => { k with refused := false }
    else writeHead a v.word v.mask) s)

end Sys2Proof.Machine
end

