-- ==== Sys2Proof/Machine/Dispatch.lean ====
section
/-! DEFINITION. One arm for each constructor of Instr: its meaning. -/

namespace Sys2Proof.Machine

open Sys2Proof

def exec (i : Instr) (s : State) : Host.Outcome State Fault Refusal :=
  match i with
  | .nop sb => Sys2Proof.Machine.execNop sb s
  | .sadd sb d a b w => Sys2Proof.Machine.execSadd sb d a b w s
  | .ssub sb d a b w => Sys2Proof.Machine.execSsub sb d a b w s
  | .smul sb d a b sgn hi w => Sys2Proof.Machine.execSmul sb d a b sgn hi w s
  | .sand sb d a b w => Sys2Proof.Machine.execSand sb d a b w s
  | .sor sb d a b w => Sys2Proof.Machine.execSor sb d a b w s
  | .sxor sb d a b w => Sys2Proof.Machine.execSxor sb d a b w s
  | .sshl sb d a b w => Sys2Proof.Machine.execSshl sb d a b w s
  | .sshr sb d a b ar w => Sys2Proof.Machine.execSshr sb d a b ar w s
  | .smin sb d a b sgn w => Sys2Proof.Machine.execSmin sb d a b sgn w s
  | .smax sb d a b sgn w => Sys2Proof.Machine.execSmax sb d a b sgn w s
  | .scmp sb d a b w sgn c => Sys2Proof.Machine.execScmp sb d a b w sgn c s
  | .ssel sb d a b q => Sys2Proof.Machine.execSsel sb d a b q s
  | .saddi sb d im => Sys2Proof.Machine.execSaddi sb d im s
  | .smovi sb d im => Sys2Proof.Machine.execSmovi sb d im s
  | .smovh sb d im => Sys2Proof.Machine.execSmovh sb d im s
  | .sandi sb d im => Sys2Proof.Machine.execSandi sb d im s
  | .sori sb d im => Sys2Proof.Machine.execSori sb d im s
  | .sxori sb d im => Sys2Proof.Machine.execSxori sb d im s
  | .sld sb d m => Sys2Proof.Machine.execSld sb d m s
  | .sst sb d m => Sys2Proof.Machine.execSst sb d m s
  | .movs sb d sel => Sys2Proof.Machine.execMovs sb d sel s
  | .sets sb d sel => Sys2Proof.Machine.execSets sb d sel s
  | .sfmt sb a f => Sys2Proof.Machine.execSfmt sb a f s
  | .brec sb d m => Sys2Proof.Machine.execBrec sb d m s
  | .brecl sb d a => Sys2Proof.Machine.execBrecl sb d a s
  | .brecx sb d m => Sys2Proof.Machine.execBrecx sb d m s
  | .qlog sb d a b tt => Sys2Proof.Machine.execQlog sb d a b tt s
  | .bra sb g neg o => Sys2Proof.Machine.execBra sb g neg o s
  | .call sb g neg o => Sys2Proof.Machine.execCall sb g neg o s
  | .ret sb => Sys2Proof.Machine.execRet sb s
  | .jmpi sb a => Sys2Proof.Machine.execJmpi sb a s
  | .brp sb g neg o => Sys2Proof.Machine.execBrp sb g neg o s
  | .recv sb t => Sys2Proof.Machine.execRecv sb t s
  | .exit sb => Sys2Proof.Machine.execExit sb s
  | .waitc sb p n => Sys2Proof.Machine.execWaitc sb p n s
  | .sleep sb c => Sys2Proof.Machine.execSleep sb c s
  | .yield sb => Sys2Proof.Machine.execYield sb s
  | .trap sb c => Sys2Proof.Machine.execTrap sb c s
  | .brk sb t => Sys2Proof.Machine.execBrk sb t s
  | .tret sb skip => Sys2Proof.Machine.execTret sb skip s
  | .tinfo sb d n => Sys2Proof.Machine.execTinfo sb d n s
  | .dbgmark sb v => Sys2Proof.Machine.execDbgmark sb v s
  | .bar land team => Sys2Proof.Machine.execBar land team s
  | .barc n land team => Sys2Proof.Machine.execBarc n land team s
  | .fence sb k c => Sys2Proof.Machine.execFence sb k c s
  | .rollset sb n d => Sys2Proof.Machine.execRollset sb n d s
  | .rollarv sb n d => Sys2Proof.Machine.execRollarv sb n d s
  | .rollwait d => Sys2Proof.Machine.execRollwait d s
  | .tspawn sb d m => Sys2Proof.Machine.execTspawn sb d m s
  | .twait d m => Sys2Proof.Machine.execTwait d m s
  | .tfill sb d m => Sys2Proof.Machine.execTfill sb d m s
  | .tend sb => Sys2Proof.Machine.execTend sb s
  | .lkacq m => Sys2Proof.Machine.execLkacq m s
  | .lkrel sb m => Sys2Proof.Machine.execLkrel sb m s
  | .qpush d m => Sys2Proof.Machine.execQpush d m s
  | .qpop d m => Sys2Proof.Machine.execQpop d m s
  | .qreg sb m => Sys2Proof.Machine.execQreg sb m s
  | .gmode sb m b => Sys2Proof.Machine.execGmode sb m b s
  | .vadd f => Sys2Proof.Machine.execVadd f s
  | .vsub f => Sys2Proof.Machine.execVsub f s
  | .vmul f => Sys2Proof.Machine.execVmul f s
  | .vmulh f => Sys2Proof.Machine.execVmulh f s
  | .vmad f => Sys2Proof.Machine.execVmad f s
  | .vaddc f => Sys2Proof.Machine.execVaddc f s
  | .vand f => Sys2Proof.Machine.execVand f s
  | .vor f => Sys2Proof.Machine.execVor f s
  | .vxor f => Sys2Proof.Machine.execVxor f s
  | .vshl f => Sys2Proof.Machine.execVshl f s
  | .vshr f => Sys2Proof.Machine.execVshr f s
  | .vfsh f => Sys2Proof.Machine.execVfsh f s
  | .vmin f => Sys2Proof.Machine.execVmin f s
  | .vmax f => Sys2Proof.Machine.execVmax f s
  | .vabs f => Sys2Proof.Machine.execVabs f s
  | .vcmp f => Sys2Proof.Machine.execVcmp f s
  | .vsel f => Sys2Proof.Machine.execVsel f s
  | .vmov f => Sys2Proof.Machine.execVmov f s
  | .vpopc f => Sys2Proof.Machine.execVpopc f s
  | .vclz f => Sys2Proof.Machine.execVclz f s
  | .vbrev f => Sys2Proof.Machine.execVbrev f s
  | .vbfe f => Sys2Proof.Machine.execVbfe f s
  | .vbfi f => Sys2Proof.Machine.execVbfi f s
  | .vlut3 f => Sys2Proof.Machine.execVlut3 f s
  | .vlut4 f => Sys2Proof.Machine.execVlut4 f s
  | .vdot4 f => Sys2Proof.Machine.execVdot4 f s
  | .vcvti f => Sys2Proof.Machine.execVcvti f s
  | .vprm f => Sys2Proof.Machine.execVprm f s
  | .vlane f => Sys2Proof.Machine.execVlane f s
  | .plog f => Sys2Proof.Machine.execPlog f s
  | .vshfl f => Sys2Proof.Machine.execVshfl f s
  | .vballot f => Sys2Proof.Machine.execVballot f s
  | .vvote f => Sys2Proof.Machine.execVvote f s
  | .vredux f => Sys2Proof.Machine.execVredux f s
  | .vmatch f => Sys2Proof.Machine.execVmatch f s
  | .vscan f => Sys2Proof.Machine.execVscan f s
  | .vbcast f => Sys2Proof.Machine.execVbcast f s
  | .vfirst f => Sys2Proof.Machine.execVfirst f s
  | .fadd f => Sys2Proof.Machine.execFadd f s
  | .fsub f => Sys2Proof.Machine.execFsub f s
  | .fmul f => Sys2Proof.Machine.execFmul f s
  | .ffma f => Sys2Proof.Machine.execFfma f s
  | .fmin f => Sys2Proof.Machine.execFmin f s
  | .fmax f => Sys2Proof.Machine.execFmax f s
  | .fcmp f => Sys2Proof.Machine.execFcmp f s
  | .frcp f => Sys2Proof.Machine.execFrcp f s
  | .frsq f => Sys2Proof.Machine.execFrsq f s
  | .fsqrt f => Sys2Proof.Machine.execFsqrt f s
  | .fdiv f => Sys2Proof.Machine.execFdiv f s
  | .fexp2 f => Sys2Proof.Machine.execFexp2 f s
  | .flog2 f => Sys2Proof.Machine.execFlog2 f s
  | .fsin f => Sys2Proof.Machine.execFsin f s
  | .fcos f => Sys2Proof.Machine.execFcos f s
  | .ftanh f => Sys2Proof.Machine.execFtanh f s
  | .fcvt f => Sys2Proof.Machine.execFcvt f s
  | .fcvti f => Sys2Proof.Machine.execFcvti f s
  | .icvtf f => Sys2Proof.Machine.execIcvtf f s
  | .fclass f => Sys2Proof.Machine.execFclass f s
  | .frnd f => Sys2Proof.Machine.execFrnd f s
  | .fscale f => Sys2Proof.Machine.execFscale f s
  | .fquant f => Sys2Proof.Machine.execFquant f s
  | .fdeq f => Sys2Proof.Machine.execFdeq f s
  | .fflags f => Sys2Proof.Machine.execFflags f s
  | .ld f => Sys2Proof.Machine.execLd f s
  | .st f => Sys2Proof.Machine.execSt f s
  | .atom f => Sys2Proof.Machine.execAtom f s
  | .ldg f => Sys2Proof.Machine.execLdg f s
  | .stg f => Sys2Proof.Machine.execStg f s
  | .atg f => Sys2Proof.Machine.execAtg f s
  | .pref f => Sys2Proof.Machine.execPref f s
  | .trd f => Sys2Proof.Machine.execTrd f s
  | .twr f => Sys2Proof.Machine.execTwr f s
  | .tzero f => Sys2Proof.Machine.execTzero f s
  | .mma f => Sys2Proof.Machine.execMma f s
  | .tload f => Sys2Proof.Machine.execTload f s
  | .tdrain f => Sys2Proof.Machine.execTdrain f s
  | .cpy f => Sys2Proof.Machine.execCpy f s
  | .cpymc f => Sys2Proof.Machine.execCpymc f s
  | .cpyred f => Sys2Proof.Machine.execCpyred f s
  | .recvResolve gid => Sys2Proof.Machine.execRecvResolve gid s
  | .groupWake gid => Sys2Proof.Machine.execGroupWake gid s
  | .queueDeadlock ctx => Sys2Proof.Machine.execQueueDeadlock ctx s
  | .taskAcknowledge op => Sys2Proof.Machine.execTaskAcknowledge op s
  | .producerComplete op => Sys2Proof.Machine.execProducerComplete op s
  | .loadResponse op => Sys2Proof.Machine.execLoadResponse op s
  | .writeIntentAnswer op => Sys2Proof.Machine.execWriteIntentAnswer op s
  | .atomicResponse op => Sys2Proof.Machine.execAtomicResponse op s
  | .releaseWritebackAck gid => Sys2Proof.Machine.execReleaseWritebackAck gid s
  | .l1Eviction core line => Sys2Proof.Machine.execL1Eviction core line s
  | .registration req => Sys2Proof.Machine.execRegistration req s
  | .livenessProbe req => Sys2Proof.Machine.execLivenessProbe req s
  | .probeAnswer req => Sys2Proof.Machine.execProbeAnswer req s
  | .writeBack w => Sys2Proof.Machine.execWriteBack w s
  | .memoryResponse sector st => Sys2Proof.Machine.execMemoryResponse sector st s
  | .quarterNotice slot u => Sys2Proof.Machine.execQuarterNotice slot u s
  | .quarterNoticeAck slot u => Sys2Proof.Machine.execQuarterNoticeAck slot u s
  | .fabricQuarterNotice slice => Sys2Proof.Machine.execFabricQuarterNotice slice s
  | .windowAdvance => Sys2Proof.Machine.execWindowAdvance s
  | .pagePurge page count => Sys2Proof.Machine.execPagePurge page count s
  | .pageMove src dst count => Sys2Proof.Machine.execPageMove src dst count s
  | .pageTableWalk walk => Sys2Proof.Machine.execPageTableWalk walk s
  | .shootdown ctx va len => Sys2Proof.Machine.execShootdown ctx va len s
  | .faultRecordPost ctx => Sys2Proof.Machine.execFaultRecordPost ctx s
  | .frheadWrite master ctx v => Sys2Proof.Machine.execFrheadWrite master ctx v s
  | .replay ctx => Sys2Proof.Machine.execReplay ctx s
  | .convert ctx slot => Sys2Proof.Machine.execConvert ctx slot s
  | .fabricResponseTimeout op => Sys2Proof.Machine.execFabricResponseTimeout op s
  | .copyChunk op => Sys2Proof.Machine.execCopyChunk op s
  | .copyComplete op => Sys2Proof.Machine.execCopyComplete op s
  | .copyArrivalAccepted op => Sys2Proof.Machine.execCopyArrivalAccepted op s
  | .mmaBlock op => Sys2Proof.Machine.execMmaBlock op s
  | .tloadComplete op => Sys2Proof.Machine.execTloadComplete op s
  | .tdrainSnapshot op => Sys2Proof.Machine.execTdrainSnapshot op s
  | .tdrainComplete op => Sys2Proof.Machine.execTdrainComplete op s
  | .selfTestInjection core sub pass => Sys2Proof.Machine.execSelfTestInjection core sub pass s
  | .barrierComplete team id => Sys2Proof.Machine.execBarrierComplete team id s
  | .rollCallArrival domain station => Sys2Proof.Machine.execRollCallArrival domain station s
  | .phaseComplete domain => Sys2Proof.Machine.execPhaseComplete domain s
  | .phaseMessage domain dev phase => Sys2Proof.Machine.execPhaseMessage domain dev phase s
  | .clockGate gid => Sys2Proof.Machine.execClockGate gid s
  | .coreRetention core => Sys2Proof.Machine.execCoreRetention core s
  | .waitExceeded gid split => Sys2Proof.Machine.execWaitExceeded gid split s
  | .sleepEnd gid split => Sys2Proof.Machine.execSleepEnd gid split s
  | .groupTimerThreshold gid => Sys2Proof.Machine.execGroupTimerThreshold gid s
  | .scratchScan cluster => Sys2Proof.Machine.execScratchScan cluster s
  | .gmodeDrainComplete cluster => Sys2Proof.Machine.execGmodeDrainComplete cluster s
  | .doorbell master q v => Sys2Proof.Machine.execDoorbell master q v s
  | .cmdNop q => Sys2Proof.Machine.execCmdNop q s
  | .launch q => Sys2Proof.Machine.execLaunch q s
  | .timetable q => Sys2Proof.Machine.execTimetable q s
  | .chain q => Sys2Proof.Machine.execChain q s
  | .wait q => Sys2Proof.Machine.execWait q s
  | .waitReread q => Sys2Proof.Machine.execWaitReread q s
  | .signal q => Sys2Proof.Machine.execSignal q s
  | .copy q => Sys2Proof.Machine.execCopy q s
  | .marker q => Sys2Proof.Machine.execMarker q s
  | .kill q => Sys2Proof.Machine.execKill q s
  | .reclaim q => Sys2Proof.Machine.execReclaim q s
  | .reclaimComplete ctx inc => Sys2Proof.Machine.execReclaimComplete ctx inc s
  | .deadBroadcast u ctx inc => Sys2Proof.Machine.execDeadBroadcast u ctx inc s
  | .teamPlacement lid => Sys2Proof.Machine.execTeamPlacement lid s
  | .windowClearComplete team => Sys2Proof.Machine.execWindowClearComplete team s
  | .launchComplete lid => Sys2Proof.Machine.execLaunchComplete lid s
  | .timetableNodeComplete tt node => Sys2Proof.Machine.execTimetableNodeComplete tt node s
  | .prefectScan moves => Sys2Proof.Machine.execPrefectScan moves s
  | .preemptWithSave ctx => Sys2Proof.Machine.execPreemptWithSave ctx s
  | .preemptWithDrain ctx => Sys2Proof.Machine.execPreemptWithDrain ctx s
  | .saveComplete ctx => Sys2Proof.Machine.execSaveComplete ctx s
  | .restore ctx => Sys2Proof.Machine.execRestore ctx s
  | .revive ctx => Sys2Proof.Machine.execRevive ctx s
  | .openCtx ctx => Sys2Proof.Machine.execOpenCtx ctx s
  | .preemptDeadline ctx => Sys2Proof.Machine.execPreemptDeadline ctx s
  | .rollback block => Sys2Proof.Machine.execRollback block s
  | .markStructureError place => Sys2Proof.Machine.execMarkStructureError place s
  | .correctedError struct unit addr => Sys2Proof.Machine.execCorrectedError struct unit addr s
  | .pinRepair stack => Sys2Proof.Machine.execPinRepair stack s
  | .channelResume stack exhausted => Sys2Proof.Machine.execChannelResume stack exhausted s
  | .recalibrationComplete cluster bank masks => Sys2Proof.Machine.execRecalibrationComplete cluster bank masks s
  | .stepCheck => Sys2Proof.Machine.execStepCheck s
  | .stepEvacuateDone => Sys2Proof.Machine.execStepEvacuateDone s
  | .stepSwitchDone => Sys2Proof.Machine.execStepSwitchDone s
  | .thermalSample t => Sys2Proof.Machine.execThermalSample t s
  | .reset => Sys2Proof.Machine.execReset s
  | .bootStageComplete fail => Sys2Proof.Machine.execBootStageComplete fail s
  | .breakpointHit gid split => Sys2Proof.Machine.execBreakpointHit gid split s
  | .watchpointHit gid wp => Sys2Proof.Machine.execWatchpointHit gid wp s
  | .watchpointStop gid => Sys2Proof.Machine.execWatchpointStop gid s
  | .traceSample gid split => Sys2Proof.Machine.execTraceSample gid split s
  | .trheadWrite master ctx v => Sys2Proof.Machine.execTrheadWrite master ctx v s
  | .erheadWrite master v => Sys2Proof.Machine.execErheadWrite master v s
  | .journalRelease op => Sys2Proof.Machine.execJournalRelease op s
  | .hostAccess a => Sys2Proof.Machine.execHostAccess a s
  | .companionResponse op answer => Sys2Proof.Machine.execCompanionResponse op answer s
  | .remoteRequest a => Sys2Proof.Machine.execRemoteRequest a s
  | .ptpMessage offset => Sys2Proof.Machine.execPtpMessage offset s
  | .portFailure port => Sys2Proof.Machine.execPortFailure port s
  | .registerWrite master addr v => Sys2Proof.Machine.execRegisterWrite master addr v s
  | .fabricQuarterNoticeAck slice => Sys2Proof.Machine.execFabricQuarterNoticeAck slice s
  | .causalTrialDelayEnd gid split => Sys2Proof.Machine.execCausalTrialDelayEnd gid split s
  | .ubpenLinkFailure link => Sys2Proof.Machine.execUbpenLinkFailure link s
  | .portTrained port => Sys2Proof.Machine.execPortTrained port s
  | .coreRecalibrationComplete core ok => Sys2Proof.Machine.execCoreRecalibrationComplete core ok s
  | .configureCommandQueue r => Sys2Proof.Machine.execConfigureCommandQueue r s
  | .assignRollCallDomain r => Sys2Proof.Machine.execAssignRollCallDomain r s
  | .releaseRollCallDomain r => Sys2Proof.Machine.execReleaseRollCallDomain r s
  | .contextControl r => Sys2Proof.Machine.execContextControl r s
  | .mapPages r => Sys2Proof.Machine.execMapPages r s
  | .unmapPages r => Sys2Proof.Machine.execUnmapPages r s
  | .migratePages r => Sys2Proof.Machine.execMigratePages r s
  | .setFaultRing r => Sys2Proof.Machine.execSetFaultRing r s
  | .writeFrheadRequest r => Sys2Proof.Machine.execWriteFrheadRequest r s
  | .replayRequest r => Sys2Proof.Machine.execReplayRequest r s
  | .convertRequest r => Sys2Proof.Machine.execConvertRequest r s
  | .setHbase r => Sys2Proof.Machine.execSetHbase r s
  | .setGmodeen r => Sys2Proof.Machine.execSetGmodeen r s
  | .setTaskTable r => Sys2Proof.Machine.execSetTaskTable r s
  | .setOverflowArea r => Sys2Proof.Machine.execSetOverflowArea r s
  | .setErrorControls r => Sys2Proof.Machine.execSetErrorControls r s
  | .requestOperatingPoint r => Sys2Proof.Machine.execRequestOperatingPoint r s
  | .setPowerPolicy r => Sys2Proof.Machine.execSetPowerPolicy r s
  | .recalibrateBank r => Sys2Proof.Machine.execRecalibrateBank r s
  | .writeAccessTableWindow r => Sys2Proof.Machine.execWriteAccessTableWindow r s
  | .requestAttestationQuote r => Sys2Proof.Machine.execRequestAttestationQuote r s
  | .stageFirmwareImage r => Sys2Proof.Machine.execStageFirmwareImage r s
  | .imageVerified core ok => Sys2Proof.Machine.execImageVerified core ok s
  | .handoverTransfer core ok => Sys2Proof.Machine.execHandoverTransfer core ok s
  | .setCxlIdeKey r => Sys2Proof.Machine.execSetCxlIdeKey r s
  | .setQueuePriv r => Sys2Proof.Machine.execSetQueuePriv r s
  | .joinDomain r => Sys2Proof.Machine.execJoinDomain r s
  | .leaveDomain r => Sys2Proof.Machine.execLeaveDomain r s
  | .writeImportEntry r => Sys2Proof.Machine.execWriteImportEntry r s
  | .removeImportEntry r => Sys2Proof.Machine.execRemoveImportEntry r s
  | .attach r => Sys2Proof.Machine.execAttach r s
  | .detach r => Sys2Proof.Machine.execDetach r s
  | .haltRequest r => Sys2Proof.Machine.execHaltRequest r s
  | .resume r => Sys2Proof.Machine.execResume r s
  | .writeBreakpoint r => Sys2Proof.Machine.execWriteBreakpoint r s
  | .writeDieWatchpoint r => Sys2Proof.Machine.execWriteDieWatchpoint r s
  | .writeGalleryWatchpoint r => Sys2Proof.Machine.execWriteGalleryWatchpoint r s
  | .writeTraceRegister r => Sys2Proof.Machine.execWriteTraceRegister r s
  | .readHaltedState r => Sys2Proof.Machine.execReadHaltedState r s
  | .writeHaltedState r => Sys2Proof.Machine.execWriteHaltedState r s

end Sys2Proof.Machine
end

