-- ==== Sys2Proof/Machine/Schedule.lean ====
section
/-! DEFINITION. What happens next: which split issues (15_command_queues_and_scheduling.md R361, 12_execution_model.md R277, R287), what
stands between a split and its instruction (02_encoding.md R24, R34, R37, R40 to R43), the passing of time and what it brings. -/

namespace Sys2Proof.Machine

open Sys2Proof

/-! ## What a split waits for -/

/-- ST, SST and an atomic without a destination (R107). -/
def Op.storePath (o : Op) : Bool := o.path == some 1 && !o.blocking
/-- Whether a lane of an operation has still to translate. -/
def Op.untranslated (o : Op) : Bool := o.phase == .walking || o.phase == .parked
/-- Whether an operation no longer keeps a split waiting. -/
def State.opOver (s : State) (id : Nat) : Bool :=
  match Tab.ops.at id s with
  | some o => o.phase == .done || o.phase == .failed || (o.storePath && !o.untranslated)
  | none => true
/-- Whether an operation is parked. -/
def State.parkedOp (s : State) (id : Nat) : Bool := match Tab.ops.at id s with | some o => o.phase == .parked | none => false
/-- Whether a split waits for an operation that is parked: a wait in which a stop leaves it, at whatever instruction it stands (R287, R375,
R381). -/
def State.waitsParked (s : State) (y : Split) : Bool :=
  match y.wait with
  | .op id => s.parkedOp id
  | .window id => s.parkedOp id
  | _ => false
/-- Whether a split that is to run its group's handler may start: no other split of the group runs (R371). -/
def State.handlerMayStart (s : State) (g n : Nat) : Bool :=
  match (s.group? g).bind (·.shadow) with
  | some sh => sh.split != n || (s.splitsOf g).all fun m => m == n || (match s.split? g m with | some z => z.wait.long | none => true)
  | none => true

/-! ## The text at a split (R23, R24, R106, R402) -/

/-- The instruction where a split stands, or why none can be read there. -/
inductive Fetched where
  | got (i : Instr)
  | park (va : Nat) (x : XFail)
  | denied (va : Nat) (cause : BitVec 8)
  | poisoned
  | bad (cause : BitVec 8)

def fetchAt (s : State) (l : Launch) (core pc : Nat) : Fetched :=
  let va := l.code + l.textOff + pc
  match fetchBytes s (some core) l pc 28 with
  | .error x => .park va x
  | .ok bs =>
    match decode bs with
    | .error r =>
      if r == .truncated && pc + bs.length < l.textSize then
        match s.translateFor l.ctx .fetch (va + bs.length) with
        | .error x => .park (va + bs.length) x
        | .ok _ => .bad r.cause
      else .bad r.cause
    | .ok (i, len) =>
      let ends := [va, va + len - 1].filterMap fun a => match s.translate l.ctx a with | .ok x => some (a, x.pa) | .error _ => none
      match ends.findSome? fun e => (s.accessFault core .load (e.2 / 128 * 128) 128).map fun c => (e.1, c) with
      | some e => .denied e.1 e.2
      | none => if ends.any fun e => s.poisoned (sectorOf e.2) && !s.codeHeld core e.2 then .poisoned else .got i

/-- A fetch brings the lines of the instruction where a split stands into the instruction cache of its core (R10). -/
def fillCode (g n : Nat) : Act := .read fun s =>
  match s.split? g n, s.launchOf g with
  | some y, some l =>
    let va := l.code + l.textOff + y.pc.toNat
    .each [va, va + lengthAt s (some (coreOf g)) l y.pc.toNat - 1] fun a => .read fun s =>
      match s.translateFor l.ctx .fetch a with
      | .ok pa => keepCode (coreOf g) l.ctx l.inc pa
      | .error _ => .skip
  | _, _ => .skip
/-- Whether a stop is taken before the instruction where a split stands: at a safe point or an EXIT, and after a single step anywhere (R34,
R37, R416). -/
def stopsBefore (c : Iss) (i : Instr) : Bool :=
  isStopSite i || (match c.grp.haltReq with | some q => q.cause == 0x52 && !c.grp.step | none => false) ||
  (match c.grp.halt with | some h => h.cause == 0x52 | none => false)
/-- Whether a split that must stop may do so where it stands, with its operation parked. -/
def State.stopsHere (s : State) (g n : Nat) : Bool :=
  s.mustStop g n && (match Iss.of s g n (.nop false) with
    | some c => match fetchAt s c.lau c.core c.sp.pc.toNat with
      | .got i => stopsBefore c i
      | _ => false
    | none => false)

/-! ## Which splits may go on -/

/-- Whether a split's team is resident (R139). -/
def State.resident (s : State) (g : Nat) : Bool := match s.teamOf g with | some t => t.state == .resident | none => false
/-- A group that is parked on a task object issues nothing until it is woken (R313), but for what brings a split that must stop to its stop. -/
def State.parkedGroup (s : State) (g : Nat) : Bool :=
  match s.group? g with
  | some x => x.blocker.isSome && !s.stopping g
  | none => false
/-- A split that may issue now. One that has issued YIELD misses the next choice (R299, R361). -/
def State.ready (s : State) (g : Nat) (y : Split) : Bool :=
  (match y.wait with | .ready => true | .yield => y.last < s.dev.cycle.toNat | _ => false) && s.resident g && !s.parkedGroup g
/-- A waiting split whose instruction is to be looked at again. -/
def State.awake (s : State) (g n : Nat) (y : Split) : Bool :=
  s.resident g && !s.parkedGroup g && (match y.wait with
    | .producers => s.outsSettled y && s.handlerMayStart g n
    | .op id => s.opOver id || (s.waitsParked y && s.mustStop g n)
    | .window id => s.opOver id || (s.waitsParked y && s.mustStop g n)
    | .windowRule k => k + 2 ≤ s.dev.window || s.stopsHere g n
    | .counter p => s.counter g p < 63 || s.stopsHere g n
    | .writebacks => (match s.group? g with | some x => !x.relPending | none => false)
    | .trace => (match s.launchOf g with | some l => !s.traceHeld l.ctx | none => false) || s.stopsHere g n
    | .gmode =>
      let cl := clusterOf (coreOf g)
      ((s.cluster cl).gmode.isNone && !((s.gmodeQueue cl).contains (splitKey g n))) || s.gmodeTurn cl (splitKey g n) || s.stopsHere g n
    | .roll d p => !s.mustStop g n && (s.phasePassed d p || !(s.domain d).en)
    | .waitc _ _ site => !(site && s.mustStop g n)
    | .registrations => true
    | .engine => true
    | .drained => true
    | .quarter => true
    | .journal => true
    | _ => false)

/-! ## The choice of an issue slot (R361) -/

/-- The issue slot of a split, by its key.
[DEDUCED, log 18] -/
def issueSlot (k : Nat) : Nat := coreOf (k / 4) * 2 + localOf (k / 4) % 2
/-- The order in which an issue slot prefers its ready splits: fairness, priority class, greedy, oldest, lowest.
[DEDUCED, log 18] -/
def State.rank (s : State) (k : Nat) (y : Split) : List Nat :=
  match s.group? (k / 4), s.launchOf (k / 4) with
  | some x, some l =>
    let last := max y.last x.resTime
    if last + 3840 ≤ s.dev.cycle.toNat then [0, last, 0, 0, 0, k]
    else [1, 0, 7 - l.prio, b2n (!(s.dev.slots.contains (issueSlot k, k))), x.placed, k]
  | _, _ => [2, 0, 0, 0, 0, k]
/-- Lexicographic order. -/
def lexLt : List Nat → List Nat → Bool
  | a :: as, b :: bs => a < b || (a == b && lexLt as bs)
  | _, _ => false
def State.bestOf (s : State) : List (Nat × Split) → Option (Nat × Split)
  | [] => none
  | e :: rest => match s.bestOf rest with
    | some f => if lexLt (s.rank f.1 f.2) (s.rank e.1 e.2) then some f else some e
    | none => some e
/-- The split that issues: the issue slots take turns, the one that has not issued for longest first, and each chooses by R361. -/
def State.nextIssue (s : State) : Option Nat :=
  let ready := s.splits.filter fun e => s.ready (e.1 / 4) e.2
  let slots := dedup (ready.map fun e => issueSlot e.1)
  let first := match slots.find? fun k => !(s.dev.slots.any fun e => e.1 == k) with
    | some k => some k
    | none => (s.dev.slots.find? fun (e : Nat × Nat) => slots.contains e.1).map Prod.fst
  match first with
  | some k => (s.bestOf (ready.filter fun e => issueSlot e.1 == k)).map (·.1)
  | none => none
/-- The waiting split that is looked at again: they take turns. -/
def State.nextAwake (s : State) : Option Nat :=
  let xs := s.splits.filter fun e => s.awake (e.1 / 4) (e.1 % 4) e.2
  (xs[s.dev.turn / 4 % max xs.length 1]?).map (·.1)

/-! ## What happens next -/

/-- Whether a step completes a producer in whose window a split may still issue: it comes after the window, so that an instruction that
reads the destination too early always traps (R42, and the examples of chapters 2, 6 and 9).
[DESIGN CHOICE, log 23] -/
def State.inWindow (s : State) (i : Instr) : Bool :=
  match (match i with | .producerComplete id => some id | .loadResponse id => some id | .atomicResponse id => some id | _ => none) with
  | none => false
  | some id => match Tab.ops.at id s with
    | none => false
    | some o => (s.splitsOf o.gid).any fun n => match s.split? o.gid n with
      | some y => s.ready o.gid y && y.outs.any fun x => x.op == id && (match x.rem with | some (_ + 1) => true | _ => false)
      | none => false

/-- Where a step comes from: what the outside world does next, the machine's own steps to come, or the machine itself. -/
inductive Origin where
  | agenda | due (i : Instr) | self
  deriving DecidableEq, Repr
/-- The step is no longer to come. -/
def Origin.take (f : Origin) (s : State) : State :=
  match f with
  | .agenda => { s with dev := { s.dev with agenda := s.dev.agenda.tail } }
  | .due i => { s with dev := { s.dev with due := s.dev.due.erase i } }
  | .self => s

inductive Pick where
  | held
  | event (i : Instr) (f : Origin)
  | issue (g n : Nat) (f : Origin)
  | pass (ac : Nat) (f : Origin)
  deriving DecidableEq, Repr

/-- What a directive does: events that are no instructions of a text; the issue of a split that may issue. -/
def pickDirective (s : State) (d : Directive) : Pick :=
  match d with
  | .event i => if (encode i).isEmpty then .event i .agenda else .pass 1 .agenda
  | .issue g n => match s.split? g n with
    | some y => if s.ready g y || s.awake g n y then .issue g n .agenda else .pass 1 .agenda
    | none => .pass 1 .agenda
  | .pass ac => .pass (max ac 1) .agenda

/-- How long nothing is to happen: to the end of the earliest sleep, delay or YIELD, at most 1 µs.
[DESIGN CHOICE, log 22] -/
def State.idleTime (s : State) : Nat :=
  let ends := s.splits.filterMap fun e => match e.2.wait with
    | .sleep t => some (t - s.dev.cycle.toNat)
    | .delay t => some (t - s.dev.cycle.toNat)
    | .yield => some (e.2.last + 1 - s.dev.cycle.toNat)
    | _ => none
  max 1 (ends.foldl min (usTicks / acTicks s.dev.point))

/-- The first of the things that may happen.
[DESIGN CHOICE, log 17] -/
def firstPick (xs : List (Option Pick)) (e : Pick) : Pick := (xs.findSome? id).getD e
def pickOwn (s : State) : Pick :=
  let issue := s.nextIssue.map fun k => Pick.issue (k / 4) (k % 4) .self
  let due := (s.dev.due.find? fun i => !s.inWindow i).map fun i => Pick.event i (.due i)
  let again : Option Pick := match s.nextAwake with | some k => some (.issue (k / 4) (k % 4) .self) | none => none
  let idle : Pick :=
    if s.dev.stage.toNat < 7 && !(s.dev.bootFail == 1 || s.dev.bootFail == 2 || s.dev.bootFail == 4) then .event (.bootStageComplete 0) .self
    else .pass s.idleTime .self
  match s.dev.turn % 4 with
  | 1 => firstPick [due, issue, again] idle
  | 3 => firstPick [again, due, issue] idle
  | _ => firstPick [issue, due, again] idle
/-- WHAT HAPPENS NEXT. The outside world's next act comes first; then the machine's own: the issue of a ready split, the steps to come and another look at a
waiting split take turns, so that none of the three waits for ever. In reset only a RESET happens.
[DESIGN CHOICE, log 17; DESIGN CHOICE, log 120] -/
def pick (s : State) : Pick :=
  if s.dev.resetHeld then
    match s.dev.agenda with
    | .event .reset :: _ => .event .reset .agenda
    | _ :: _ => .pass 1 .agenda
    | [] => match s.dev.due with
      | i :: _ => .event i (.due i)
      | [] => .held
  else match s.dev.agenda with
    | d :: _ => pickDirective s d
    | [] => pickOwn s

/-! ## A split's turn -/

/-- What a split does on its turn: an act that is no instruction, or an instruction (or a step that stands before it). -/
inductive Turn where
  | act (a : Act)
  | run (i : Instr)

/-- The length of an encoded instruction in bytes. -/
def lengthOf (i : Instr) : Nat := 4 * (encode i).length

/-- A failed operation whose instruction is still the split's: the split stops at that instruction, with stop kind 0.
[DEDUCED, log 109] -/
def trapAtOp (c : Iss) (id : Nat) (o : Op) : Act :=
  match o.fail with
  | some f => .seq (takeTrap c.gid c.n { c.sp with pc := o.pc, outs := c.sp.outs.filter fun x => x.op != id }
      { kind := 0, op := none, length := lengthOf o.instr, frame := f.frame, words := f.words, code := 0, origin := f.origin }) (endFailed id)
  | none => .skip

/-- The outstanding operation whose window is spent, and what it makes the split do (R40, R41, R43).
[DESIGN CHOICE, log 23] -/
def windowHold (s : State) (c : Iss) : Option Act :=
  let spent := c.sp.outs.filterMap fun o => match Tab.ops.at o.op s with
    | some x => if o.rem == some 0 && x.phase != .done && !s.kept c.gid o.op then some (o.op, x) else none
    | none => none
  match spent.find? fun e => e.2.phase == .failed with
  | some (id, o) => some (if o.blocking || o.instr.lookahead == 0 then trapAtOp c id o else lateTrap c id o)
  | none => match spent.find? fun e => !(e.2.phase == .parked && s.stopsHere c.gid c.n) with
    | some (id, _) => some (c.stall (.window id))
    | none => none
/-- An operation that parked where the split stands, and has been converted to a trap (R110). -/
def convertedHere (s : State) (c : Iss) : Option (Nat × Op) :=
  (s.opsOf c.gid).find? fun e => e.2.split == c.n && e.2.blocking && e.2.phase == .failed && e.2.pc == c.sp.pc && !s.kept c.gid e.1 &&
    !(c.sp.outs.any fun o => o.op == e.1)

/-- The record of an instruction fetch (R109).
[DEDUCED, log 53] -/
def fetchBlame (cause : BitVec 8) (va : Nat) : Blame := { Blame.plain 4 cause 0 with va := va }

/-- A split stops: for the debug core, or until what holds it ends. What it had parked at its instruction is given up.
[DEDUCED, log 53; DEDUCED, log 110; DEDUCED, log 119] -/
def stopHere (c : Iss) : Act := .read fun s => c.stopped s (.seq
  (.each ((s.opsOf c.gid).filter fun e => e.2.split == c.n && e.2.blocking && e.2.phase == .parked && e.2.pc == c.sp.pc &&
    !(c.sp.outs.any fun o => o.op == e.1)) fun e => .del .ops e.1)
  (match c.grp.haltReq with
   | some q => if q.cause == 0x51 then .seq (c.stall .stopped) (.due [.watchpointStop c.gid])
     else if c.grp.step || !s.outsQuiet c.gid then c.stall .stopped else haltNow c.gid (if q.cause == 0x52 then q.also.getD c.n else c.n) q
   | none => c.stall .stopped))

/-- The lowest split of a group that is not waiting (R287), split `n` being one that is not.
[DEDUCED, log 111] -/
def State.lowestRunning (s : State) (g n : Nat) : Option Nat :=
  (s.splitsOf g).find? fun m => m == n || match s.split? g m with | some y => !y.wait.counts && !y.wait.long | none => false
/-- A cause that the group takes at its next safe point: the group timer, or a guarantee that no longer holds (R290, R137, R373).
[DEDUCED, log 111] -/
def pendingCause (s : State) (c : Iss) : Option (BitVec 8) :=
  if c.inHandler || s.lowestRunning c.gid c.n != some c.n then none
  else if c.grp.gttPending then some 0x58
  else if c.grp.capPending then some 0x45
  else none
def takePending (c : Iss) (cause : BitVec 8) : Act := .read fun s => c.stopped s
  (.seq (.upd .groups c.gid fun x => if cause == 0x58 then { x with gttPending := false } else { x with capPending := false })
    (takeTrap c.gid c.n c.sp { kind := 2, op := none, length := 0, frame := groupRecord s c.gid c.lau c.sp.pc.toNat (.plain 1 cause 0),
                               words := taskWords c.grp, code := 0, origin := 0 }))

/-- The earliest failed operation that a split reports at a stop site: a producer or a store of its own (R43, R146), a copy, tile or task
instruction of its group (R197, R265, R323). -/
def State.reported (s : State) (c : Iss) : Option (Nat × Op) :=
  (s.opsOf c.gid).find? fun e => e.2.phase == .failed && !s.kept c.gid e.1 &&
    (c.sp.outs.any (fun o => o.op == e.1) ||
      match e.2.path with
      | some 1 => e.2.split == c.n
      | some 2 => e.2.split == c.n && !e.2.blocking
      | some 3 => true
      | some 4 => true
      | some 5 => true
      | _ => false)
/-- What a split does before an instruction at which it may stop, in order: late faults, stops, causes at safe points; and at a safe point
breakpoints, samples, trial delays (R34, R37, R43, R290, R376, R412, R419, R421). -/
def atStop (s : State) (c : Iss) (i : Instr) : Option Turn :=
  if !stopsBefore c i then none
  else match s.reported c with
  | some (id, o) => some (.act (lateTrap c id o))
  | none =>
    if s.mustStop c.gid c.n then some (.act (stopHere c))
    else if s.overTimer c.grp then some (.run (.groupTimerThreshold c.gid))
    else match pendingCause s c with
    | some cause => some (.act (takePending c cause))
    | none =>
      if !i.stop then none
      else if !bitAt c.sp.pre 0 && (s.breakpoint c).isSome then some (.run (.breakpointHit c.gid c.n))
      else if s.sampleDue c.core c.lau.ctx then
        (if s.traceHeld c.lau.ctx then some (.act (c.stall .trace)) else some (.run (.traceSample c.gid c.n)))
      else if s.trialDelays c then
        some (.act (c.stall (.delay (s.dev.cycle.toNat + (s.ctx c.lau.ctx).ctDelay.toNat % 2 ^ 16))))
      else none

/-! ## The interlock of uniform registers (R283) -/

/-- Whether an operation has still to write a uniform or buffer register that an instruction names (R31, R114, R283).
[DEDUCED, log 115] -/
def Op.owes (o : Op) (i : Instr) : Bool :=
  o.phase != .done && match o.instr with
    | .tspawn _ d _ => d != 63 && (uniNames i).any (overlaps (d.toNat, 1))
    | .sld _ d _ => d != 63 && (uniNames i).any (overlaps (d.toNat, 1))
    | .brec _ d _ => (bufNames i).contains d.toNat
    | _ => false
/-- An instruction waits for the TSPAWN, SLD or BREC of its group that has still to write a register it names; a failed TSPAWN traps there.
[DEDUCED, log 115] -/
def uniformHold (s : State) (c : Iss) (i : Instr) : Option Act :=
  match (s.opsOf c.gid).find? fun e => e.2.owes i && !(e.2.blocking && e.2.split == c.n) && !s.kept c.gid e.1 with
  | some (id, o) => some (if o.phase == .failed && !o.blocking then lateTrap c id o else c.stall (.op id))
  | none => none
/-- A store-path instruction of the split that has not translated: its next instruction does not issue (R107). -/
def storeHold (s : State) (c : Iss) : Option Act :=
  match (s.opsOf c.gid).find? fun e => e.2.split == c.n && e.2.storePath && e.2.untranslated && !s.kept c.gid e.1 with
  | some (id, _) => some (c.stall (.op id))
  | none => none

/-- Whether a split stands where no instruction can be: a resume address that is misaligned or beyond the text (R24). The end of the text
itself is one when a save image gave it.
[DEDUCED, log 119] -/
def outsideText (c : Iss) : Bool :=
  let pc := c.sp.pc.toNat
  pc % 4 != 0 || c.lau.textSize < pc || (pc == c.lau.textSize && bitAt c.sp.pre 3)
/-- Whether the instruction is the first of an entry, and carries no S (R35). -/
def unmarkedEntry (s : State) (c : Iss) (i : Instr) : Bool :=
  !i.stop && (c.sp.pc.toNat == c.lau.handler || isEntry s c.lau c.sp.pc.toNat)
/-- A SPLIT'S TURN: a stop that finds it waiting for a parked operation, producers whose windows are spent, stores that have not translated, the fetch, the first instruction of an entry, what stands before a stop site, the interlock, the instruction. -/
def turnOf (s : State) (g n : Nat) : Turn :=
  match Iss.of s g n (.nop false) with
  | none => .act .skip
  | some c =>
  if s.mustStop g n && s.waitsParked c.sp then .act (stopHere c)
  else match windowHold s c with
  | some a => .act a
  | none => match convertedHere s c with
  | some (id, o) => .act (trapAtOp c id o)
  | none => match storeHold s c with
  | some a => .act a
  | none =>
    if outsideText c then .act ({ c with len := 4 }.trap 0x06 0) else
    let c := { c with len := lengthAt s (some c.core) c.lau c.sp.pc.toNat }
    match fetchAt s c.lau c.core c.sp.pc.toNat with
    | .park va x => .act (c.parkHere (.nop false) (fetchBlame x.cause va) x.malformed)
    | .denied va cause => .act (c.trapWith (fetchBlame cause va) (taskWords c.grp) 0 0)
    | .poisoned => .act (.seq (c.stall .registrations) (.due [.rollback c.bid]))
    | .bad cause => .act (c.trap cause 0)
    | .got i => if unmarkedEntry s c i then .act (c.trap 0x02 0) else match atStop s c i with
      | some t => t
      | none => match uniformHold s c i with
        | some a => .act a
        | none => .run i

/-- The halt record of a single step: it names the instruction that the step issues (R369, R416).
[DEDUCED, log 112] -/
def stepFrame (s : State) (g n : Nat) : List (BitVec 32) :=
  match s.split? g n, s.launchOf g with
  | some y, some l => groupRecord s g l y.pc.toNat (.plain (if lengthAt s (some (coreOf g)) l y.pc.toNat == 4 then 1 else 0) 0x52 0)
  | _, _ => List.replicate 8 0
/-- The key of no split. -/
def noSplit : Nat := 2 ^ 40
/-- After an instruction of a split: when it has issued, the issue slot remembers it, and a single step has been taken; a step that ends in
a wait has been taken too; one that has issued YIELD is no favourite of its slot (R299, R361, R416). `pc` is where the split stood, `frame` the record of the step.
[DEDUCED, log 112] -/
def afterTurn (g n : Nat) (pc : Option (BitVec 32)) (frame : List (BitVec 32)) : Act := .read fun s =>
  let k := splitKey g n
  let y := s.split? g n
  let issued := match y with | some z => z.wait == .ready || z.wait == .yield || (z.wait == .producers && some z.pc != pc) | none => true
  let waits := match y with | some z => z.wait.long | none => false
  .seq (.when issued (.dev fun d => { d with slots := (d.slots.filter fun e => e.1 != issueSlot k) ++ (match y with | some z => [(issueSlot k, if z.wait == .yield then noSplit else k)] | none => []) }))
    (.when (issued || waits) (.upd .groups g fun x => if x.step then
      { x with step := false,
               haltReq := x.haltReq.map fun q => { q with frame := frame, also := if y.isSome then some n else none } } else x))

/-! ## The passing of time -/

/-- A step is to come, unless it is already.
[DESIGN CHOICE, log 106] -/
def dueOnce (i : Instr) : Act := .read fun s => if s.dev.due.contains i then .skip else .due [i]
def dueIf (c : Bool) (i : Instr) : Act := .when c (dueOnce i)

/-- Contexts with a split that tracing holds (R420). -/
def State.traceWaiters (s : State) : List Nat :=
  dedup ((s.splits.filter fun e => e.2.wait == .trace).filterMap fun e => (s.launchOf (e.1 / 4)).map (·.ctx))
/-- `ac` clock periods pass.
[DESIGN CHOICE, log 22] -/
def passTime (ac : Nat) : Act := .read fun s => .seq
  (.each s.traceWaiters fun c => .updD .ctxs Ctx.init c fun x => { x with perturb := x.perturb + BitVec.ofNat 64 ac })
  (.dev fun d => { d with cycle := d.cycle + BitVec.ofNat 64 ac, ticks := d.ticks + ac * acTicks d.point })

/-- Whether a group waits: it is parked, or every split of it waits, on something that R346 counts.
[DEDUCED, log 113] -/
def State.groupWaits (s : State) (g : Nat) : Bool :=
  let ns := s.splitsOf g
  !ns.isEmpty && (s.parkedGroup g || ns.all fun n => match s.split? g n with | some y => y.wait.counts | none => false)
/-- Whether a split of a group has still to issue again where a save image left it: until then the residency timer keeps its saved value (R385). -/
def State.resuming (s : State) (g : Nat) : Bool :=
  (s.splitsOf g).any fun n => match s.split? g n with | some y => y.wait == .ready && bitAt y.pre 3 | none => false
/-- The residency timer of a group (R346, R417), as the start of its wait; `t0` is when the time that has passed began.
[DEDUCED, log 113] -/
def residency (t0 g : Nat) (x : Group) : Act := .read fun s =>
  match x.waitStart with
  | none => .when (s.groupWaits g) (.put .groups g { x with waitStart := some s.us })
  | some t =>
    if s.resuming g then .skip
    else if !s.groupWaits g then .put .groups g { x with waitStart := none, gated := false, hung := false }
    else .when (s.us != t0 && s.dependsOnHalted g) (.put .groups g { x with waitStart := some (t + (s.us - t0)) })

/-- What the groups' timers bring (R290, R346, R347), and a watchpoint hit whose instruction has completed (R415).
[DEDUCED, log 113] -/
def groupTimers (g : Nat) (x : Group) : Act := .read fun s =>
  let t := s.waited g
  .all [ dueIf (s.overTimer x) (.groupTimerThreshold g),
         .with? x.hit fun q => dueIf (s.hitEnded x) (.watchpointHit g q.tag.toNat),
         dueIf (!x.gated && (match t with | some t => 2 ≤ t | none => false)) (.clockGate g),
         .when (s.dev.hangthr != 0) (.each (s.splitsOf g) fun n => .with? (s.split? g n) fun y =>
           dueIf (((match t with | some t => s.dev.hangthr.toNat ≤ t && !x.hung && y.wait.counts | none => false) || heldPath s y) &&
             !s.dependsOnHalted g) (.waitExceeded g n)) ]
/-- Whether a step to come may end a wait of a group. -/
def State.wakeDue (s : State) (g : Nat) : Bool :=
  match s.group? g, s.blockOf g with
  | some x, some b => s.dev.due.any fun i => match i with
    | .recvResolve k => k == g
    | .groupWake k => k == g
    | .barrierComplete team id => id == (if team then b.tid else x.bid)
    | .phaseComplete _ => true
    | _ => false
  | _, _ => false
/-- A group that is to halt and stands still, with nothing to come that ends its wait, does. -/
def groupHalts (g : Nat) (x : Group) : Act := .read fun s =>
  match x.haltReq with
  | some q => .when (x.halt.isNone && !x.step && (s.stopSplit g).isSome && !s.wakeDue g)
      (if q.cause == 0x51 then dueOnce (.watchpointStop g) else haltIfStill g)
  | none => .skip

/-- What a split's own time brings (R299, R421). A stop that finds a split sleeping ends the sleep (R300). -/
def splitTimers (k : Nat) (y : Split) : Act := .read fun s =>
  match y.wait with
  | .sleep t => if s.mustStop (k / 4) (k % 4) then .when (s.outsSettled y) (.put .splits k { y with wait := .stopped })
    else dueIf (t ≤ s.dev.cycle.toNat) (.sleepEnd (k / 4) (k % 4))
  | .delay t => dueIf (t ≤ s.dev.cycle.toNat) (.causalTrialDelayEnd (k / 4) (k % 4))
  | _ => .skip

/-- What a context's time brings: deadlines, saves, and queues that can never go on (R320, R381, R383). -/
def ctxTimers (ctx : Nat) (x : Ctx) : Act := .read fun s => .all
  [ dueIf (s.deadlinePassed ctx) (.preemptDeadline ctx),
    dueIf ((x.cstate == 2 || x.cstate == 4) && s.saveReady ctx) (.saveComplete ctx),
    (match x.qdead with
     | none => .when (x.cstate == 1 && s.queuesDead ctx) (.updD .ctxs Ctx.init ctx fun x => { x with qdead := some s.us })
     | some t => if !s.queuesDead ctx then .updD .ctxs Ctx.init ctx fun x => { x with qdead := none }
       else dueIf (t + 10 ≤ s.us) (.queueDeadlock ctx)) ]

/-- What a core's time brings (R346): retention, until a group of it goes on. -/
def coreTimers (core : Nat) : Act := .read fun s =>
  let gs := s.groupsOn core
  let still := !gs.isEmpty && gs.all fun e => match s.waited e.1 with | some t => 100 ≤ t | none => false
  if (s.core core).retention then .when (!still) (.updD .cores CoreRec.init core fun k => { k with retention := false })
  else dueIf still (.coreRetention core)

/-- What the device's time brings: windows, steps of the operating point, channels that resume, WAITs, firmware cores (R182, R137, R444, R408,
R351, R431, R437). -/
def deviceTimers (t0 : Nat) : Act := .read fun s => .all
  [ dueIf (s.dev.stage != 0 && s.dev.window < s.windowDue) .windowAdvance,
    dueIf (s.dev.stepState == 4 && s.dev.stepEnd ≤ s.dev.ticks) .stepSwitchDone,
    dueIf (s.dev.stepState == 2 && s.stepSettled) .stepCheck,
    dueIf (s.dev.stepState == 0 && s.dev.stepWish.isSome && !(s.clusters.any fun c => c.2.gmode.isSome)) .stepCheck,
    .each s.paused fun e => dueIf (e.2 != 0 && e.2 + 50 * usTicks ≤ s.dev.ticks + 1) (.channelResume e.1 false),
    .when (s.us != t0) (.each (dedup ((s.cmds.filter fun e => !e.2.done && (match e.2.kind with | .wait _ _ _ _ => true | _ => false)).map
      (·.2.q))) fun q => dueOnce (.waitReread q)),
    .each (s.fws.filter fun e => 4 ≤ e.2.hand.toNat) fun e => .updD .fws FwCore.init e.1 fun x => { x with hand := 0 },
    leaveIfQuiet ]

/-- Sectors that the L2 of a home slice holds: 8 MiB (R10). -/
def sliceSectors : Nat := 2 ^ 18
/-- A slice that holds more sectors than it has room for lets one go, its lowest.
[DESIGN CHOICE, log 37] -/
def fitSlices : Act := .read fun s =>
  .when (sliceSectors < s.l2.length) (.each (dedup (s.l2.map fun e => homeSlice (e.1 * 32))) fun k =>
    let mine := s.l2.filter fun e => homeSlice (e.1 * 32) == k
    .when (sliceSectors < mine.length) (.with? mine.head? fun e => dueOnce (.writeBack (.fromSlice e.1))))
/-- The end of a step: `ac` clock periods pass, and what time has brought is to come.
[DESIGN CHOICE, log 22; DESIGN CHOICE, log 106] -/
def tick (ac : Nat) : Act := .read fun s0 =>
  let t0 := s0.us
  .all [ .dev fun d => { d with cur := none, turn := (d.turn + 1) % 65536 }, passTime ac,
         .read fun s => .each s.groups fun e => residency t0 e.1 e.2,
         .read fun s => .each s.groups fun e => .seq (groupTimers e.1 e.2) (groupHalts e.1 e.2),
         .read fun s => .each s.splits fun e => splitTimers e.1 e.2,
         .read fun s => .each s.ctxs fun e => ctxTimers e.1 e.2,
         .read fun s => .each (dedup (s.groups.map fun e => coreOf e.1)) coreTimers,
         deviceTimers t0, fitSlices ]

end Sys2Proof.Machine
end

