-- ==== Sys2Proof/Machine/Step.lean ====
section
/-! DEFINITION. One step of the machine: what happens next is chosen, performed, and time passes. And how an instruction is placed where
the next step issues it. -/

namespace Sys2Proof.Machine

open Sys2Proof

/-- Time passes after what a step did; a fault or a refusal stays.
[DESIGN CHOICE, log 16] -/
def finish (ac : Nat) (r : Host.Outcome State Fault Refusal) : Host.Outcome State Fault Refusal :=
  match r with
  | .next t => .next ((tick ac).run t)
  | .fault e => .fault e
  | .refused e => .refused e

/-- The state in which the instruction of a split's turn is executed: its line is in the instruction cache of the core. -/
def State.issuing (s : State) (g n : Nat) : State :=
  let t := (fillCode g n).run s
  { t with dev := { t.dev with cur := some (splitKey g n) } }

/-- After an instruction of a split: what is remembered of it, then time. -/
def settle (g n : Nat) (pc : Option (BitVec 32)) (frame : List (BitVec 32)) (r : Host.Outcome State Fault Refusal) : Host.Outcome State Fault Refusal :=
  match r with
  | .next t => .next ((tick 1).run ((afterTurn g n pc frame).run t))
  | .fault e => .fault e
  | .refused e => .refused e

/-- The turn of a split: what stands before its instruction, or the instruction.
[DESIGN CHOICE, log 16] -/
def takeTurn (g n : Nat) (s : State) : Host.Outcome State Fault Refusal :=
  match turnOf s g n with
  | .act a => finish 1 (.next (a.run s))
  | .run i => if (encode i).isEmpty then finish 1 (exec i s) else settle g n ((s.split? g n).map (·.pc)) (stepFrame s g n) (exec i (s.issuing g n))

/-- ONE STEP.
[DESIGN CHOICE, log 16; DESIGN CHOICE, log 120] -/
def step (s : State) : Host.Outcome State Fault Refusal :=
  match pick s with
  | .held => .fault .heldInReset
  | .event i f => finish 1 (exec i (f.take s))
  | .issue g n f => takeTurn g n (f.take s)
  | .pass ac f => finish ac (.next (f.take s))

/-! ## Placing an instruction -/

/-- The launch whose text is the placed instruction: context 1, one group of width 32 with every register and tile, text at virtual 0x10000.
[DESIGN CHOICE, log 19] -/
def placedLaunch : Launch :=
  { ctx := 1, inc := 0, src := .cmd 0, code := 0x10000, entry := 0, gridx := 1, gridy := 1, gridz := 1, gpb := 1, width := 32, vregs := 256,
    tiles := 128, gal := 0, team := 1, land := false, floor := 5, prio := 0, adopt := 0, place := 0, flags := 0, fmt := 0, param := 0,
    psize := 0, landarea := 0, journal := 0, doneaddr := 0, doneval := 0, codeId := 0, textOff := 0, textSize := 28, spOff := 0,
    spCount := 0, handler := 0xFFFFFFFF, nextTeam := 1, running := 1, cause := 0 }

/-- The bytes of the placed instruction and of the page tables that map its text: physical tables at 0x1000, 0x2000 and 0x3000, and a leaf of
1 GiB at physical 0 that permits fetch. -/
def placedBytes (nbits w : Nat) : List (Nat × Byte) :=
  ((tableBytes nbits w).zipIdx.map fun e => (0x10000 + e.2, e.1)) ++
  [(0x1000, 0x01), (0x1001, 0x20), (0x2000, 0x01), (0x2001, 0x30), (0x3000, 0x25)]

/-- The placed instruction's split, group, block, team, launch and context, and the text.
[DESIGN CHOICE, log 19] -/
def placeWord (nbits w : Nat) : Act := .read fun s =>
  let bid := s.dev.nextId
  let tid := s.dev.nextId + 1
  let lid := s.dev.nextLaunch.toNat
  .all
    [ .dev fun d => { d with nextId := d.nextId + 2, nextLaunch := d.nextLaunch + 1, stage := 7, resetHeld := false, cur := none,
                             agenda := .issue 0 0 :: d.agenda },
      .clear .mem 0x1000 0x4000, .clear .mem 0x10000 0x1001C, .clear .l2 0x80 0x200, .clear .l2 0x800 0x801,
      .clear .poison 0x800 0x801, .clear .icache (lineKey 0 0) (lineKey 1 0), .clear .gways 0 (wayKey 0 0x1000),
      .each (placedBytes nbits w) fun e => .put .mem e.1 e.2,
      .put .ctxs 1 { Ctx.init with cstate := 1, root := 0x1000 }, .put .tags (tagKey 1 0) true,
      .put .access 0 { wbase := 0x10, limit := 0x10, at_ := false, wr := false, rd := true },
      .put .launches lid placedLaunch,
      .put .teams tid { lid := lid, tag := tagKey 1 0, index := 0, cluster := 0, rows := 0, bankRows := List.replicate 32 0,
                        state := .resident, blocks := [bid], bar := Barrier.open_ },
      .put .blocks bid { lid := lid, tid := tid, linear := 0, core := 0, gids := [0], bar := Barrier.open_, escaped := false, landSlot := none,
                         rowsCopied := [], rowsWritten := [], adopt := none, seq := 0, rolled := false, landed := false },
      .put .groups 0 (Group.start bid 0 0 s.dev.cycle.toNat (fullMask 32) bid),
      .clear .splits 0 4, .put .splits 0 (Split.start 0 (fullMask 32) 0), .read fun s => .each (s.opsOf 0) fun e => .del .ops e.1 ]

/-- The machine with an instruction placed where the next step issues it.
[DESIGN CHOICE, log 19] -/
def State.withFetchWord (s : State) (nbits w : Nat) : State := (placeWord nbits w).run s

end Sys2Proof.Machine
end

