-- ==== Sys2Proof/Safety.lean ====
section
/-! DEFINITION. The terms of the claims: when a run is safe, when a state is in canonical form, what two states have in common, and what
issuing an instruction is. -/

namespace Sys2Proof.Machine

open Sys2Proof

/-! ## Safe runs -/

/-- A step that answers a next state. -/
def State.goesOn (s : State) : Prop := ∃ t, step s = .next t
/-- Every table of the state is in canonical form. -/
def State.wf (s : State) : Prop := ∀ (α : Type) (t : Tab α), t.wf (t.get s)

/-! ## Completion -/

/-- AN ENCODED INSTRUCTION COMPLETES: whenever a well-formed `i` is issued by a split and `pre` holds, exec answers a next state, of which
`post` holds. -/
def Completes (i : Instr) (pre : Iss → State → Prop) (post : Iss → State → State → Prop) : Prop :=
  ∀ s c, i.wf = true → s.issuer i = some c → pre c s → ∃ t, exec i s = .next t ∧ post c s t
/-- A STEP OF A UNIT HAS ITS EFFECT: whenever `pre` holds, exec answers a next state, of which `post` holds. -/
def Occurs (i : Instr) (pre : State → Prop) (post : State → State → Prop) : Prop :=
  ∀ s, pre s → ∃ t, exec i s = .next t ∧ post s t

/-! ## Frames -/

/-- Every table but those named is as before. -/
def SameTables (ns : List Nat) (s t : State) : Prop := ∀ (α : Type) (u : Tab α), u.num ∉ ns → u.get t = u.get s
/-- Every table but those named, and every device register, is as before. -/
def SameBut (ns : List Nat) (s t : State) : Prop := t.dev = s.dev ∧ SameTables ns s t
/-- One table is as before but at some keys. -/
def SameAt {α : Type} (u : Tab α) (except : Nat → Prop) (s t : State) : Prop := ∀ k, ¬ except k → u.at k t = u.at k s
/-- Every byte of memory reads as before: at home, through every L1, and in every Gallery. -/
def SameMemory (s t : State) : Prop :=
  (∀ pa, t.homeByte pa = s.homeByte pa) ∧ t.l1 = s.l1 ∧ t.wbs = s.wbs ∧ t.win = s.win

/-! ## What a write leaves -/

/-- The issuing split has moved to `pc`; no other split differs. -/
def MovedTo (c : Iss) (pc : BitVec 32) (s t : State) : Prop :=
  Tab.splits.at c.key t = some { c.past s with pc := pc } ∧ SameAt .splits (· = c.key) s t
/-- The address after the issuing split's instruction. -/
def Iss.next (c : Iss) : BitVec 32 := c.sp.pc + BitVec.ofNat 32 c.len
/-- A uniform register, or a pair, of group `g` holds `v`; a part of it that is s63 is discarded; no other uniform register differs (R32). -/
def WroteU (g : Nat) (wide : Bool) (d : BitVec 6) (v : Nat) (s t : State) : Prop :=
  ∀ k r, r < 64 → t.sreg k r =
    if k = g ∧ r ≠ 63 ∧ r = d.toNat then BitVec.ofNat 32 v
    else if k = g ∧ r ≠ 63 ∧ wide = true ∧ r = d.toNat + 1 then BitVec.ofNat 32 (v / 2 ^ 32)
    else s.sreg k r
/-- A uniform predicate of the issuing group holds `v`; nothing else of the group, and no other group, differs. -/
def WroteQ (c : Iss) (d : Nat) (v : Bool) (s t : State) : Prop :=
  (∃ q : BitVec 7, Tab.groups.at c.gid t = some { c.grp with q := q } ∧
    ∀ n, n < 7 → q.getLsbD n = if n = d then v else c.grp.q.getLsbD n) ∧ SameAt .groups (· = c.gid) s t
/-- What a uniform instruction with a result leaves: the result in s[sd] or s[sd].d, the split past the instruction, nothing else changed. -/
def UniformResult (wide : Bool) (d : BitVec 6) (r : Iss → State → Nat) (c : Iss) (s t : State) : Prop :=
  WroteU c.gid wide d (r c s) s t ∧ MovedTo c c.next s t ∧ SameBut [Tab.splits.num, Tab.sregs.num] s t ∧ SameMemory s t
/-- What a uniform comparison leaves: the predicate, the split past the instruction, nothing else changed. -/
def PredicateResult (d : BitVec 3) (r : Iss → State → Bool) (c : Iss) (s t : State) : Prop :=
  WroteQ c d.toNat (r c s) s t ∧ MovedTo c c.next s t ∧ SameBut [Tab.splits.num, Tab.groups.num] s t ∧ SameMemory s t
/-- A jump: the split at `pc`, nothing else changed. -/
def JumpResult (pc : Iss → State → BitVec 32) (c : Iss) (s t : State) : Prop :=
  MovedTo c (pc c s) s t ∧ SameBut [Tab.splits.num] s t ∧ SameMemory s t
/-- The issuing split's entry is `y`; no other split differs. -/
def SplitIs (c : Iss) (y : Split) (s t : State) : Prop := Tab.splits.at c.key t = some y ∧ SameAt .splits (· = c.key) s t
/-- The issuing group's entry is `x`; no other group differs. -/
def GroupIs (c : Iss) (x : Group) (s t : State) : Prop := Tab.groups.at c.gid t = some x ∧ SameAt .groups (· = c.gid) s t

/-- A STEP THAT GIVES EXACTLY ONE STATE: whenever `pre` holds, exec answers `f s`. -/
def Becomes (i : Instr) (pre : State → Prop) (f : State → State) : Prop := ∀ s, pre s → exec i s = .next (f s)

/-! ## Lane instructions (R202, R204, R240) -/

/-- Lane register `d`, or the pair that begins there, holds `val` in the lanes `ls` of group `g`; every other lane register is as before. -/
def WroteV (g : Nat) (wide : Bool) (d : BitVec 8) (ls : List Nat) (val : Nat → Nat) (s t : State) : Prop :=
  ∀ k r l, r < 256 → l < 64 → t.vreg k r l =
    if k = g ∧ l ∈ ls ∧ r = d.toNat then BitVec.ofNat 32 (val l)
    else if k = g ∧ l ∈ ls ∧ wide = true ∧ r = d.toNat + 1 then BitVec.ofNat 32 (val l / 2 ^ 32)
    else s.vreg k r l
/-- Lane predicate `p` (none for 7) holds `val` in the executing lanes; every bit of a lane that does not execute, and every other predicate, is as
before. -/
def WroteP (c : Iss) (h : Head) (p : Nat) (val : Nat → Prop) (s t : State) : Prop :=
  (p < 7 → ∀ l ∈ c.execLanes s h, (t.preg c.gid p).getLsbD l = true ↔ val l) ∧
  ∀ k q l, q < 8 → l < 64 → ¬ (k = c.gid ∧ q = p ∧ (c.execMask s h).getLsbD l = true) → (t.preg k q).getLsbD l = (s.preg k q).getLsbD l
/-- The issuing split's instruction names registers and tiles that the group has, and no register of an outstanding producer (R42, R54, R200). -/
def Iss.may (c : Iss) (i : Instr) (s : State) : Prop := c.check s (laneNames i) (tileNames i) = .pass
/-- AN L-FORM THAT WRITES vd COMPLETES: every executing lane gets a value of which `p` holds; the split goes on after 12 bytes; nothing else changes. -/
def LaneDone (i : Instr) (h : Head) (wide : Bool) (vd : BitVec 8) (p : Iss → State → Nat → Nat → Prop) : Prop :=
  Completes i (fun c s => c.may i s) fun c s t =>
    ∃ val, (∀ l ∈ c.execLanes s h, p c s l (val l)) ∧ WroteV c.gid wide vd (c.execLanes s h) val s t ∧ MovedTo c (c.sp.pc + 12) s t ∧
      SameBut [Tab.splits.num, Tab.vregs.num] s t ∧ SameMemory s t
/-- The same, with the value itself. -/
def LaneResult (i : Instr) (h : Head) (wide : Bool) (vd : BitVec 8) (v : Iss → State → Nat → Nat) : Prop :=
  LaneDone i h wide vd fun c s l x => x = v c s l
/-- AN INTEGER INSTRUCTION ON ELEMENTS COMPLETES (R204): element `k` of every executing lane's result is the value that `x` makes of the elements of
the lane's operands a, b and c, clamped to the range of the type with Saturate, then modulo 2^w. -/
def Elements (i : Instr) (f : IForm) (x : (Nat → Int) → (Nat → Int) → (Nat → Int) → Nat → Int) : Prop :=
  LaneDone i f.head f.ty.is64 f.vd fun c s l v =>
    let w := f.ty.width
    let a := el f.ty (s.lane c.gid l f.ty.is64 f.va)
    let b := el f.ty (srcI s c.gid l f.ty f.vbs f.vb f.x32)
    let d := el f.ty (srcI s c.gid l f.ty f.vcs f.vc f.x32)
    let lo : Int := if f.ty.signed then -(2 ^ (w - 1)) else 0
    let hi : Int := if f.ty.signed then 2 ^ (w - 1) - 1 else 2 ^ w - 1
    v < 2 ^ (w * f.ty.count) ∧ ∀ k, k < f.ty.count → ((v / 2 ^ (w * k) % 2 ^ w : Nat) : Int) =
      (if f.sat then max lo (min hi (x a b d k)) else x a b d k) % 2 ^ w
/-- The same for a function of the elements' bit patterns. -/
def Patterns (i : Instr) (f : IForm) (p : Nat → Nat → Prop) : Prop :=
  LaneDone i f.head f.ty.is64 f.vd fun c s l v =>
    let w := f.ty.width
    v < 2 ^ (w * f.ty.count) ∧ ∀ k, k < f.ty.count → p (s.lane c.gid l f.ty.is64 f.va / 2 ^ (w * k) % 2 ^ w) (v / 2 ^ (w * k) % 2 ^ w)
/-- The same for the bits of the whole register or pair: bit `n` of the result. -/
def Bits (i : Instr) (f : IForm) (p : Iss → State → Nat → Nat → Bool) : Prop :=
  LaneDone i f.head f.ty.is64 f.vd fun c s l v =>
    v < 2 ^ (if f.ty.is64 then 64 else 32) ∧ ∀ n, n < (if f.ty.is64 then 64 else 32) → v.testBit n = p c s l n
/-- The issuing split's producer: `x` is in flight, the split goes on after 12 bytes with it outstanding and its window, nothing else changes (R40). -/
def Produces (f : Head) (x : Iss → State → Op → Prop) (c : Iss) (s t : State) : Prop :=
  (∃ o, Tab.ops.at s.dev.nextId t = some o ∧ o.gid = c.gid ∧ o.split = c.n ∧ o.phase = .running ∧ o.path = none ∧ o.fmt = c.sp.fmt ∧
    o.exec = c.execMask s f ∧ x c s o) ∧ SameAt .ops (· = s.dev.nextId) s t ∧
  SplitIs c { c.past t with pc := c.sp.pc + 12,
                            outs := (c.past t).outs ++ [{ op := s.dev.nextId, rem := if f.la = 15 then none else some f.la.toNat }] } s t ∧
  t.dev = { s.dev with nextId := s.dev.nextId + 1, due := s.dev.due ++ [.producerComplete s.dev.nextId] } ∧
  SameTables [Tab.splits.num, Tab.ops.num] s t ∧ SameMemory s t

/-- A FLOAT INSTRUCTION COMPLETES (R238 to R240): element `k`, of `num` elements of `dw` bits, of every executing lane's result is `op`, or keeps its bits
where `op` gives none; every flag that an element raised is set in FFLAGS and no other changes; the split goes on after 12 bytes; nothing else changes. Under
fmt.TINV no element may raise NV. -/
def FloatDone (i : Instr) (h : Head) (wide : Bool) (vd : BitVec 8) (num dw : Nat) (pre : Iss → State → Prop)
    (op : Iss → State → Nat → Nat → Option FRes) : Prop :=
  Completes i
    (fun c s => c.may i s ∧ pre c s ∧
      (c.sp.fmt.getLsbD 23 = true → ∀ l ∈ c.execLanes s h, ∀ k, k < num → ∀ r, op c s l k = some r → r.2 % 2 = 0))
    fun c s t => ∃ (val : Nat → Nat) (fl : BitVec 6),
      (∀ l ∈ c.execLanes s h, val l < 2 ^ (dw * num) ∧ ∀ k, k < num → val l / 2 ^ (dw * k) % 2 ^ dw =
        match op c s l k with
        | some r => r.1 % 2 ^ dw
        | none => s.lane c.gid l wide vd / 2 ^ (dw * k) % 2 ^ dw) ∧
      (∀ b, b < 6 → (fl.getLsbD b = true ↔ ∃ l ∈ c.execLanes s h, ∃ k, k < num ∧ ∃ r, op c s l k = some r ∧ r.2.testBit b = true)) ∧
      WroteV c.gid wide vd (c.execLanes s h) val s t ∧ GroupIs c { c.grp with flags := c.grp.flags ||| fl } s t ∧ MovedTo c (c.sp.pc + 12) s t ∧
      SameBut [Tab.splits.num, Tab.vregs.num, Tab.groups.num] s t ∧ SameMemory s t

/-- An operation `i` of the issuing split is in flight under the next identifier, and `p` holds of it. -/
def Flying (i : Instr) (c : Iss) (s t : State) (p : Op → Prop) : Prop :=
  ∃ o, Tab.ops.at s.dev.nextId t = some o ∧ o.instr = i ∧ o.gid = c.gid ∧ o.split = c.n ∧ o.bid = c.bid ∧ o.fmt = c.sp.fmt ∧ p o
/-- The issuing split goes on after `n` bytes; with `out` the operation is an outstanding producer with that window (R40). -/
def GoesOn (n : Nat) (out : Option (BitVec 4)) (c : Iss) (s t : State) : Prop :=
  let past := c.past t
  SplitIs c { past with pc := c.sp.pc + BitVec.ofNat 32 n,
                        outs := match out with
                          | some la => past.outs ++ [{ op := s.dev.nextId, rem := if la = 15 then none else some la.toNat }]
                          | none => past.outs } s t
/-- No watchpoint is armed, no journal is kept, no landing is on: the side effects that other units take from an access are none. -/
def Iss.quiet (c : Iss) (s : State) : Prop := s.watch = [] ∧ c.lau.journals = false ∧ c.blk.landSlot = none
/-- No Gallery holds a scratch record. -/
def State.unmarked (s : State) : Prop := s.gside = [] ∧ ∀ n, (s.cluster n).overflow = []

/-! ## Memory and task objects -/

/-- The `n` bytes from `pa` hold the number `v`, least significant byte first; every other byte at home reads as before. -/
def WroteAt (pa n v : Nat) (s t : State) : Prop :=
  ∀ a, t.homeByte a = if pa ≤ a ∧ a < pa + n then BitVec.ofNat 8 (v / 256 ^ (a - pa)) else s.homeByte a
/-- What checking an access may change: mark records, what a slice knows of stamps, and the core's own bytes of the object, which go home (R85 to R87, R153). -/
def SameButMarks (s t : State) : Prop :=
  SameBut [Tab.mem.num, Tab.l2.num, Tab.side.num, Tab.l1.num, Tab.wbs.num, Tab.marks.num, Tab.spills.num, Tab.stamps.num] s t
/-- No die watchpoint is armed and no group is parked on a task object. -/
def State.undisturbed (s : State) : Prop := s.watch = [] ∧ ∀ e ∈ s.groups, e.2.blocker = none
/-- THE ACCESS OF A TASK OBJECT GOES THROUGH (R308, R323): the object stands at `va` and `pa`, the gate is open, the object check `bad` finds nothing,
the registration is acknowledged, and the machine is then in `v`. -/
def Iss.reaches (c : Iss) (i : Instr) (m : UMem) (n : Nat) (need : Need) (ask : Ask) (rel : Option Scope) (va pa : Nat)
    (bad : State → Option Act) (s v : State) : Prop :=
  objFront c s m n false = .at_ va ∧ probeBytes s c.lau.ctx c.core need ask (vasOf va n) = .ok ∧ pa = s.phys c.lau.ctx va ∧ s.gate c rel = .go ∧
  (∀ k : Act, (c.synced i pa n (objBlame i 0 n va) bad k).run s = k.run v) ∧ SameButMarks s v ∧ v.undisturbed ∧ isHomed (v.phys c.lau.ctx va) = true
/-- The operation of TSPAWN, TFILL or LKREL at its object `va`, with the word `b` that goes with it. -/
def Iss.taskOp (c : Iss) (i : Instr) (m : UMem) (va b : Nat) (s : State) : Op :=
  { c.op s i (some 5) with exec := 1, unf := 1, brec := s.breg c.gid m.buf.toNat, lanes := [{ lane := 0, va := va, b := b, c := 0 }] }
/-- The state in which that operation is under way: the split is past the instruction. -/
def Iss.sent (c : Iss) (i : Instr) (m : UMem) (va b events : Nat) (s : State) : State :=
  (Act.all [.put .ops s.dev.nextId (c.taskOp i m va b s), c.advance, countEvents c.gid events]).run
    { s with dev := { s.dev with nextId := s.dev.nextId + 1 } }

/-! ## Events (R406, R407) -/

/-- No event ring is set, and an event can be held back. -/
def State.holdsEvents (s : State) : Prop := s.dev.ersize = 0 ∧ s.dev.erPost.length < 64
/-- The words of a RAS event (R407). -/
def rasWords (r : Ras) (s : State) : List (BitVec 32) :=
  [word (r.kind * 2 ^ 28 + r.ctx * 2 ^ 16 + r.inc * 256 + r.cause), word (r.struct * 2 ^ 24 + r.slot), word (r.pa % 2 ^ 32), word (r.pa / 2 ^ 32),
   r.site, word r.unit, word r.count, word s.dev.window]

/-! ## Command queues (R348 to R353) -/

/-- A command queue. -/
def State.ring (s : State) (q : Nat) : Queue := Tab.queues.val Queue.init q s
/-- QUEUE `q` RUNS AND STANDS AT A PACKET of its ring that R353 does not stop at, with every earlier command complete; `p` is what the packet's 16
bytes say (R350). -/
def State.standsAt (s : State) (q : Nat) (p : Packet) : Prop :=
  let k := s.ring q
  k.en = true ∧ k.qstat = 0 ∧ k.barrier = false ∧ k.chains = [] ∧ k.qhead ≠ k.qtail ∧ k.qdone = k.qhead ∧ s.cmds = [] ∧
  s.stale (.controller 0) k.ctx.toNat k.inc.toNat = false ∧ (s.ctx k.ctx.toNat).cstate = 1 ∧ packetFault k p = none ∧
  ∃ bs, s.readBy 0 k.ctx.toNat ((k.qbase.toNat + 16 * (k.qhead.toNat % 2 ^ (k.size.toNat + 4))) % 2 ^ 64) 16 = .ok bs ∧
    p = { op := natOfBytes bs % 2 ^ 8, flags := natOfBytes bs / 2 ^ 8 % 2 ^ 8, count := natOfBytes bs / 2 ^ 16 % 2 ^ 16,
          param := natOfBytes bs / 2 ^ 32 % 2 ^ 32, addr := natOfBytes bs / 2 ^ 64 % 2 ^ 64 }
/-- The command of that packet has started and completed: QHEAD and QDONE are past it; but for the tables named nothing else changes. -/
def Ran (q : Nat) (extra : List Nat) (s t : State) : Prop :=
  t.cmds = [] ∧ (∀ j, t.ring j = if j = q then { s.ring q with qhead := (s.ring q).qhead + 1, qdone := (s.ring q).qdone + 1 } else s.ring j) ∧
  SameTables (Tab.queues.num :: Tab.cmds.num :: extra) s t
/-- The command of that packet has started as `kind` and is not complete: QHEAD is past it. -/
def Begun (q : Nat) (p : Packet) (kind : CmdKind) (chains : List (Nat × Nat × Nat)) (s t : State) : Prop :=
  t.cmds = [(s.dev.nextId, { q := q, ringIndex := (s.ring q).qhead.toNat, parent := none, irq := p.irq, kind := kind, done := false,
                             open_ := !chains.isEmpty })] ∧
  ∀ j, t.ring j = if j = q then { s.ring q with qhead := (s.ring q).qhead + 1, chains := chains } else s.ring j
/-- Whatever bytes of a physical range hold, a virtual range of a context stands there: its page tables lie elsewhere. -/
def State.standsFast (s : State) (ctx va pa n : Nat) : Prop :=
  ∀ w : State, w.ctxs = s.ctxs → (∀ a, ¬ (pa ≤ a ∧ a < pa + n) → w.homeByte a = s.homeByte a) →
    ∀ need o, need = Need.load ∨ need = Need.store → o < n → w.translateFor ctx need (va + o) = .ok (pa + o)

/-! ## Mailbox requests (R428 to R430, R464) -/

/-- A mailbox, and a firmware core. -/
def State.box (s : State) (core : Nat) : Mailbox := Tab.boxes.val Mailbox.init core s
def State.fw (s : State) (core : Nat) : FwCore := Tab.fws.val FwCore.init core s
/-- A request reaches the idle mailbox of a core that hands nothing over. -/
def State.serving (s : State) (core : Nat) (driver : Bool) : Prop :=
  s.reachesBox core driver = true ∧ (s.box core).busy = false ∧ (s.fw core).hand ≠ 3
/-- The request is answered: BUSY clear, DONE set, RESP with its TAG, its FUNC, the status and the body. -/
def Answered (core func status : Nat) (tag : BitVec 16) (body : List (BitVec 64)) (s t : State) : Prop :=
  (t.box core).busy = false ∧ (t.box core).done = true ∧
  (t.box core).resp =
    ((BitVec.ofNat 64 (func + tag.toNat * 2 ^ 16 + body.length * 2 ^ 32 + status * 2 ^ 56)) :: body ++ List.replicate 8 0).take 8 ∧
  ∀ k, k ≠ core → t.box k = s.box k
/-- A REQUEST IS SERVED: with body `body` it is answered, with status 0 and the body `out`, and `post` holds. -/
def Serves (i : Request → Instr) (core func : Nat) (body : List (BitVec 64)) (pre : State → Prop) (out : State → State → List (BitVec 64))
    (post : State → State → Prop) : Prop :=
  ∀ (driver : Bool) (tag : BitVec 16), Occurs (i { driver := driver, tag := tag, body := body }) (fun s => s.serving core driver ∧ pre s)
    fun s t => Answered core func 0 tag (out s t) s t ∧ post s t
/-- A REQUEST CHANGES ONE CONTEXT: that, its answer, and nothing else. -/
def Sets (i : Request → Instr) (core func : Nat) (body : List (BitVec 64)) (ctx : Nat) (pre : State → Prop) (f : State → Ctx → Ctx) : Prop :=
  Serves i core func body pre (fun _ _ => []) fun s t =>
    (∀ k, t.ctx k = if k = ctx then f s (s.ctx ctx) else s.ctx k) ∧ SameTables [Tab.ctxs.num, Tab.boxes.num] s t

/-! ## Taking a trap (R370 to R373) -/

/-- The record of a trap that no access caused: kind, context, incarnation and cause; lane and slot; no address; the site; no other party; the
stamp; the window (R109, R369). -/
def Iss.record (c : Iss) (s : State) (kind cause lane : Nat) : List (BitVec 32) :=
  [word (kind * 2 ^ 28 + c.lau.ctx * 2 ^ 16 + c.lau.inc * 256 + cause), word (lane * 2 ^ 16 + c.slot), 0, 0, siteOf s c.lau c.sp.pc.toNat, 0xFFFF,
   word (s.stampOf c.slot).toNat, word s.dev.window]
/-- THE ISSUING SPLIT ENTERS THE HANDLER at its own instruction (stop kind 0): the shadow holds what TRET restores and what TINFO reads, the split
goes to the handler, b15 is the handler record when HBASE is not zero, the rest of the block is held; registers and memory are as before. -/
def EntersHandler (c : Iss) (cause lane : Nat) (code : BitVec 32) (s t : State) : Prop :=
  let hbase := (s.ctx c.lau.ctx).hbase
  let sh : Shadow :=
    { split := c.n, resume := c.sp.pc, mask := c.sp.mask, fmt := c.sp.fmt, q := c.grp.q, b15 := if hbase = 0 then none else some (s.breg c.gid 15),
      kind := 0, op := none, length := c.len, frame := c.record s (if c.len = 4 then 1 else 0) cause lane,
      words := [c.grp.thandle, word (c.grp.depth % 4), 0xFFFFFFFF, 0], code := code, origin := 0, codeId := c.lau.codeId, since := s.dev.nextId,
      dead := false }
  GroupIs c { c.grp with shadow := some sh } s t ∧
  Tab.splits.at c.key t = some { c.sp with pc := word c.lau.handler, wait := .producers, skid := 0, stage := 0, pre := 0 } ∧
  (∀ k, k ≠ c.key → (Tab.splits.at k t).map (fun y => { y with skid := 0 }) = (Tab.splits.at k s).map fun y => { y with skid := 0 }) ∧
  (∀ g b, b < 16 → t.breg g b = if g = c.gid ∧ b = 15 ∧ hbase ≠ 0 then handlerRecord hbase g else s.breg g b) ∧
  ((s.ctx c.lau.ctx).tracing = false → SameBut [Tab.groups.num, Tab.splits.num, Tab.bregs.num] s t ∧ SameMemory s t)
/-- The launch has a handler, and the group is in none (R371, R376). -/
def Iss.canTrap (c : Iss) : Prop := c.grp.shadow = none ∧ c.lau.handler ≠ 0xFFFFFFFF

/-! ## A split's turn (R24, R34, R40 to R43, R361) -/

/-- The text of the issuing split holds instruction `i`, of `len` bytes, where the split stands: its bytes can be fetched, and none is poisoned. -/
def Iss.standsBefore (c : Iss) (i : Instr) (len : Nat) (s : State) : Prop :=
  let va := c.lau.code + c.lau.textOff + c.sp.pc.toNat
  (∃ bs, fetchBytes s (some c.core) c.lau c.sp.pc.toNat 28 = .ok bs ∧ decode bs = .ok (i, len)) ∧
  lengthAt s (some c.core) c.lau c.sp.pc.toNat = len ∧
  (∀ a, (a = va ∨ a = va + len - 1) → ∀ x, s.translate c.lau.ctx a = .ok x →
    s.accessFault c.core .load (x.pa / 128 * 128) 128 = none ∧ (s.poisoned (sectorOf x.pa) = false ∨ s.codeHeld c.core x.pa = true)) ∧
  c.sp.pc.toNat % 4 = 0 ∧ c.sp.pc.toNat < c.lau.textSize ∧
  (i.stop = true ∨ (c.sp.pc.toNat ≠ c.lau.handler ∧ isEntry s c.lau c.sp.pc.toNat = false))
/-- Nothing keeps the issuing split from its instruction: no stop, no spent window, no converted park, no store that has still to translate, no stop
site's business, no register that a TSPAWN, SLD or BREC has still to write. -/
def Iss.unhindered (c : Iss) (i : Instr) (len : Nat) (s : State) : Prop :=
  (s.mustStop c.gid c.n = false ∨ s.waitsParked c.sp = false) ∧ windowHold s c = none ∧ convertedHere s c = none ∧
  storeHold s c = none ∧ atStop s { c with len := len } i = none ∧ uniformHold s { c with len := len } i = none

end Sys2Proof.Machine
end

