-- ==== Sys2Proof/Certificates/Slice0/Obligations.lean ====
section
/-! DEFINITION. The statements for the provers, one for each obligation of OBLIGATIONS.json. -/

open Sys2Proof Sys2Proof.Machine

/-! ## Uniform instructions -/

/-- R292: the ten arithmetic instructions complete with the stated result (R291: registers or pairs; R32: s63 discards). -/
def Obligations.UniformArithmetic : Prop :=
  ∀ (sb : Bool) (d a b : BitVec 6) (w : Bool),
    let x (c : Iss) (s : State) : Nat := s.ureg c.gid w a
    let y (c : Iss) (s : State) : Nat := s.ureg c.gid w b
    let n (c : Iss) (s : State) : Nat := (s.sreg c.gid b.toNat).toNat
    let wd : Nat := if w then 64 else 32
    let done (i : Instr) (r : Iss → State → Nat) : Prop := Completes i (fun _ _ => True) (UniformResult w d r)
    done (.sadd sb d a b w) (fun c s => (x c s + y c s) % 2 ^ wd) ∧
    done (.ssub sb d a b w) (fun c s => wrap wd ((x c s : Int) - (y c s : Int))) ∧
    done (.smul sb d a b false false w) (fun c s => x c s * y c s % 2 ^ wd) ∧
    done (.smul sb d a b false true w) (fun c s => x c s * y c s / 2 ^ 32 % 2 ^ 32) ∧
    done (.smul sb d a b true true w) (fun c s => wrap 32 (sext 32 (x c s) * sext 32 (y c s) / 2 ^ 32)) ∧
    done (.sand sb d a b w) (fun c s => x c s &&& y c s) ∧
    done (.sor sb d a b w) (fun c s => x c s ||| y c s) ∧
    done (.sxor sb d a b w) (fun c s => x c s ^^^ y c s) ∧
    done (.sshl sb d a b w) (fun c s => x c s * 2 ^ n c s % 2 ^ wd) ∧
    done (.sshr sb d a b false w) (fun c s => x c s / 2 ^ n c s) ∧
    done (.sshr sb d a b true w) (fun c s => wrap wd (sext wd (x c s) / 2 ^ n c s)) ∧
    done (.smin sb d a b false w) (fun c s => min (x c s) (y c s)) ∧
    done (.smin sb d a b true w) (fun c s => wrap wd (min (sext wd (x c s)) (sext wd (y c s)))) ∧
    done (.smax sb d a b false w) (fun c s => max (x c s) (y c s)) ∧
    done (.smax sb d a b true w) (fun c s => wrap wd (max (sext wd (x c s)) (sext wd (y c s)))) ∧
    encodeBytes (.sadd false 4 5 6 false) = [0xC0, 0x28, 0x08, 0x01]

/-- R293, R294, R295: comparison, selection, logic of predicates, and the immediate forms complete with the stated result. -/
def Obligations.UniformMoves : Prop :=
  ∀ (sb : Bool) (d a b : BitVec 6) (qd qa qb : BitVec 3) (w sgn : Bool) (i : BitVec 17) (h : BitVec 16) (tt : BitVec 4),
    let wd : Nat := if w then 64 else 32
    let x (c : Iss) (s : State) : Int := if sgn then sext wd (s.ureg c.gid w a) else s.ureg c.gid w a
    let y (c : Iss) (s : State) : Int := if sgn then sext wd (s.ureg c.gid w b) else s.ureg c.gid w b
    let cmp (k : BitVec 3) (r : Iss → State → Bool) : Prop := Completes (.scmp sb qd a b w sgn k) (fun _ _ => True) (PredicateResult qd r)
    let imm (j : Instr) (f : BitVec 32 → BitVec 32) : Prop :=
      Completes j (fun _ _ => True) (UniformResult false d fun c s => (f (s.sreg c.gid d.toNat)).toNat)
    cmp 0 (fun c s => x c s = y c s) ∧ cmp 1 (fun c s => x c s ≠ y c s) ∧ cmp 2 (fun c s => x c s < y c s) ∧
    cmp 3 (fun c s => x c s ≤ y c s) ∧ cmp 4 (fun c s => x c s > y c s) ∧ cmp 5 (fun c s => x c s ≥ y c s) ∧
    Completes (.ssel sb d a b qa) (fun _ _ => True) (UniformResult false d fun c s =>
      (if c.grp.qreg qa.toNat then s.sreg c.gid a.toNat else s.sreg c.gid b.toNat).toNat) ∧
    Completes (.qlog sb qd qa qb tt) (fun _ _ => True) (PredicateResult qd fun c _ =>
      tt.toNat.testBit (2 * (c.grp.qreg qa.toNat).toNat + (c.grp.qreg qb.toNat).toNat)) ∧
    imm (.saddi sb d i) (fun v => v + i.signExtend 32) ∧
    imm (.smovi sb d i) (fun _ => i.signExtend 32) ∧
    imm (.smovh sb d h) (fun v => h ++ v.setWidth 16) ∧
    imm (.sandi sb d i) (fun v => v &&& i.signExtend 32) ∧
    imm (.sori sb d i) (fun v => v ||| i.signExtend 32) ∧
    imm (.sxori sb d i) (fun v => v ^^^ i.signExtend 32)

/-- R289, R290, R296, R233: MOVS writes the special register of each selector, 0x10 and 0x12 latch the high half; SETS writes GTTHR; SFMT changes the
issuing split's fmt. -/
def Obligations.SpecialRegisters : Prop :=
  (∀ (sb : Bool) (d : BitVec 6) (e : BitVec 8 × (Iss → State → BitVec 32)), e ∈
    ([(0x01, fun c _ => word c.grp.gidx),
      (0x02, fun c _ => word (c.blk.linear % max c.lau.gridx 1)),
      (0x03, fun c _ => word (c.blk.linear / max c.lau.gridx 1 % max c.lau.gridy 1)),
      (0x04, fun c _ => word (c.blk.linear / max c.lau.gridx 1 / max c.lau.gridy 1)),
      (0x05, fun c _ => word c.lau.gridx), (0x06, fun c _ => word c.lau.gridy), (0x07, fun c _ => word c.lau.gridz),
      (0x08, fun c _ => word (c.core % 64)), (0x09, fun c _ => word (clusterOf c.core % 8)), (0x0A, fun c _ => word (dieOf c.core)),
      (0x0B, fun c _ => word (c.blk.linear / max c.lau.team 1)), (0x0C, fun c _ => word c.lau.width), (0x0D, fun c _ => word c.slot),
      (0x0E, fun c s => s.icountOf c.slot), (0x0F, fun c _ => word (c.blk.linear % max c.lau.team 1)),
      (0x11, fun c _ => c.grp.cychi), (0x13, fun c _ => c.grp.gthi), (0x14, fun _ s => word s.dev.window), (0x15, fun c _ => c.grp.thandle),
      (0x16, fun c _ => word c.grp.depth), (0x17, fun _ s => word s.dev.point), (0x18, fun c s => word (s.usable (clusterOf c.core))),
      (0x19, fun c _ => word c.lau.ctx), (0x1A, fun c _ => word c.lau.inc), (0x1B, fun c _ => word c.blk.lid),
      (0x1C, fun c _ => c.grp.flags.setWidth 32), (0x1D, fun c _ => c.grp.gtthr), (0x1E, fun c _ => c.sp.fmt)] :
      List (BitVec 8 × (Iss → State → BitVec 32))) →
    Completes (.movs sb d e.1) (fun _ _ => True) (UniformResult false d fun c s => (e.2 c s).toNat)) ∧
  (∀ (sb : Bool) (d : BitVec 6), Completes (.movs sb d 0x10) (fun _ _ => True) fun c s t =>
    WroteU c.gid false d (s.dev.cycle.toNat % 2 ^ 32) s t ∧ MovedTo c c.next s t ∧
    GroupIs c { c.grp with cychi := BitVec.ofNat 32 (s.dev.cycle.toNat / 2 ^ 32) } s t ∧
    SameBut [Tab.splits.num, Tab.sregs.num, Tab.groups.num] s t ∧ SameMemory s t) ∧
  (∀ (sb : Bool) (d : BitVec 6), Completes (.movs sb d 0x12) (fun _ _ => True) fun c s t =>
    WroteU c.gid false d (s.groupTimer c.grp % 2 ^ 32) s t ∧ MovedTo c c.next s t ∧
    GroupIs c { c.grp with gthi := word (s.groupTimer c.grp / 2 ^ 32) } s t ∧
    SameBut [Tab.splits.num, Tab.sregs.num, Tab.groups.num] s t ∧ SameMemory s t) ∧
  (∀ (sb : Bool) (d : BitVec 6), Completes (.sets sb d 0x1D) (fun _ _ => True) fun c s t =>
    GroupIs c { c.grp with gtthr := s.sreg c.gid d.toNat } s t ∧ MovedTo c c.next s t ∧
    SameBut [Tab.splits.num, Tab.groups.num] s t ∧ SameMemory s t) ∧
  (∀ (sb : Bool) (a : BitVec 6) (f : BitVec 5),
    let v (c : Iss) (s : State) : BitVec 32 :=
      if f = 0 then s.sreg c.gid a.toNat else if f = 1 then c.sp.fmt ||| s.sreg c.gid a.toNat else c.sp.fmt &&& ~~~(s.sreg c.gid a.toNat)
    Completes (.sfmt sb a f) (fun c s => (v c s).toNat < 2 ^ 24 ∧ (v c s).toNat / 2 ^ 10 % 4 ≠ 3) fun c s t =>
      SplitIs c { c.past s with fmt := v c s } s t ∧ SameBut [Tab.splits.num] s t ∧ SameMemory s t)

/-! ## Control flow -/

/-- R297, R298: the branches, calls and jumps that do not divide a split go to their target, or past themselves. -/
def Obligations.Jumps : Prop :=
  ∀ (sb neg : Bool) (g : BitVec 3) (o : BitVec 19) (a : BitVec 6),
    let target (c : Iss) : BitVec 32 := c.sp.pc + 4 * o.signExtend 32
    let inside (c : Iss) (t : BitVec 32) : Prop := t.toNat % 4 = 0 ∧ t.toNat < c.lau.textSize
    let holds (c : Iss) : Prop := c.grp.qreg g.toNat ≠ neg
    let lanes (c : Iss) (s : State) : BitVec 64 := c.sp.mask &&& (if neg then ~~~(s.preg c.gid g.toNat) else s.preg c.gid g.toNat)
    Completes (.bra sb g neg o) (fun c _ => ¬ holds c) (JumpResult fun c _ => c.sp.pc + 4) ∧
    Completes (.bra sb g neg o) (fun c _ => holds c ∧ inside c (target c)) (JumpResult fun c _ => target c) ∧
    Completes (.call sb g neg o) (fun c _ => ¬ holds c) (JumpResult fun c _ => c.sp.pc + 4) ∧
    Completes (.call sb g neg o) (fun c _ => holds c ∧ inside c (target c)) (fun c s t =>
      MovedTo c (target c) s t ∧ WroteU c.gid false 62 (c.sp.pc + 4).toNat s t ∧ SameBut [Tab.splits.num, Tab.sregs.num] s t ∧ SameMemory s t) ∧
    Completes (.ret sb) (fun c s => inside c (s.sreg c.gid 62)) (JumpResult fun c s => s.sreg c.gid 62) ∧
    Completes (.jmpi sb a) (fun c s => inside c (s.sreg c.gid a.toNat)) (JumpResult fun c s => s.sreg c.gid a.toNat) ∧
    Completes (.brp sb g neg o) (fun c s => lanes c s = 0) (JumpResult fun c _ => c.sp.pc + 4) ∧
    Completes (.brp sb g neg o) (fun c s => lanes c s ≠ 0 ∧ lanes c s = c.sp.mask ∧ inside c (target c)) (JumpResult fun c _ => target c)

/-- R280: a BRP whose guard holds in some lanes only divides its split when a split number and a join entry are free: the issuing split keeps the
fall-through lanes at PC + 4, the lowest free number takes the others at the target with a copy of the fmt, both take J := M, and the lowest free join
entry holds the old J.
And R281: a split that waits alone at a RECV passes it; two that wait at the same place with one J become one split, which undoes the divergence when
its mask is J and goes on. -/
def Obligations.DivergenceAndMerging : Prop :=
  (∀ (sb neg : Bool) (g : BitVec 3) (o : BitVec 19) (n e : Nat),
      let target (c : Iss) : BitVec 32 := c.sp.pc + 4 * o.signExtend 32
      let lanes (c : Iss) (s : State) : BitVec 64 := c.sp.mask &&& (if neg then ~~~(s.preg c.gid g.toNat) else s.preg c.gid g.toNat)
      Completes (.brp sb g neg o)
        (fun c s => lanes c s ≠ 0 ∧ lanes c s ≠ c.sp.mask ∧ (target c).toNat < c.lau.textSize ∧ (target c).toNat % 4 = 0 ∧ c.n < 4 ∧
          n < 4 ∧ s.split? c.gid n = none ∧ (∀ m < n, s.split? c.gid m ≠ none) ∧
          e < 3 ∧ c.grp.join e = none ∧ (∀ m < e, c.grp.join m ≠ none))
        fun c s t =>
          (∃ y z, t.split? c.gid c.n = some y ∧ t.split? c.gid n = some z ∧
            y.mask = c.sp.mask &&& ~~~(lanes c s) ∧ y.pc = c.sp.pc + 4 ∧ y.j = c.sp.mask ∧ y.fmt = c.sp.fmt ∧ y.wait = .ready ∧
            z.mask = lanes c s ∧ z.pc = target c ∧ z.j = c.sp.mask ∧ z.fmt = c.sp.fmt ∧ z.wait = .ready ∧ z.stack = [] ∧ z.outs = y.outs) ∧
          GroupIs c (c.grp.setJoin e (some { oldJ := c.sp.j, oldEnt := c.sp.jent })) s t ∧
          SameAt .splits (fun k => k = c.key ∨ k = splitKey c.gid n) s t ∧ SameBut [Tab.splits.num, Tab.groups.num] s t ∧ SameMemory s t) ∧
  ((∀ (g n : Nat) (y : Split) (c : Iss), Becomes (.recvResolve g)
      (fun s => s.stopping g = false ∧ (∀ m, s.held g m = false) ∧ n < 4 ∧ s.split? g n = some y ∧ (∀ m, m < 4 → m ≠ n → s.split? g m = none) ∧
        y.wait = .recv ∧ y.stack = [] ∧ y.jent = none ∧ Iss.of s g n (.recv false 0) = some c)
      fun s => Tab.splits.put (splitKey g n) (c.past s) s) ∧
    (∀ (g n m e : Nat) (x : Group) (y z : Split) (k : JoinEnt), Occurs (.recvResolve g)
      (fun s => s.stopping g = false ∧ (∀ m, s.held g m = false) ∧ n < m ∧ m < 4 ∧ s.group? g = some x ∧ s.split? g n = some y ∧ s.split? g m = some z ∧
        (∀ i, i < 4 → i ≠ n → i ≠ m → s.split? g i = none) ∧ y.wait = .recv ∧ z.wait = .recv ∧ y.stack = [] ∧ z.stack = [] ∧
        z.pc = y.pc ∧ z.j = y.j ∧ y.jent = some e ∧ z.jent = some e ∧ y.mask ||| z.mask = y.j &&& x.live ∧ x.join e = some k ∧ k.oldEnt = none ∧
        s.opsOf g = [] ∧ (s.block? x.bid).isSome ∧ ((s.block? x.bid).bind fun b => s.launch? b.lid).isSome)
      fun s t =>
        (∃ u, t.split? g n = some u ∧ u.mask = y.mask ||| z.mask ∧ u.pc = y.pc + 4 ∧ u.j = k.oldJ ∧ u.jent = none ∧ u.wait = .ready ∧
          u.fmt = lowFmt (y.mask, y.fmt) (z.mask, z.fmt)) ∧
        (∀ i, i < 4 → i ≠ n → t.split? g i = none) ∧ t.group? g = some (x.setJoin e none) ∧
        SameAt .splits (fun k => k = splitKey g n ∨ k = splitKey g m) s t ∧ SameAt .groups (· = g) s t ∧
        SameBut [Tab.splits.num, Tab.groups.num] s t ∧ SameMemory s t))

/-- R281, R284, R296, R299, R427: NOP, SLEEP, YIELD, RECV, WAITC and DBGMARK do to the issuing split what the rules say, and nothing else. -/
def Obligations.SplitControl : Prop :=
  (∀ sb : Bool, Completes (.nop sb) (fun _ _ => True) (JumpResult fun c _ => c.sp.pc + 4)) ∧
  (∀ (sb : Bool) (n : BitVec 20), Completes (.sleep sb n) (fun _ _ => n ≠ 0) fun c s t =>
    SplitIs c { c.past s with wait := .sleep (s.dev.cycle.toNat + n.toNat) } s t ∧ SameBut [Tab.splits.num] s t ∧ SameMemory s t) ∧
  (∀ sb : Bool, Completes (.sleep sb 0) (fun _ _ => True) (JumpResult fun c _ => c.sp.pc + 4)) ∧
  (∀ sb : Bool, Completes (.yield sb) (fun _ _ => True) fun c s t =>
    SplitIs c { c.past s with wait := .yield } s t ∧ SameBut [Tab.splits.num] s t ∧ SameMemory s t) ∧
  (∀ (sb : Bool) (k : BitVec 16), Completes (.recv sb k) (fun c _ => c.sp.stack = []) fun c s t =>
    SplitIs c { c.sp with wait := .recv } s t ∧ SameTables [Tab.splits.num] s t ∧ SameMemory s t ∧
    t.dev = { s.dev with due := s.dev.due ++ [.recvResolve c.gid] }) ∧
  (∀ (sb : Bool) (k : BitVec 16) (below : List StackEnt) (e : StackEnt), Completes (.recv sb k)
    (fun c _ => c.sp.stack = below ++ [e] ∧ e.state = .unserved ∧ e.mask ≠ 0 ∧ c.sp.outs = []) fun c s t =>
    SplitIs c { c.past s with mask := e.mask, fmt := e.fmt, pc := e.pc,
                              stack := below ++ [{ mask := c.sp.mask, fmt := c.sp.fmt, pc := c.sp.pc, token := k, state := .waiting,
                                                   since := s.us, told := false }] } s t ∧
    SameBut [Tab.splits.num] s t ∧ SameMemory s t) ∧
  (∀ (sb : Bool) (p : BitVec 3) (n : BitVec 6), Completes (.waitc sb p n)
    (fun c s => c.sp.wait = .ready ∧ (63 ≤ (s.sreg c.gid n.toNat).toNat ∨ s.counter c.gid p.toNat ≤ (s.sreg c.gid n.toNat).toNat))
    (JumpResult fun c _ => c.sp.pc + 4)) ∧
  (∀ (sb : Bool) (v : BitVec 16), Completes (.dbgmark sb v) (fun c s => (s.ctx c.lau.ctx).tracing = false) fun c s t =>
    let x := s.ctx c.lau.ctx
    let up (k : Nat) (n : BitVec 32) : BitVec 32 := if x.pmatch.extractLsb' (16 * k) 16 = v then n + 1 else n
    (∀ k, t.ctx k = if k = c.lau.ctx then { x with prog0 := up 0 x.prog0, prog1 := up 1 x.prog1, prog2 := up 2 x.prog2, prog3 := up 3 x.prog3 }
                    else s.ctx k) ∧
    MovedTo c (c.sp.pc + 4) s t ∧ SameBut [Tab.splits.num, Tab.ctxs.num] s t ∧ SameMemory s t) ∧
  (∀ (g n u : Nat) (y : Split), Becomes (.sleepEnd g n) (fun s => s.split? g n = some y ∧ y.wait = .sleep u ∧ u ≤ s.dev.cycle.toNat)
    fun s => Tab.splits.put (splitKey g n) { y with wait := if s.mustStop g n then .stopped else .ready } s)

/-- R286: an EXIT of some of a group's live lanes ends its interval, takes the lanes out of the live mask and of every J and stack mask, and the split is
gone; the EXIT of the last live lanes of a group without a task ends the group. -/
def Obligations.Exits : Prop :=
  (∀ sb : Bool, Completes (.exit sb)
    (fun c s => c.grp.live &&& ~~~c.sp.mask ≠ 0 ∧ c.sp.stack = [] ∧ s.gate c (some .dev) = .go ∧
      ∀ m y, s.split? c.gid m = some y → ∀ a b k, y.wait ≠ .barrier a b k)
    fun c s t =>
      let m := c.sp.mask
      let cut (e : Option JoinEnt) : Option JoinEnt := e.map fun k => { k with oldJ := k.oldJ &&& ~~~m }
      Tab.splits.at c.key t = none ∧
      (∀ n y, n < 4 → n ≠ c.n → s.split? c.gid n = some y →
        t.split? c.gid n = some { y with j := y.j &&& ~~~m, stack := y.stack.map fun e => { e with mask := e.mask &&& ~~~m } }) ∧
      GroupIs c { c.grp with overflowed := false, live := c.grp.live &&& ~~~m, join0 := cut c.grp.join0, join1 := cut c.grp.join1,
                             join2 := cut c.grp.join2 } s t ∧
      t.icountOf c.slot = s.icountOf c.slot + 1 ∧ (t.block? c.bid).map (·.escaped) = some true ∧ SameMemory s t ∧
      SameTables [Tab.splits.num, Tab.groups.num, Tab.blocks.num, Tab.icount.num, Tab.notices.num, Tab.teamCnt.num, Tab.tscan.num,
                  Tab.filter.num, Tab.cores.num] s t) ∧
  (∀ sb : Bool, Completes (.exit sb)
    (fun c s => c.grp.live &&& ~~~c.sp.mask = 0 ∧ c.grp.thandle = 0xFFFFFFFF ∧ c.grp.locks = 0 ∧ c.grp.shadow = none ∧ s.opsOf c.gid = [] ∧
      s.gate c (some .dev) = .go ∧ c.mayAdvanceTwice s = true ∧ c.oldestTask s = none ∧ (s.ctx c.lau.ctx).cstate = 1 ∧
      (c.blk.gids.filter (· != c.gid)) ≠ [])
    fun c s t =>
      t.group? c.gid = none ∧ SameAt .groups (· = c.gid) s t ∧ (∀ n, n < 4 → t.split? c.gid n = none) ∧
      t.block? c.bid = some { c.blk with gids := c.blk.gids.filter (· != c.gid), escaped := true } ∧
      t.icountOf c.slot = s.icountOf c.slot + 1 ∧ SameMemory s t ∧
      SameTables [Tab.splits.num, Tab.groups.num, Tab.blocks.num, Tab.icount.num, Tab.notices.num, Tab.teamCnt.num, Tab.tscan.num, Tab.ops.num,
                  Tab.filter.num, Tab.cores.num, Tab.sregs.num, Tab.pregs.num, Tab.bregs.num, Tab.vregs.num, Tab.wps.num] s t)

/-! ## Traps -/

/-- R370 to R373, R379: TRAP and BRK enter the handler with cause 0x56 and 0x50 and their code in TINFO word 17. -/
def Obligations.TrapInstructions : Prop :=
  (∀ (sb : Bool) (code : BitVec 8), Completes (.trap sb code) (fun c _ => c.canTrap) fun c s t => EntersHandler c 0x56 0 (code.setWidth 32) s t) ∧
  (∀ (sb : Bool) (tag : BitVec 16), Completes (.brk sb tag)
    (fun c s => c.canTrap ∧ ¬ (c.lau.flags.getLsbD 3 = true ∧ (s.ctx c.lau.ctx).attached = true))
    fun c s t => EntersHandler c 0x50 0 (tag.setWidth 32) s t) ∧
  (∀ (sb : Bool) (tag : BitVec 16), Completes (.brk sb tag)
    (fun c s => c.lau.flags.getLsbD 3 = true ∧ (s.ctx c.lau.ctx).attached = true ∧ (s.ctx c.lau.ctx).tracing = false ∧ c.sp.outs = [])
    fun c s t => SplitIs c { c.past s with wait := .stopped } s t ∧
      GroupIs c { c.grp with stop := true, haltReq := none, 
                             halt := some { cause := 0x50, tag := tag.setWidth 32, split := c.n, frame := c.record s 1 0x50 0 } } s t ∧
      SameBut [Tab.splits.num, Tab.groups.num] s t ∧ SameMemory s t)

/-- R371, R373, R374: TRET restores the pc, the mask, the fmt, the q registers and b15 of the trap, and skips the trapping instruction when asked to; TINFO reads
what the trap left. -/
def Obligations.TrapReturn : Prop :=
  (∀ (sb skip : Bool) (sh : Shadow), Completes (.tret sb skip) (fun c s => c.grp.shadow = some sh ∧ s.ops = [] ∧ sh.dead = false)
    fun c s t =>
      GroupIs c { c.grp with shadow := none, q := sh.q } s t ∧
      (∃ y, Tab.splits.at c.key t = some y ∧ y.mask = sh.mask ∧ y.fmt = sh.fmt ∧
        y.pc = (if skip = true ∧ sh.kind = 0 then sh.resume + BitVec.ofNat 32 sh.length else sh.resume)) ∧
      (∀ g b, b < 16 → t.breg g b = if g = c.gid ∧ b = 15 then sh.b15.getD (s.breg g b) else s.breg g b) ∧
      SameTables [Tab.groups.num, Tab.splits.num, Tab.bregs.num] s t ∧ SameMemory s t) ∧
  (∀ (sb : Bool) (d n : BitVec 6) (sh : Shadow), Completes (.tinfo sb d n) (fun c _ => c.grp.shadow = some sh) (UniformResult false d fun _ _ =>
    (if n.toNat < 8 then (sh.frame[n.toNat]?).getD 0 else if n.toNat < 12 then (sh.words[n.toNat - 8]?).getD 0
     else if n = 12 then sh.resume else if n = 13 then sh.mask.setWidth 32 else if n = 14 then (sh.mask >>> 32).setWidth 32
     else if n = 15 then word (sh.split + 4 * sh.kind) else if n = 16 then sh.fmt else if n = 17 then sh.code else if n = 18 then sh.origin
     else if n = 19 then sh.codeId.setWidth 32 else 0).toNat))

/-- R24, R284, R289, R297, R371, R373, R374, R379: where uniform and control instructions trap instead of having their effect. -/
def Obligations.ControlTraps : Prop :=
  ∀ (sb neg : Bool) (g : BitVec 3) (o : BitVec 19) (a d n : BitVec 6) (sel : BitVec 8),
    let outside (c : Iss) (t : BitVec 32) : Prop := ¬ (t.toNat % 4 = 0 ∧ t.toNat < c.lau.textSize)
    let target (c : Iss) : BitVec 32 := c.sp.pc + 4 * o.signExtend 32
    let traps (i : Instr) (pre : Iss → State → Prop) (cause : Nat) : Prop :=
      Completes i (fun c s => c.canTrap ∧ pre c s) fun c s t => EntersHandler c cause 0 0 s t
    traps (.bra sb g neg o) (fun c _ => c.grp.qreg g.toNat ≠ neg ∧ outside c (target c)) 0x06 ∧
    traps (.call sb g neg o) (fun c _ => c.grp.qreg g.toNat ≠ neg ∧ outside c (target c)) 0x06 ∧
    traps (.ret sb) (fun c s => outside c (s.sreg c.gid 62)) 0x06 ∧
    traps (.jmpi sb a) (fun c s => outside c (s.sreg c.gid a.toNat)) 0x06 ∧
    traps (.sets sb d sel) (fun _ _ => sel ≠ 0x1D) 0x07 ∧
    traps (.tinfo sb d n) (fun _ _ => True) 0x07 ∧
    traps (.tret sb neg) (fun _ _ => True) 0x07 ∧
    traps (.tend sb) (fun c _ => c.grp.thandle = 0xFFFFFFFF) 0x43 ∧
    traps (.exit sb) (fun c s => c.grp.live &&& ~~~c.sp.mask = 0 ∧ c.grp.thandle = 0xFFFFFFFF ∧ c.grp.locks ≠ 0 ∧ s.opsOf c.gid = []) 0x48

/-! ## Barriers and roll call -/

/-- R148, R165, R168 to R170: a FENCE whose gate is open ends the interval; with an acquire wider than the block the core's generation advances and the
group reads nothing older; a release at system scope clears N_last. -/
def Obligations.Fences : Prop :=
  ∀ (sb : Bool) (k : FenceKind) (sc : Scope),
    let rel : Option Scope := if k = .acq then none else some sc
    let acq : Bool := k ≠ .rel && sc ≠ .blk
    Completes (.fence sb k sc)
      (fun c s => s.gate c rel = .go ∧ fenceWaits s c k = false ∧ (s.core c.core).gen ≠ 0xFFFFFF)
      fun c s t =>
        let gen := (s.core c.core).gen + 1
        MovedTo c (c.sp.pc + 4) s t ∧ t.icountOf c.slot = s.icountOf c.slot + 1 ∧
        GroupIs c { c.grp with overflowed := false, va := if acq then gen else c.grp.va, nlast := if rel = some .sys then none else c.grp.nlast } s t ∧
        (t.core c.core).gen = (if acq then gen else (s.core c.core).gen) ∧
        (∀ sec, sec < 2 ^ 47 → Tab.filter.at (filterKey c.gid sec) t = none) ∧ SameMemory s t ∧
        SameTables [Tab.splits.num, Tab.groups.num, Tab.blocks.num, Tab.icount.num, Tab.notices.num, Tab.teamCnt.num, Tab.tscan.num,
                    Tab.filter.num, Tab.cores.num] s t

/-- R332 to R335: the one split of a group comes to a barrier: it waits there, the group's interval ends, and the open instance counts the arrival; BARC fixes
its number. The arrival then completes the instance when it is the last one, as BARRIER_COMPLETE does.
And R332, R334, R336: a block barrier at which every group has arrived completes: the instance is open again, and every split that waits there goes on past
its barrier. -/
def Obligations.Barriers : Prop :=
  (∀ (land : Bool) (n : BitVec 6),
      let may (team : Bool) (c : Iss) (s : State) (b : Barrier) : Prop :=
        s.splitsOf c.gid = [c.n] ∧ c.sp.stack = [] ∧ s.gate c (some (if team then .team else .blk)) = .go ∧ c.gid ∉ b.arrived
      let counted (c : Iss) (b : Barrier) (k : Option Nat) : Barrier :=
        { arrived := b.arrived ++ [c.gid], fixed := if b.fixed = none then k else b.fixed, bar := b.bar || k = none,
          land := if land then b.land ++ [c.gid] else b.land }
      let closes (team : Bool) (c : Iss) (u t : State) : Prop := exec (.barrierComplete team (if team then c.tid else c.bid)) u = .next t
      let there (team : Bool) (k : Option Nat) (c : Iss) (s t : State) : Prop :=
        SplitIs c { c.sp with wait := .barrier team land k } s t ∧ t.icountOf c.slot = s.icountOf c.slot + 1 ∧ SameMemory s t ∧
        SameTables [Tab.splits.num, Tab.groups.num, Tab.blocks.num, Tab.teams.num, Tab.icount.num, Tab.notices.num, Tab.teamCnt.num,
                    Tab.tscan.num, Tab.filter.num, Tab.cores.num] s t
      let count (c : Iss) (s : State) : Nat := (s.sreg c.gid n.toNat).toNat
      let fits (c : Iss) (s : State) (b : Barrier) (members : Nat) : Prop :=
        1 ≤ count c s ∧ count c s ≤ members ∧ b.bar = false ∧ (b.fixed = none ∨ b.fixed = some (count c s) ∧ b.arrived.length < count c s)
      Completes (.bar land false) (fun c s => may false c s c.blk.bar ∧ c.blk.bar.fixed = none) (fun c s t => ∃ u, closes false c u t ∧
        there false none c s u ∧ (u.block? c.bid).map (·.bar) = some (counted c c.blk.bar none)) ∧
      Completes (.bar land true) (fun c s => ∃ x, s.team? c.tid = some x ∧ may true c s x.bar ∧ x.bar.fixed = none) (fun c s t => ∃ u, closes true c u t ∧
        there true none c s u ∧ (u.team? c.tid).map (·.bar) = (s.team? c.tid).map fun x => counted c x.bar none) ∧
      Completes (.barc n land false) (fun c s => may false c s c.blk.bar ∧ fits c s c.blk.bar c.blk.gids.length) (fun c s t => ∃ u, closes false c u t ∧
        there false (some n.toNat) c s u ∧ (u.block? c.bid).map (·.bar) = some (counted c c.blk.bar (some (count c s)))) ∧
      Completes (.barc n land true)
        (fun c s => ∃ x, s.team? c.tid = some x ∧ may true c s x.bar ∧ fits c s x.bar (s.barMembers c.bid c.tid true).length) (fun c s t => ∃ u,
        closes true c u t ∧ there true (some n.toNat) c s u ∧ (u.team? c.tid).map (·.bar) = (s.team? c.tid).map fun x => counted c x.bar (some (count c s)))) ∧
  (∀ (id : Nat) (b : Block), Occurs (.barrierComplete false id)
      (fun s => s.block? id = some b ∧ b.bar.arrived ≠ [] ∧ b.bar.fixed = none ∧ b.gids.length ≤ b.bar.arrived.length ∧ b.bar.land = [] ∧
        (s.launch? b.lid).isSome ∧ (∀ g ∈ b.bar.arrived, (s.group? g).map (·.bid) = some id) ∧ ∀ g n, s.mustStop g n = false)
      fun s t =>
        t.block? id = some { b with bar := { arrived := [], fixed := none, bar := false, land := [] } } ∧ SameAt .blocks (· = id) s t ∧
        (∀ g ∈ b.bar.arrived, ∀ n y, n < 4 → s.split? g n = some y → ∀ team land k, y.wait = .barrier team land k →
          ∃ z, t.split? g n = some z ∧ z.pc = y.pc + 4 ∧ z.wait = .ready ∧ z.mask = y.mask ∧ z.fmt = y.fmt ∧ z.j = y.j ∧ z.stack = y.stack) ∧
        (∀ g n, n < 4 → g ∉ b.bar.arrived → t.split? g n = s.split? g n) ∧
        SameBut [Tab.splits.num, Tab.blocks.num] s t ∧ SameMemory s t)

/-- R339, R340, R342, R343: ROLLSET registers a station and changes its expectation, ROLLARV counts an arrival at one, ROLLWAIT returns when the phase it
waits for has passed, and waits before. What an arrival or a registration leaves may complete the phase, as PHASE_COMPLETE does. -/
def Obligations.RollCall : Prop :=
  ∀ (sb : Bool) (n : BitVec 6) (d : BitVec 4),
    let w (c : Iss) (s : State) : Nat := (s.sreg c.gid n.toNat).toNat
    let mine (c : Iss) (s : State) : Prop :=
      (s.domain d.toNat).en = true ∧ (s.domain d.toNat).ctx.toNat = c.lau.ctx ∧ (s.domain d.toNat).inc.toNat = c.lau.inc
    let wp (c : Iss) (t : State) : Option (BitVec 32) := Tab.wps.val none (c.gid * 16 + d.toNat) t
    let others (st : Nat) (s t : State) : Prop := ∀ e m, m < 4096 → ¬ (e = d.toNat ∧ m = st) → t.station e m = s.station e m
    let closes (u t : State) : Prop := exec (.phaseComplete d.toNat) u = .next t
    let ended (c : Iss) (s t : State) : Prop :=
      t.icountOf c.slot = s.icountOf c.slot + 1 ∧ SameMemory s t ∧
      SameTables [Tab.splits.num, Tab.groups.num, Tab.blocks.num, Tab.icount.num, Tab.notices.num, Tab.teamCnt.num, Tab.tscan.num,
                  Tab.filter.num, Tab.cores.num, Tab.wps.num, Tab.stations.num] s t
    Completes (.rollset sb n d)
      (fun c s => mine c s ∧ w c s / 2 ^ 28 = 0 ∧ w c s / 2 ^ 16 < (s.domain d.toNat).quorum.toNat ∧ w c s % 2 ^ 16 ≠ 0 ∧
        (s.station d.toNat (w c s / 2 ^ 16)).reg = false ∧ s.census d.toNat < (s.domain d.toNat).quorum.toNat)
      (fun c s t =>
        let st := w c s / 2 ^ 16
        let e := w c s % 2 ^ 16
        let x := (s.station d.toNat st).x
        ∃ u, closes u t ∧ u.station d.toNat st = { reg := true, e := e, c := e - min e x, x := x - min e x } ∧ others st s u ∧
          wp c u = some (s.domain d.toNat).phase ∧ MovedTo c (c.sp.pc + 4) s u ∧ SameMemory s u ∧
          SameBut [Tab.splits.num, Tab.wps.num, Tab.stations.num] s u) ∧
    Completes (.rollarv sb n d)
      (fun c s => mine c s ∧ w c s < (s.domain d.toNat).quorum.toNat ∧ (s.domain d.toNat).quorum.toNat ≤ 4096 ∧
        (s.station d.toNat (w c s)).reg = true ∧ 0 < (s.station d.toNat (w c s)).c ∧ s.gate c (some .dev) = .go)
      (fun c s t =>
        let x := s.station d.toNat (w c s)
        ∃ u, closes u t ∧ u.station d.toNat (w c s) = { x with c := x.c - 1 } ∧ others (w c s) s u ∧ wp c u = some (s.domain d.toNat).phase ∧
          MovedTo c (c.sp.pc + 4) s u ∧ ended c s u) ∧
    Completes (.rollwait d)
      (fun c s => mine c s ∧ s.gate c none = .go ∧ (s.core c.core).gen ≠ 0xFFFFFF ∧
        ∃ p, wp c s = some p ∧ 1 ≤ ((s.domain d.toNat).phase - p).toNat ∧ ((s.domain d.toNat).phase - p).toNat < 2 ^ 31)
      (fun c s t => wp c t = none ∧ MovedTo c (c.sp.pc + 4) s t ∧ ended c s t ∧ (t.core c.core).gen = (s.core c.core).gen + 1) ∧
    Completes (.rollwait d)
      (fun c s => mine c s ∧ ∃ p, wp c s = some p ∧ (s.domain d.toNat).phase = p)
      (fun c s t => SplitIs c { c.sp with wait := .roll d.toNat (s.domain d.toNat).phase } s t ∧ SameBut [Tab.splits.num] s t ∧ SameMemory s t)

/-- R340, R341, R345: an arrival from elsewhere is counted at its station, which may complete the phase; a phase whose stations are all at zero completes, and every station reloads; a
member's message is kept until its phase. -/
def Obligations.Phases : Prop :=
  ∀ (d m dev : Nat) (phase : BitVec 32), m < 4096 →
    Occurs (.rollCallArrival d m)
      (fun s => (s.domain d).en = true ∧ m < (s.domain d).quorum.toNat ∧ (s.station d m).reg = true ∧ 0 < (s.station d m).c)
      (fun s t => ∃ u, exec (.phaseComplete d) u = .next t ∧
        (∀ e n, n < 4096 → u.station e n = if e = d ∧ n = m then { s.station d m with c := (s.station d m).c - 1 } else s.station e n) ∧
        SameBut [Tab.stations.num] s u ∧ SameMemory s u) ∧
    Occurs (.phaseComplete d)
      (fun s => Tab.stations.wf s.stations ∧ (s.domain d).en = true ∧ (s.domain d).span = false ∧ (s.domain d).sentAt = none ∧
        s.census d = (s.domain d).quorum.toNat ∧ ∀ n, n < 4096 → (s.station d n).reg = true → (s.station d n).c = 0)
      (fun s t => (t.domain d).phase = (s.domain d).phase + 1 ∧
        (∀ n, n < 4096 → t.station d n =
          let x := s.station d n
          if x.reg = true then { x with c := x.e - min x.e x.x, x := x.x - min x.e x.x } else x) ∧
        (∀ e, e ≠ d → t.domain e = s.domain e ∧ ∀ n, n < 4096 → t.station e n = s.station e n) ∧
        SameTables [Tab.domains.num, Tab.stations.num] s t ∧ SameMemory s t) ∧
    Occurs (.phaseMessage d dev phase)
      (fun s => (s.domain d).en = true ∧ (s.domain d).span = true ∧ (s.domain d).member dev = true ∧ (dev, phase) ∉ (s.domain d).got)
      (fun s t => (∀ e, t.domain e = if e = d then { s.domain d with got := (s.domain d).got ++ [(dev, phase)] } else s.domain e) ∧
        SameTables [Tab.domains.num] s t ∧ SameMemory s t)

/-! ## Memory accesses -/

/-- R96 to R98: what a buffer record makes of an index and an immediate: the offset, its bound, and the address, swizzled in mode 1. -/
def Obligations.Placement : Prop :=
  ∀ (w : BitVec 128) (index : BitVec 32) (imm : Int) (size : Nat),
    let b := Buf.of w
    let o : Int := index.toInt * 2 ^ b.esz + imm
    b.valid = true →
      b.offset index imm = o ∧
      (b.mode = 0 → 0 ≤ o → o + size ≤ b.extent → 0 < size → b.place o size = (false, b.base + o.toNat)) ∧
      (o < 0 ∨ (b.extent : Int) < o + size → (b.place o size).1 = true) ∧
      (b.mode = 1 → 0 ≤ o → 16 < o.toNat % 16 + size → (b.place o size).1 = true) ∧
      (b.mode = 1 → 0 ≤ o → o + size ≤ b.extent → 0 < size → o.toNat % 16 + size ≤ 16 →
        (b.place o size).1 = false ∧
        ((b.place o size).2 = (b.base + (o.toNat ^^^ (o.toNat / 2 ^ b.pitch % 2 ^ b.bits * 2 ^ (4 + b.unit)))) % 2 ^ 57))

/-- R40, R44, R156: LD, ST, ATOM, SLD, SST and BREC issue: their lanes, addresses and data are captured in an operation in flight, and the split goes on,
with a producer when there is a destination. -/
def Obligations.MemoryIssue : Prop :=
  let flying (i : Instr) (o : Op) (c : Iss) (s t : State) : Prop :=
    (∃ x, Tab.ops.at s.dev.nextId t = some x ∧ x.instr = i ∧ x.gid = c.gid ∧ x.split = c.n ∧ x.lanes = o.lanes ∧ x.dest = o.dest ∧ x.path = o.path ∧
      x.exec = o.exec ∧ x.pc = c.sp.pc) ∧
    (t.block? c.bid).map (·.seq) = some ((c.blk.seq + 1) % 2 ^ 32) ∧ (∀ pa, t.homeByte pa = s.homeByte pa)
  let next (c : Iss) (la : BitVec 4) (dest : Bool) (s : State) : Split :=
    { c.past s with outs := if dest then (c.past s).outs ++ [{ op := s.dev.nextId, rem := if la = 15 then none else some la.toNat }]
                            else (c.past s).outs }
  let known (c : Iss) (s : State) : Prop := ∀ o ∈ c.sp.outs, o.op < s.dev.nextId
  let lane (i : Instr) (f : MForm) (atomic write : Bool) : Prop := ∀ o : Op,
    Completes i
      (fun c s => c.check s (laneNames i) [] = .pass ∧ s.counter c.gid (if write && (!atomic || f.vd == 255) then 1 else 0) < 63 ∧
        c.execMask s f.head ≠ 0 ∧ memFront c s i f atomic write false = .start o [] ∧ s.before o = none ∧ f.cls ≠ .sync ∧ known c s)
      fun c s t => flying i o c s t ∧ SplitIs c (next c f.head.la o.dest.isSome s) s t
  let uniform (i : Instr) (m : UMem) (v : Iss → State → Nat) (path : Option Nat) (reads : Bool) : Prop := ∀ o : Op,
    Completes i
      (fun c s => (path = none ∨ s.counter c.gid 1 < 63) ∧ uniFront c s i m (v c s) path = .start o [] ∧ s.before o = none ∧ known c s)
      fun c s t => flying i o c s t ∧ SplitIs c (next c 0 reads s) s t
  (∀ f, lane (.ld f) f false false) ∧ (∀ f, lane (.st f) f false true) ∧ (∀ f, lane (.atom f) f true true) ∧
  (∀ sb d m, uniform (.sld sb d m) m (fun _ _ => 0) none true) ∧
  (∀ sb d m, uniform (.sst sb d m) m (fun c s => (s.sreg c.gid d.toNat).toNat) (some 1) false) ∧
  (∀ sb d m, uniform (.brec sb d m) m (fun _ _ => 0) none true)

/-- R156: what the front of LD, ST and ATOM finds when every executing lane is in bounds: the operation's lanes are the executing lanes in order, each at
its placed address with its data. -/
def Obligations.MemoryLanes : Prop :=
  ∀ (f : MForm) (c : Iss) (s : State) (atomic write : Bool),
    let i : Instr := if atomic then .atom f else if write then .st f else .ld f
    let b := Buf.of (s.breg c.gid f.buf.toNat)
    let idx (l : Nat) : BitVec 32 := if f.uidx then s.sreg c.gid f.va.toNat else s.vreg c.gid f.va.toNat l
    let at_ (l : Nat) : Bool × Nat := b.place (b.offset (idx l) f.off.toInt) f.size.bytes
    b.valid = true → (write = true → b.ro = false) → (atomic = true → write = true) → f.aop ≠ 1 →
    (∀ l ∈ c.execLanes s f.head, (at_ l).1 = false ∧ (f.cls = .data ∨ f.cls = .peek ∨ (at_ l).2 % f.size.bytes = 0)) →
    ∃ o, memFront c s i f atomic write false = .start o [] ∧
      o.lanes.map (·.lane) = c.execLanes s f.head ∧
      (∀ x ∈ o.lanes, x.va = (at_ x.lane).2 ∧ x.b = s.vwide c.gid f.vb.toNat x.lane (max 1 (f.size.bytes / 4)) ∧
        (x.c = if atomic = true ∧ f.aop = 9 then s.vwide c.gid f.vc.toNat x.lane (max 1 (f.size.bytes / 4)) else 0)) ∧
      o.dest = (if write = true ∧ (atomic = false ∨ f.vd = 255) then none else some (f.vd.toNat, max 1 (f.size.bytes / 4)))

/-- R76, R153, R158, R159, R162, R179: what the responses do. A load writes its lanes' registers with what its group reads, in two parts when a lane
crosses a sector boundary: the first keeps what it reads, and the second adds the rest; a DATA store in a line that the L1
holds goes there as valid dirty bytes, and memory at home is as before; an atomic changes its bytes at home and returns what was there. -/
def Obligations.MemoryResponses : Prop :=
  ∀ (id : Nat) (o : Op),
    let answered (s : State) : Prop :=
      Tab.ops.at id s = some o ∧ o.phase = .responding ∧ o.parkedLanes = 0 ∧ consumesPoison s o = false ∧ o.dropped s = false ∧ o.heldUp s = false ∧
      (∀ x ∈ o.secs, x.ans = .ack ∨ x.ans = .none) ∧ (∀ e ∈ o.lines, ∀ l, e.2 = .ok l → o.lineFault s l = none) ∧
      (∀ l, s.launchOf o.gid = some l → l.journals = false)
    let core := coreOf o.gid
    let still (s : State) : Prop := o.uncached = true ∨ ∀ sec ∈ o.passSecs, o.hits s sec = true
    let fits (f : MForm) (s : State) : Prop :=
      f.cls = .data ∧ still s ∧ (∀ l ∈ o.passLanes, l.lane < 64) ∧ f.vd.toNat + max 1 (f.size.bytes / 4) ≤ 256 ∧
      (o.passLanes.map (·.lane)).Nodup ∧ (∀ e ∈ o.lines, ∀ l, e.2 = .ok l → isHomed (l * 128) = true)
    let loaded (f : MForm) (v : LaneAcc → Nat) (s t : State) : Prop :=
      (∀ l ∈ o.passLanes, ∀ r ∈ loadRegs o l.lane (v l), t.vreg o.gid r.reg r.lane = r.val) ∧
      (∀ g r l, r < 256 → l < 64 → ¬ (g = o.gid ∧ f.vd.toNat ≤ r ∧ r < f.vd.toNat + max 1 (f.size.bytes / 4) ∧ l ∈ o.passLanes.map (·.lane)) →
        t.vreg g r l = s.vreg g r l) ∧
      SameMemory s t
    (∀ (f : MForm), o.instr = .ld f → Occurs (.loadResponse id)
      (fun s => answered s ∧ fits f s ∧ o.prog = 0 ∧ o.crosses = false) fun s t => loaded f (laneValue (o.reads s) o) s t) ∧
    (∀ (f : MForm), o.instr = .ld f → Occurs (.loadResponse id) (fun s => answered s ∧ fits f s ∧ o.prog = 0 ∧ o.crosses = true)
      fun s t => (∃ x, Tab.ops.at id t = some x ∧ x = { o with prog := 1, lanes := o.lanes.map fun l =>
          { l with c := laneValue (fun sec => if sec % 2 = 0 then o.reads s sec else 0) o l } }) ∧
        t.dev.due = s.dev.due ++ [o.answer id] ∧ t.vregs = s.vregs ∧ SameMemory s t) ∧
    (∀ (f : MForm), o.instr = .ld f → Occurs (.loadResponse id) (fun s => answered s ∧ fits f s ∧ o.prog ≠ 0)
      fun s t => loaded f (fun l => l.c + laneValue (fun sec => if sec % 2 = 1 then o.reads s sec else 0) o l) s t) ∧
    (∀ (sb : Bool) (d : BitVec 6) (m : UMem) (l : LaneAcc) (line sec : Nat), o.instr = .sld sb d m → Occurs (.loadResponse id)
      (fun s => answered s ∧ o.passLanes = [l] ∧ o.lines = [(l.va / 128, .ok line)] ∧ sec = line * 4 + l.va / 32 % 4 ∧ l.va % 32 + 4 ≤ 32 ∧
        isHomed (sec * 32) = true ∧ still s ∧ o.prog = 0)
      fun s t =>
        (∀ g r, r < 64 → t.sreg g r = if g = o.gid ∧ r = d.toNat ∧ r ≠ 63
          then BitVec.ofNat 32 ((o.reads s sec).toNat / 2 ^ (8 * (l.va % 32))) else s.sreg g r) ∧ SameMemory s t) ∧
    (∀ (f : MForm) (l : LaneAcc) (line sec : Nat) (x : L1Line), o.instr = .st f → Occurs (.writeIntentAnswer id)
      (fun s => answered s ∧ f.cls = .data ∧ o.uncached = false ∧ o.prog = 0 ∧ o.passLanes = [l] ∧ o.lines = [(l.va / 128, .ok line)] ∧ o.secs = [] ∧
        sec = line * 4 + l.va / 32 % 4 ∧ l.va % 32 + f.size.bytes ≤ 32 ∧ isHomed (sec * 32) = true ∧ s.l1At core sec = some x)
      fun s t =>
        (∃ y, t.l1At core sec = some y ∧
          let m := byteMask (l.va % 32) f.size.bytes
          let old := x.sec (sec % 4)
          let new := y.sec (sec % 4)
          new.valid = old.valid ||| m ∧ new.dirty = old.dirty ||| m ∧
          new.data = mergeBytes m old.data (BitVec.ofNat 256 (l.b % 2 ^ (8 * f.size.bytes) * 256 ^ (l.va % 32))) ∧
          ∀ k, k < 4 → k ≠ sec % 4 → y.sec k = x.sec k) ∧
        SameAt .l1 (· = lineKey core (sec / 4)) s t ∧ (∀ pa, t.homeByte pa = s.homeByte pa)) ∧
    (∀ (f : MForm) (l : LaneAcc) (line sec : Nat), o.instr = .atom f → Occurs (.atomicResponse id)
      (fun s => answered s ∧ f.cls ≠ .sync ∧ o.fixed = false ∧ o.passLanes = [l] ∧ o.lines = [(l.va / 128, .ok line)] ∧ o.secs = [] ∧
        sec = line * 4 + l.va / 32 % 4 ∧ l.va % 32 + f.size.bytes ≤ 32 ∧ o.bytes = f.size.bytes ∧ isHomed (sec * 32) = true ∧ 0 < f.size.bytes ∧
        s.l1At core sec = none ∧ s.wbs = [])
      fun s t =>
        let old := (s.sectorAt sec).toNat / 2 ^ (8 * (l.va % 32)) % 2 ^ (8 * f.size.bytes)
        let new := (atomicNew f.aop.toNat f.vc.toNat (8 * f.size.bytes) old l.b l.c).1
        t.sectorAt sec = mergeBytes (byteMask (l.va % 32) f.size.bytes) (s.sectorAt sec)
          (BitVec.ofNat 256 (new % 2 ^ (8 * f.size.bytes) * 256 ^ (l.va % 32))) ∧
        (∀ k, k ≠ sec → t.sectorAt k = s.sectorAt k) ∧
        (f.vd ≠ 255 → f.size = .b32 → l.lane < 64 → t.vreg o.gid f.vd.toNat l.lane = BitVec.ofNat 32 old))

/-- R115 to R117, R160: BRECL makes a buffer record of four uniform registers, BRECX moves a record's base on and shortens it, and PREF leaves registers and
memory as they are. -/
def Obligations.BufferRecords : Prop :=
  let wroteB (c : Iss) (d : BitVec 4) (v : BitVec 128) (s t : State) : Prop :=
    (∀ g b, b < 16 → t.breg g b = if g = c.gid ∧ b = d.toNat then v else s.breg g b) ∧ MovedTo c (c.sp.pc + 4) s t ∧
    SameBut [Tab.splits.num, Tab.bregs.num] s t ∧ SameMemory s t
  (∀ (sb : Bool) (d : BitVec 4) (a : BitVec 6), Completes (.brecl sb d a) (fun _ _ => True) fun c s t =>
    wroteB c d (s.sreg c.gid (a.toNat + 3) ++ s.sreg c.gid (a.toNat + 2) ++ s.sreg c.gid (a.toNat + 1) ++ s.sreg c.gid a.toNat) s t) ∧
  (∀ (sb : Bool) (d : BitVec 4) (m : UMem),
    let w (c : Iss) (s : State) : BitVec 128 := s.breg c.gid m.buf.toNat
    let by_ (c : Iss) (s : State) : Nat := (s.sreg c.gid m.sa.toNat).toNat * 2 ^ (Buf.of (w c s)).esz + 4 * m.off.toNat
    Completes (.brecx sb d m)
      (fun c s => by_ c s ≤ (Buf.of (w c s)).extent ∧ ((Buf.of (w c s)).mode = 1 → by_ c s % 2 ^ (Buf.of (w c s)).pitch = 0))
      (fun c s t => ∃ v, wroteB c d v s t ∧ (Buf.of v).base = ((Buf.of (w c s)).base + by_ c s) % 2 ^ 57 ∧
        (Buf.of v).extent = (Buf.of (w c s)).extent - by_ c s ∧
        v.toNat / 2 ^ 57 % 2 ^ 7 = (w c s).toNat / 2 ^ 57 % 2 ^ 7 ∧ v.toNat / 2 ^ 104 = (w c s).toNat / 2 ^ 104)) ∧
  (∀ f : MForm, Completes (.pref f) (fun c s => c.check s (laneNames (.pref f)) [] = .pass ∧ (Buf.of (s.breg c.gid f.buf.toNat)).valid = true)
    fun c s t => MovedTo c (c.sp.pc + 12) s t ∧ (∀ pa, t.homeByte pa = s.homeByte pa) ∧
      SameTables [Tab.splits.num, Tab.l2.num, Tab.l1.num, Tab.wbs.num, Tab.gways.num] s t)

/-! ## Lane instructions -/

/-- R204, R206, R209, R210: what VADD, VSUB, VMUL, VMULH, VMAD, VSHL, VSHR, VMIN, VMAX and VABS make of each element, every other register and all of
memory as before.
And R207: VADDC adds or subtracts with a carry or borrow from one predicate into another. -/
def Obligations.LaneArithmetic : Prop :=
  (∀ f : IForm,
      let w := f.ty.width
      let count (b : Int) : Nat := (b % 2 ^ w).toNat
      Elements (.vadd f) f (fun a b _ k => a k + b k) ∧
      Elements (.vsub f) f (fun a b _ k => a k - b k) ∧
      Elements (.vmul f) f (fun a b _ k => a k * b k) ∧
      Elements (.vmulh f) f (fun a b _ k => a k * b k / 2 ^ w) ∧
      Elements (.vmad f) f (fun a b c k => a k * b k + c k) ∧
      Elements (.vshl f) f (fun a b _ k => a k * 2 ^ count (b k)) ∧
      (f.ops = 0 → Elements (.vshr f) f (fun a b _ k => a k / 2 ^ count (b k))) ∧
      (f.ops = 1 → Elements (.vshr f) f (fun a b _ k => if 0 < count (b k) then (a k + 2 ^ (count (b k) - 1)) / 2 ^ count (b k) else a k)) ∧
      Elements (.vmin f) f (fun a b _ k => min (a k) (b k)) ∧
      Elements (.vmax f) f (fun a b _ k => max (a k) (b k)) ∧
      Elements (.vabs f) f (fun a _ _ k => (a k).natAbs)) ∧
  (∀ f : IForm,
      let sum (c : Iss) (s : State) (l : Nat) : Int :=
        let a : Int := s.lane c.gid l f.ty.is64 f.va
        let b : Int := srcI s c.gid l f.ty f.vbs f.vb f.x32
        let ci : Int := if f.ops.getLsbD 4 = true ∧ (s.preg c.gid (f.ops.toNat % 8)).getLsbD l = true then 1 else 0
        if f.ops.getLsbD 3 = true then a - b - ci else a + b + ci
      let w : Nat := if f.ty.is64 then 64 else 32
      Completes (.vaddc f) (fun c s => c.may (.vaddc f) s) fun c s t =>
        WroteV c.gid f.ty.is64 f.vd (c.execLanes s f.head) (fun l => wrap w (sum c s l)) s t ∧
        WroteP c f.head f.vc.toNat (fun l => if f.ops.getLsbD 3 = true then sum c s l < 0 else 2 ^ w ≤ sum c s l) s t ∧
        MovedTo c (c.sp.pc + 12) s t ∧ SameBut [Tab.splits.num, Tab.vregs.num, Tab.pregs.num] s t ∧ SameMemory s t)

/-- R208, R209, R211, R212, R214, R463: the bits that VAND, VOR, VXOR, VFSH, VPOPC, VCLZ, VBREV, VBFE, VBFI, VLUT3, VLUT4, VSEL and VMOV make. -/
def Obligations.LaneBits : Prop :=
  ∀ f : IForm,
    let w := f.ty.width
    let wide := f.ty.is64
    let a (c : Iss) (s : State) (l : Nat) : Nat := s.lane c.gid l wide f.va
    let b (c : Iss) (s : State) (l : Nat) : Nat := srcI s c.gid l f.ty f.vbs f.vb f.x32
    let d (c : Iss) (s : State) (l : Nat) : Nat := srcI s c.gid l f.ty f.vcs f.vc f.x32
    let na := f.ops.getLsbD 0
    let nb := f.ops.getLsbD 1
    let table (c : Iss) (s : State) (l : Nat) : Nat := if f.ops = 1 then (s.vreg c.gid (f.x32.toNat % 256) l).toNat else f.x32.toNat
    let pos (x : Nat) : Nat := x % 256
    let len (x : Nat) : Nat := x / 256 % 256
    let n2 (v : Bool) : Nat := if v then 1 else 0
    Bits (.vand f) f (fun c s l n => ((a c s l).testBit n != na) && ((b c s l).testBit n != nb)) ∧
    Bits (.vor f) f (fun c s l n => ((a c s l).testBit n != na) || ((b c s l).testBit n != nb)) ∧
    Bits (.vxor f) f (fun c s l n => ((a c s l).testBit n != na) != ((b c s l).testBit n != nb)) ∧
    Bits (.vfsh f) f (fun c s l n =>
      let k := d c s l % 32
      let y := b c s l * 2 ^ 32 + a c s l
      if f.ops = 0 then y.testBit (n + k) else decide (k ≤ n + 32) && y.testBit (n + 32 - k)) ∧
    Patterns (.vpopc f) f (fun x r => r = ((List.range w).filter x.testBit).length) ∧
    Patterns (.vclz f) f (fun x r => if x = 0 then r = w else r < w ∧ x / 2 ^ (w - 1 - r) = 1) ∧
    Patterns (.vbrev f) f (fun x r => ∀ n, n < w → r.testBit n = x.testBit (w - 1 - n)) ∧
    Bits (.vbfe f) f (fun c s l n =>
      let sp := b c s l
      let m := min (len sp) w
      let up (j : Nat) : Bool := if j < w then (a c s l).testBit j else f.ty.signed && (a c s l).testBit (w - 1)
      decide (m ≠ 0) && (if n < m then up (pos sp + n) else f.ty.signed && up (pos sp + m - 1))) ∧
    Bits (.vbfi f) f (fun c s l n =>
      let sp := d c s l
      if pos sp ≤ n ∧ n < pos sp + len sp then (a c s l).testBit (n - pos sp) else (b c s l).testBit n) ∧
    Bits (.vlut3 f) f (fun c s l n =>
      (table c s l).testBit (4 * n2 ((a c s l).testBit n) + 2 * n2 ((b c s l).testBit n) + n2 ((d c s l).testBit n))) ∧
    Bits (.vlut4 f) f (fun c s l n =>
      (table c s l).testBit (8 * n2 ((a c s l).testBit n) + 4 * n2 ((b c s l).testBit n) + 2 * n2 ((d c s l).testBit n) +
        n2 ((s.vreg c.gid f.vd.toNat l).getLsbD n))) ∧
    LaneResult (.vsel f) f.head wide f.vd (fun c s l => if (s.preg c.gid f.vc.toNat).getLsbD l = true then a c s l else b c s l) ∧
    LaneResult (.vmov f) f.head wide f.vd b

/-- R213, R215 to R217: the bytes of VPRM, the dot product of VDOT4, the conversions of VCVTI and the values of VLANE. -/
def Obligations.LaneValues : Prop :=
  ∀ f : IForm,
    let wide := f.ty.is64
    let a (c : Iss) (s : State) (l : Nat) : Nat := s.lane c.gid l wide f.va
    let b (c : Iss) (s : State) (l : Nat) : Nat := srcI s c.gid l f.ty f.vbs f.vb f.x32
    let d (c : Iss) (s : State) (l : Nat) : Nat := (src32 s c.gid l f.vcs f.vc f.x32).toNat
    let dst := ITy.ofCode (f.ops.toNat % 8)
    let hi : Nat := f.ops.toNat / 8 % 2
    let fits (t : ITy) (x : Int) (r : Nat) : Prop := (r : Int) = (if f.sat then max (minOf t) (min (maxOf t) x) else x) % 2 ^ t.width
    let converts (q : Prop) (x : Iss → State → Nat → Nat → Int) : Prop := q →
      LaneDone (.vcvti f) f.head dst.is64 f.vd fun c s l v =>
        v < 2 ^ (dst.width * dst.count) ∧ ∀ k, k < dst.count → fits dst (x c s l k) (v / 2 ^ (dst.width * k) % 2 ^ dst.width)
    LaneDone (.vprm f) f.head false f.vd (fun c s l v =>
      v < 2 ^ 32 ∧ ∀ k, k < 4 →
        let sel := d c s l / 16 ^ k % 16
        let y := (b c s l * 2 ^ 32 + a c s l) / 256 ^ (sel % 8) % 256
        v / 256 ^ k % 256 = if sel < 8 then y else if y < 128 then 0 else 0xFF) ∧
    LaneDone (.vdot4 f) f.head false f.vd (fun c s l v =>
      let tb : ITy := if f.ops = 1 then (if f.ty.count = 2 then .n16x2 else .n8x4) else f.ty
      let t32 : ITy := if f.ty.signed then .i32 else .n32
      let z : Int := if f.ty.signed then sext 32 (d c s l) else d c s l
      fits t32 (z + ((List.range f.ty.count).map fun k => el f.ty (a c s l) k * el tb (b c s l) k).sum) v) ∧
    converts (f.ty.count = dst.count) (fun c s l k => el f.ty (a c s l) k) ∧
    converts (f.ty.count < dst.count) (fun c s l k => if k < f.ty.count then el f.ty (a c s l) k else el f.ty (b c s l) (k - f.ty.count)) ∧
    converts (dst.count < f.ty.count) (fun c s l k => el f.ty (a c s l) (dst.count * hi + k)) ∧
    (f.ops = 0 → LaneResult (.vlane f) f.head wide f.vd fun _ _ l => l) ∧
    (f.ops = 1 → LaneResult (.vlane f) f.head wide f.vd fun _ _ l => 2 ^ l - 1) ∧
    (f.ops = 2 → LaneResult (.vlane f) f.head wide f.vd fun c s l => ((List.range l).filter (c.execMask s f.head).getLsbD).length) ∧
    (f.ops = 3 → LaneResult (.vlane f) f.head wide f.vd fun c s _ => (c.execMask s f.head).toNat)

/-- R205, R218, R223: VCMP, PLOG and VVOTE write the executing lanes of a predicate, VVOTE.q a uniform predicate; with no participating lane VVOTE writes
nothing. -/
def Obligations.LanePredicates : Prop :=
  ∀ f : IForm,
    let writes (i : Instr) (val : Iss → State → Nat → Prop) : Prop :=
      Completes i (fun c s => c.may i s) fun c s t =>
        WroteP c f.head f.vd.toNat (val c s) s t ∧ MovedTo c (c.sp.pc + 12) s t ∧ SameBut [Tab.splits.num, Tab.pregs.num] s t ∧ SameMemory s t
    let a (c : Iss) (s : State) (l : Nat) : Int := el f.ty (s.lane c.gid l f.ty.is64 f.va) 0
    let b (c : Iss) (s : State) (l : Nat) : Int := el f.ty (srcI s c.gid l f.ty f.vbs f.vb f.x32) 0
    let p (c : Iss) (s : State) (r : BitVec 8) (l : Nat) : Bool := (s.preg c.gid r.toNat).getLsbD l
    let when (n : Nat) (k : Iss → State → Nat → Prop) : Prop := f.ops.toNat % 8 = n →
      (f.ops.toNat / 8 = 0 → writes (.vcmp f) k) ∧
      (f.ops.toNat / 8 = 1 → writes (.vcmp f) fun c s l => p c s f.vd l = true ∧ k c s l) ∧
      (f.ops.toNat / 8 = 2 → writes (.vcmp f) fun c s l => p c s f.vd l = true ∨ k c s l)
    let m (c : Iss) (s : State) (l : Nat) : Prop := (c.execMask s f.head).getLsbD l = true
    let vote (c : Iss) (s : State) : Prop :=
      let all := ∀ l, l < 64 → m c s l → p c s f.va l = true
      let any := ∃ l, l < 64 ∧ m c s l ∧ p c s f.va l = true
      if f.ops.toNat % 4 = 0 then all else if f.ops.toNat % 4 = 1 then any else all ∨ ¬ any
    when 0 (fun c s l => a c s l = b c s l) ∧ when 1 (fun c s l => a c s l ≠ b c s l) ∧ when 2 (fun c s l => a c s l < b c s l) ∧
    when 3 (fun c s l => a c s l ≤ b c s l) ∧ when 4 (fun c s l => a c s l > b c s l) ∧ when 5 (fun c s l => a c s l ≥ b c s l) ∧
    writes (.plog f) (fun c s l => f.ops.toNat.testBit (2 * (p c s f.va l).toNat + (p c s f.vb l).toNat) = true) ∧
    (f.ops.toNat / 16 = 0 → writes (.vvote f) fun c s _ => vote c s) ∧
    (f.ops.toNat / 16 = 1 → Completes (.vvote f) (fun c s => c.may (.vvote f) s ∧ c.execMask s f.head ≠ 0) fun c s t =>
      (∀ v, (v = true ↔ vote c s) → WroteQ c f.vd.toNat v s t) ∧ MovedTo c (c.sp.pc + 12) s t ∧
      SameBut [Tab.splits.num, Tab.groups.num] s t ∧ SameMemory s t) ∧
    Completes (.vvote f) (fun c s => c.may (.vvote f) s ∧ c.execMask s f.head = 0) (JumpResult fun c _ => c.sp.pc + 12)

/-- R219 to R222, R225: VSHFL, VBALLOT, VMATCH, VBCAST and VFIRST give every participating lane, or a uniform register, its value. -/
def Obligations.LaneExchange : Prop :=
  ∀ f : IForm,
    let wide := f.ty.is64
    let a (c : Iss) (s : State) (l : Nat) : Nat := s.lane c.gid l wide f.va
    let m (c : Iss) (s : State) (l : Nat) : Prop := (c.execMask s f.head).getLsbD l = true
    let arg (c : Iss) (s : State) (l : Nat) : Nat := (src32 s c.gid l f.vbs f.vb f.x32).toNat
    let half (x : BitVec 64) : Nat := if wide then x.toNat else if f.ops = 1 then x.toNat / 2 ^ 32 else x.toNat % 2 ^ 32
    let seg (c : Iss) : Nat := if f.ops.toNat / 4 = 0 then c.lau.width else 2 ^ (f.ops.toNat / 4)
    let reads (c : Iss) (s : State) (l j : Nat) : Prop :=
      j / seg c = l / seg c ∧ m c s j ∧
        (if f.ops.toNat % 4 = 0 then j % seg c = arg c s l % seg c else if f.ops.toNat % 4 = 1 then j + arg c s l = l
         else if f.ops.toNat % 4 = 2 then j = l + arg c s l else j % seg c = l % seg c ^^^ arg c s l)
    let first (c : Iss) (s : State) (v : Nat) : Prop :=
      let it (l : Nat) : Prop := l ∈ c.execLanes s f.head ∧ (s.preg c.gid f.va.toNat).getLsbD l = true
      (v = 0xFFFFFFFF ∧ ∀ l, ¬ it l) ∨ (it v ∧ ∀ l, it l → if f.ops.getLsbD 0 = true then l ≤ v else v ≤ l)
    let bcast (c : Iss) (s : State) (v : Nat) : Prop :=
      let j := arg c s 0
      (j < c.lau.width ∧ m c s j ∧ v = a c s j) ∨ (¬ (j < c.lau.width ∧ m c s j) ∧ v = 0)
    let uniform (i : Instr) (w : Bool) (p : Iss → State → Nat → Prop) : Prop :=
      Completes i (fun c s => c.may i s ∧ c.execMask s f.head ≠ 0) (fun c s t =>
        ∃ v, p c s v ∧ UniformResult w (f.vd.setWidth 6) (fun _ _ => v) c s t) ∧
      Completes i (fun c s => c.may i s ∧ c.execMask s f.head = 0) (JumpResult fun c _ => c.sp.pc + 12)
    Completes (.vshfl f) (fun c s => c.may (.vshfl f) s ∧ seg c ≤ c.lau.width) (fun c s t =>
      ∃ src : Nat → Option Nat,
        (∀ l ∈ c.execLanes s f.head, match src l with | some j => reads c s l j | none => ∀ j, ¬ reads c s l j) ∧
        WroteV c.gid wide f.vd (c.execLanes s f.head) (fun l => a c s ((src l).getD l)) s t ∧
        WroteP c f.head f.vc.toNat (fun l => (src l).isSome = true) s t ∧
        MovedTo c (c.sp.pc + 12) s t ∧ SameBut [Tab.splits.num, Tab.vregs.num, Tab.pregs.num] s t ∧ SameMemory s t) ∧
    LaneResult (.vballot f) f.head wide f.vd (fun c s _ => half (c.execMask s f.head &&& s.preg c.gid f.va.toNat)) ∧
    LaneDone (.vmatch f) f.head wide f.vd (fun c s l v =>
      ∃ x : BitVec 64, (∀ n, n < 64 → (x.getLsbD n = true ↔ n ∈ c.execLanes s f.head ∧ a c s n = a c s l)) ∧ v = half x) ∧
    (f.ops = 0 → LaneDone (.vbcast f) f.head wide f.vd fun c s _ v => bcast c s v) ∧
    (f.ops = 1 → uniform (.vbcast f) wide bcast) ∧
    (f.ops.getLsbD 4 = false → LaneDone (.vfirst f) f.head false f.vd fun c s _ v => first c s v) ∧
    (f.ops.getLsbD 4 = true → uniform (.vfirst f) false first)

/-- R40, R224: VREDUX and VSCAN start a producer that holds, for every participating lane, what the fold of its segment gives. -/
def Obligations.Folds : Prop :=
  ∀ f : IForm,
    let wide := f.ty.is64
    let w := f.ty.width
    let o := f.ops.toNat % 8
    let a (c : Iss) (s : State) (l : Nat) : Nat := s.lane c.gid l wide f.va
    let rseg (c : Iss) : Nat := if f.ops.toNat / 8 = 0 then c.lau.width else 4 * 2 ^ (f.ops.toNat / 8)
    let sseg (c : Iss) : Nat := if f.ops.getLsbD 4 = true then 8 else c.lau.width
    let folds (i : Instr) (seg : Iss → Nat) (p : Iss → State → Nat → Nat → Prop) : Prop :=
      Completes i (fun c s => c.may i s ∧ seg c ≤ c.lau.width ∧ c.execMask s f.head ≠ 0) (Produces f.head fun c s x =>
        x.dest = some (f.vd.toNat, if wide then 2 else 1) ∧ x.flags = 0 ∧
        ∃ val : Nat → Nat, (∀ l ∈ c.execLanes s f.head, p c s l (val l)) ∧
          ∀ r, r ∈ x.results ↔ ∃ l ∈ c.execLanes s f.head,
            r = { reg := f.vd.toNat, lane := l, val := BitVec.ofNat 32 (val l) } ∨
            (wide = true ∧ r = { reg := f.vd.toNat + 1, lane := l, val := BitVec.ofNat 32 (val l / 2 ^ 32) }))
    folds (.vredux f) rseg (fun c s l v =>
      let mine := (c.execLanes s f.head).filter fun x => x / rseg c = l / rseg c
      let sum : Int := (mine.map fun x => el f.ty (a c s x) 0).sum
      (o = 0 → (v : Int) = (if f.sat then max (minOf f.ty) (min (maxOf f.ty) sum) else sum) % 2 ^ w) ∧
      (o = 1 → ∃ x ∈ mine, v = a c s x ∧ ∀ y ∈ mine, el f.ty v 0 ≤ el f.ty (a c s y) 0) ∧
      (o = 2 → ∃ x ∈ mine, v = a c s x ∧ ∀ y ∈ mine, el f.ty (a c s y) 0 ≤ el f.ty v 0) ∧
      (o = 3 → ∀ n, n < w → (v.testBit n = true ↔ ∀ y ∈ mine, (a c s y).testBit n = true)) ∧
      (o = 4 → ∀ n, n < w → (v.testBit n = true ↔ ∃ y ∈ mine, (a c s y).testBit n = true)) ∧
      (o = 5 → ∀ n, n < w → (v.testBit n = true ↔ (mine.filter fun y => (a c s y).testBit n).length % 2 = 1))) ∧
    folds (.vscan f) sseg (fun c s l v =>
      let before := (c.execLanes s f.head).filter fun x => x / sseg c = l / sseg c && (x < l || (!f.ops.getLsbD 3 && x = l))
      let unit : Nat := if o = 1 then (maxOf f.ty % 2 ^ w).toNat else if o = 2 then (minOf f.ty % 2 ^ w).toNat else if o = 3 then 2 ^ w - 1 else 0
      v = (before.map (a c s)).foldl (foldStep f.ty f.sat o) unit)

/-- R40, R43, R245: a producer that completes writes its results in the lanes that it holds and ORs its flags into FFLAGS, and is over. -/
def Obligations.ProducersComplete : Prop :=
  ∀ (id : Nat) (o : Op), Occurs (.producerComplete id)
    (fun s => Tab.ops.at id s = some o ∧ isTileOp o.instr = false ∧ o.phase = .running ∧ o.prog = 0 ∧
      (o.path = none → o.fmt.getLsbD 23 = true → o.flags.getLsbD 0 = false) ∧
      (∀ r ∈ o.results, r.reg < 256 ∧ r.lane < 64) ∧ (o.results.map fun r => (r.reg, r.lane)).Nodup)
    fun s t =>
      (∀ r ∈ o.results, t.vreg o.gid r.reg r.lane = r.val) ∧
      (∀ g r l, r < 256 → l < 64 → ¬ (g = o.gid ∧ ∃ x ∈ o.results, x.reg = r ∧ x.lane = l) → t.vreg g r l = s.vreg g r l) ∧
      (∀ g, t.group? g = if g = o.gid then (s.group? g).map fun x => { x with flags := x.flags ||| o.flags } else s.group? g) ∧
      (∀ x, Tab.ops.at id t = some x → x.phase = .done) ∧
      (∀ k, k ≠ id → Tab.ops.at k t = Tab.ops.at k s ∨ (Tab.ops.at k t = none ∧ (Tab.ops.at k s).map (·.phase) = some .done)) ∧
      SameBut [Tab.vregs.num, Tab.groups.num, Tab.ops.num] s t ∧ SameMemory s t

/-! ## Float instructions -/

/-- R235: rounding is right. A nonzero number that does not overflow a format rounds, in each mode, to the finite value of the format that the mode asks for,
ties to the even encoding; NX is raised when, and only when, the result is not the number. -/
def Obligations.Rounding : Prop :=
  ∀ f ∈ [fp16, bf16, fp32, fp64], ∀ (md : RMode) (s : Bool) (m : Nat) (e : Int), 0 < m →
    let r := f.finish false md s m e
    r.2.testBit 2 = false →
    ∃ (q : Nat) (u : Int), r.1 < 2 ^ f.bits ∧ f.value r.1 = .fin s q u ∧
      ∀ (w n : Nat) (t : Bool) (k : Int) (z : Nat), w < 2 ^ f.bits → f.value w = .fin t n k → 0 ≤ e + z → 0 ≤ u + z → 0 ≤ k + z →
        let at_ (sg : Bool) (a : Nat) (b : Int) : Int := (if sg then -1 else 1) * (a * 2 ^ (b + z).toNat : Nat)
        let exact := at_ s m e
        let got := at_ s q u
        let other := at_ t n k
        (r.2.testBit 4 = true ↔ got ≠ exact) ∧
        match md with
        | .rne => (got - exact).natAbs ≤ (other - exact).natAbs ∧
            ((other - exact).natAbs = (got - exact).natAbs → other = got ∨ r.1 % 2 = 0)
        | .rz => got.natAbs ≤ exact.natAbs ∧ ((other.natAbs ≤ exact.natAbs) → t = s → other.natAbs ≤ got.natAbs)
        | .rdn => got ≤ exact ∧ (other ≤ exact → other ≤ got)
        | .rup => exact ≤ got ∧ (exact ≤ other → got ≤ other)

/-- R236, R237, R240, R242, R243, R246: FADD, FSUB, FMUL, FFMA, FMIN, FMAX, FRND and FSCALE on each element: operands flushed, made absolute and negated, one
rounding in the instruction's mode, the result clamped where CLAMP is set. -/
def Obligations.FloatArithmetic : Prop :=
  ∀ f : FForm,
    let t := fmtOf f.ty
    let wide := f.ty.is64
    let w := elBits f.ty
    let bits (x k : Nat) : Nat := x / 2 ^ (w * k) % 2 ^ w
    let ra (c : Iss) (s : State) (l k : Nat) : Nat := bits (s.lane c.gid l wide f.va) k
    let rb (c : Iss) (s : State) (l k : Nat) : Nat := bits (srcF s c.gid l f) k
    let a (c : Iss) (s : State) (l k : Nat) : FV := readF t c.sp.fmt.toNat f.negA f.absA (ra c s l k)
    let b (c : Iss) (s : State) (l k : Nat) : FV := readF t c.sp.fmt.toNat f.negB f.absB (rb c s l k)
    let d (c : Iss) (s : State) (l k : Nat) : FV := readF t c.sp.fmt.toNat false false (bits (s.lane c.gid l wide f.vc) k)
    let fo (c : Iss) : Bool := flushOut t c.sp.fmt.toNat
    let md (c : Iss) : RMode := modeOf f.rnd c.sp.fmt.toNat
    let clamped (r : FRes) : FRes := if f.clamp then (clampF t r.1, r.2) else r
    let on (i : Instr) (op : Iss → State → Nat → Nat → FRes) : Prop :=
      FloatDone i f.head wide f.vd f.ty.count w (fun _ _ => True) fun c s l k => some (clamped (op c s l k))
    let plain (n v : Bool) (x : Nat) : Nat :=
      let y := if v then x % 2 ^ (w - 1) else x
      if n then (y + 2 ^ (w - 1)) % 2 ^ w else y
    let mm (max : Bool) (c : Iss) (s : State) (l k : Nat) : FRes :=
      let x := plain f.negA f.absA (ra c s l k)
      let y := plain f.negB f.absB (rb c s l k)
      fpMinMax t max (t.value x) (t.value y) x y
    on (.fadd f) (fun c s l k => fpAdd t (fo c) (md c) (a c s l k) (b c s l k)) ∧
    on (.fsub f) (fun c s l k => fpAdd t (fo c) (md c) (a c s l k) (if (b c s l k).isNan then b c s l k else (b c s l k).neg)) ∧
    on (.fmul f) (fun c s l k => fpMul t (fo c) (md c) (a c s l k) (b c s l k)) ∧
    on (.ffma f) (fun c s l k => fpFma t (fo c) (md c) (a c s l k) (b c s l k) (d c s l k)) ∧
    on (.fmin f) (mm false) ∧ on (.fmax f) (mm true) ∧
    on (.frnd f) (fun c s l k => fpRnd t (md c) (a c s l k)) ∧
    on (.fscale f) (fun c s l k => fpScale t (fo c) (md c) (src32 s c.gid l f.vbs f.vb f.x32).toInt (a c s l k))

/-- R242: sums, products and fused sums of finite numbers are the exact result rounded once; an exact zero has the stated sign; infinities and NaNs give what the
rule says. -/
def Obligations.FloatSpecials : Prop :=
  ∀ f ∈ [fp16, bf16, fp32, fp64], ∀ (fo : Bool) (md : RMode) (x y z : FV) (s t : Bool) (m n p q : Nat) (e k : Int),
    let num (sg : Bool) (a : Nat) (b : Int) : Int := (if sg then -1 else 1) * (a * 2 ^ b.toNat : Nat)
    (0 ≤ e → 0 ≤ k →
      let v := num s m e + num t n k
      fpAdd f fo md (.fin s m e) (.fin t n k) =
        if v = 0 then (f.zero (if s = t then s else md = .rdn), 0)
        else f.finish fo md (v < 0) (v.natAbs / 2 ^ (min e k).toNat) (min e k)) ∧
    fpMul f fo md (.fin s m e) (.fin t n k) = (if m = 0 ∨ n = 0 then (f.zero (s != t), 0) else f.finish fo md (s != t) (m * n) (e + k)) ∧
    fpFma f fo md (.fin s m e) (.fin t n k) z = (if z.isNan then (nanOf f [z], snanFlag [z]) else fpAdd f fo md (.fin (s != t) (m * n) (e + k)) z) ∧
    fpAdd f fo md (.inf s) (.inf t) = (if s = t then (f.infBits s, 0) else (f.dnan, fNV)) ∧
    fpAdd f fo md (.inf s) (.fin t n k) = (f.infBits s, 0) ∧ fpAdd f fo md (.fin t n k) (.inf s) = (f.infBits s, 0) ∧
    fpMul f fo md (.inf s) (.fin t n k) = (if n = 0 then (f.dnan, fNV) else (f.infBits (s != t), 0)) ∧
    fpMul f fo md (.inf s) (.inf t) = (f.infBits (s != t), 0) ∧
    (x.isNan = false → fpAdd f fo md x (.nan s true p) = (f.nanBits s p, 0) ∧ fpMul f fo md x (.nan s true p) = (f.nanBits s p, 0)) ∧
    fpAdd f fo md (.nan s false p) y = (f.nanBits s p, fNV) ∧ fpMul f fo md (.nan s false p) y = (f.nanBits s p, fNV) ∧
    fpDiv f fo md (.fin s m e) (.fin t 0 k) = (if m = 0 then (f.dnan, fNV) else (f.infBits (s != t), fDZ)) ∧
    (q = 0 → fpSqrt f fo md (.fin s q e) = (f.zero s, 0)) ∧ (q ≠ 0 → fpSqrt f fo md (.fin true q e) = (f.dnan, fNV))

/-- R244, R250: FCMP and FCLASS write the executing lanes of a predicate; FCMP sets the flags of its comparison. -/
def Obligations.FloatPredicates : Prop :=
  ∀ f : FForm,
    let t := fmtOf f.ty
    let wide := f.ty.is64
    let ra (c : Iss) (s : State) (l : Nat) : Nat := s.lane c.gid l wide f.va % 2 ^ elBits f.ty
    let a (c : Iss) (s : State) (l : Nat) : FV := readF t c.sp.fmt.toNat f.negA f.absA (ra c s l)
    let b (c : Iss) (s : State) (l : Nat) : FV := readF t c.sp.fmt.toNat f.negB f.absB (srcF s c.gid l f % 2 ^ elBits f.ty)
    let un (c : Iss) (s : State) (l : Nat) : Prop := (a c s l).isNan = true ∨ (b c s l).isNan = true
    let order (c : Iss) (s : State) (l : Nat) : Int := cmpF (a c s l) (b c s l)
    let holds (c : Iss) (s : State) (l : Nat) : Prop :=
      match f.x32.toNat with
      | 0 => ¬ un c s l ∧ order c s l = 0
      | 1 => un c s l ∨ order c s l ≠ 0
      | 2 => ¬ un c s l ∧ order c s l < 0
      | 3 => ¬ un c s l ∧ order c s l ≤ 0
      | 4 => ¬ un c s l ∧ 0 < order c s l
      | 5 => ¬ un c s l ∧ 0 ≤ order c s l
      | 6 => un c s l
      | _ => ¬ un c s l
    let invalid (c : Iss) (s : State) (l : Nat) : Prop :=
      if 2 ≤ f.x32.toNat ∧ f.x32.toNat ≤ 5 then un c s l else (a c s l).isSNan = true ∨ (b c s l).isSNan = true
    Completes (.fcmp f)
      (fun c s => c.may (.fcmp f) s ∧ (c.sp.fmt.getLsbD 23 = true → ∀ l ∈ c.execLanes s f.head, ¬ invalid c s l))
      (fun c s t =>
        WroteP c f.head f.vd.toNat (holds c s) s t ∧
        (∃ nv : Bool, (nv = true ↔ ∃ l ∈ c.execLanes s f.head, invalid c s l) ∧
          GroupIs c { c.grp with flags := c.grp.flags ||| (if nv then 1 else 0) } s t) ∧
        MovedTo c (c.sp.pc + 12) s t ∧ SameBut [Tab.splits.num, Tab.pregs.num, Tab.groups.num] s t ∧ SameMemory s t) ∧
    Completes (.fclass f) (fun c s => c.may (.fclass f) s) (fun c s u =>
      WroteP c f.head f.vd.toNat (fun l => f.x32.toNat.testBit (fpClass t (ra c s l)) = true) s u ∧
      MovedTo c (c.sp.pc + 12) s u ∧ SameBut [Tab.splits.num, Tab.pregs.num] s u ∧ SameMemory s u)

/-- R40, R245: FRCP, FRSQ, FSQRT, FDIV, FEXP2, FLOG2, FSIN, FCOS and FTANH start a producer that holds each executing lane's result, the flags raised, and the
lanes that raised NV. -/
def Obligations.FloatProducers : Prop :=
  ∀ f : FForm,
    let t := fmtOf f.ty
    let wide := f.ty.is64
    let w := elBits f.ty
    let ra (c : Iss) (s : State) (l k : Nat) : Nat := s.lane c.gid l wide f.va / 2 ^ (w * k) % 2 ^ w
    let a (c : Iss) (s : State) (l k : Nat) : FV := readF t c.sp.fmt.toNat f.negA f.absA (ra c s l k)
    let b (c : Iss) (s : State) (l k : Nat) : FV := readF t c.sp.fmt.toNat f.negB f.absB (srcF s c.gid l f / 2 ^ (w * k) % 2 ^ w)
    let fo (c : Iss) : Bool := flushOut t c.sp.fmt.toNat
    let md (c : Iss) : RMode := modeOf f.rnd c.sp.fmt.toNat
    let clamped (r : FRes) : FRes := if f.clamp then (clampF t r.1, r.2) else r
    let code := f.ty.code.toNat
    let starts (i : Instr) (op : Iss → State → Nat → Nat → FRes) : Prop :=
      Completes i (fun c s => c.may i s ∧ c.execMask s f.head ≠ 0) (Produces f.head fun c s x =>
        x.dest = some (f.vd.toNat, if wide then 2 else 1) ∧
        (∀ n, n < 6 → (x.flags.getLsbD n = true ↔ ∃ l ∈ c.execLanes s f.head, ∃ k, k < f.ty.count ∧ (op c s l k).2.testBit n = true)) ∧
        (∀ l, l < 64 → (x.zeroed.getLsbD l = true ↔ l ∈ c.execLanes s f.head ∧ ∃ k, k < f.ty.count ∧ (op c s l k).2 % 2 = 1)) ∧
        ∃ val : Nat → Nat,
          (∀ l ∈ c.execLanes s f.head, val l < 2 ^ (w * f.ty.count) ∧
            ∀ k, k < f.ty.count → val l / 2 ^ (w * k) % 2 ^ w = (clamped (op c s l k)).1 % 2 ^ w) ∧
          ∀ r, r ∈ x.results ↔ ∃ l ∈ c.execLanes s f.head,
            r = { reg := f.vd.toNat, lane := l, val := BitVec.ofNat 32 (val l) } ∨
            (wide = true ∧ r = { reg := f.vd.toNat + 1, lane := l, val := BitVec.ofNat 32 (val l / 2 ^ 32) }))
    starts (.frcp f) (fun c s l k => fpDiv t (fo c) (md c) (.fin false 1 0) (a c s l k)) ∧
    starts (.frsq f) (fun c s l k => fpRsq t (fo c) (md c) (a c s l k)) ∧
    starts (.fsqrt f) (fun c s l k => fpSqrt t (fo c) (md c) (a c s l k)) ∧
    starts (.fdiv f) (fun c s l k => fpDiv t (fo c) (md c) (a c s l k) (b c s l k)) ∧
    starts (.fexp2 f) (fun c s l k => fpExp2 t (fo c) (md c) code (ra c s l k) (a c s l k)) ∧
    starts (.flog2 f) (fun c s l k => fpLog2 t (fo c) (md c) code (ra c s l k) (a c s l k)) ∧
    starts (.fsin f) (fun c s l k => fpSin t (fo c) (md c) code (ra c s l k) (a c s l k)) ∧
    starts (.fcos f) (fun c s l k => fpCos t (fo c) (md c) code (ra c s l k) (a c s l k)) ∧
    starts (.ftanh f) (fun c s l k => fpTanh t (fo c) (md c) code (ra c s l k) (a c s l k))

/-- R247 to R249, R251, R252: FCVT, FCVTI, ICVTF, FQUANT and FDEQ convert each element into its place and keep the others; FFLAGS reads, clears and sets the
sticky flags. And what the conversions make of a value: NaN, infinity, a value of the format, an integer within and beyond the range of its type, a product
with a scale. -/
def Obligations.FloatConversions : Prop :=
  ∀ f : FForm,
    let fmt (c : Iss) : Nat := c.sp.fmt.toNat
    let md (c : Iss) : RMode := modeOf f.rnd c.sp.fmt.toNat
    let part := f.x32.toNat / 16
    let code := f.x32.toNat % 16
    let x := CvtFields.ofWord f.x32
    let el_ (v w k : Nat) : Nat := v / 2 ^ (w * k) % 2 ^ w
    let second (c : Iss) (s : State) (l : Nat) (wide : Bool) : Nat :=
      match f.vbs with | .unif => s.uni c.gid wide f.vb | _ => s.lane c.gid l wide f.vb
    -- which source element goes to element k of the destination
    let move (es ed p : Nat) (a b : Nat → Nat) (k : Nat) : Option Nat :=
      if es < ed then (if p * (2 * es) ≤ k ∧ k < (p + 1) * (2 * es) then some (if k - p * (2 * es) < es then a (k - p * (2 * es)) else b (k - p * (2 * es) - es))
                       else none)
      else if es = ed then some (a k) else some (a (p * ed + k))
    let sw := if x.sn then codeBits x.st else elBits f.ty
    let sf := if x.sn then narrowFmt x.st else fmtOf f.ty
    let df := if x.dn then narrowFmt x.dt else fmtOf f.cvtTo
    let dw := if x.dn then codeBits x.dt else elBits f.cvtTo
    let sWide := !x.sn && f.ty.is64
    let scaled (c : Iss) (s : State) : Prop := code ≤ 9 ∧ ∀ l ∈ c.execLanes s f.head, scaleOk (s.vreg c.gid f.vc.toNat l).toNat code = true
    let settled (c : Iss) (s : State) : Prop := ∀ p ∈ c.sp.outs, ∀ o, Tab.ops.at p.op s = some o → o.path = none → o.phase = .done
    let flag (i : Instr) (n : Nat) (post : Iss → State → State → Prop) : Prop :=
      f.x32.toNat % 4 = n → Completes i (fun c s => c.may i s ∧ settled c s ∧ c.execMask s f.head ≠ 0) post ∧
        Completes i (fun c s => c.may i s ∧ settled c s ∧ c.execMask s f.head = 0) (JumpResult fun c _ => c.sp.pc + 12)
    let bound (lo hi v : Int) (w : Nat) (flags : Nat) : FRes :=
      if v < lo then ((lo % 2 ^ w).toNat, flags) else if hi < v then ((hi % 2 ^ w).toNat, flags) else ((v % 2 ^ w).toNat, 0)
    let signed (s : Bool) (n : Nat) : Int := if s then -(n : Int) else n
    let intRange (ty : ITy) : Int × Int :=
      if ty.signed then (-(2 ^ (ty.width - 1)), 2 ^ (ty.width - 1) - 1) else (0, 2 ^ ty.width - 1)
    let quantRange (code : Nat) : Int × Int :=
      match code with | 0 => (-128, 127) | 1 => (0, 255) | 2 => (-8, 7) | _ => (0, 15)
    (∀ (ty : ITy) (m : RMode) (s q : Bool) (n k : Nat),
      cvtInt ty m (.nan s q n) = (0, fNV) ∧
      cvtInt ty m (.inf s) = (((if s then (intRange ty).1 else (intRange ty).2) % 2 ^ ty.width).toNat, fNV) ∧
      cvtInt ty m (.fin s n k) = bound (intRange ty).1 (intRange ty).2 (signed s (n * 2 ^ k)) ty.width fNV ∧
      let v := signed s n
      let down := v / 2 ^ k
      let rest := v % 2 ^ k
      let near := match m with
        | .rne => if 2 * rest < 2 ^ k ∨ 2 * rest = 2 ^ k ∧ down % 2 = 0 then down else down + 1
        | .rz => if s then -(-v / 2 ^ k) else down
        | .rdn => down
        | .rup => -(-v / 2 ^ k)
      cvtInt ty m (.fin s n (-k)) = if (intRange ty).1 ≤ near ∧ near ≤ (intRange ty).2 then ((near % 2 ^ ty.width).toNat, if rest = 0 then 0 else fNX)
        else bound (intRange ty).1 (intRange ty).2 near ty.width fNV) ∧
    (∀ (g : FFmt) (fo : Bool) (m : RMode) (ty : ITy) (w : Nat), w < 2 ^ ty.width →
      let v : Int := if ty.signed = true ∧ 2 ^ (ty.width - 1) ≤ w then (w : Int) - 2 ^ ty.width else w
      intCvt g fo m ty w = if v = 0 then (g.zero false, 0) else g.finish fo m (v < 0) v.natAbs 0) ∧
    (∀ (sat fo : Bool) (m : RMode) (s q : Bool) (n : Nat),
      cvtNarrow 4 sat fo m (.nan s q n) = (if s then 0xFF else 0x7F, if q then 0 else fNV) ∧
      cvtNarrow 5 sat fo m (.nan s q n) = (if s then 0xFE else 0x7E, if q then 0 else fNV) ∧
      cvtNarrow 6 sat fo m (.nan s q n) = (0, fNV) ∧
      cvtNarrow 4 sat fo m (.inf s) = ((if sat then 0x7E else 0x7F) + (if s then 0x80 else 0), fNV) ∧
      cvtNarrow 5 sat fo m (.inf s) = ((if sat then 0x7B else 0x7C) + (if s then 0x80 else 0), 0) ∧
      cvtNarrow 6 sat fo m (.inf s) = (7 + (if s then 8 else 0), fNV)) ∧
    (∀ code ∈ [4, 5, 6], ∀ (sat : Bool) (m : RMode) (w n : Nat) (s : Bool) (e : Int), w < 2 ^ codeBits code →
      (narrowFmt code).value w = .fin s n e → cvtNarrow code sat false m (.fin s n e) = (w, 0)) ∧
    (∀ (code : Nat) (fo : Bool) (m : RMode) (rec_ : Nat) (s q : Bool) (n : Nat), code ≤ 9 →
      let scale := 256 + rec_ / 2 ^ 10 % 2 ^ 8
      let exponent : Int := (if rec_ % 2 ^ 10 < 512 then (rec_ % 2 ^ 10 : Int) else (rec_ % 2 ^ 10 : Int) - 1024) - 8
      quantize code fo m rec_ (.nan s q n) =
        (match code with | 4 => 0x7F | 5 => 0x7E | 7 => 0x77 | 8 => 0x7E00 | 9 => 0x7FC0 | _ => 0, fNV) ∧
      (code < 4 → quantize code fo m rec_ (.inf s) =
          (((if s then (quantRange code).1 else (quantRange code).2) % 2 ^ codeBits code).toNat, fOF + fNX) ∧
        quantize code fo m rec_ (.fin s (scale * n) exponent) =
          bound (quantRange code).1 (quantRange code).2 (signed s n) (codeBits code) (fOF + fNX)) ∧
      ∀ (g : FFmt) (e : Int),
        dequantize g fo m rec_ (.nan s q n) = (g.nanBits s n, if q then 0 else fNV) ∧ dequantize g fo m rec_ (.inf s) = (g.infBits s, 0) ∧
        dequantize g fo m rec_ (.fin s n e) = if n = 0 then (g.zero s, 0) else g.finish fo m s (n * scale) (e + exponent)) ∧
    FloatDone (.fcvt f) f.head f.cvtWide f.vd f.cvtEd dw (fun _ _ => x.reserved = false) (fun c s l k =>
      (move f.cvtEs f.cvtEd x.part (el_ (s.lane c.gid l sWide f.va) sw) (el_ (second c s l sWide) sw) k).map fun w =>
        let v := readF sf (fmt c) f.negA f.absA w
        if x.dn then cvtNarrow x.dt x.sat (flushOut df (fmt c)) (md c) v else cvtWide df (flushOut df (fmt c)) (md c) v) ∧
    FloatDone (.fcvti f) f.head f.ity.is64 f.vd f.ity.count f.ity.width (fun _ _ => True) (fun c s l k =>
      (move f.ty.count f.ity.count part (el_ (s.lane c.gid l f.ty.is64 f.va) (elBits f.ty)) (el_ (second c s l f.ty.is64) (elBits f.ty)) k).map fun w =>
        cvtInt f.ity (md c) (readF (fmtOf f.ty) (fmt c) f.negA f.absA w)) ∧
    FloatDone (.icvtf f) f.head f.ty.is64 f.vd f.ty.count (elBits f.ty) (fun _ _ => True) (fun c s l k =>
      (move f.ity.count f.ty.count part (el_ (s.lane c.gid l f.ity.is64 f.va) f.ity.width) (el_ (second c s l f.ity.is64) f.ity.width) k).map fun w =>
        intCvt (fmtOf f.ty) (flushOut (fmtOf f.ty) (fmt c)) (md c) f.ity w) ∧
    FloatDone (.fquant f) f.head false f.vd (32 / codeBits code) (codeBits code) scaled (fun c s l k =>
      let q (n v : Bool) (w : BitVec 32) : FRes :=
        quantize code (match codeFmt code with | some g => flushOut g (fmt c) | none => false) (md c) (s.vreg c.gid f.vc.toNat l).toNat
          (readF fp32 (fmt c) n v w.toNat)
      if k = 2 * part then some (q f.negA f.absA (s.vreg c.gid f.va.toNat l))
      else if k = 2 * part + 1 then some (q f.negB f.absB (src32 s c.gid l f.vbs f.vb 0)) else none) ∧
    FloatDone (.fdeq f) f.head false f.vd f.ty.count (elBits f.ty) scaled (fun c s l k =>
      some (dequantize (fmtOf f.ty) (flushOut (fmtOf f.ty) (fmt c)) (md c) (s.vreg c.gid f.vc.toNat l).toNat
        (readCode code (fmt c) (el_ (s.vreg c.gid f.va.toNat l).toNat (codeBits code) (part + k))))) ∧
    flag (.fflags f) 0 (fun c s t => WroteV c.gid false f.vd (c.execLanes s f.head) (fun _ => c.grp.flags.toNat) s t ∧ MovedTo c (c.sp.pc + 12) s t ∧
      SameBut [Tab.splits.num, Tab.vregs.num] s t ∧ SameMemory s t) ∧
    flag (.fflags f) 1 (fun c s t => GroupIs c { c.grp with flags := c.grp.flags &&& ~~~(BitVec.ofNat 6 (f.x32.toNat / 256)) } s t ∧
      MovedTo c (c.sp.pc + 12) s t ∧ SameBut [Tab.splits.num, Tab.groups.num] s t ∧ SameMemory s t) ∧
    flag (.fflags f) 2 (fun c s t => GroupIs c { c.grp with flags := c.grp.flags ||| BitVec.ofNat 6 (f.x32.toNat / 256) } s t ∧
      MovedTo c (c.sp.pc + 12) s t ∧ SameBut [Tab.splits.num, Tab.groups.num] s t ∧ SameMemory s t)

/-- R42, R200, R220, R227, R231, R239: where lane instructions trap instead of having their effect: a register beyond the group's, a register of an outstanding
producer, a segment wider than the group, an invalid operation under fmt.TINV, a reserved format code, a scale record that does not fit. -/
def Obligations.LaneTraps : Prop :=
  ∀ (f : IForm) (r : FForm),
    let names : List Instr :=
      [.vadd f, .vsub f, .vmul f, .vmulh f, .vmad f, .vaddc f, .vand f, .vor f, .vxor f, .vshl f, .vshr f, .vfsh f, .vmin f, .vmax f, .vabs f, .vcmp f, .vsel f,
       .vmov f, .vpopc f, .vclz f, .vbrev f, .vbfe f, .vbfi f, .vlut3 f, .vlut4 f, .vdot4 f, .vcvti f, .vprm f, .vlane f, .vballot f, .vmatch f, .vbcast f,
       .vfirst f, .fadd r, .fsub r, .fmul r, .ffma r, .fmin r, .fmax r, .fcmp r, .frcp r, .frsq r, .fsqrt r, .fdiv r, .fexp2 r, .flog2 r, .fsin r, .fcos r,
       .ftanh r, .fcvt r, .fcvti r, .icvtf r, .fclass r, .frnd r, .fscale r, .fquant r, .fdeq r, .fflags r]
    let traps (i : Instr) (pre : Iss → State → Prop) (cause lane : Nat) : Prop :=
      Completes i (fun c s => c.canTrap ∧ pre c s) fun c s t => EntersHandler c cause lane 0 s t
    let beyond (i : Instr) (c : Iss) : Prop := ∃ n ∈ laneNames i, c.lau.vregs < n.1 + n.2
    let early (i : Instr) (c : Iss) (s : State) : Prop :=
      (∀ p ∈ c.sp.outs, ∀ x, Tab.ops.at p.op s = some x → x.phase ≠ .failed) ∧
      ∃ p ∈ c.sp.outs, ∃ x d, Tab.ops.at p.op s = some x ∧ x.phase ≠ .done ∧ x.dest = some d ∧
        ∃ n ∈ laneNames i, d.1 < n.1 + n.2 ∧ n.1 < d.1 + d.2
    let seg (i : Instr) (n : Nat) : Prop := traps i (fun c _ => c.lau.width < n) 0x02 0
    let lowest (c : Iss) (s : State) (l : Nat) (p : Nat → Prop) : Prop :=
      l ∈ c.execLanes s r.head ∧ p l ∧ ∀ k ∈ c.execLanes s r.head, k < l → ¬ p k
    let code := r.x32.toNat % 16
    let badScale (c : Iss) (s : State) (k : Nat) : Prop := scaleOk (s.vreg c.gid r.vc.toNat k).toNat code = false
    let invalid (c : Iss) (s : State) (k : Nat) : Prop := ∃ n, n < r.ty.count ∧
      let w := elBits r.ty
      let rd (neg abs : Bool) (v : Nat) : FV := readF (fmtOf r.ty) c.sp.fmt.toNat neg abs (v / 2 ^ (w * n) % 2 ^ w)
      (fpMul (fmtOf r.ty) (flushOut (fmtOf r.ty) c.sp.fmt.toNat) (modeOf r.rnd c.sp.fmt.toNat)
        (rd r.negA r.absA (s.lane c.gid k r.ty.is64 r.va)) (rd r.negB r.absB (srcF s c.gid k r))).2 % 2 = 1
    (∀ i ∈ names, traps i (fun c _ => beyond i c) 0x03 0 ∧ traps i (fun c s => ¬ beyond i c ∧ early i c s) 0x04 0) ∧
    seg (.vshfl f) (if f.ops.toNat / 4 = 0 then 0 else 2 ^ (f.ops.toNat / 4)) ∧
    seg (.vredux f) (if f.ops.toNat / 8 = 0 then 0 else 4 * 2 ^ (f.ops.toNat / 8)) ∧
    seg (.vscan f) (if f.ops.getLsbD 4 = true then 8 else 0) ∧
    (∀ l, traps (.fmul r) (fun c s => c.may (.fmul r) s ∧ c.sp.fmt.getLsbD 23 = true ∧ lowest c s l (invalid c s)) 0x30 l) ∧
    traps (.fcvt r) (fun c s => c.may (.fcvt r) s ∧ (CvtFields.ofWord r.x32).reserved = true) 0x32 0 ∧
    (∀ i ∈ [Instr.fquant r, .fdeq r], traps i (fun c s => c.may i s ∧ 9 < code) 0x32 0 ∧
      ∀ l, traps i (fun c s => c.may i s ∧ code ≤ 9 ∧ lowest c s l (badScale c s)) 0x33 l) ∧
    ∀ (id : Nat) (o : Op), Occurs (.producerComplete id)
      (fun s => Tab.ops.at id s = some o ∧ isTileOp o.instr = false ∧ o.phase = .running ∧ o.path = none ∧ o.prog = 0 ∧ o.fmt.getLsbD 23 = true ∧
        o.flags.getLsbD 0 = true)
      fun s t => (∃ x, Tab.ops.at id t = some { o with phase := .failed, fail := some x } ∧ x.cause = 0x30) ∧ SameAt .ops (· = id) s t ∧
        SameBut [Tab.ops.num] s t

/-! ## The Gallery -/

/-- R125, R126, R130 to R133: LDG, STG and ATG on a window without records: what a load will write is in flight as a producer, a store's bytes are in the window,
an atomic changes its bytes by its operation; each sector holds the group's record; memory at home is as before. A DATA access with a lane that crosses
from one sector to the next does its bytes in the even sectors first, and those in the odd ones when its producer completes (R179: two accesses, in the model's
own order, log 135). A store to a word on which another live party has a record fails. -/
def Obligations.GalleryAccess : Prop :=
  ∀ f : GForm,
    let n := f.size.bytes
    let regs := max 1 (n / 4)
    let off (c : Iss) (s : State) (l : Nat) : Int :=
      (if f.uidx then s.sreg c.gid f.va.toNat else s.vreg c.gid f.va.toNat l).toInt + f.off.toInt
    let at_ (c : Iss) (s : State) (l : Nat) : Nat := (off c s l).toNat
    let key (c : Iss) (s : State) (l : Nat) : Nat := c.tid * 2 ^ 24 + at_ c s l
    let data (c : Iss) (s : State) (l : Nat) : Nat := s.vwide c.gid f.vb.toNat l regs
    let old (c : Iss) (s : State) (l : Nat) : Nat := s.winNat c.tid (at_ c s l) n
    let seen (v : Nat) : Nat := if f.size = .i8 then wrap 32 (sext 8 v) else if f.size = .i16 then wrap 32 (sext 16 v) else v
    let byte (s : State) (k : Nat) : Byte := Tab.win.val 0 k s
    let may (i : Instr) (write : Bool) (c : Iss) (s : State) : Prop :=
      c.may i s ∧ c.execMask s f.head ≠ 0 ∧ s.opsOf c.gid = [] ∧ c.quiet s ∧ s.stale (.gallery (clusterOf c.core)) c.lau.ctx c.lau.inc = false ∧
      (∀ l ∈ c.execLanes s f.head, 0 ≤ off c s l ∧ off c s l + n ≤ s.wsz c.tid ∧ (f.cls = .data ∨ f.cls = .peek ∨ off c s l % n = 0)) ∧
      (f.cls = .sync → s.gate c (if write then some (if f.team then .team else .blk) else none) = .go ∧ (s.core c.core).gen ≠ 0xFFFFFF)
    let results (dest : Bool) (c : Iss) (s : State) (o : Op) : Prop :=
      o.path = some 2 ∧ o.phase = .running ∧ o.dest = (if dest then some (f.vd.toNat, regs) else none) ∧
      ∀ r, r ∈ o.results ↔ dest = true ∧ ∃ l ∈ c.execLanes s f.head, ∃ k, k < regs ∧
        r = { reg := f.vd.toNat + k, lane := l, val := BitVec.ofNat 32 (seen (old c s l) / 2 ^ (32 * k)) }
    let party (c : Iss) : Nat := tslotOf c.lau c.blk c.grp
    let counter (c : Iss) (s : State) : Nat := (Tab.teamCnt.val 0 (c.tid * 512 + party c) s).toNat % 4096
    let marked (write : Bool) (c : Iss) (s t : State) : Prop :=
      ∀ e ∈ gSectors n ((c.execLanes s f.head).map fun l => { lane := l, va := at_ c s l, b := 0, c := 0 }),
        Tab.gside.val SideRec.init (c.tid * 2 ^ 19 + e.1) t =
          { tslot := BitVec.ofNat 9 (party c), tstamp := BitVec.ofNat 12 (counter c s), mask := e.2, cls := markClass f.cls write }
    let inOne (c : Iss) (s : State) : Prop := f.cls = .data → ∀ l ∈ c.execLanes s f.head, at_ c s l % 32 + n ≤ 32
    let inTwo (c : Iss) (s : State) : Prop := f.cls = .data ∧ ∃ l ∈ c.execLanes s f.head, 32 < at_ c s l % 32 + n
    -- the value of the bytes of one lane that stand in the even (0) or the odd (1) sectors of a window
    let half (parity : Nat) (s : State) (tid va : Nat) : Nat :=
      ((List.range n).map fun k => if (va + k) / 32 % 2 = parity then (byte s (tid * 2 ^ 24 + va + k)).toNat * 256 ^ k else 0).sum
    let begun (dest : Option (Nat × Nat)) (o : Op) (s t : State) : Prop :=
      o.path = some 2 ∧ o.phase = .running ∧ o.prog = 1 ∧ o.results = [] ∧ o.dest = dest ∧ .producerComplete s.dev.nextId ∈ t.dev.due
    let secondHalf (i : Instr) (post : Nat → Op → Block → State → State → Prop) : Prop :=
      ∀ (id : Nat) (o : Op) (b : Block), o.instr = i → (∀ l ∈ o.lanes, l.va + n ≤ 2 ^ 57) → Occurs (.producerComplete id)
        (fun s => Tab.ops.at id s = some o ∧ o.phase = .running ∧ o.prog ≠ 0 ∧ s.blockOf o.gid = some b)
        fun s t => post id o b s t ∧ t.dev = { s.dev with due := s.dev.due ++ [.producerComplete id] } ∧ SameAt .ops (· = id) s t ∧
          SameTables [Tab.ops.num, Tab.win.num] s t
    let frame (s t : State) : Prop := (∀ pa, t.homeByte pa = s.homeByte pa) ∧
      SameTables ([Tab.splits.num, Tab.ops.num, Tab.blocks.num, Tab.groups.num, Tab.gside.num, Tab.win.num] ++
        if f.cls = .sync then [Tab.icount.num, Tab.notices.num, Tab.teamCnt.num, Tab.tscan.num, Tab.filter.num, Tab.cores.num] else []) s t
    Completes (.ldg f) (fun c s => may (.ldg f) false c s ∧ s.unmarked ∧ inTwo c s) (fun c s t =>
      Flying (.ldg f) c s t (fun o => begun (some (f.vd.toNat, regs)) o s t ∧
        (o.lanes.map fun x => (x.lane, x.va, x.c)) = (c.execLanes s f.head).map fun l => (l, at_ c s l, half 0 s c.tid (at_ c s l))) ∧
      GoesOn 12 (some f.head.la) c s t ∧ marked false c s t ∧ frame s t ∧ ∀ k, byte t k = byte s k) ∧
    secondHalf (.ldg f) (fun id o b s t => t.win = s.win ∧
      Tab.ops.at id t = some { o with prog := 0, results := o.results ++ (o.lanes.flatMap fun l =>
          (List.range regs).map fun k => { reg := f.vd.toNat + k, lane := l.lane,
                                           val := BitVec.ofNat 32 (seen (l.c + half 1 s b.tid l.va) / 2 ^ (32 * k)) }) }) ∧
    Completes (.stg f) (fun c s => may (.stg f) true c s ∧ s.unmarked ∧ inTwo c s) (fun c s t =>
      Flying (.stg f) c s t (fun o => begun none o s t ∧
        (o.lanes.map fun x => (x.lane, x.va, x.b)) = (c.execLanes s f.head).map fun l => (l, at_ c s l, data c s l % 2 ^ (8 * n))) ∧
      GoesOn 12 none c s t ∧ marked true c s t ∧ frame s t ∧
      ∀ k, byte t k = match ((c.execLanes s f.head).filter fun l => key c s l ≤ k && k < key c s l + n &&
          (at_ c s l + (k - key c s l)) / 32 % 2 == 0).getLast? with
        | some l => BitVec.ofNat 8 (data c s l / 256 ^ (k - key c s l))
        | none => byte s k) ∧
    secondHalf (.stg f) (fun id o b s t => Tab.ops.at id t = some { o with prog := 0 } ∧ ∀ k, byte t k =
      let at_ (l : LaneAcc) : Nat := b.tid * 2 ^ 24 + l.va
      match (o.lanes.filter fun l => at_ l ≤ k && k < at_ l + n && (l.va + (k - at_ l)) / 32 % 2 == 1).getLast? with
      | some l => BitVec.ofNat 8 (l.b / 256 ^ (k - at_ l))
      | none => byte s k) ∧
    Completes (.ldg f) (fun c s => may (.ldg f) false c s ∧ s.unmarked ∧ inOne c s) (fun c s t =>
      Flying (.ldg f) c s t (results true c s) ∧ GoesOn 12 (some f.head.la) c s t ∧ marked false c s t ∧ frame s t ∧ ∀ k, byte t k = byte s k) ∧
    Completes (.stg f) (fun c s => may (.stg f) true c s ∧ s.unmarked ∧ inOne c s) (fun c s t =>
      Flying (.stg f) c s t (results false c s) ∧ GoesOn 12 none c s t ∧ marked true c s t ∧ frame s t ∧
      ∀ k, byte t k = match ((c.execLanes s f.head).filter fun l => key c s l ≤ k && k < key c s l + n).getLast? with
        | some l => BitVec.ofNat 8 (data c s l / 256 ^ (k - key c s l))
        | none => byte s k) ∧
    (∀ l, Completes (.atg f)
      (fun c s => may (.atg f) true c s ∧ s.unmarked ∧ c.execLanes s f.head = [l] ∧ (f.aop = 1 → c.sp.fmt.getLsbD 22 = false))
      (fun c s t =>
        let new := (atomicNew f.aop.toNat f.vc.toNat (8 * n) (old c s l) (data c s l % 2 ^ (8 * n))
          (if f.aop = 9 then s.vwide c.gid f.vc.toNat l regs else 0)).1
        Flying (.atg f) c s t (results (f.vd != 255) c s) ∧ GoesOn 12 (if f.vd = 255 then none else some f.head.la) c s t ∧ marked true c s t ∧ frame s t ∧
        ∀ k, byte t k = if key c s l ≤ k ∧ k < key c s l + n then BitVec.ofNat 8 (new / 256 ^ (k - key c s l)) else byte s k)) ∧
    (∀ (l : Nat) (r : SideRec), Completes (.stg f)
      (fun c s => may (.stg f) true c s ∧ c.execLanes s f.head = [l] ∧ f.cls = .data ∧ (∀ n, (s.cluster n).overflow = []) ∧ at_ c s l % 32 + n ≤ 32 ∧
        s.gside = [(c.tid * 2 ^ 19 + at_ c s l / 32, r)] ∧ r.mask &&& wordMask (at_ c s l % 32) n ≠ 0 ∧ r.tslot.toNat ≠ party c ∧ r.cls = mcWrite ∧ (s.team? c.tid).isSome ∧
        r.tstamp.toNat = (Tab.teamCnt.val 0 (c.tid * 512 + r.tslot.toNat) s).toNat % 4096)
      (fun c s t => (∃ o x, Tab.ops.at s.dev.nextId t = some o ∧ o.phase = .failed ∧ o.fail = some x ∧ x.cause = 0x20) ∧ GoesOn 12 none c s t ∧
        frame s t ∧ (∀ k, byte t k = byte s k) ∧ t.gside = s.gside))

/-! ## Copies -/

/-- R186, R190: CPY, CPYMC and CPYRED whose checks pass take the lowest free engine slot of the core, under a new occupancy, and are in flight; the split goes
on. -/
def Obligations.CopyIssue : Prop :=
  ∀ (f : CopyForm) (slot : Nat),
    let starts (i : Instr) (kind : CopyKind) : Prop :=
      let src (c : Iss) (s : State) : BitVec 128 := if f.dir = 0 ∨ f.dir = 2 then s.breg c.gid f.va.toNat else 0
      let dst (c : Iss) (s : State) : BitVec 128 := if f.dir = 1 ∨ f.dir = 2 then s.breg c.gid f.vd.toNat else 0
      let team (c : Iss) (s : State) : Nat :=
        if kind = .multi ∧ ¬ (f.dir = 1 ∨ f.dir = 2) then (s.sreg c.gid f.vd.toNat).toNat else 0
      let station (c : Iss) (s : State) : BitVec 32 := if f.arv then s.sreg c.gid f.vc.toNat else 0
      let w (c : Iss) (s : State) : Shape := s.shape c.gid f.shape
      let k (c : Iss) (s : State) : Copy := Copy.make kind f (w c s) (src c s) (dst c s) (team c s)
      Completes i
        (fun c s => (k c s).shapeBad (w c s) = false ∧ c.execMask s f.head ≠ 0 ∧
          copyStop s c.lau.ctx c.lau.inc c.tid c.blk.lid c.sp.fmt (k c s) (station c s) = none ∧ s.counter c.gid 3 < 63 ∧
          s.freeEngine c.core = some slot ∧ s.mayAdvance slot = true ∧ s.mayAdvanceT c.tid (tslotOfEngine c.lau c.blk slot) = true)
        fun c s t =>
          Flying i c s t (fun o => o.path = some 3 ∧ o.phase = .running ∧ o.slot = BitVec.ofNat 16 slot ∧ o.stamp = (s.icountOf slot + 1).setWidth 16 ∧
            o.brec = src c s ∧ o.brec2 = dst c s ∧ o.shape = w c s ∧ o.prog = 0 ∧ o.regs = [team c s, (station c s).toNat, 0, (s.domain f.vb.toNat).gen]) ∧
          t.icountOf slot = s.icountOf slot + 1 ∧ GoesOn 28 none c s t ∧ .copyChunk s.dev.nextId ∈ t.dev.due ∧ SameMemory s t ∧
          SameTables [Tab.splits.num, Tab.ops.num, Tab.blocks.num, Tab.groups.num, Tab.icount.num, Tab.notices.num] s t
    starts (.cpy f) .plain ∧ starts (.cpymc f) .multi ∧ starts (.cpyred f) .reduce

/-- R185, R191 to R193: a chunk of a copy within a window: each destination byte is the source byte, and nothing else in any window differs; the last chunk's
completion ends the copy and its interval, or counts its arrival, which a station whose early count is full refuses; an accepted arrival ends it. -/
def Obligations.CopySteps : Prop :=
  ∀ (id : Nat) (o : Op) (f : CopyForm) (k : Copy) (b : Block) (l : Launch) (x : Group) (tm : Team),
    let here (s : State) : Prop :=
      Tab.ops.at id s = some o ∧ o.phase = .running ∧ copyOf o = some k ∧ s.group? o.gid = some x ∧ s.block? x.bid = some b ∧ s.launch? b.lid = some l
    let done_ (t : State) : Prop := ∀ y, Tab.ops.at id t = some y → y.phase = .done
    let flags (s t : State) : Prop := ∀ g, t.group? g = if g = o.gid then some { x with flags := x.flags ||| o.flags } else s.group? g
    let station : BitVec 32 := BitVec.ofNat 32 ((o.regs[1]?).getD 0)
    (∀ r line, o.instr = .cpy f → Occurs (.copyChunk id)
      (fun s => here s ∧ f.dir = 3 ∧ k.chunk o.prog = some (r, line) ∧ s.ops = [(id, o)] ∧ staleOp s o = false ∧ s.frozen o.gid = false ∧ s.unmarked ∧
        s.watch = [] ∧ b.landSlot = none ∧ s.team? b.tid = some tm ∧ s.stale (.gallery tm.cluster) o.ctx o.inc = false)
      fun s t =>
        let moved := k.elements r line
        (∀ i ∈ moved, Tab.win.val 0 (winKey b.tid (k.dstOff 0 r i)) t = Tab.win.val 0 (winKey b.tid (k.srcOff r i)) s) ∧
        (∀ j, (∀ i ∈ moved, j ≠ winKey b.tid (k.dstOff 0 r i)) → Tab.win.val 0 j t = Tab.win.val 0 j s) ∧
        (Tab.ops.at id t).map (·.prog) = some (o.prog + 1) ∧
        t.dev = { s.dev with due := s.dev.due ++ [if (k.chunk (o.prog + 1)).isSome then .copyChunk id else .copyComplete id] } ∧
        SameTables [Tab.win.num, Tab.gside.num, Tab.clusters.num, Tab.ops.num] s t) ∧
    Occurs (.copyComplete id)
      (fun s => here s ∧ k.chunk o.prog = none ∧ k.f.arv = false ∧ o.remote = false ∧ o.rows = 0)
      (fun s t => done_ t ∧ flags s t ∧ (t.block? x.bid).map (·.escaped) = some (b.escaped || k.f.rel || k.kind == .reduce) ∧
        (96 ≤ o.slot.toNat % 128 → (Tab.teamCnt.val 0 (b.tid * 512 + opTslot s o) t).toNat =
          ((Tab.teamCnt.val 0 (b.tid * 512 + opTslot s o) s).toNat + 1) % 4096) ∧ SameMemory s t) ∧
    Occurs (.copyComplete id)
      (fun s => here s ∧ k.chunk o.prog = none ∧ k.f.arv = true ∧ station.getLsbD 20 = false ∧ o.remote = false ∧
        o.rows = 0 ∧ arvOk s o.ctx o.inc k.f.vb.toNat station = true ∧ (s.domain k.f.vb.toNat).gen = (o.regs[3]?).getD 0 ∧
        s.refuses k.f.vb.toNat (station.toNat % 4096) = false)
      (fun s t => ∃ v w, SameBut [Tab.blocks.num] s v ∧ exec (.rollCallArrival k.f.vb.toNat (station.toNat % 4096)) v = .next w ∧
        Tab.ops.at id t = some { o with rows := 1 } ∧ SameAt .ops (· = id) w t ∧
        t.dev = { w.dev with due := w.dev.due ++ [.copyArrivalAccepted id] } ∧ SameTables [Tab.ops.num] w t) ∧
    Occurs (.copyComplete id)
      (fun s => here s ∧ k.chunk o.prog = none ∧ k.f.arv = true ∧ station.getLsbD 20 = false ∧ o.remote = false ∧ o.rows = 0 ∧
        s.refuses k.f.vb.toNat (station.toNat % 4096) = true)
      (fun s t => (∃ y e, Tab.ops.at id t = some y ∧ y.phase = .failed ∧ y.fail = some e ∧ e.cause = 0x49) ∧ SameAt .ops (· = id) s t ∧
        t.stations = s.stations ∧ t.domains = s.domains ∧ SameMemory s t) ∧
    Occurs (.copyArrivalAccepted id)
      (fun s => here s ∧ k.chunk o.prog = none ∧ k.f.arv = true ∧ o.rows = 1)
      (fun s t => done_ t ∧ flags s t ∧ SameMemory s t)

/-! ## Tiles -/

/-- R40, R255, R267, R268, R273, R274: TRD, TWR and TZERO are in flight in the tile order of their block; at its turn TRD writes its lanes' registers with the
words of their rows, TWR the words of the tile, TZERO zeros; a self-test that fails fences its sub-array. -/
def Obligations.TileRegisters : Prop :=
  (∀ f : TForm,
    let ok (i : Instr) (c : Iss) (s : State) : Prop :=
      c.may i s ∧ 16 * f.lb.toNat + 16 ≤ max c.lau.width 16 ∧ (f.hi = true → c.lau.width = 8)
    let lr (c : Iss) (s : State) : List (Nat × Nat) := laneRows c.lau.width f.lb f.hi (c.execMask s f.head)
    let frame (s t : State) : Prop :=
      t.dev = { s.dev with nextId := s.dev.nextId + 1, due := s.dev.due ++ [.producerComplete s.dev.nextId] } ∧
      SameTables [Tab.splits.num, Tab.ops.num, Tab.blocks.num, Tab.groups.num] s t
    Completes (.trd f) (fun c s => ok (.trd f) c s ∧ lr c s ≠ []) (fun c s t =>
      Flying (.trd f) c s t (fun o => o.phase = .running ∧ o.path = none ∧ o.dest = some (f.vd.toNat, 2 ^ f.n.toNat) ∧ o.exec = c.execMask s f.head) ∧
      GoesOn 12 (some f.head.la) c s t ∧ frame s t) ∧
    Completes (.twr f) (fun c s => ok (.twr f) c s ∧ lr c s ≠ []) (fun c s t =>
      Flying (.twr f) c s t (fun o => o.phase = .running ∧ o.path = none ∧ o.dest = none ∧
        ∀ r, r ∈ o.results ↔ ∃ e ∈ lr c s, ∃ k, k < 2 ^ f.n.toNat ∧
          r = { reg := 32 * e.2 + f.col.toNat + k, lane := e.1, val := s.vreg c.gid (f.va.toNat + k) e.1 }) ∧
      GoesOn 12 none c s t ∧ frame s t) ∧
    Completes (.tzero f) (fun c s => ok (.tzero f) c s ∧ selRows c.lau.width f.lb (c.execMask s f.head) ≠ []) (fun c s t =>
      Flying (.tzero f) c s t (fun o => o.phase = .running ∧ o.path = none ∧ o.dest = none ∧
        ∀ r, r < 16 → (o.rows.getLsbD r = true ↔ r ∈ selRows c.lau.width f.lb (c.execMask s f.head))) ∧
      GoesOn 12 none c s t ∧ frame s t)) ∧
  (∀ (id : Nat) (o : Op) (f : TForm) (l : Launch),
    let turn (s : State) : Prop :=
      Tab.ops.at id s = some o ∧ o.phase = .running ∧ o.path = none ∧ tileTurn s id o = true ∧ s.stale (.core (coreOf o.gid)) o.ctx o.inc = false ∧
      o.tile < 128
    let done_ (s t : State) : Prop := Tab.ops.at id t = none ∧ SameAt .ops (· = id) s t
    let lr : List (Nat × Nat) := laneRows l.width f.lb f.hi o.exec
    (o.instr = .trd f → Occurs (.producerComplete id)
      (fun s => turn s ∧ s.launchOf o.gid = some l ∧ f.vd.toNat + 2 ^ f.n.toNat ≤ 256 ∧
        ∀ e ∈ lr, ∀ k, k < 2 ^ f.n.toNat → Tab.tpoison.val false (tileKey o.bid o.tile e.2 (f.col.toNat + k)) s = false)
      fun s t => done_ s t ∧
        (∀ e ∈ lr, ∀ k, k < 2 ^ f.n.toNat → t.vreg o.gid (f.vd.toNat + k) e.1 = s.tile o.bid f.va.toNat e.2 (f.col.toNat + k)) ∧
        (∀ g r n, r < 256 → n < 64 → ¬ (g = o.gid ∧ f.vd.toNat ≤ r ∧ r < f.vd.toNat + 2 ^ f.n.toNat ∧ n ∈ lr.map (·.1)) → t.vreg g r n = s.vreg g r n) ∧
        SameBut [Tab.ops.num, Tab.vregs.num] s t) ∧
    (o.instr = .twr f → Occurs (.producerComplete id)
      (fun s => turn s ∧ (o.results.map (·.reg)).Nodup ∧ ∀ r ∈ o.results, r.reg < 512)
      fun s t => done_ s t ∧
        (∀ r ∈ o.results, t.tile o.bid f.vd.toNat (r.reg / 32) (r.reg % 32) = r.val) ∧
        (∀ b u r n, u < 128 → r < 16 → n < 32 → ¬ (b = o.bid ∧ u = f.vd.toNat ∧ 32 * r + n ∈ o.results.map (·.reg)) → t.tile b u r n = s.tile b u r n) ∧
        SameBut [Tab.ops.num, Tab.tiles.num, Tab.tpoison.num] s t) ∧
    (o.instr = .tzero f → Occurs (.producerComplete id) turn
      fun s t => done_ s t ∧
        (∀ b u r n, u < 128 → r < 16 → n < 32 →
          t.tile b u r n = if b = o.bid ∧ u = f.vd.toNat ∧ o.rows.getLsbD r = true then 0 else s.tile b u r n) ∧
        SameBut [Tab.ops.num, Tab.tiles.num, Tab.tpoison.num] s t)) ∧
  (∀ core sub : Nat, sub < 8 →
    Occurs (.selfTestInjection core sub true) (fun s => (s.core core).fenced.getLsbD sub = false)
      (fun s t => (∀ n, t.core n = if n = core then { s.core core with tests := (s.core core).tests + 1 } else s.core n) ∧
        SameBut [Tab.cores.num, Tab.tsince.num] s t) ∧
    Occurs (.selfTestInjection core sub false) (fun s => (s.core core).fenced.getLsbD sub = false)
      (fun s t =>
        let fenced := (s.core core).fenced ||| BitVec.ofNat 8 (2 ^ sub)
        (∀ n, t.core n = if n = core then { s.core core with fenced := fenced, rate := (s.core core).rate - 1,
                                                              service := (s.core core).service && fenced != 0xFF } else s.core n) ∧
        ∀ b u r n, (s.block? b).map (·.core) = some core → u < 128 → r < 16 → n < 32 →
          (Tab.tsince.val 0 ((b * 128 + u) * 16 + r) s).getLsbD (8 * sub + n / 4) = true → Tab.tpoison.val false (tileKey b u r n) t = true))

/-- R254 to R258, R269, R270, R272: MMA, TLOAD and TDRAIN whose checks at issue pass are in flight, with the rows that they select; the split goes on. -/
def Obligations.MatrixIssue : Prop :=
  (∀ f : MmaForm,
    let w (c : Iss) (s : State) : Shape := s.shape c.gid f.shape
    let m (c : Iss) (s : State) : Mma := Mma.make (w c s) c.sp.fmt
    let rows (c : Iss) (s : State) : List Nat := selRows c.lau.width f.lb (c.execMask s f.head)
    Completes (.mma f)
      (fun c s => c.may (.mma f) s ∧ 16 * f.lb.toNat + 16 ≤ max c.lau.width 16 ∧ (m c s).shapeBad (w c s) = false ∧ (m c s).misaligned = false ∧
        (m c s).formatsBad = false ∧ rows c s ≠ [] ∧ (∀ q ∈ (m c s).parts (rows c s), ∀ x ∈ q.2, x.1 + x.2 ≤ s.wsz c.tid) ∧ s.opsOf c.gid = [])
      fun c s t =>
        Flying (.mma f) c s t (fun o => o.path = some 4 ∧ o.phase = .checking ∧ o.shape = w c s ∧ o.prog = 0 ∧
          ∀ r, r < 16 → (o.rows.getLsbD r = true ↔ r ∈ rows c s)) ∧
        GoesOn 28 none c s t ∧ t.dev = { s.dev with nextId := s.dev.nextId + 1, due := s.dev.due ++ [.mmaBlock s.dev.nextId] } ∧ SameMemory s t ∧
        SameTables [Tab.splits.num, Tab.ops.num, Tab.blocks.num, Tab.groups.num] s t) ∧
  (∀ f : XferForm,
    let w (c : Iss) (s : State) : Shape := s.shape c.gid f.shape
    let brec (c : Iss) (s : State) : BitVec 128 := if f.mem then s.breg c.gid f.buf.toNat else 0
    let x (drain : Bool) (c : Iss) (s : State) : Xfer := Xfer.make f drain (w c s) (brec c s)
    let rows (c : Iss) (s : State) : List Nat := selRows c.lau.width f.lb (c.execMask s f.head)
    let ok (drain : Bool) (c : Iss) (s : State) : Prop :=
      16 * f.lb.toNat + 16 ≤ max c.lau.width 16 ∧ (x drain c s).shapeBad f drain (w c s) = false ∧ rows c s ≠ [] ∧
      xferStop s c.tid c.sp.fmt f drain (x drain c s) (rows c s) = none ∧ s.opsOf c.gid = []
    let starts (i : Instr) (drain : Bool) (next : Nat → Instr) : Prop :=
      Completes i (fun c s => c.may i s ∧ ok drain c s) fun c s t =>
        Flying i c s t (fun o => o.path = some 4 ∧ o.phase = .running ∧ o.shape = w c s ∧ o.brec = brec c s ∧ o.snap = [] ∧ o.regs = [] ∧
          ∀ r, r < 16 → (o.rows.getLsbD r = true ↔ r ∈ rows c s)) ∧
        GoesOn 28 none c s t ∧ t.dev = { s.dev with nextId := s.dev.nextId + 1, due := s.dev.due ++ [next s.dev.nextId] } ∧ SameMemory s t ∧
        SameTables [Tab.splits.num, Tab.ops.num, Tab.blocks.num, Tab.groups.num] s t
    starts (.tload f) false .tloadComplete ∧ starts (.tdrain f) true .tdrainSnapshot)

/-- R255, R259, R260, R265, R271, R272: at its turn an MMA checks its operands, and fails at a scale record that does not fit; a block of it accumulates 32
elements of K into the selected rows, exactly for integers; a TLOAD at its turn reads its rows and then writes them; a TDRAIN takes its snapshot and then writes
it; the last step ends the instruction. -/
def Obligations.MatrixSteps : Prop :=
  ∀ (id : Nat) (o : Op) (x : Group) (b : Block) (tm : Team),
    let there (phase : OpPhase) (s : State) : Prop :=
      Tab.ops.at id s = some o ∧ s.ops = [(id, o)] ∧ o.phase = phase ∧ s.stale (.core (coreOf o.gid)) o.ctx o.inc = false ∧ o.path = some 4 ∧
      s.group? o.gid = some x ∧ x.bid = o.bid ∧ s.block? o.bid = some b ∧ o.tile < 128
    let turn (s : State) : Prop := there .running s
    let open_ (s : State) : Prop := s.unmarked ∧ s.watch = [] ∧ s.team? b.tid = some tm ∧ s.stale (.gallery tm.cluster) o.ctx o.inc = false
    let row (r : Nat) : Prop := o.rows.getLsbD r = true
    let word_ (r n : Nat) : BitVec 32 := (o.snap[32 * r + n]?).getD 0
    let reads (byte : State → Nat → Nat → Byte) (s t : State) : Prop :=
      (∃ y, Tab.ops.at id t = some y ∧ y.phase = .running ∧ y.rows = o.rows ∧ ∀ r n, r < 16 → n < 32 → row r →
        y.snap[32 * r + n]? = some (word (natOfBytes [byte s r (4 * n), byte s r (4 * n + 1), byte s r (4 * n + 2), byte s r (4 * n + 3)]))) ∧
      .tloadComplete id ∈ t.dev.due ∧ t.tiles = s.tiles ∧ SameMemory s t
    (∀ f : MmaForm, o.instr = .mma f →
      let m := Mma.make o.shape o.fmt
      let checks (s t : State) : Prop :=
        SameTables [Tab.ops.num, Tab.gside.num, Tab.clusters.num, Tab.cores.num] s t ∧
        ∀ e ∈ spanSectors ((m.parts o.rowList).flatMap (·.2)), Tab.gside.val SideRec.init (b.tid * 2 ^ 19 + e.1) t =
          { tslot := BitVec.ofNat 9 (opTslot s o), tstamp := (Tab.teamCnt.val 0 (b.tid * 512 + opTslot s o) s).setWidth 12, mask := e.2, cls := mcRead }
      Occurs (.mmaBlock id) (fun s => there .checking s ∧ s.frozen o.gid = false ∧ open_ s ∧ m.badScale s b.tid o.rowList = none)
        (fun s t => Tab.ops.at id t = some { o with phase := .running } ∧ .mmaBlock id ∈ t.dev.due ∧ checks s t) ∧
      (∀ va, Occurs (.mmaBlock id) (fun s => there .checking s ∧ s.frozen o.gid = false ∧ open_ s ∧ m.badScale s b.tid o.rowList = some va)
        fun s t => (∃ y e, Tab.ops.at id t = some y ∧ y.phase = .failed ∧ y.fail = some e ∧ e.cause = 0x33) ∧ t.tiles = s.tiles ∧ SameMemory s t) ∧
      Occurs (.mmaBlock id) (fun s => turn s ∧ s.frozen o.gid = false)
        fun s t =>
          let first := 32 * o.prog
          let ea (r k : Nat) : Int := codeInt m.af (winElem s b.tid m.af m.ap m.astr m.aoff r k)
          let eb (n k : Nat) : Int := codeInt m.bf (winElem s b.tid m.bf m.bp m.bstr m.boff n k)
          let dot (r n : Nat) : Int := ((List.range (min 32 (m.k - first))).map fun k => ea r (first + k) * eb n (first + k)).sum
          (∀ u v r n, v < 128 → r < 16 → n < 32 → ¬ (u = o.bid ∧ v = f.tile.toNat ∧ row r) → t.tile u v r n = s.tile u v r n) ∧
          (∀ r n, r < 16 → n < 32 → row r →
            let old : Int := if o.prog = 0 ∧ f.noacc = true then 0 else (s.tile o.bid f.tile.toNat r n).toInt
            let sum := old + (if f.nega = f.negb then dot r n else - dot r n)
            (m.acc = 0 → t.tile o.bid f.tile.toNat r n = (m.word s f b.tid r n o.prog (s.tile o.bid f.tile.toNat r n)).1) ∧
            (m.acc ≠ 0 → m.acc ≠ 2 → t.tile o.bid f.tile.toNat r n = BitVec.ofInt 32 sum) ∧
            (m.acc = 2 → (t.tile o.bid f.tile.toNat r n).toInt = max (-(2 ^ 31)) (min (2 ^ 31 - 1) sum))) ∧
          (if m.nb ≤ o.prog + 1 then Tab.ops.at id t = none else (Tab.ops.at id t).map (·.prog) = some (o.prog + 1) ∧ .mmaBlock id ∈ t.dev.due) ∧
          SameMemory s t) ∧
    (∀ f : XferForm, o.instr = .tload f →
      let y := Xfer.make f false o.shape o.brec
      let va (r i : Nat) : Nat := sideVa y.buf (y.row r + i)
      let core := coreOf o.gid
      Occurs (.tloadComplete id) (fun s => turn s ∧ o.snap = [] ∧ f.mem = false ∧ y.len = 128 ∧ open_ s)
        (reads fun s r i => Tab.win.val 0 (winKey b.tid (y.row r + i)) s) ∧
      Occurs (.tloadComplete id)
        (fun s => turn s ∧ o.snap = [] ∧ f.mem = true ∧ y.buf.ro = true ∧ y.len = 128 ∧ s.watch = [] ∧
          (match probeBytes s o.ctx core .load .load (y.bytesOf f o.rowList) with | .ok => True | _ => False) ∧
          s.heldAt ((y.bytesOf f o.rowList).map (s.phys o.ctx)) = false ∧ s.droppedAt o ((y.bytesOf f o.rowList).map (s.phys o.ctx)) = false ∧
          ∀ v ∈ y.bytesOf f o.rowList, isHomed (s.phys o.ctx v) = true ∧ s.poisoned (s.phys o.ctx v / 32) = false)
        (reads fun s r i => sectorByte (s.pastL1 core (s.phys o.ctx (va r i) / 32)) (s.phys o.ctx (va r i) % 32)) ∧
      Occurs (.tloadComplete id) (fun s => turn s ∧ o.snap ≠ [])
        fun s t => (∀ u v r n, v < 128 → r < 16 → n < 32 → t.tile u v r n = if u = o.bid ∧ v = f.tile.toNat ∧ row r then word_ r n else s.tile u v r n) ∧
          Tab.ops.at id t = none ∧ SameBut [Tab.ops.num, Tab.tiles.num, Tab.tpoison.num] s t) ∧
    (∀ f : XferForm, o.instr = .tdrain f → Occurs (.tdrainSnapshot id)
      (fun s => turn s ∧ o.snap = [] ∧ ∀ r n, r < 16 → n < 32 → row r → Tab.tpoison.val false (tileKey o.bid o.tile r n) s = false)
      fun s t => (∃ y, Tab.ops.at id t = some y ∧ ∀ r n, r < 16 → n < 32 → y.snap[32 * r + n]? = some (s.tile o.bid f.tile.toNat r n)) ∧
        t.dev = { s.dev with due := s.dev.due ++ [.tdrainComplete id] } ∧ SameTables [Tab.ops.num] s t) ∧
    (∀ f : XferForm, o.instr = .tdrain f → Occurs (.tdrainComplete id)
      (fun s => turn s ∧ o.snap ≠ [] ∧ o.regs ≠ [] ∧ f.mem = false ∧ f.mode = 0 ∧ open_ s ∧ b.landSlot = none ∧
        (s.launchOf o.gid).map (·.journals) = some false ∧ (Xfer.make f true o.shape o.brec).len = 128 ∧ 128 ≤ (Xfer.make f true o.shape o.brec).pitch)
      fun s t =>
        let y := Xfer.make f true o.shape o.brec
        (∀ r n i, r < 16 → n < 32 → i < 4 → row r →
          Tab.win.val 0 (winKey b.tid (y.row r + 4 * n + i)) t = BitVec.ofNat 8 ((word_ r n).toNat / 256 ^ i)) ∧
        (∀ j, (∀ r i, r < 16 → row r → i < 128 → j ≠ winKey b.tid (y.row r + i)) → Tab.win.val 0 j t = Tab.win.val 0 j s) ∧
        Tab.ops.at id t = none ∧ ∀ pa, t.homeByte pa = s.homeByte pa)

/-! ## Home slices -/

/-- R80: which pairs of classes are compatible, and the cause of the others; records of the requesting slot itself never conflict with it. -/
def Obligations.ClassTable : Prop :=
  (∀ (s : State) (q : Req) (x : Rec) (rest dead : List Rec), x.r.slot = q.slot → scanRecs s q (x :: rest) dead = scanRecs s q rest dead) ∧
  ∀ (n o : BitVec 3), n ≠ 7 → o ≠ 7 → clash n.toNat o.toNat =
    if n = mcPeek ∧ o = mcPeek then none
    else if n = mcPeek then (if o = mcWrite then some 0x21 else none)
    else if o = mcPeek then (if n = mcWrite then some 0x21 else none)
    else if n.toNat ≤ 1 ∧ o.toNat ≤ 1 then (if n = mcRead ∧ o = mcRead then none else some 0x20)
    else if n.toNat ≤ 1 ∨ o.toNat ≤ 1 then some 0x21
    else if n = o then none
    else if n = mcSync ∨ o = mcSync then some 0x23 else some 0x22

/-- R84 to R86: a registration that finds no record leaves its own and is acknowledged; one that finds a record of another slot, of a clashing class, on a
word of its own asks the slot's owner; the owner answers from its present state; a live record refuses the registration, and a dead one gives way. -/
def Obligations.Registration : Prop :=
  ∀ (req : Nat) (q : Req) (e : MarkEntry) (o : Op) (cause : BitVec 8),
    let here (s : State) : Prop :=
      Tab.reqs.at req s = some q ∧ Tab.ops.at q.op s = some o ∧ o.remote = false ∧ s.stale (.slice (homeSlice (q.sector * 32))) q.ctx q.inc = false ∧
      Tab.marks.at q.sector s = some e ∧ isHbm (q.sector * 32) = true ∧ e.r0.ovf = false ∧ e.r1.ovf = false ∧ e.r1.valid = false
    let alone (s : State) : Prop := ∀ x ∈ s.reqs, x.1 ≠ req → x.2.sector ≠ q.sector
    let against : Prop := e.r0.valid = true ∧ e.r0.slot ≠ q.slot ∧ e.r0.mask &&& q.mask ≠ 0 ∧ clash q.cls.toNat e.r0.cls.toNat = some cause ∧
      isPeerSlot e.r0.slot.toNat = false
    let mine : MarkRec := { slot := q.slot, stamp := q.stamp, mask := q.mask, cls := q.cls, ovf := false, valid := true }
    let answer (t : State) (a : SecAns) : Prop :=
      Tab.reqs.at req t = none ∧ ∃ x, Tab.ops.at q.op t = some x ∧ (∀ y ∈ x.secs, y.sector = q.sector → y.ans = a) ∧
        x.secs.map (·.sector) = o.secs.map (·.sector)
    let frame (s t : State) : Prop :=
      SameAt .marks (· = q.sector) s t ∧ SameTables [Tab.marks.num, Tab.reqs.num, Tab.ops.num, Tab.stamps.num] s t ∧ SameMemory s t
    let entered (t : State) : Prop := ∃ x, Tab.marks.at q.sector t = some x ∧ x.r0 = mine ∧ x.o0 = q.origin ∧ x.r1.valid = false
    Occurs (.registration req) (fun s => here s ∧ alone s ∧ q.phase = .sent ∧ e.r0.valid = false)
      (fun s t => entered t ∧ answer t .ack ∧ frame s t) ∧
    Occurs (.registration req)
      (fun s => here s ∧ alone s ∧ q.phase = .sent ∧ against ∧ Tab.stamps.at (homeSlice (q.sector * 32) * 65536 + e.r0.slot.toNat) s = none)
      (fun s t => Tab.reqs.at req t = some { q with phase := .probing e.r0.slot e.r0.stamp } ∧ frame s t) ∧
    Occurs (.livenessProbe req) (fun s => here s ∧ q.phase = .probing e.r0.slot e.r0.stamp)
      (fun s t => Tab.reqs.at req t = some
          { q with phase := .answered e.r0.slot e.r0.stamp (s.slotLive q.ctx e.r0.slot.toNat e.r0.stamp) (s.stampOf e.r0.slot.toNat) } ∧ frame s t) ∧
    (∀ cur, Occurs (.probeAnswer req) (fun s => here s ∧ against ∧ q.phase = .answered e.r0.slot e.r0.stamp true cur)
      (fun s t => answer t (.conflict cause e.r0.slot e.r0.cls e.r0.stamp (e.r0.mask &&& q.mask) e.o0) ∧ frame s t ∧
        (Tab.marks.at q.sector t).map (·.r0) = some e.r0)) ∧
    (∀ cur, Occurs (.probeAnswer req) (fun s => here s ∧ against ∧ q.phase = .answered e.r0.slot e.r0.stamp false cur)
      (fun s t => entered t ∧ answer t .ack ∧ frame s t))

/-- R62, R70, R72, R140, R151: sectors on their way: an eviction sends the dirty bytes of a line home, a write-back merges them there, a slice writes a
dirty sector to memory, and a sector comes from memory to its slice; none changes what a byte of memory reads as but the merge. -/
def Obligations.SectorTraffic : Prop :=
  (∀ (core line : Nat) (l : L1Line), Occurs (.l1Eviction core line)
    (fun s => Tab.l1.at (lineKey core line) s = some l ∧ s.stale (.core core) l.ctx l.inc = false ∧ ∀ i, i < 4 → (l.sec i).pending = 0)
    fun s t => Tab.l1.at (lineKey core line) t = none ∧ SameAt .l1 (· = lineKey core line) s t ∧
      (∀ i, i < 4 → (l.sec i).dirty ≠ 0 → ∃ id, Tab.wbs.at id t = some
        { core := core, sector := line * 4 + i, mask := (l.sec i).dirty, data := (l.sec i).data, ctx := l.ctx, inc := l.inc }) ∧
      SameTables [Tab.l1.num, Tab.wbs.num] s t ∧ ∀ pa, t.homeByte pa = s.homeByte pa) ∧
  (∀ (id : Nat) (b : WriteBk), Occurs (.writeBack (.fromL1 id))
    (fun s => Tab.wbs.at id s = some b ∧ s.stale (.slice (homeSlice (b.sector * 32))) b.ctx b.inc = false ∧ isHomed (b.sector * 32) = true ∧ b.mask ≠ 0)
    fun s t => t.sectorAt b.sector = mergeBytes b.mask (s.sectorAt b.sector) b.data ∧ (∀ k, k ≠ b.sector → t.sectorAt k = s.sectorAt k) ∧
      Tab.wbs.at id t = none ∧ SameBut [Tab.wbs.num, Tab.l2.num] s t) ∧
  (∀ (sector : Nat) (e : L2Sector), Occurs (.writeBack (.fromSlice sector))
    (fun s => Tab.l2.at sector s = some e ∧ e.dirty = true ∧ isHomed (sector * 32) = true ∧ s.pausedAt (sector * 32) = false ∧
      s.stale (.slice (homeSlice (sector * 32))) e.ctx e.inc = false ∧ s.stale (.controller (stackOf (sector * 32))) e.ctx e.inc = false)
    fun s t => Tab.l2.at sector t = some { e with dirty := false } ∧ (∀ i, i < 32 → Tab.mem.val 0 (sector * 32 + i) t = sectorByte e.data i) ∧
      Tab.poison.val 0 sector t = e.poison ∧ (∀ pa, t.homeByte pa = s.homeByte pa) ∧ SameBut [Tab.mem.num, Tab.poison.num, Tab.l2.num] s t) ∧
  (∀ (sector : Nat) (st : SectorStatus), Occurs (.memoryResponse sector st)
    (fun s => Tab.l2.at sector s = none ∧ isHomed (sector * 32) = true ∧ s.pausedAt (sector * 32) = false ∧
      s.stale (.slice (homeSlice (sector * 32))) (s.ownerOf (sector * 32)).1 (s.ownerOf (sector * 32)).2 = false ∧
      s.stale (.controller (stackOf (sector * 32))) (s.ownerOf (sector * 32)).1 (s.ownerOf (sector * 32)).2 = false)
    fun s t => Tab.l2.at sector t = some { ctx := (s.ownerOf (sector * 32)).1, inc := (s.ownerOf (sector * 32)).2, data := s.sectorAt sector,
                                           dirty := false, poison := if st = .uncorrectable then BitVec.allOnes 32 else s.poisonOf sector } ∧
      (∀ pa, t.homeByte pa = s.homeByte pa) ∧ SameTables [Tab.poison.num, Tab.l2.num] s t) ∧
  (∀ (g : Nat) (x : Group), Becomes (.releaseWritebackAck g)
    (fun s => s.group? g = some x ∧ ∀ e ∈ s.wbs, e.2.core ≠ coreOf g) fun s => Tab.groups.put g { x with relPending := false } s)

/-- R91 to R93, R182: a quarter notice clears the slot's records of the opposite quarter and is then acknowledged; the window counter follows the clock and
never goes back. -/
def Obligations.QuartersAndWindows : Prop :=
  ∀ (slot k c sector q : Nat) (e : MarkEntry) (n : Notice),
    let only (s : State) (u : NoticeUnit) : Prop :=
      q < 4 ∧ s.noticesOf slot = [(slot * 4 + q, n)] ∧ n.quarter = q ∧ u ∈ n.left
    let bare (s : State) : Prop :=
      s.marks = [(sector, e)] ∧ homeSlice (sector * 32) = k ∧ isHbm (sector * 32) = true ∧ e.r0.ovf = false ∧ e.r1.ovf = false ∧ s.side = [] ∧
      s.spills = [] ∧ s.ovfOf (s.ownerOf (sector * 32)).1 sector = []
    let old (r : MarkRec) : Bool := r.slot.toNat == slot && r.stamp.toNat / 16384 == (q + 2) % 4
    let rest (d : MarkRec → Bool) (r : MarkRec) : MarkRec := { r with valid := r.valid && !d r }
    Occurs (.quarterNotice slot (.slice k)) (fun s => only s (.slice k) ∧ .slice k ∉ n.handled ∧ bare s)
      (fun s t => (∃ x, Tab.marks.at sector t = some x ∧ x.r0 = rest old e.r0 ∧ x.r1 = rest old e.r1) ∧
        Tab.stamps.at (k * 65536 + slot) t = none ∧
        Tab.notices.at (slot * 4 + q) t = some { n with handled := .slice k :: n.handled } ∧
        t.dev = { s.dev with due := s.dev.due ++ [.quarterNoticeAck slot (.slice k)] } ∧ SameMemory s t) ∧
    Occurs (.quarterNotice slot (.gallery c)) (fun s => only s (.gallery c) ∧ .gallery c ∉ n.handled)
      (fun s t => (t.cluster c).overflow = ((s.cluster c).overflow.filter fun r => match r with | .foreign _ _ r _ _ => !old r | .own _ _ _ => true) ∧
        Tab.notices.at (slot * 4 + q) t = some { n with handled := .gallery c :: n.handled } ∧
        t.dev = { s.dev with due := s.dev.due ++ [.quarterNoticeAck slot (.gallery c)] } ∧ SameMemory s t) ∧
    (∀ u, Occurs (.quarterNoticeAck slot u) (fun s => only s u ∧ u ∈ n.handled)
      (fun s t => Tab.notices.at (slot * 4 + q) t =
          (if n.left.filter (· != u) = [] then none else some { n with left := n.left.filter (· != u), handled := n.handled.filter (· != u) }) ∧
        SameAt .notices (· = slot * 4 + q) s t ∧ SameBut [Tab.notices.num] s t)) ∧
    Occurs (.fabricQuarterNotice k) (fun s => bare s ∧ s.fnotices = [])
      (fun s t =>
        let dead (r : MarkRec) : Bool := isPeerSlot r.slot.toNat && 2 ≤ (s.dev.window % 65536 + 65536 - r.stamp.toNat) % 65536
        (∃ x, Tab.marks.at sector t = some x ∧ x.r0 = rest dead e.r0 ∧ x.r1 = rest dead e.r1) ∧
        t.dev = { s.dev with due := s.dev.due ++ [.fabricQuarterNoticeAck k] } ∧ SameMemory s t) ∧
    Occurs (.fabricQuarterNoticeAck k) (fun s => s.wf)
      (fun s t => (∀ j, Tab.fnotices.val 0 j t = if j / 4 = k ∧ Tab.fnotices.val 0 j s % 2 = 1 then 0 else Tab.fnotices.val 0 j s) ∧
        SameBut [Tab.fnotices.num] s t) ∧
    Occurs .windowAdvance (fun _ => True)
      (fun s t => t.dev.window = max s.dev.window s.windowDue ∧
        (t.dev.window / 16384 ≠ s.dev.window / 16384 → ∀ j, j < 64 → .fabricQuarterNotice j ∈ t.dev.due ∧
          Tab.fnotices.val 0 (j * 4 + t.dev.window / 16384 % 4) t ≠ 0) ∧ (s.dev.window = t.dev.window → SameTables [] s t) ∧
        SameTables [Tab.fnotices.num] s t ∧ SameMemory s t)

/-- R73: a purge leaves no mark record of the pages' sectors; a move carries a live record to the sector of the new page, and leaves none behind. -/
def Obligations.PageMarks : Prop :=
  (∀ page count : Nat, Occurs (.pagePurge page count) (fun _ => True)
    fun s t => (∀ i, i < count * 128 → Tab.marks.at (page * 128 + i) t = none ∧ Tab.side.val 0 (page * 128 + i) t = 0) ∧
      SameAt .marks (fun k => page * 128 ≤ k ∧ k < (page + count) * 128) s t ∧ SameAt .side (fun k => page * 128 ≤ k ∧ k < (page + count) * 128) s t) ∧
  (∀ (src dst k : Nat) (e d : MarkEntry), Occurs (.pageMove src dst 1)
    (fun s => src ≠ dst ∧ k < 128 ∧ (∀ i, i < 128 → isHbm ((src * 128 + i) * 32) = true ∧ isHbm ((dst * 128 + i) * 32) = true) ∧
      (∀ i, i < 128 → i ≠ k → Tab.marks.at (src * 128 + i) s = none) ∧ (∀ i, i < 128 → Tab.side.val 0 (src * 128 + i) s = 0) ∧
      (∀ i, i < 128 → s.ovfOf (s.ownerOf ((src * 128 + i) * 32)).1 (src * 128 + i) = []) ∧ s.marks.length < 15 ∧
      Tab.marks.at (src * 128 + k) s = some e ∧ e.r0.valid = true ∧
      s.recLive (s.ownerOf ((src * 128 + k) * 32)).1 (homeSlice ((src * 128 + k) * 32)) e.r0 = true ∧ e.r0.ovf = false ∧ e.r1.valid = false ∧ e.r1.ovf = false ∧
      Tab.marks.at (dst * 128 + k) s = some d ∧ d.r0.valid = false ∧ d.r0.ovf = false ∧ d.r1.valid = false ∧ d.r1.ovf = false)
    fun s t => (∀ i, i < 128 → Tab.marks.at (src * 128 + i) t = none) ∧
      (Tab.marks.at (dst * 128 + k) t).map (·.r0) = some e.r0 ∧ (∀ pa, t.homeByte pa = s.homeByte pa))

/-- R104, R105, R108, R110, R113: a walk that serves an access fills the TLBs of its core and its cluster, one that lacks a needed right fills none, a shootdown leaves no translation of its range, parks are posted to
the ring and started again, an oldest park becomes a fault, and a request to a lost peer fails with 0x17. -/
def Obligations.TranslationAndParks : Prop :=
  (∀ (w id v : Nat) (k : Walk) (o : Op) (x : Xlat),
    let walks (s : State) : Prop :=
      Tab.walks.at w s = some k ∧ s.ops = [(id, o)] ∧ o.lines = [(v, .walking w)] ∧ (s.walks.filter fun e => e.1 < w && e.2.die == k.die).length < 256 ∧
      s.stale (.tlb (clusterOf k.core)) k.ctx k.inc = false ∧ s.translate k.ctx (k.page * 4096) = .ok x
    let answered (l : LineTr) (s t : State) : Prop :=
      Tab.walks.at w t = none ∧ (∃ y, Tab.ops.at id t = some y ∧ y.lines = [(v, l)] ∧ y.lanes = o.lanes ∧ y.unf = o.unf) ∧
      (∀ pa, t.homeByte pa = s.homeByte pa) ∧ t.vregs = s.vregs ∧ t.sregs = s.sregs
    Occurs (.pageTableWalk w) (fun s => walks s ∧ o.needs.met x = true)
      (fun s t =>
        let e : TlbEnt := { inc := k.inc, pa := x.pa - k.page * 4096 % 2 ^ x.size, size := x.size, rd := x.rd, wr := x.wr, ex := x.ex }
        let page := k.page * 4096 / 2 ^ x.size * 2 ^ (x.size - 12)
        Tab.tlb1.at (tlbKey k.core k.ctx page) t = some e ∧ Tab.tlb2.at (tlbKey (clusterOf k.core) k.ctx page) t = some e ∧
        answered (.ok ((x.pa + v * 128 % 4096) / 128)) s t) ∧
    Occurs (.pageTableWalk w) (fun s => walks s ∧ o.needs.met x = false)
      (fun s t => t.tlb1 = s.tlb1 ∧ t.tlb2 = s.tlb2 ∧ answered (.park 0x11 false false) s t)) ∧
  (∀ (ctx va len : Nat), Occurs (.shootdown ctx va len) (fun _ => True)
    fun s t =>
      let hit (e : Nat × TlbEnt) : Bool :=
        e.1 / 2 ^ 45 % 4096 == ctx && (e.1 % 2 ^ 45 * 4096 < va + len && va < e.1 % 2 ^ 45 * 4096 + 2 ^ e.2.size)
      (∀ e ∈ t.tlb1, hit e = false) ∧ (∀ e ∈ t.tlb2, hit e = false) ∧ SameBut [Tab.tlb1.num, Tab.tlb2.num] s t ∧ SameMemory s t) ∧
  (∀ (ctx id : Nat) (o : Op) (f : Failure), Occurs (.faultRecordPost ctx)
    (fun s => s.parkedOps ctx = [(id, o)] ∧ Tab.ops.at id s = some o ∧ o.unposted = true ∧ o.fail = some f ∧ s.ringRoom ctx = true ∧
      s.fwMay 2 .store ((s.ctx ctx).frbase.toNat + 32 * ((s.ctx ctx).frtail.toNat % 2 ^ (s.ctx ctx).frsize.toNat)) 32 = true)
    fun s t => (t.ctx ctx).frtail.toNat = ((s.ctx ctx).frtail.toNat + 1) % 2 ^ (s.ctx ctx).frsize.toNat ∧
      (∃ x, Tab.ops.at id t = some x ∧ x.unposted = false ∧ x.phase = .parked) ∧
      SameBut [Tab.ops.num, Tab.ctxs.num, Tab.mem.num, Tab.l2.num] s t) ∧
  (∀ (master ctx : Nat) (v : BitVec 20), Occurs (.frheadWrite master ctx v) (fun s => s.granted master .store (0xF000010000010 + 64 * ctx) 8 = true)
    fun s t => (∀ k, t.ctx k = if k = ctx then { s.ctx ctx with frhead := v } else s.ctx k) ∧
      t.dev = { s.dev with due := s.dev.due ++ [.faultRecordPost ctx] } ∧ SameTables [Tab.ctxs.num] s t) ∧
  (∀ (ctx id : Nat) (o : Op), Occurs (.replay ctx)
    (fun s => s.parkedOps ctx = [(id, o)] ∧ Tab.ops.at id s = some o ∧ isMemory o.instr = true ∧ o.vlines ≠ [] ∧ s.tlb1 = [] ∧ s.tlb2 = [])
    fun s t => (∃ x, Tab.ops.at id t = some x ∧ x.phase = .walking ∧ x.unf = o.unf ∧ x.lanes = o.lanes ∧ x.instr = o.instr ∧
        x.lines.map (·.1) = o.vlines) ∧ SameTables [Tab.ops.num, Tab.walks.num] s t ∧ SameMemory s t) ∧
  (∀ (ctx id : Nat) (slot : BitVec 16) (o : Op) (f : Failure), Becomes (.convert ctx slot)
    (fun s => (s.parkedOps ctx).find? (fun e => e.2.slot == slot) = some (id, o) ∧ Tab.ops.at id s = some o ∧ o.fail = some f ∧
      localOfSlot o.slot.toNat < 96)
    fun s => Tab.ops.put id { o with phase := .failed, fail := some f } s) ∧
  (∀ (id lane line : Nat) (o : Op), Occurs (.fabricResponseTimeout id)
    (fun s => Tab.ops.at id s = some o ∧ o.phase = .responding ∧ lostPeer s o = true ∧ remoteLane o = some (lane, line) ∧
      (memKind o.instr).write = false)
    fun s t => (∃ x f, Tab.ops.at id t = some x ∧ x.phase = .failed ∧ x.fail = some f ∧ f.cause = 0x17) ∧ SameAt .ops (· = id) s t ∧
      SameBut [Tab.ops.num] s t ∧ SameMemory s t)

/-! ## Tasks (R301 to R331) -/

/-- R301, R308, R312, R313, R317, R320, R323 to R330: the task instructions complete when their object's access goes through and the object allows it:
TWAIT returns a filled future's value, LKACQ takes a free lock, QPUSH and QPOP move an entry of four words, QREG registers a descriptor, TSPAWN makes an
UNSTARTED task and returns its handle, TFILL fills an EMPTY future, LKREL frees the lock it holds, TEND of a group's only task ends the group; an operation
leaves tk at its acknowledge, a woken group acts again, and a queue wait that can still end is not reported. -/
def Obligations.Tasks : Prop :=
  ∀ (va pa : Nat) (v : State),
    let base : List Nat := [Tab.splits.num, Tab.groups.num, Tab.icount.num, Tab.notices.num, Tab.teamCnt.num, Tab.tscan.num, Tab.filter.num,
                            Tab.cores.num]
    let stored : List Nat := base ++ [Tab.blocks.num, Tab.mem.num, Tab.l2.num]
    let ended (c : Iss) (w t : State) : Prop := t.icountOf c.slot = w.icountOf c.slot + 1 ∧ MovedTo c c.next w t
    let acquired (c : Iss) (w t : State) : Prop :=
      ended c w t ∧ (t.core c.core).gen = (w.core c.core).gen + 1 ∧ (t.group? c.gid).map (·.va) = some ((w.core c.core).gen + 1)
    let mayAcquire (c : Iss) : Prop := (v.core c.core).gen ≠ 0xFFFFFF
    (∀ (d : BitVec 6) (m : UMem), Completes (.twait d m)
      (fun c s => c.reaches (.twait d m) m 16 .load .load none va pa (c.only43 (.twait d m) 16 va fun s => s.homeNat (pa + 8) 1 ≤ 2) s v ∧ mayAcquire c ∧
        (v.homeNat (pa + 8) 1 = 1 ∨ v.homeNat (pa + 8) 1 = 2 ∨
          (v.homeNat (pa + 8) 1 = 0 ∧ v.taskDone c.lau.ctx (v.homeNat (pa + 12) 4) = true)))
      fun c _ t => acquired c v t ∧ WroteU c.gid true d (if v.homeNat (pa + 8) 1 = 1 then v.homeNat pa 8 else 0) v t ∧
        SameTables (Tab.sregs.num :: base) v t ∧ SameMemory v t) ∧
    (∀ m : UMem, Completes (.lkacq m)
      (fun c s => c.reaches (.lkacq m) m 4 .atomic .atomic none va pa (c.notOwn (.lkacq m) va pa) s v ∧ mayAcquire c ∧ c.lau.journals = false ∧
        v.homeNat pa 4 ≠ c.ownHandle ∧ (v.homeNat pa 4 = 0xFFFFFFFF ∨ v.taskDone c.lau.ctx (v.homeNat pa 4) = true))
      fun c _ t => acquired c v t ∧ WroteAt pa 4 c.ownHandle v t ∧ (t.group? c.gid).map (·.locks) = some (c.grp.locks + 1) ∧
        SameTables stored v t) ∧
    (∀ (d : BitVec 6) (m : UMem) (epa : Nat) (w : State), Completes (.qpush d m)
      (fun c s =>
        let q := v.queueAt pa
        c.reaches (.qpush d m) m 64 .atomic .atomic (some .dev) va pa (c.only43 (.qpush d m) 64 va fun s => (s.queueAt pa).reg) s v ∧ c.lau.journals = false ∧ q.reg = true ∧ q.tail - q.head < q.cap ∧
        v.fifoRows c.lau va = 0 ∧ SameButMarks v w ∧
        ∀ k, (c.entrySlot (.qpush d m) q q.tail .atomic .atomic k).run v = (k epa).run w)
      fun c _ t =>
        let q := v.queueAt pa
        ended c w t ∧ (t.block? c.bid).map (·.escaped) = some true ∧ SameTables stored w t ∧
        ∀ a, t.homeByte a =
          if pa + 24 ≤ a ∧ a < pa + 32 then BitVec.ofNat 8 ((q.tail + 1) / 256 ^ (a - (pa + 24)))
          else if epa ≤ a ∧ a < epa + 16 then BitVec.ofNat 8 ((v.squad c.gid d.toNat).toNat / 256 ^ (a - epa)) else w.homeByte a) ∧
    (∀ (d : BitVec 6) (m : UMem) (epa : Nat) (w : State), Completes (.qpop d m)
      (fun c s =>
        let q := v.queueAt pa
        c.reaches (.qpop d m) m 64 .atomic .atomic none va pa (c.only43 (.qpop d m) 64 va fun s => (s.queueAt pa).reg) s v ∧ mayAcquire c ∧ c.lau.journals = false ∧ q.reg = true ∧ q.head < q.tail ∧
        Tab.fifo.at (fifoKey c.tag va q.head) v = none ∧ SameButMarks v w ∧
        ∀ k, (c.entrySlot (.qpop d m) q q.head .load .load k).run v = (k epa).run w)
      fun c _ t =>
        acquired c w t ∧ WroteAt (pa + 16) 8 ((v.queueAt pa).head + 1) w t ∧
        (∀ g r, r < 64 → t.sreg g r =
          if g = c.gid ∧ d.toNat ≤ r ∧ r < d.toNat + 4 ∧ r ≠ 63 then word (w.homeNat (epa + 4 * (r - d.toNat)) 4) else w.sreg g r) ∧
        SameTables (Tab.sregs.num :: Tab.fifo.num :: stored) w t) ∧
    (∀ (sb : Bool) (m : UMem), Completes (.qreg sb m)
      (fun c s => c.reaches (.qreg sb m) m 64 .atomic .atomic none va pa (c.only43 (.qreg sb m) 64 va fun s => queueOk s pa) s v ∧ queueOk v pa = true ∧ v.homeNat (pa + 12) 2 = 0)
      fun c _ t => MovedTo c c.next v t ∧ SameBut [Tab.splits.num, Tab.mem.num, Tab.l2.num] v t ∧
        ∀ a, t.homeByte a =
          if pa + 40 ≤ a ∧ a < pa + 44 then BitVec.ofNat 8 (2 ^ 31 / 256 ^ (a - (pa + 40)))
          else if pa + 16 ≤ a ∧ a < pa + 32 then 0 else v.homeByte a) ∧
    (∀ (sb : Bool) (d : BitVec 6) (m : UMem) (n : Nat),
      let i := Instr.tspawn sb d m
      Completes i
        (fun c s =>
          let o := c.taskOp i m va 0 s
          let u := c.sent i m va 0 1 s
          let ro := (Buf.of (s.breg c.gid m.buf.toNat)).ro
          let r := (touchSector c.gid c.core o.ctx o.inc (pa / 32) ro (BitVec.allOnes 32)).run u
          let desc := (r.seen c.gid c.core (pa / 32) ro).toNat
          s.counter c.gid 5 < 63 ∧ objFront c s m 32 true = .at_ va ∧ s.gate c (some .dev) = .go ∧
          probeBytes u o.ctx c.core .load .load (vasOf va 32) = .ok ∧ pa = u.phys o.ctx va ∧ isHomed pa = true ∧
          (∀ k : Act, (if ro then k else opSynced s.dev.nextId o mcRead pa 32 (objBlame i 0 32 va) noCheck k).run r = k.run v) ∧
          SameButMarks u v ∧ v.undisturbed ∧ c.lau.journals = false ∧ c.core < 256 ∧ descOk r c.lau desc = true ∧ descFuture desc = 0 ∧
          r.freeTask c.lau.ctx = some n)
        fun c s t =>
          let ro := (Buf.of (s.breg c.gid m.buf.toNat)).ro
          let r := (touchSector c.gid c.core c.lau.ctx c.lau.inc (pa / 32) ro (BitVec.allOnes 32)).run (c.sent i m va 0 1 s)
          let desc := (r.seen c.gid c.core (pa / 32) ro).toNat
          let gen := (r.taskEnt c.lau.ctx n).gen
          let h := handleOf gen n
          Tab.ops.at s.dev.nextId t = some { c.taskOp i m va 0 s with phase := .responding } ∧ .taskAcknowledge s.dev.nextId ∈ t.dev.due ∧
          GoesOn 4 none c s t ∧ t.icountOf c.slot = s.icountOf c.slot + 1 ∧ WroteU c.gid false d h s t ∧
          t.taskEnt c.lau.ctx n = descEnt c.core c.lau desc gen 1 0xFFFF c.grp.thandle ∧
          (t.ctx c.lau.ctx).ttused = (s.ctx c.lau.ctx).ttused + 1 ∧ (t.core c.core).tasks = (s.core c.core).tasks ++ [(tagKey c.lau.ctx c.lau.inc, word h)] ∧
          (∀ a, ¬ (v.taskAddr c.lau.ctx n ≤ a ∧ a < v.taskAddr c.lau.ctx n + 64) → t.homeByte a = v.homeByte a)) ∧
    (∀ (sb : Bool) (d : BitVec 6) (m : UMem),
      let i := Instr.tfill sb d m
      let x (c : Iss) (s : State) : Nat := (s.spair c.gid d.toNat).toNat
      Completes i
        (fun c s =>
          let o := c.taskOp i m va (x c s) s
          let u := c.sent i m va (x c s) 0 s
          s.counter c.gid 5 < 63 ∧ objFront c s m 16 false = .at_ va ∧ s.gate c (some .dev) = .go ∧
          probeBytes u o.ctx c.core .atomic .atomic (vasOf va 16) = .ok ∧ pa = u.phys o.ctx va ∧ isHomed pa = true ∧
          (∀ k : Act, (opSynced s.dev.nextId o mcSync pa 16 (objBlame i 0 16 va)
            (fun w => if w.homeNat (pa + 8) 1 == 0 then none else some (failEngine s.dev.nextId o (objBlame i 0x43 16 va) 0)) k).run u = k.run v) ∧
          SameButMarks u v ∧ v.undisturbed ∧ v.homeNat (pa + 8) 1 = 0)
        fun c s t =>
          Tab.ops.at s.dev.nextId t = some { c.taskOp i m va (x c s) s with phase := .responding } ∧ .taskAcknowledge s.dev.nextId ∈ t.dev.due ∧
          GoesOn 4 none c s t ∧ t.icountOf c.slot = s.icountOf c.slot + 1 ∧ WroteAt pa 9 (x c s + 2 ^ 64) v t ∧
          SameTables (Tab.ops.num :: stored) v t) ∧
    (∀ (sb : Bool) (m : UMem),
      let i := Instr.lkrel sb m
      Completes i
        (fun c s =>
          let o := c.taskOp i m va c.ownHandle s
          let u := c.sent i m va c.ownHandle 0 s
          s.counter c.gid 5 < 63 ∧ objFront c s m 4 false = .at_ va ∧ s.gate c (some .dev) = .go ∧
          probeBytes u o.ctx c.core .atomic .atomic (vasOf va 4) = .ok ∧ pa = u.phys o.ctx va ∧ isHomed pa = true ∧
          (∀ k : Act, (opSynced s.dev.nextId o mcSync pa 4 (objBlame i 0 4 va)
            (fun w => if w.homeNat pa 4 == c.ownHandle then none else some (failEngine s.dev.nextId o (objBlame i 0x46 4 va) 0)) k).run u = k.run v) ∧
          SameButMarks u v ∧ v.undisturbed ∧ v.homeNat pa 4 = c.ownHandle)
        fun c s t =>
          Tab.ops.at s.dev.nextId t = some { c.taskOp i m va c.ownHandle s with phase := .responding } ∧
          .taskAcknowledge s.dev.nextId ∈ t.dev.due ∧ GoesOn 4 none c s t ∧ t.icountOf c.slot = s.icountOf c.slot + 1 ∧
          WroteAt pa 4 0xFFFFFFFF v t ∧ (t.group? c.gid).map (·.locks) = some (c.grp.locks - 1) ∧ SameTables (Tab.ops.num :: stored) v t) ∧
    (∀ sb : Bool, Completes (.tend sb)
      (fun c s =>
        let e := s.taskEnt c.lau.ctx (handleIdx c.grp.thandle.toNat)
        c.grp.thandle ≠ 0xFFFFFFFF ∧ c.grp.depth = 0 ∧ c.grp.locks = 0 ∧ s.opsOf c.gid = [] ∧ s.gate c (some .dev) = .go ∧
        c.mayAdvanceTwice s = true ∧ e.future = 0 ∧ s.taskKnown c.lau.ctx c.grp.thandle.toNat = true ∧ c.oldestTask s = none ∧
        (s.ctx c.lau.ctx).cstate = 1 ∧ s.undisturbed ∧ c.blk.gids.filter (· != c.gid) ≠ [])
      fun c s t =>
        let h := c.grp.thandle.toNat
        t.group? c.gid = none ∧ SameAt .groups (· = c.gid) s t ∧ (∀ n, n < 4 → t.split? c.gid n = none) ∧
        t.block? c.bid = some { c.blk with gids := c.blk.gids.filter (· != c.gid), escaped := true } ∧
        WroteAt (s.taskAddr c.lau.ctx (handleIdx h)) 4 ((if handleGen h = 0xFFE then 0 else handleGen h + 1) * 2 ^ 20) s t ∧
        (t.ctx c.lau.ctx).ttused = (s.ctx c.lau.ctx).ttused - 1 ∧ t.icountOf c.slot = s.icountOf c.slot + 1) ∧
    (∀ (id : Nat) (o : Op), Occurs (.taskAcknowledge id) (fun s => Tab.ops.at id s = some o ∧ o.path = some 5 ∧ o.phase = .responding)
      fun s t => (∀ x, Tab.ops.at id t = some x → x.phase = .done) ∧ SameBut [Tab.ops.num] s t ∧ SameMemory s t) ∧
    (∀ (g : Nat) (x : Group) (b : Blocker), Occurs (.groupWake g) (fun s => s.group? g = some x ∧ x.blocker = some b ∧ b.woken = true)
      fun s t => t.group? g = some { x with blocker := none } ∧ SameAt .groups (· = g) s t ∧
        (∀ n y, n < 4 → s.split? g n = some y →
          t.split? g n = some (if y.wait = .parkedTask then { y with wait := .ready } else y)) ∧
        SameBut [Tab.groups.num, Tab.splits.num] s t ∧ SameMemory s t) ∧
    (∀ ctx t0 : Nat, Occurs (.queueDeadlock ctx) (fun s => (s.ctx ctx).qdead = some t0 ∧ s.queuesDead ctx = false)
      fun s t => (∀ k, t.ctx k = if k = ctx then { s.ctx ctx with qdead := none } else s.ctx k) ∧ SameBut [Tab.ctxs.num] s t ∧ SameMemory s t) ∧
    (∀ (ctx t0 : Nat) (c : Iss) (b : Blocker), Occurs (.queueDeadlock ctx)
      (fun s => (s.ctx ctx).qdead = some t0 ∧ s.queuesDead ctx = true ∧ t0 + 10 ≤ s.us ∧ s.groups = [(c.gid, c.grp)] ∧ c.n = 0 ∧
        s.splitsOf c.gid = [0] ∧ Iss.of s c.gid 0 (.qpop 0 { sa := 63, buf := 0, off := 0 }) = some c ∧ c.sp.wait = .parkedTask ∧ c.sp.outs = [] ∧
        s.ops = [] ∧ c.grp.blocker = some b ∧ c.grp.thandle = 0xFFFFFFFF ∧ c.canTrap)
      fun _ t => (t.ctx ctx).qdead = none ∧
        (∃ x sh y, t.group? c.gid = some x ∧ x.shadow = some sh ∧ x.blocker = none ∧ sh.resume = c.sp.pc ∧
          ((sh.frame[0]?).getD 0).toNat % 256 = 0x42 ∧ t.split? c.gid 0 = some y ∧ y.pc = word c.lau.handler))

/-! ## Banks, scans and timers -/

/-- R128, R135, R290, R346, R347: GMODE waits its turn behind earlier ones, changes a bank's mode after its drain, goes on at once when the bank has the mode, and traps; the background scan clears
every dead record; waiting groups and cores are gated, a long wait is reported once, and the group timer's threshold asks for its trap. -/
def Obligations.Upkeep : Prop :=
  (∀ (sb : Bool) (m : BankMode) (b : BitVec 5),
    let cl (c : Iss) : Nat := clusterOf c.core
    let on (c : Iss) (s : State) : Prop := (s.ctx c.lau.ctx).gmodeen = true ∧ s.dev.stepState = 0 ∧ (s.cluster (cl c)).gmode = none ∧
      ∀ k, (s.gmodeQueue (cl c)).head? = some k → k = c.key
    let room (c : Iss) (s : State) : Nat := (((s.cluster (cl c)).scratchBanks.filter (· != b.toNat)).map (s.bankFree (cl c))).sum
    let left (c : Iss) (s : State) : Cluster := { s.cluster (cl c) with gwait := (s.gmodeQueue (cl c)).filter (· != c.key) }
    let only (c : Iss) (s t : State) : Prop :=
      SameAt .clusters (· = cl c) s t ∧ (∀ k, t.block? k = (s.block? k).map fun x => if k = c.bid then { x with escaped := true } else x) ∧
      SameTables [Tab.clusters.num, Tab.splits.num, Tab.blocks.num] s t ∧ SameMemory s t
    Completes (.gmode sb m b) (fun c s => on c s ∧ (s.cluster (cl c)).modeOf b.toNat = m)
      (fun c s t => t.cluster (cl c) = left c s ∧ MovedTo c (c.sp.pc + 4) s t ∧ t.dev = s.dev ∧ only c s t) ∧
    Completes (.gmode sb m b)
      (fun c s => (s.ctx c.lau.ctx).gmodeen = true ∧ (∃ k, (s.gmodeQueue (cl c)).head? = some k ∧ k ≠ c.key) ∧
        c.key ∉ s.gmodeQueue (cl c))
      (fun c s t =>
        t.cluster (cl c) = { s.cluster (cl c) with gwait := s.gmodeQueue (cl c) ++ [c.key] } ∧ SameAt .clusters (· = cl c) s t ∧
        SplitIs c { c.sp with wait := .gmode } s t ∧ SameBut [Tab.clusters.num, Tab.splits.num] s t ∧ SameMemory s t) ∧
    Completes (.gmode sb m b)
      (fun c s => on c s ∧ (s.cluster (cl c)).modeOf b.toNat ≠ m ∧
        ((s.cluster (cl c)).modeOf b.toNat ≠ .scratch ∨ s.bankAlloc (cl c) b.toNat ≤ room c s))
      (fun c s t =>
        t.cluster (cl c) = { left c s with gmode := some { bank := b.toNat, mode := m, gid := c.gid, ctx := c.lau.ctx } } ∧
        SplitIs c { c.past s with pc := c.sp.pc + 4, wait := .gmode } s t ∧
        t.dev = { s.dev with due := s.dev.due ++ [.gmodeDrainComplete (cl c)] } ∧ only c s t) ∧
    Completes (.gmode sb m b) (fun c s => c.canTrap ∧ (s.ctx c.lau.ctx).gmodeen = false) (fun c s t => EntersHandler c 0x07 0 0 s t) ∧
    Completes (.gmode sb m b)
      (fun c s => c.canTrap ∧ on c s ∧ m ≠ .scratch ∧ (s.cluster (cl c)).modeOf b.toNat = .scratch ∧ room c s < s.bankAlloc (cl c) b.toNat)
      (fun c s t => EntersHandler c 0x47 0 0 s t)) ∧
  (∀ (cl : Nat) (j : GmodeJob), Occurs (.gmodeDrainComplete cl)
    (fun s => s.wf ∧ (s.cluster cl).gmode = some j ∧ (∀ f ∈ (s.cluster cl).fifo, f.1 ≠ j.bank) ∧
      ∀ e ∈ s.teamsIn cl, (e.2.bankRows[j.bank]?).getD 0 = 0)
    fun s t =>
      t.cluster cl = { s.cluster cl with modes := (s.cluster cl).modes.set j.bank j.mode, gmode := none } ∧ SameAt .clusters (· = cl) s t ∧
      (∀ i, t.team? i = s.team? i) ∧
      (∀ k, Tab.gways.at k t = (Tab.gways.at k s).filter fun w => !(k / 2 ^ 47 == cl && w.bank == j.bank)) ∧
      t.dev = { s.dev with due := s.dev.due ++ (s.launches.filter fun e => s.hasTeam e.1 e.2).map fun e => Instr.teamPlacement e.1 } ∧
      SameTables [Tab.clusters.num, Tab.teams.num, Tab.gways.num] s t ∧ SameMemory s t) ∧
  (∀ cl : Nat, Occurs (.scratchScan cl) State.wf
    fun s t =>
      (∀ e ∈ s.teamsIn cl,
        (∀ n, n < 2 ^ 19 → Tab.gside.at (sideKey e.1 n) t = (Tab.gside.at (sideKey e.1 n) s).filter fun r =>
          r.mask != 0 && (Tab.teamCnt.val 0 (e.1 * 512 + r.tslot.toNat) s).toNat % 4096 == r.tstamp.toNat) ∧
        ∀ n, n < 512 → (Tab.teamCnt.at (e.1 * 512 + n) s).isSome = true → Tab.tscan.val false (e.1 * 512 + n) t = true) ∧
      t.cluster cl = { s.cluster cl with overflow := (s.cluster cl).overflow.filter fun r => !s.storeDead r } ∧ SameAt .clusters (· = cl) s t ∧
      SameBut [Tab.gside.num, Tab.tscan.num, Tab.clusters.num] s t ∧ SameMemory s t) ∧
  (∀ (g t0 : Nat) (x : Group),
    Becomes (.clockGate g) (fun s => s.group? g = some x ∧ x.waitStart = some t0 ∧ t0 + 2 ≤ s.us) (fun s => Tab.groups.put g { x with gated := true } s) ∧
    Becomes (.clockGate g) (fun s => s.group? g = some x ∧ (x.waitStart = none ∨ (x.waitStart = some t0 ∧ s.us < t0 + 2))) id ∧
    Becomes (.groupTimerThreshold g) (fun s => s.group? g = some x ∧ x.gtthr ≠ 0 ∧ x.gtthr.toNat * 4096 ≤ s.groupTimer x)
      (fun s => Tab.groups.put g { x with gtthr := 0, gttPending := true } s) ∧
    Becomes (.groupTimerThreshold g) (fun s => s.group? g = some x ∧ (x.gtthr = 0 ∨ s.groupTimer x < x.gtthr.toNat * 4096)) id) ∧
  (∀ core : Nat,
    Becomes (.coreRetention core)
      (fun s => s.groupsOn core ≠ [] ∧ ∀ e ∈ s.groupsOn core, ∃ t, s.waited e.1 = some t ∧ 100 ≤ t)
      fun s => Tab.cores.put core { s.core core with retention := true } s) ∧
  (∀ (g n : Nat) (x : Group) (y : Split) (l : Launch) (kind obj : Nat) (a b : BitVec 32), Occurs (.waitExceeded g n)
    (fun s => s.group? g = some x ∧ s.split? g n = some y ∧ s.launchOf g = some l ∧ s.dev.hangthr ≠ 0 ∧ s.dependsOnHalted g = false ∧
      (∃ t0, x.waitStart = some t0 ∧ t0 + s.dev.hangthr.toNat ≤ s.us) ∧ x.hung = false ∧ y.stack = [] ∧ s.holdsEvents ∧
      ((∃ p k z, y.wait = .waitc p k z ∧ kind = 4 ∧ obj = p ∧ a = 0 ∧ b = 0) ∨
       (∃ d ph, y.wait = .roll d ph ∧ kind = 2 ∧ obj = d ∧ a = (s.domain d).phase ∧ b = word (s.census d)) ∨
       (∃ k, y.wait = .parkedTask ∧ x.blocker = some k ∧ kind = 3 ∧ obj = k.va ∧ a = 0 ∧ b = 0)))
    fun s t =>
      t.group? g = some { x with hung := true } ∧ SameAt .groups (· = g) s t ∧
      t.dev = { s.dev with erPost := s.dev.erPost ++
        [[word (kind * 2 ^ 28 + l.ctx * 2 ^ 16 + l.inc * 256), word (slotOf g), word (obj % 2 ^ 32), word (obj / 2 ^ 32), siteOf s l y.pc.toNat, a, b,
          word s.dev.window]] } ∧
      SameTables [Tab.groups.num] s t ∧ SameMemory s t)

/-! ## Command queues -/

/-- R348 to R353, R390, R393: a queue's packet starts the command of its opcode: NOP, MARKER, a satisfied WAIT, SIGNAL and COPY complete at once; a WAIT that is
not satisfied, a CHAIN, a KILL and a RECLAIM go on; a doorbell moves QTAIL; a started WAIT completes when its word is read again and satisfies it. -/
def Obligations.Commands : Prop :=
  ∀ (q : Nat) (p : Packet),
    let at_ (op : Nat) (s : State) : Prop := s.standsAt q p ∧ p.op = op
    let ctx (s : State) : Nat := (s.ring q).ctx.toNat
    let stored : List Nat := [Tab.mem.num, Tab.l2.num]
    Occurs (.cmdNop q) (at_ 0) (Ran q []) ∧
    Occurs (.marker q) (fun s => at_ 7 s ∧ (s.ctx (ctx s)).tracing = false) (Ran q []) ∧
    Occurs (.marker q)
      (fun s => at_ 7 s ∧ (s.ctx (ctx s)).tracing = true ∧ (s.ctx (ctx s)).tracePost = [] ∧ s.traceShut (ctx s) = false)
      (fun s t =>
        let x := s.ctx (ctx s)
        let rec_ : List (BitVec 32) :=
          [s.dev.cycle.setWidth 32, (s.dev.cycle >>> 32).setWidth 32, word (8 * 2 ^ 28 + ctx s * 2 ^ 16 + (s.ring q).inc.toNat * 256), 0xFFFF, 0, 0,
           word p.param, word s.dev.window]
        Ran q (Tab.ctxs.num :: stored) s t ∧ (t.ctx (ctx s)).trtail.toNat = (x.trtail.toNat + 1) % 2 ^ x.trsize.toNat ∧
        ∀ k, k < 8 → t.homeNat (x.trbase.toNat + 32 * (x.trtail.toNat % 2 ^ x.trsize.toNat) + 4 * k) 4 = ((rec_[k]?).getD 0).toNat) ∧
    (∀ pa : Nat,
      let meets (s : State) : Prop := if p.flags / 4 % 2 = 1 then p.param ≤ s.homeNat pa 8 else s.homeNat pa 8 = p.param
      let reads (va : Nat) (s : State) : Prop := s.translateFor (ctx s) .load va = .ok pa ∧ s.fwMay 0 .load pa 8 = true
      Occurs (.wait q) (fun s => at_ 4 s ∧ reads p.addr s ∧ meets s) (Ran q []) ∧
      Occurs (.wait q) (fun s => at_ 4 s ∧ reads p.addr s ∧ ¬ meets s)
        (fun s t => Begun q p (.wait p.addr (word p.param) (decide (p.flags / 4 % 2 = 1)) false) [] s t ∧
          SameTables [Tab.queues.num, Tab.cmds.num] s t) ∧
      Occurs (.signal q) (fun s => at_ 5 s ∧ s.translateFor (ctx s) .store p.addr = .ok pa ∧ s.fwMay 0 .store pa 8 = true)
        (fun s t => Ran q stored s t ∧ WroteAt pa 8 p.param s t)) ∧
    (∀ (id va pa : Nat) (v : BitVec 32) (g failed : Bool) (e : Cmd),
      let waiting (s : State) : Prop := s.cmds = [(id, e)] ∧ e.q = q ∧ e.done = false ∧ e.kind = .wait va v g failed ∧ e.parent = none ∧
        e.ringIndex = (s.ring q).qdone.toNat ∧ s.translateFor (ctx s) .load va = .ok pa ∧ s.fwMay 0 .load pa 8 = true
      let meets (s : State) : Prop := if g then v.toNat ≤ s.homeNat pa 8 else s.homeNat pa 8 = v.toNat
      Occurs (.waitReread q) (fun s => waiting s ∧ meets s) (fun s t => t.cmds = [] ∧
        (∀ j, t.ring j = if j = q then { s.ring q with qdone := (s.ring q).qdone + 1, barrier := false } else s.ring j) ∧
        SameTables [Tab.queues.num, Tab.cmds.num] s t) ∧
      Becomes (.waitReread q) (fun s => waiting s ∧ ¬ meets s) fun s => s) ∧
    (∀ (bs : List Byte) (src dst : List Nat),
      let r := natOfBytes bs
      let n := r / 2 ^ 128 % 2 ^ 64
      Occurs (.copy q)
        (fun s => at_ 6 s ∧ s.readBy 0 (ctx s) p.addr 32 = .ok bs ∧ r / 2 ^ 192 = 0 ∧
          rangeFor s (ctx s) 256 .load .load (r % 2 ^ 64) n = .ok src ∧ rangeFor s (ctx s) 256 .store .store (r / 2 ^ 64 % 2 ^ 64) n = .ok dst ∧
          dst.Nodup ∧ (∀ a ∈ dst, isManagement a = false) ∧ ∀ a ∈ src, isManagement a = false)
        (fun s t => Ran q stored s t ∧ (∀ i a b : Nat, src[i]? = some a → dst[i]? = some b → t.homeByte b = s.homeByte a) ∧
          ∀ a, a ∉ dst → t.homeByte a = s.homeByte a)) ∧
    Occurs (.chain q) (fun s => at_ 3 s ∧ ∃ bs, s.readBy 0 (ctx s) p.addr 16 = .ok bs)
      (fun s t => Begun q p .chain [(s.dev.nextId, p.addr, p.count)] s t ∧ SameTables [Tab.queues.num, Tab.cmds.num] s t) ∧
    Occurs (.kill q) (fun s => at_ 8 s ∧ (s.ctx (p.param % 2 ^ 12)).cstate ≠ 0 ∧ (s.ctx (p.param % 2 ^ 12)).cstate ≠ 5)
      (fun s t =>
        let c := p.param % 2 ^ 12
        let x := s.ctx c
        let inc := x.cinc.toNat
        Begun q p (.kill c) [] s t ∧
        (t.ctx c).cstate = 5 ∧ (t.ctx c).lastkill = x.cinc ∧ (t.ctx c).unrecl = x.unrecl + 1 ∧ (t.ctx c).unreclaimed = x.unreclaimed ++ [x.cinc] ∧
        SameAt .ctxs (· = c) s t ∧ Tab.kills.at (tagKey c inc) t = some { cause := 0x59, left := allUnits, cmd := some s.dev.nextId, revive := false } ∧
        (∀ u ∈ allUnits, .deadBroadcast u c inc ∈ t.dev.due) ∧
        SameTables [Tab.queues.num, Tab.cmds.num, Tab.ctxs.num, Tab.kills.num, Tab.boxes.num, Tab.savedOps.num] s t) ∧
    Occurs (.kill q) (fun s => at_ 8 s ∧ ((s.ctx (p.param % 2 ^ 12)).cstate = 0 ∨ (s.ctx (p.param % 2 ^ 12)).cstate = 5)) (Ran q []) ∧
    (let c := p.param % 2 ^ 12
     let inc := p.param / 2 ^ 12 % 2 ^ 8
     let owed (s : State) : Prop := BitVec.ofNat 8 inc ∈ (s.ctx c).unreclaimed ∧ Tab.reclaims.at (tagKey c inc) s = none
     Occurs (.reclaim q) (fun s => at_ 9 s ∧ owed s)
       (fun s t => Begun q p (.reclaim c inc) [] s t ∧
         Tab.reclaims.at (tagKey c inc) t = some { cause := 0, left := allUnits, cmd := some s.dev.nextId, revive := false } ∧ .reclaimComplete c inc ∈ t.dev.due ∧
         SameTables [Tab.queues.num, Tab.cmds.num, Tab.reclaims.num] s t) ∧
     Occurs (.reclaim q) (fun s => at_ 9 s ∧ ¬ owed s) (Ran q [])) ∧
    (∀ (master : Nat) (v : BitVec 32),
      Occurs (.doorbell master q v)
        (fun s => q < 1024 ∧ s.granted master .store (0xF000060000018 + 64 * q) 8 = true ∧ (Tab.fws.val FwCore.init 0 s).hand ≠ 3)
        (fun s t => (∀ j, t.ring j = if j = q then { s.ring q with qtail := v } else s.ring j) ∧ SameTables [Tab.queues.num] s t) ∧
      Becomes (.doorbell master q v) (fun s => s.granted master .store (0xF000060000018 + 64 * q) 8 = false) id)

/-! ## Launches -/

/-- R120, R139, R288, R309, R354 to R360, R363: LAUNCH reads its descriptor and header; a team that fits is placed, its groups in their start state; a window is
cleared; a launch too large fails with 0x44; one that is over writes its completion record; a TIMETABLE launches its node, and a completed node is marked;
the Prefect moves tasks and waiting teams. -/
def Obligations.Launching : Prop :=
  (∀ (ctx inc d h : Nat) (src : LaunchSrc),
    let l := launchOfDesc ctx inc src d h
    let b (o n : Nat) : Nat := d / 2 ^ (8 * o) % 2 ^ (8 * n)
    let c (o n : Nat) : Nat := h / 2 ^ (8 * o) % 2 ^ (8 * n)
    l.ctx = ctx ∧ l.inc = inc ∧ l.code = b 0 8 ∧ l.entry = b 8 4 ∧ l.gridx = b 12 4 ∧ l.gridy = b 16 4 ∧ l.gridz = b 20 4 ∧ l.gpb = b 24 1 ∧
    l.width = b 25 1 ∧ l.vregs = 8 * b 26 1 ∧ l.tiles = b 27 1 ∧ l.gal = b 28 4 ∧ l.team = b 32 1 ∧ l.floor = b 34 1 ∧ l.prio = b 35 1 ∧
    l.adopt = b 36 1 ∧ l.place = b 37 1 ∧ l.flags.toNat = b 38 2 ∧ l.fmt.toNat = b 40 4 ∧ l.param = b 48 8 ∧ l.psize = b 56 4 ∧
    l.landarea = b 64 8 ∧ l.journal = b 72 8 ∧ l.doneaddr = b 80 8 ∧ l.doneval.toNat = b 88 8 ∧ l.codeId.toNat = c 4 2 ∧ l.textOff = c 8 4 ∧
    l.textSize = c 12 4 ∧ l.spOff = c 16 4 ∧ l.spCount = c 20 4 ∧ l.handler = c 24 4 ∧ l.nextTeam = 0 ∧ l.running = 0) ∧
  (∀ (q : Nat) (p : Packet) (l : Launch) (ok : Bool), Occurs (.launch q)
    (fun s => s.standsAt q p ∧ p.op = 1 ∧ readLaunch s (s.ring q).ctx.toNat (s.ring q).inc.toNat (.cmd 0) p.addr = .ok (l, ok))
    fun s t =>
      let lid := s.dev.nextLaunch.toNat
      Begun q p .launch [] s t ∧ t.dev.nextLaunch = s.dev.nextLaunch + 1 ∧
      (ok = true → t.launch? lid = some { l with src := .cmd s.dev.nextId } ∧ .teamPlacement lid ∈ t.dev.due) ∧
      (ok = false → (t.launch? lid).map (·.cause) = some 0x4B ∧ .launchComplete lid ∈ t.dev.due) ∧
      SameTables [Tab.queues.num, Tab.cmds.num, Tab.launches.num] s t) ∧
  (∀ (lid core li cl b : Nat) (l : Launch) (rest : List Nat) (ad ar : Option Nat), Occurs (.teamPlacement lid)
    (fun s => s.launch? lid = some l ∧ (s.ctx l.ctx).cstate = 1 ∧ (s.ctx l.ctx).savedTeams = [] ∧ (s.ctx l.ctx).tracing = false ∧
      l.nextTeam < l.teamCount ∧ l.rows ≤ s.capMax ∧ l.gpb = 1 ∧ l.width ≤ 64 ∧ l.teamBlocks l.nextTeam = [b] ∧ s.movedTeam lid = none ∧
      s.firstToPlace = some { lid := lid, lau := l, seat := { cluster := cl, cores := [core], adopt := [ad], areas := [ar] }, saved := none } ∧
      s.freeIndices core = li :: rest ∧ li < 96 ∧ s.mayAdvance (slotAt core li) = true ∧ (s.core core).gen ≠ 0xFFFFFF)
    fun s t =>
      let g := core * 96 + li
      let tid := s.dev.nextId
      let bid := s.dev.nextId + 1
      let live := fullMask l.width
      t.launch? lid = some { l with nextTeam := l.nextTeam + 1, running := l.running + 1 } ∧
      (∃ x, t.team? tid = some x ∧ x.lid = lid ∧ x.tag = l.ctx * 256 + l.inc ∧ x.index = l.nextTeam ∧ x.cluster = cl ∧ x.rows = l.rows ∧
        x.state = .clearing ∧ x.blocks = [bid]) ∧
      (∃ x, t.block? bid = some x ∧ x.lid = lid ∧ x.tid = tid ∧ x.linear = b ∧ x.core = core ∧ x.gids = [g] ∧ x.adopt = ad ∧ x.landSlot = ar) ∧
      (∃ x, t.group? g = some x ∧ x.bid = bid ∧ x.gidx = 0 ∧ x.live = live ∧ x.q = 0 ∧ x.flags = 0 ∧ x.gtthr = 0 ∧ x.locks = 0 ∧
        x.thandle = 0xFFFFFFFF ∧ x.depth = 0 ∧ x.join0 = none ∧ x.join1 = none ∧ x.join2 = none ∧ x.nlast = none ∧ x.shadow = none ∧
        x.va = (s.core core).gen + 1) ∧
      t.split? g 0 = some { pc := word l.entry, mask := live, fmt := if l.flags.getLsbD 0 = true then l.fmt ||| 0x400000 else l.fmt, j := live,
                            jent := none, stack := [], outs := [], wait := .ready, skid := 0, last := 0, stage := 0, pre := 0 } ∧
      (∀ n, 0 < n → n < 4 → t.split? g n = none) ∧
      (∀ r, r < 64 → t.sreg g r = if r = 0 then word b else if r = 2 then word (b / max l.team 1) else 0) ∧
      (∀ r k, r < 256 → k < 64 → t.vreg g r k = if r = 0 ∧ k < l.width then word k else 0) ∧
      (∀ r, r < 7 → t.preg g r = 0) ∧
      (∀ r, r < 16 → t.breg g r = if r = 0 then BitVec.ofNat 128 (l.param % 2 ^ 57 + 2 ^ 57 + 2 * 2 ^ 60 + l.psize * 2 ^ 64) else 0) ∧
      t.icountOf (slotOf g) = s.icountOf (slotOf g) + 1 ∧ .windowClearComplete tid ∈ t.dev.due ∧ (∀ pa, t.homeByte pa = s.homeByte pa)) ∧
  (∀ (lid : Nat) (l : Launch), Occurs (.teamPlacement lid)
    (fun s => s.launch? lid = some l ∧ (s.ctx l.ctx).cstate = 1 ∧ (s.ctx l.ctx).savedTeams = [] ∧ l.nextTeam < l.teamCount ∧ s.capMax < l.rows)
    fun s t => t.launch? lid = some { l with nextTeam := l.teamCount, cause := 0x44 } ∧ SameAt .launches (· = lid) s t ∧
      (l.running = 0 → .launchComplete lid ∈ t.dev.due) ∧ SameTables [Tab.launches.num] s t ∧ SameMemory s t) ∧
  (∀ (tid : Nat) (x : Team), Occurs (.windowClearComplete tid) (fun s => s.team? tid = some x ∧ x.state = .clearing)
    fun s t =>
      t.team? tid = some { x with state := .resident } ∧ SameAt .teams (· = tid) s t ∧
      (∀ o, o < 2 ^ 24 → Tab.win.val 0 (winKey tid o) t = 0) ∧ (∀ n, n < 2 ^ 19 → Tab.gside.at (sideKey tid n) t = none) ∧
      (∀ n, n < 512 → Tab.teamCnt.val 0 (tid * 512 + n) t = 0) ∧
      (∀ i o, i ≠ tid → o < 2 ^ 24 → Tab.win.val 0 (winKey i o) t = Tab.win.val 0 (winKey i o) s) ∧
      SameBut [Tab.teams.num, Tab.win.num, Tab.gside.num, Tab.teamCnt.num, Tab.tscan.num] s t) ∧
  (∀ (lid id pa : Nat) (l : Launch) (c : Cmd), Occurs (.launchComplete lid)
    (fun s => s.launch? lid = some l ∧ l.running = 0 ∧ l.teamCount ≤ l.nextTeam ∧ l.src = .cmd id ∧ s.cmds = [(id, c)] ∧ c.kind = .launch ∧
      c.parent = none ∧ c.ringIndex = (s.ring c.q).qdone.toNat ∧ l.doneaddr ≠ 0 ∧ s.translateFor l.ctx .store l.doneaddr = .ok pa ∧
      s.accessFault 289 .store pa 16 = none)
    fun s t =>
      t.launch? lid = none ∧ SameAt .launches (· = lid) s t ∧ t.cmds = [] ∧
      WroteAt pa 16 ((if l.cause = 0 then l.doneval.toNat else 0) + l.cause.toNat * 2 ^ 64 + lid % 2 ^ 32 * 2 ^ 96) s t ∧
      (∀ j, t.ring j = if j = c.q then { s.ring c.q with qdone := (s.ring c.q).qdone + 1, barrier := false } else s.ring j) ∧
      SameTables [Tab.launches.num, Tab.cmds.num, Tab.queues.num, Tab.mem.num, Tab.l2.num] s t) ∧
  (∀ (q pa : Nat) (p : Packet) (l : Launch), Occurs (.timetable q)
    (fun s =>
      let ctx := (s.ring q).ctx.toNat
      let inc := (s.ring q).inc.toNat
      s.standsAt q p ∧ p.op = 2 ∧ p.count = 0 ∧ s.standsFast ctx p.addr pa 64 ∧ s.fwMay 0 .load (pa / 64 * 64) 64 = true ∧ s.homeNat (pa + 8) 2 = 0 ∧ s.homeNat (pa + 12) 2 = 0 ∧
      ∀ w : State, w.ctxs = s.ctxs → (∀ a n, w.fwMay 0 .load a n = s.fwMay 0 .load a n) →
        (∀ a, ¬ (pa + 8 ≤ a ∧ a < pa + 64) → w.homeByte a = s.homeByte a) → readLaunch w ctx inc (.node s.dev.nextId 0) (s.homeNat pa 8) = .ok (l, true))
    fun s t =>
      let lid := s.dev.nextLaunch.toNat
      Begun q p .timetable [] s t ∧ t.launch? lid = some l ∧ .teamPlacement lid ∈ t.dev.due ∧ t.homeByte (pa + 14) = 1 ∧
      Tab.tts.at s.dev.nextId t = some { cmd := s.dev.nextId, ctx := (s.ring q).ctx.toNat, inc := (s.ring q).inc.toNat, va := p.addr, nodes := 1,
                                         running := 1 } ∧
      SameTables [Tab.queues.num, Tab.cmds.num, Tab.tts.num, Tab.launches.num, Tab.mem.num, Tab.l2.num] s t) ∧
  (∀ (tt id pa : Nat) (x : Timetable) (e : Nat × Launch) (c : Cmd), Occurs (.timetableNodeComplete tt 0)
    (fun s => s.launches.find? (fun k => k.2.src == .node tt 0) = some e ∧ e.2.running = 0 ∧ e.2.teamCount ≤ e.2.nextTeam ∧
      Tab.tts.at tt s = some x ∧ x.nodes = 1 ∧ x.running = 1 ∧ x.cmd = id ∧ (s.ctx x.ctx).cstate = 1 ∧ s.standsFast x.ctx x.va pa 64 ∧
      s.homeNat (pa + 12) 2 = 0 ∧ s.cmds = [(id, c)] ∧ c.kind = .timetable ∧ c.parent = none ∧ c.ringIndex = (s.ring c.q).qdone.toNat)
    fun s t =>
      t.launch? e.1 = none ∧ Tab.tts.at tt t = none ∧ t.cmds = [] ∧ (t.ring c.q).qdone = (s.ring c.q).qdone + 1 ∧
      t.homeByte (pa + 14) = (if e.2.cause = 0 then 2 else 3) ∧ t.homeByte (pa + 15) = e.2.cause ∧
      ∀ a, a ≠ pa + 14 → a ≠ pa + 15 → t.homeByte a = s.homeByte a) ∧
  (∀ src dst n : Nat, Occurs (.prefectScan [.tasks src dst n]) (fun _ => src ≠ dst ∧ src < 256 ∧ dst < 256)
    fun s t =>
      let moved := ((s.core src).tasks.filter (mayMove s dst)).take n
      (t.core src).tasks = (s.core src).tasks.filter (fun k => !moved.contains k) ∧ (t.core dst).tasks = (s.core dst).tasks ++ moved ∧
      (∀ k, k ≠ src → k ≠ dst → t.core k = s.core k) ∧ SameBut [Tab.cores.num, Tab.clusters.num, Tab.mem.num, Tab.l2.num] s t) ∧
  (∀ (lid cl : Nat) (l : Launch), Occurs (.prefectScan [.team lid cl])
    (fun s => s.launch? lid = some l ∧ l.nextTeam < l.teamCount ∧ cl < 32 ∧ s.movedTeam lid = none)
    fun s t =>
      (∃ x, t.team? s.dev.nextId = some x ∧ x.lid = lid ∧ x.index = l.nextTeam ∧ x.cluster = cl ∧ x.state = .pending ∧ x.blocks = []) ∧
      SameAt .teams (· = s.dev.nextId) s t ∧ .teamPlacement lid ∈ t.dev.due ∧ SameTables [Tab.teams.num] s t ∧ SameMemory s t)

/-! ## Contexts -/

/-- R380 to R386, R390 to R393, R395, R465: pre-emption begins, ends in a save image or after a drain, or in a kill at its deadline; RESTORE, REVIVE and OPEN make a
context live; a unit that is told a tag is dead discards it, the last one ends the kill; a reclaim leaves nothing of the tag. -/
def Obligations.Contexts : Prop :=
  (∀ ctx : Nat,
    let known : Prop := 0 < ctx ∧ ctx < 4096
    let refused (i : Instr) (st : BitVec 3) : Prop := Occurs i (fun s => known ∧ (s.ctx ctx).cstate ≠ st)
      fun s t => t.ctx ctx = { s.ctx ctx with pstat := 2 } ∧ SameAt .ctxs (· = ctx) s t ∧ SameBut [Tab.ctxs.num, Tab.boxes.num] s t
    let begins (drain : Bool) (s : State) : State := Tab.ctxs.put ctx
      { s.ctx ctx with cstate := if drain then 4 else 2, pstat := 1, preempt := some { drain := drain, start := s.dev.ticks } } s
    Becomes (.preemptWithSave ctx) (fun s => known ∧ (s.ctx ctx).cstate = 1) (begins false) ∧
    Becomes (.preemptWithDrain ctx) (fun s => known ∧ (s.ctx ctx).cstate = 1) (begins true) ∧
    refused (.preemptWithSave ctx) 1 ∧ refused (.preemptWithDrain ctx) 1 ∧ refused (.restore ctx) 3 ∧ refused (.revive ctx) 5 ∧
    refused (.openCtx ctx) 0 ∧
    Occurs (.restore ctx) (fun s => known ∧ (s.ctx ctx).cstate = 3 ∧ s.groupsOf ctx = [])
      (fun s t => t.ctx ctx = { s.ctx ctx with cstate := 1, pstat := 0 } ∧ SameAt .ctxs (· = ctx) s t) ∧
    (let dead (s : State) : Prop := known ∧ (s.ctx ctx).cstate = 5 ∧ (s.ctx ctx).unrecl.toNat < 128
     let killing (s : State) : Option Ending := Tab.kills.at (tagKey ctx (s.ctx ctx).cinc.toNat) s
     Occurs (.revive ctx)
      (fun s => dead s ∧ (s.ctx ctx).cinc + 1 ∉ (s.ctx ctx).unreclaimed ∧ killing s = none)
      (fun s t => t.ctx ctx = { s.ctx ctx with cinc := (s.ctx ctx).cinc + 1, cstate := 1, root := 0, pstat := 0 } ∧ SameAt .ctxs (· = ctx) s t ∧
        Tab.tags.val false (tagKey ctx ((s.ctx ctx).cinc + 1).toNat) t = true ∧
        t.dev = { s.dev with tables := s.dev.tables.filter fun p => (s.ctx ctx).root = 0 ∨ p ∉ s.tablePages 5 (s.ctx ctx).root.toNat } ∧
        SameTables [Tab.ctxs.num, Tab.tags.num, Tab.boxes.num] s t) ∧
     ∀ e : Ending, Occurs (.revive ctx) (fun s => dead s ∧ killing s = some e)
      (fun s t => t.ctx ctx = { s.ctx ctx with pstat := 1 } ∧ SameAt .ctxs (· = ctx) s t ∧
        Tab.kills.at (tagKey ctx (s.ctx ctx).cinc.toNat) t = some { e with revive := true } ∧ SameBut [Tab.ctxs.num, Tab.kills.num] s t)) ∧
    Occurs (.revive ctx) (fun s => known ∧ (s.ctx ctx).cstate = 5 ∧ 128 ≤ (s.ctx ctx).unrecl.toNat)
      (fun s t => t.ctx ctx = { s.ctx ctx with pstat := 2 } ∧ SameBut [Tab.ctxs.num, Tab.boxes.num] s t) ∧
    Occurs (.openCtx ctx) (fun s => known ∧ (s.ctx ctx).cstate = 0)
      (fun s t => t.ctx ctx = { s.ctx ctx with cinc := 0, lastkill := 0, unrecl := 0, unreclaimed := [], cstate := 1, pstat := 0 } ∧
        SameAt .ctxs (· = ctx) s t ∧ Tab.tags.val false (tagKey ctx 0) t = true ∧ SameBut [Tab.ctxs.num, Tab.tags.num, Tab.boxes.num] s t) ∧
    Occurs (.preemptDeadline ctx)
      (fun s => ∃ p, (s.ctx ctx).preempt = some p ∧ (s.ctx ctx).deadline ≠ 0 ∧ p.start + (s.ctx ctx).deadline.toNat * usTicks ≤ s.dev.ticks ∧
        (s.ctx ctx).cstate ≠ 0 ∧ (s.ctx ctx).cstate ≠ 5)
      (fun s t => (t.ctx ctx).cstate = 5 ∧ (t.ctx ctx).pstat = 0x57 ∧ (t.ctx ctx).preempt = none ∧ (t.ctx ctx).lastkill = (s.ctx ctx).cinc ∧
        SameAt .ctxs (· = ctx) s t ∧ Tab.kills.at (tagKey ctx (s.ctx ctx).cinc.toNat) t = some { cause := 0x57, left := allUnits, cmd := none, revive := false }) ∧
    Becomes (.preemptDeadline ctx) (fun s => (s.ctx ctx).preempt = none ∨ (s.ctx ctx).deadline = 0) (fun s => s) ∧
    Occurs (.saveComplete ctx) (fun s => (s.ctx ctx).cstate = 4 ∧ s.groupsOf ctx = [])
      (fun s t => t.ctx ctx = { s.ctx ctx with cstate := 3, pstat := 0, preempt := none } ∧ SameAt .ctxs (· = ctx) s t ∧
        SameTables [Tab.ctxs.num, Tab.boxes.num] s t) ∧
    Occurs (.saveComplete ctx)
      (fun s => (s.ctx ctx).cstate = 2 ∧ s.saveReady ctx = true ∧ (s.ctx ctx).savesize.toNat < imageSize s ctx ∧ ∀ e ∈ s.ops, e.2.phase ≠ .parked)
      (fun _ t => (t.ctx ctx).cstate = 1 ∧ (t.ctx ctx).pstat = 3 ∧ (t.ctx ctx).preempt = none) ∧
    Occurs (.saveComplete ctx)
      (fun s => (s.ctx ctx).cstate = 2 ∧ s.saveReady ctx = true ∧ imageSize s ctx ≤ (s.ctx ctx).savesize.toNat ∧ (s.ctx ctx).tracing = false ∧
        (∀ g ∈ s.groupsOf ctx, s.dirtyCount (coreOf g) = 0 ∧ s.mayAdvance (slotOf g) = true ∧ (∀ e ∈ s.wbs, e.2.core ≠ coreOf g) ∧
          ∀ x b l, s.group? g = some x → s.blockOf g = some b → s.launchOf g = some l →
            s.mayAdvanceT b.tid (tslotOf l b x) = true ∧ l.journals = false))
      (fun s t =>
        let vs := s.teamViews ctx
        let a := (s.ctx ctx).savebase.toNat
        (t.ctx ctx).cstate = 3 ∧ (t.ctx ctx).pstat = 0 ∧ (t.ctx ctx).preempt = none ∧ (∀ v ∈ vs, t.team? v.tid = none) ∧
        (t.ctx ctx).savedTeams.length = (s.ctx ctx).savedTeams.length + vs.length ∧
        t.homeNat a 4 = 0x4D495653 ∧ t.homeNat (a + 4) 2 = ctx % 2 ^ 16 ∧ t.homeNat (a + 6) 2 = (s.ctx ctx).cinc.toNat ∧
        t.homeNat (a + 8) 4 = vs.length % 2 ^ 32 ∧ t.homeNat (a + 16) 8 = s.dev.window % 2 ^ 64)) ∧
  (∀ (u : UnitRef) (ctx inc : Nat) (e : Ending),
    let told (s : State) : Prop := Tab.kills.at (tagKey ctx inc) s = some e ∧ u ∈ e.left
    Occurs (.deadBroadcast u ctx inc) (fun s => told s ∧ e.left.filter (· != u) ≠ [])
      (fun s t =>
        Tab.deadAt.val false (unitCode u * 2 ^ 20 + tagKey ctx inc) t = true ∧
        Tab.kills.at (tagKey ctx inc) t = some { e with left := e.left.filter (· != u) } ∧
        (∀ n, u = .core n → ∀ g l, coreOf g = n → s.launchOf g = some l → l.ctx = ctx → l.inc = inc → t.group? g = none) ∧
        (∀ n, u = .controller n → SameBut [Tab.deadAt.num, Tab.kills.num] s t) ∧ t.mem = s.mem) ∧
    (∀ (n id : Nat) (c : Cmd), Occurs (.deadBroadcast u ctx inc)
      (fun s => told s ∧ u = .controller n ∧ e.left.filter (· != u) = [] ∧ ctx ≠ 0 ∧ e.cmd = some id ∧ s.cmds = [(id, c)] ∧ c.kind = .kill ctx ∧
        c.parent = none ∧ c.ringIndex = (s.ring c.q).qdone.toNat ∧ (s.ring c.q).ctx = 0)
      fun s t =>
        Tab.kills.at (tagKey ctx inc) t = none ∧
        (∀ lid l, s.launch? lid = some l → l.ctx = ctx → l.inc = inc → t.launch? lid = none) ∧
        (∀ q, (s.ring q).ctx.toNat = ctx → (s.ring q).inc.toNat = inc → (s.ring q).qstat = 0 →
          t.ring q = { s.ring q with qstat := e.cause, qoff := (s.ring q).qhead, chains := [], barrier := false }) ∧
        t.cmds = [] ∧ (t.ring c.q).qdone = (s.ring c.q).qdone + 1)) ∧
  (∀ (ctx inc : Nat) (e : Ending), Occurs (.reclaimComplete ctx inc)
    (fun s => s.wf ∧ Tab.reclaims.at (tagKey ctx inc) s = some e ∧ Tab.kills.at (tagKey ctx inc) s = none)
    fun s t =>
      let x := s.ctx ctx
      Tab.reclaims.at (tagKey ctx inc) t = none ∧ Tab.tags.val false (tagKey ctx inc) t = false ∧
      (∀ u ∈ allUnits, Tab.deadAt.val false (unitCode u * 2 ^ 20 + tagKey ctx inc) t = false) ∧
      (t.ctx ctx).unrecl = x.unrecl - 1 ∧ (t.ctx ctx).unreclaimed = x.unreclaimed.filter (· != BitVec.ofNat 8 inc) ∧
      (∀ sec k, homeSlice (sec * 32) < 64 → Tab.marks.at sec t = some k → ¬ (k.ctx = ctx ∧ k.inc = inc)) ∧
      (∀ p ∈ t.pages, ¬ (p.2.ctx = ctx ∧ p.2.inc = inc)) ∧
      (∀ d, (s.domain d).en = true → (s.domain d).ctx.toNat = ctx → (s.domain d).inc.toNat = inc →
        t.domain d = { s.domain d with en := false, sentAt := none, got := [], gen := (s.domain d).gen + 1 } ∧
        ∀ n, n < 4096 → t.station d n = Station.init))

/-! ## Firmware requests -/

/-- R429, R430, R464: each function of the mailboxes answers its requester and has its effect; a body with an unlisted bit set changes nothing. -/
def Obligations.Requests : Prop :=
  ∀ (ctx va pa base size slot : Nat) (w0 w1 : BitVec 64),
    let n64 (x : Nat) : BitVec 64 := BitVec.ofNat 64 x
    let none_ : State → State → List (BitVec 64) := fun _ _ => []
    let item (k : Nat) : BitVec 64 := n64 (ctx + k * 2 ^ 12)
    let op7 (k : Nat) : BitVec 64 := n64 (k + ctx * 2 ^ 5)
    let page : Prop := base % 4096 = 0 ∧ base < 2 ^ 52
    let held (s : State) : Prop := (s.ctx ctx).attached = true
    let only (ns : List Nat) (s t : State) : Prop := SameTables (Tab.boxes.num :: ns) s t
    ctx < 4096 →
    -- the scheduling core
    (∀ q inc sz prio : Nat, ∀ en : Bool, q < 1024 → inc < 256 → sz ≤ 12 → prio < 8 → page → (en = true → ctx ≠ 0) →
      Serves .configureCommandQueue 1 0x0101
        [n64 (q + ctx * 2 ^ 10 + inc * 2 ^ 22 + sz * 2 ^ 30 + prio * 2 ^ 34 + (if en then 1 else 0) * 2 ^ 37), n64 base] (fun _ => True) none_
        fun s t =>
          let k := s.ring q
          (∀ j, t.ring j = if j = q then
              { k with qbase := n64 base, ctx := BitVec.ofNat 12 ctx, inc := BitVec.ofNat 8 inc, size := BitVec.ofNat 4 sz,
                       prio := BitVec.ofNat 3 prio, en := en, qhead := if en = true ∧ k.qstat ≠ 0 then k.qoff else k.qhead,
                       qstat := if en then 0 else k.qstat }
            else s.ring j) ∧ only [Tab.queues.num] s t) ∧
    (∀ d inc quorum : Nat, ∀ span : Bool, ∀ m0 m1 : BitVec 64, ∀ m2 : BitVec 16, d < 16 → inc < 256 → 1 ≤ quorum → quorum ≤ 4096 →
      Serves .assignRollCallDomain 1 0x0102
        [n64 (d + 2 ^ 4 + ctx * 2 ^ 5 + inc * 2 ^ 17 + quorum * 2 ^ 25 + (if span then 1 else 0) * 2 ^ 38), m0, m1, m2.setWidth 64]
        (fun s => (s.domain d).en = false) (fun s _ => [(s.domain d).phase.setWidth 64])
        (fun s t => (∀ j, t.domain j = if j = d then
            { s.domain d with quorum := BitVec.ofNat 13 quorum, span := span, en := true, inc := BitVec.ofNat 8 inc, ctx := BitVec.ofNat 12 ctx,
                              memb0 := m0, memb1 := m1, memb2 := m2.setWidth 64, gen := (s.domain d).gen + 1 } else s.domain j) ∧ only [Tab.domains.num] s t) ∧
      Serves .releaseRollCallDomain 1 0x0102 [n64 d] (fun _ => True) (fun s _ => [(s.domain d).phase.setWidth 64])
        fun s t => (∀ j, t.domain j = if j = d then { s.domain d with en := false, sentAt := none, got := [], gen := (s.domain d).gen + 1 }
                                          else s.domain j) ∧
          (∀ j k, k < 4096 → t.station j k = if j = d then Station.init else s.station j k) ∧ only [Tab.domains.num, Tab.stations.num] s t) ∧
    (0 < ctx →
      Serves .contextControl 1 0x0103 [n64 (ctx + 5 * 2 ^ 12)] (fun s => (s.ctx ctx).cstate = 0)
        (fun _ t => [n64 ((t.ctx ctx).cstate.toNat * 2 ^ 24 + (t.ctx ctx).unrecl.toNat * 2 ^ 16 + (t.ctx ctx).lastkill.toNat * 2 ^ 8 +
                          (t.ctx ctx).cinc.toNat), (t.ctx ctx).pstat.setWidth 64])
        (fun s t => t.ctx ctx = { s.ctx ctx with cinc := 0, lastkill := 0, unrecl := 0, unreclaimed := [], cstate := 1, pstat := 0 } ∧
          SameAt .ctxs (· = ctx) s t ∧ only [Tab.ctxs.num, Tab.tags.num] s t) ∧
      (page → Serves .contextControl 1 0x0103 [n64 (ctx + 3 * 2 ^ 15), n64 base, w1, n64 (slot % 2 ^ 32)] (fun s => (s.ctx ctx).pstat ≠ 1)
        (fun _ t => [n64 ((t.ctx ctx).cstate.toNat * 2 ^ 24 + (t.ctx ctx).unrecl.toNat * 2 ^ 16 + (t.ctx ctx).lastkill.toNat * 2 ^ 8 +
                          (t.ctx ctx).cinc.toNat), (t.ctx ctx).pstat.setWidth 64])
        fun s t => t.ctx ctx = { s.ctx ctx with savebase := n64 base, savesize := w1, deadline := BitVec.ofNat 32 slot } ∧
          SameAt .ctxs (· = ctx) s t ∧ only [Tab.ctxs.num] s t)) ∧
    -- the memory core
    (∀ rights b4 b3 b2 b1 : Nat,
      let at_ (k b : Nat) : Nat := b + 8 * (va / 2 ^ (12 + 9 * k) % 2 ^ 9)
      let root (s : State) : Nat := (s.ctx ctx).root.toNat
      let table (b : Nat) : Prop := b % 4096 = 0 ∧ b < 2 ^ 52
      rights < 8 → (rights / 2 % 2 = 1 → rights % 2 = 1) → 0 < pa → pa % 4096 = 0 → pa + 4096 ≤ 2 ^ 52 → va % 4096 = 0 → va + 4096 ≤ 2 ^ 57 →
      Serves .mapPages 2 0x0201 [n64 (ctx + rights * 2 ^ 16), n64 va, n64 pa, 1]
        (fun s => ctx ≠ 0 ∧ (s.ctx ctx).cstate ≠ 5 ∧ (s.ctx 0).oasets = 0 ∧ s.mappable ctx pa 4096 = true ∧ root s ≠ 0 ∧ root s % 8 = 0 ∧
          table b4 ∧ table b3 ∧ table b2 ∧ table b1 ∧ s.homeNat (at_ 4 (root s)) 8 = b4 + 1 ∧ s.homeNat (at_ 3 b4) 8 = b3 + 1 ∧
          s.homeNat (at_ 2 b3) 8 = b2 + 1 ∧ s.homeNat (at_ 1 b2) 8 = b1 + 1 ∧ s.homeNat (at_ 0 b1) 8 = 0 ∧ at_ 0 b1 ≠ at_ 4 (root s) ∧
          at_ 0 b1 ≠ at_ 3 b4 ∧ at_ 0 b1 ≠ at_ 2 b3 ∧ at_ 0 b1 ≠ at_ 1 b2 ∧
          ∀ x ∈ [at_ 4 (root s), at_ 3 b4, at_ 2 b3, at_ 1 b2, at_ 0 b1], x + 8 ≤ pa ∨ pa + 4096 ≤ x)
        (fun _ _ => [n64 pa])
        fun s t =>
          Tab.pages.at (pa / 4096) t = some { ctx := ctx, inc := (s.ctx ctx).cinc.toNat, va := va, size := 12 } ∧
          (∀ o, o < 4096 → t.translate ctx (va + o) = .ok
            { pa := pa + o, size := 12, rd := rights % 2 == 1, wr := rights / 2 % 2 == 1, ex := rights / 4 % 2 == 1 }) ∧
          (∀ k, k < 128 → Tab.marks.at (pa / 32 + k) t = none ∧ Tab.side.val 0 (pa / 32 + k) t = 0)) ∧
    (va % 4096 = 0 → va + 4096 ≤ 2 ^ 57 →
      Serves .unmapPages 2 0x0201 [n64 (ctx + 2 ^ 12), n64 va, 0, 1]
        (fun s => (∀ k, (s.ctx k).oasets = 0) ∧ s.l1 = [] ∧ s.wbs = [] ∧ s.ops = [] ∧ (s.ctx ctx).root.toNat % 8 = 0 ∧
          s.pagesAt ctx va 12 1 = some [(va, pa)] ∧
          ∀ w : State, w.ctxs = s.ctxs → (∀ a, ¬ (pa ≤ a ∧ a < pa + 4096) → w.homeByte a = s.homeByte a) → w.leaf ctx va = s.leaf ctx va)
        (fun _ _ => [0])
        (fun _ t => t.leaf ctx va = none ∧ Tab.pages.at (pa / 4096) t = none ∧
          (∀ e ∈ t.tlb1, ¬ (e.1 / 2 ^ 45 % 4096 = ctx ∧ e.1 % 2 ^ 45 * 4096 < va + 4096 ∧ va < e.1 % 2 ^ 45 * 4096 + 2 ^ e.2.size)) ∧
          ∀ k, k < 128 → Tab.marks.at (pa / 4096 * 128 + k) t = none) ∧
      (∀ (dst target : Nat) (m : PageMap), target ≤ 8 →
        Serves .migratePages 2 0x0201 [n64 (ctx + 2 * 2 ^ 12 + target * 2 ^ 19), n64 va, 0, 1]
          (fun s => s.pagesAt ctx va 12 1 = some [(va, pa)] ∧ s.freePlace ctx target 12 4096 = some dst ∧ Tab.pages.at (pa / 4096) s = some m ∧
            dst / 4096 ≠ pa / 4096 ∧ s.movesWhole [(pa, dst)] 12 = true)
          (fun _ _ => [n64 dst])
          fun _ t => Tab.pages.at (dst / 4096) t = some m ∧ Tab.pages.at (pa / 4096) t = none)) ∧
    (page → size < 32 → isHbm base = true → Sets .setFaultRing 2 0x0202 [item 0, n64 base, n64 size] ctx (fun _ => True) fun _ x =>
      { x with frbase := n64 base, frsize := BitVec.ofNat 5 size }) ∧
    Sets .writeFrheadRequest 2 0x0202 [item 1, n64 (slot % 2 ^ 20)] ctx (fun _ => True) (fun _ x => { x with frhead := BitVec.ofNat 20 slot }) ∧
    (∀ (id : Nat) (o : Op) (f : Failure),
      Serves .replayRequest 2 0x0202 [item 2]
        (fun s => s.parkedOps ctx = [(id, o)] ∧ Tab.ops.at id s = some o ∧ isMemory o.instr = true ∧ o.vlines ≠ [] ∧ s.tlb1 = [] ∧ s.tlb2 = []) none_
        (fun s t => (∃ x, Tab.ops.at id t = some x ∧ x.phase = .walking ∧ x.unf = o.unf ∧ x.lanes = o.lanes) ∧
          only [Tab.ops.num, Tab.walks.num] s t) ∧
      Serves .convertRequest 2 0x0202 [item 3, n64 (slot % 2 ^ 16)]
        (fun s => (s.parkedOps ctx).find? (fun e => e.2.slot == BitVec.ofNat 16 slot) = some (id, o) ∧ Tab.ops.at id s = some o ∧
          o.fail = some f ∧ localOfSlot o.slot.toNat < 96) none_
        fun s t => Tab.ops.at id t = some { o with phase := .failed, fail := some f } ∧ SameAt .ops (· = id) s t ∧ only [Tab.ops.num] s t) ∧
    Sets .setHbase 2 0x0202 [item 4, n64 (slot % 2 ^ 45 * 2 ^ 12)] ctx (fun _ => True) (fun _ x => { x with hbase := BitVec.ofNat 45 slot }) ∧
    Sets .setGmodeen 2 0x0202 [item 5, n64 (slot % 2)] ctx (fun _ => True) (fun _ x => { x with gmodeen := slot % 2 == 1 }) ∧
    (∀ (driver : Bool) (tag : BitVec 16), Occurs (.setGmodeen { driver := driver, tag := tag, body := [item 5, n64 (2 + slot % 2)] })
      (fun s => s.serving 2 driver) fun s t => Answered 2 0x0202 3 tag [] s t ∧ SameTables [Tab.boxes.num] s t) ∧
    (page → size < 32 → Sets .setTaskTable 2 0x0202 [item 6, n64 base, n64 size, w0, n64 (slot % 2 ^ 40)] ctx (fun _ => True) fun s x =>
      { x with ttbase := n64 base, ttsize := BitVec.ofNat 5 size, aspool := w0, assize := BitVec.ofNat 40 slot,
               ttused := BitVec.ofNat 21 (if 10 ≤ size ∧ size ≤ 20 then
                 ((List.range (2 ^ size)).filter fun i => s.homeNat (base + 64 * i) 1 % 16 ≠ 0).length else 0) }) ∧
    (page → 10 ≤ size → size ≤ 24 → isHomed base = true →
      Serves .setOverflowArea 2 0x0202 [item 7, n64 base, n64 size]
        (fun s => s.holdsMarks ctx = false ∧ s.populated base (128 * 2 ^ size) = true ∧ s.mappedAt base (128 * 2 ^ size) = none ∧
          reserved base (128 * 2 ^ size) = false ∧ s.inOverflow (some ctx) base (128 * 2 ^ size) = false ∧
          s.retired base (128 * 2 ^ size) = false) none_
        fun s t =>
          (∀ k, t.ctx k = if k = ctx then { s.ctx ctx with oabase := n64 base, oasets := BitVec.ofNat 5 size } else s.ctx k) ∧
          (∀ a, t.homeByte a = if base ≤ a ∧ a < base + 128 * 2 ^ size then 0 else s.homeByte a) ∧
          only [Tab.ctxs.num, Tab.mem.num, Tab.l2.num, Tab.poison.num] s t) ∧
    -- the error and the power core
    (∀ (cethr : BitVec 16) (kill : Bool) (hang : BitVec 32) (head : BitVec 20), page → size < 32 →
      Serves .setErrorControls 3 0x0301
        [n64 (cethr.toNat + (if kill then 1 else 0) * 2 ^ 16 + 7 * 2 ^ 17), n64 base, n64 size, hang.setWidth 64, head.setWidth 64]
        (fun s => s.dev.erPost = []) none_
        (fun s t => t.dev = { s.dev with cethr := cethr, uekill := kill, erbase := n64 base, ersize := BitVec.ofNat 5 size, hangthr := hang,
                                         erhead := head } ∧ only [] s t) ∧
      Serves .setErrorControls 3 0x0301 [n64 (cethr.toNat + (if kill then 1 else 0) * 2 ^ 16)] (fun s => s.dev.erPost = []) none_
        fun s t => t.dev = { s.dev with cethr := cethr, uekill := kill } ∧ only [] s t) ∧
    (∀ (driver : Bool) (tag : BitVec 16) (point : Nat), point < 6 →
      Occurs (.requestOperatingPoint { driver := driver, tag := tag, body := [n64 (point * 2 ^ 2)] })
        (fun s => s.serving 4 driver ∧ point < s.dev.pointsOff)
        fun s t => (t.box 4).busy = true ∧ (t.box 4).tag = tag ∧ t.dev = { s.dev with stepWish := some point, due := s.dev.due ++ [.stepCheck] } ∧
          only [] s t) ∧
    (∀ pre_ : Bool, Serves .setPowerPolicy 4 0x0401 [n64 (1 + (if pre_ then 1 else 0) * 2 ^ 5)] (fun _ => True) (fun _ _ => [0])
      fun s t => t.dev = { s.dev with preemptPolicy := pre_ } ∧ only [] s t) ∧
    (∀ (driver : Bool) (tag : BitVec 16) (cl bank : Nat), cl < 32 → bank < 32 →
      Occurs (.recalibrateBank { driver := driver, tag := tag, body := [n64 (2 + bank * 2 ^ 6 + cl * 2 ^ 11)] })
        (fun s => s.serving 4 driver ∧ bank ∉ (s.cluster cl).recal ∧ ∀ e ∈ s.teamsIn cl, (e.2.bankRows[bank]?).getD 0 = 0)
        fun s t => (t.box 4).busy = true ∧ (t.box 4).tag = tag ∧
          (∀ k, t.cluster k = if k = cl then { s.cluster cl with recal := (s.cluster cl).recal ++ [bank] } else s.cluster k) ∧
          t.dev = s.dev ∧ only [Tab.clusters.num, Tab.gways.num] s t) ∧
    -- the security core
    (∀ (m k : Nat) (lo hi : BitVec 40) (at_ wr rd : Bool), m < 324 → k < 4 →
      let bit (b : Bool) (n : Nat) : Nat := if b then 2 ^ n else 0
      Serves .writeAccessTableWindow 5 0x0501
        [n64 (m + k * 2 ^ 9), n64 (lo.toNat * 2 ^ 12 + bit at_ 2 + bit wr 1 + bit rd 0), n64 (hi.toNat * 2 ^ 12)]
        (fun _ => lo.toNat ≤ hi.toNat → reserved (lo.toNat * 4096) ((hi.toNat + 1 - lo.toNat) * 4096) = false) none_
        fun s t =>
          (∀ j, Tab.access.val AccWin.closed j t = if j = m * 4 + k then { wbase := lo, limit := hi, at_ := at_, wr := wr, rd := rd }
                                                   else Tab.access.val AccWin.closed j s) ∧
          (∀ j, Tab.accOwner.val 0 j t = if j = m then 0 else Tab.accOwner.val 0 j s) ∧ only [Tab.access.num, Tab.accOwner.num] s t) ∧
    (va < 2 ^ 52 → pa < 2 ^ 52 →
      Serves .requestAttestationQuote 5 0x0502 [n64 va, n64 pa, 1364] (fun s => s.memoryAt va 64 = true ∧ s.memoryAt pa 1364 = true)
        (fun _ _ => [n64 pa, 1364])
        (fun s t =>
          t.homeNat pa 4 = 0x4F515445 ∧ t.homeNat (pa + 4) 4 = 1364 ∧ (∀ i, i < 64 → t.homeByte (pa + 8 + i) = s.homeByte (va + i)) ∧
          t.homeNat (pa + 72) 8 = s.dev.window % 2 ^ 64 ∧
          (∀ f, f < 8 → t.homeByte (pa + 80 + 144 * f) = BitVec.ofNat 8 f ∧
            t.homeByte (pa + 81 + 144 * f) = (if (s.fw f).hand = 2 ∨ (s.fw f).hand = 3 then 1 else 0) ∧
            t.homeNat (pa + 84 + 144 * f) 4 = (s.fw f).active.toNat ∧ t.homeNat (pa + 88 + 144 * f) 64 = (s.fw f).mActive.toNat) ∧
          (∀ a, ¬ (pa ≤ a ∧ a < pa + 1364) → t.homeByte a = s.homeByte a) ∧ only [Tab.mem.num, Tab.l2.num] s t) ∧
      (∀ f : Nat, f < 8 → 0 < size → size < 2 ^ 32 →
        Serves .stageFirmwareImage 5 0x0503 [n64 f, n64 pa, n64 size] (fun s => s.memoryAt pa size = true ∧ ∀ k, k < 8 → (s.fw k).hand = 0)
          (fun _ _ => [1])
          fun s t =>
            (∀ k, t.fw k = if k = f then
              { s.fw f with hand := 1, pending := Config.imageVersion (s.homeBytes pa size), mPending := Config.imageDigest (s.homeBytes pa size) }
              else s.fw k) ∧
            t.dev.capGen = s.dev.capGen + 2 ∧ only [Tab.fws.num] s t)) ∧
    (∀ port : Nat, port < 8 → pa < 2 ^ 52 →
      Serves .setCxlIdeKey 5 0x0504 [n64 (port * 2), n64 pa] (fun s => s.memoryAt pa 1 = true) none_
        fun s t => (∀ k, Tab.keys.val false k t = if k = port then true else Tab.keys.val false k s) ∧ only [Tab.keys.num] s t) ∧
    (∀ (q : Nat) (priv : Bool), q < 1024 →
      Serves .setQueuePriv 5 0x0504 [n64 (1 + q * 2 ^ 4 + (if priv then 1 else 0) * 2 ^ 14)] (fun _ => True) none_
        fun s t => (∀ j, t.ring j = if j = q then { s.ring q with priv := priv } else s.ring j) ∧ only [Tab.queues.num] s t) ∧
    -- the fabric core
    (∀ (n wk : Nat), n < 144 → wk ≤ 6 →
      let word0 (s t : State) : List (BitVec 64) :=
        [n64 ((if s.dev.syncok then 1 else 0) * 2 ^ 19 + t.dev.wk.toNat * 2 ^ 16 + (if t.dev.domen then 1 else 0) * 2 ^ 8 + t.dev.devnum.toNat)]
      Serves .joinDomain 6 0x0601 [n64 (1 + n * 2 + wk * 2 ^ 9), w1] (fun s => s.dev.domen = false) word0
        (fun s t => t.dev = { s.dev with devnum := BitVec.ofNat 8 n, wk := BitVec.ofNat 3 wk, epoch := w1, domen := true,
                                         peers := (List.range 144).filter (· ≠ n), capGen := s.dev.capGen + 2 } ∧ only [] s t) ∧
      Serves .leaveDomain 6 0x0601 [0] (fun s => s.dev.domen = true ∧ s.remoteOutstanding = false) word0
        fun s t => t.dev = { s.dev with domen := false, peers := [], capGen := s.dev.capGen + 2 } ∧ only [] s t) ∧
    (∀ n peer pctx : Nat, n < 4096 → peer < 144 → pctx < 4096 →
      Serves .writeImportEntry 6 0x0602 [n64 (n + peer * 2 ^ 12 + pctx * 2 ^ 20 + ctx * 2 ^ 32 + 2 ^ 44)]
        (fun s => ctx ≠ 0 ∧ Tab.imports.at n s = none) none_
        (fun s t => Tab.imports.at n t = some { peer := peer, peerCtx := pctx, ctx := ctx } ∧ SameAt .imports (· = n) s t ∧
          only [Tab.imports.num] s t) ∧
      Serves .removeImportEntry 6 0x0602 [n64 n]
        (fun s => ∀ e, Tab.imports.at n s = some e → (s.ctx e.ctx).cstate = 3 ∨ (s.ctx e.ctx).cstate = 5) none_
        fun s t => Tab.imports.at n t = none ∧ SameAt .imports (· = n) s t ∧ only [Tab.imports.num] s t) ∧
    -- the debug core
    (0 < ctx → Sets .attach 7 0x0701 [op7 0] ctx (fun _ => True) fun _ x => { x with attached := true }) ∧
    Sets .detach 7 0x0701 [op7 1] ctx (fun s => s.watch = [] ∧ s.groupsOf ctx = []) (fun _ x =>
      { x with attached := false, bps := x.bps.map fun w => w &&& 0x7FFFFFFFFFFFFFFF }) ∧
    (∀ (g : Nat) (x : Group), slotOf g < 2 ^ 16 →
      Serves .haltRequest 7 0x0701 [op7 2, n64 (slotOf g)]
        (fun s => held s ∧ s.targets ctx 0 (slotOf g) = [g] ∧ s.group? g = some x ∧ x.halt = none ∧ x.haltReq = none) none_
        (fun s t => t.group? g = some { x with haltReq := some { cause := 0x53, tag := 0, scope := 0, frame := [], also := none } } ∧
          SameAt .groups (· = g) s t ∧ only [Tab.groups.num] s t) ∧
      Serves .resume 7 0x0701 [op7 3, n64 (slotOf g)]
        (fun s => held s ∧ s.targets ctx 0 (slotOf g) = [g] ∧ s.group? g = some x ∧ x.halt.isSome = true ∧ (s.ctx ctx).tracing = false ∧ s.ops = []) none_
        fun s t => t.group? g = some { x with halt := none, stop := false } ∧ SameAt .groups (· = g) s t ∧
          only [Tab.groups.num, Tab.splits.num] s t) ∧
    (∀ k : Nat, k < 8 → w0.toNat &&& breakFields = w0.toNat →
      Sets .writeBreakpoint 7 0x0701 [op7 4, n64 k, w0] ctx held fun _ x => { x with bps := x.bps.set k w0 }) ∧
    (∀ (key : Nat), w1.toNat &&& watchFields = w1.toNat → w1.toNat / 2 ^ 32 % 2 ^ 12 = ctx →
      let armed (s t : State) : Prop :=
        (∀ j, Tab.watch.val WatchPt.init j t = if j = key then { w0 := w0, w1 := w1 } else Tab.watch.val WatchPt.init j s) ∧ only [Tab.watch.num] s t
      (∀ die n : Nat, die < 4 → n < 16 → key = die * 16 + n → w0.toNat < 2 ^ 57 → w1.toNat % 2 ^ 5 ≤ 21 → w1.toNat / 2 ^ 24 % 2 ^ 8 = 0 →
        Serves .writeDieWatchpoint 7 0x0701 [op7 5, n64 (die + n * 2 ^ 4), w0, w1] held none_ armed) ∧
      (∀ cl n : Nat, cl < 32 → n < 8 → key = 64 + cl * 8 + n → w0.toNat &&& fields [(0, 23), (24, 33)] = w0.toNat → w1.toNat % 2 ^ 5 ≤ 10 →
        Serves .writeGalleryWatchpoint 7 0x0701 [op7 6, n64 (cl + n * 2 ^ 8), w0, w1] held none_ armed)) ∧
    (page → Sets .writeTraceRegister 7 0x0701 [op7 7, 0, n64 base] ctx (fun s => held s ∧ (s.ctx ctx).tracePost = []) fun _ x =>
      { x with trbase := n64 base }) ∧
    Sets .writeTraceRegister 7 0x0701 [op7 7, 0x38, w1] ctx (fun s => held s ∧ (s.ctx ctx).tracePost = []) (fun _ x => { x with pmatch := w1 }) ∧
    (∀ (g : Nat) (x : Group) (l : Launch), slotOf g < 2 ^ 16 → pa < 2 ^ 52 →
      let there (n : Nat) (s : State) : Prop := held s ∧ s.targets ctx 0 (slotOf g) = [g] ∧ s.group? g = some x ∧ s.launchOf g = some l ∧
        x.halt.isSome = true ∧ s.memoryAt pa n = true
      Serves .readHaltedState 7 0x0701 [op7 8, n64 (slotOf g), n64 (592 + 8 * 2 ^ 16), n64 pa] (there 8) none_
        (fun s t => WroteAt pa 8 x.live.toNat s t ∧ only [Tab.mem.num, Tab.l2.num] s t) ∧
      (∀ r : Nat, r < 63 →
        Serves .writeHaltedState 7 0x0701 [op7 9, n64 (slotOf g), n64 (4 * r + 4 * 2 ^ 16), n64 pa] (there 4) none_
          fun s t => (∀ h k, k < 64 → t.sreg h k = if h = g ∧ k = r then word (s.homeNat pa 4) else s.sreg h k) ∧ only [Tab.sregs.num] s t))

/-! ## Errors, power, boot, debug and the outside -/

/-- R402 to R409, R447, R274: a block that consumed bad data goes back to its landing or is killed; a failed mark structure kills the context; corrected
errors are counted and acted on at CETHR; a pin is repaired; a bank and a core are recalibrated. -/
def Obligations.Repair : Prop :=
  let posts (xs : List Ras) (s t : State) : Prop := t.dev.erPost = s.dev.erPost ++ xs.map fun r => rasWords r s
  let roomFor (n : Nat) (s : State) : Prop := s.dev.ersize = 0 ∧ s.dev.erPost.length + n ≤ 64
  (∀ (bid : Nat) (b : Block) (l : Launch),
    let there (s : State) : Prop := s.block? bid = some b ∧ s.launch? b.lid = some l
    let quiet (s : State) : Prop := there s ∧ roomFor 1 s ∧ (∀ e ∈ s.blockOps bid, mustEnd s bid e.1 e.2 = false) ∧
      ∀ g ∈ b.gids, ∀ n ∈ s.splitsOf g, ∀ y, s.split? g n = some y → y.goes = false
    let told (cause : Nat) (s t : State) : Prop :=
      let k := s.consumed bid b
      ∃ rest, t.dev.erPost = s.dev.erPost ++ rasWords
        { kind := 9, ctx := l.ctx, inc := l.inc, cause := cause, struct := k.struct,
          slot := (match k.op with | some o => o.slot.toNat | none => 0xFFFF), pa := k.pa,
          site := (match k.op with | some o => o.site | none => 0), unit := k.unit, count := 0 } s :: rest
    let lands : Prop := b.landSlot ≠ none ∧ b.landed = true ∧ b.escaped = false ∧ b.rolled = false
    let free (g : Nat) (x : Group) (s : State) : Prop := s.mayAdvance (slotOf g) = true ∧ s.mayAdvanceT b.tid (tslotOf l b x) = true
    Becomes (.rollback bid) (fun s => s.block? bid = none) (fun s => s) ∧
    (∀ g x n y, Occurs (.rollback bid)
      (fun s => there s ∧ lands ∧ free g x s ∧ b.gids = [g] ∧ s.group? g = some x ∧ n ∈ s.splitsOf g ∧ s.split? g n = some y ∧ y.goes = true)
      fun s t => t.group? g = some { x with stop := true } ∧ t.dev = { s.dev with due := s.dev.due ++ [.rollback bid] } ∧
        SameTables [Tab.groups.num] s t) ∧
    (∀ g x a, Occurs (.rollback bid)
      (fun s => quiet s ∧ b.gids = [g] ∧ s.group? g = some x ∧ b.landSlot = some a ∧ lands ∧ free g x s)
      fun s t =>
        let rd (o n : Nat) : Nat := s.virtNat l.ctx (landBase s l a + 256 + x.gidx * l.grec + o) n
        told 0x54 s t ∧
        t.block? bid = some { b with bar := Barrier.open_, escaped := false, rowsWritten := [], rolled := true } ∧
        (∀ r, r < 63 → t.sreg g r = word (rd (4 * r) 4)) ∧
        (∀ n, n < 4 → (t.split? g n).map (fun y => (y.pc, y.mask)) =
          if rd (648 + 32 * n + 24) 1 = 0 then none else some (word (rd (648 + 32 * n) 4), BitVec.ofNat 64 (rd (648 + 32 * n + 8) 8)))) ∧
    Occurs (.rollback bid)
      (fun s => there s ∧ roomFor 1 s ∧ s.dev.uekill = false ∧ ¬ lands)
      (fun s t => told 0x55 s t ∧ t.block? bid = none ∧ (∀ g ∈ b.gids, t.group? g = none) ∧
        ∀ k, t.launch? b.lid = some k → k.cause = if l.cause = 0 then 0x55 else l.cause) ∧
    Occurs (.rollback bid)
      (fun s => there s ∧ roomFor 1 s ∧ s.dev.uekill = true ∧ ¬ lands ∧
        (s.ctx l.ctx).cstate ≠ 0 ∧ (s.ctx l.ctx).cstate ≠ 5)
      (fun s t => told 0x55 s t ∧ (t.ctx l.ctx).cstate = 5 ∧
        Tab.kills.at (tagKey l.ctx (s.ctx l.ctx).cinc.toNat) t = some { cause := 0x55, left := allUnits, cmd := none, revive := false })) ∧
  (∀ (sector : Nat) (e : MarkEntry), Occurs (.markStructureError (.store sector))
    (fun s => Tab.marks.at sector s = some e ∧ e.ctx ≠ 0 ∧ (s.ctx e.ctx).cstate ≠ 0 ∧ (s.ctx e.ctx).cstate ≠ 5 ∧ roomFor 1 s)
    fun s t => Tab.marks.at sector t = none ∧ Tab.side.val 0 sector t = 0 ∧ (t.ctx e.ctx).cstate = 5 ∧
      Tab.kills.at (tagKey e.ctx (s.ctx e.ctx).cinc.toNat) t = some { cause := 0x55, left := allUnits, cmd := none, revive := false } ∧
      posts [{ kind := 9, ctx := e.ctx, inc := (s.ctx e.ctx).cinc.toNat, cause := 0x55, struct := 4, slot := 0xFFFF, pa := sector * 32, site := 0,
               unit := homeSlice (sector * 32), count := 0 }] s t ∧ SameMemory s t) ∧
  (∀ (struct unit addr : Nat),
    let key := errorKey struct unit addr
    let hour (s : State) : Nat := s.dev.ticks / hourTicks + 1
    let n (s : State) : Nat := (if Tab.ecount.val 0 key s / 2 ^ 32 = hour s then Tab.ecount.val 0 key s % 2 ^ 32 else 0) + 1
    let counted (s t : State) : Prop := Tab.ecount.val 0 key t = hour s * 2 ^ 32 + n s ∧ SameAt .ecount (· = key) s t
    let trips (s : State) : Prop := s.dev.cethr ≠ 0 ∧ n s = s.dev.cethr.toNat
    let eight (s : State) : Ras := { Ras.unitOf 8 struct unit (n s) with pa := if struct = 1 ∨ struct = 2 then addr else 0 }
    Occurs (.correctedError struct unit addr) (fun s => ¬ trips s) (fun s t => counted s t ∧ SameBut [Tab.ecount.num] s t) ∧
    Occurs (.correctedError struct unit addr) (fun s => trips s ∧ roomFor 1 s ∧ struct ∈ [2, 3, 4])
      (fun s t => counted s t ∧ posts [eight s] s t ∧ SameTables [Tab.ecount.num] s t) ∧
    Occurs (.correctedError struct unit addr) (fun s => trips s ∧ roomFor 2 s ∧ struct ∈ [5, 6, 7, 8, 9, 11])
      (fun s t => counted s t ∧ t.core unit = { s.core unit with service := false } ∧ SameAt .cores (· = unit) s t ∧
        t.dev.capGen = s.dev.capGen + 2 ∧ posts [eight s, Ras.unitOf 10 struct unit 0] s t ∧ SameTables [Tab.ecount.num, Tab.cores.num] s t) ∧
    Occurs (.correctedError struct unit addr) (fun s => trips s ∧ roomFor 2 s ∧ struct = 1 ∧ s.mappedAt addr 1 = none)
      (fun s t => counted s t ∧ Tab.badPages.val false (addr / 4096) t = true ∧ SameAt .badPages (· = addr / 4096) s t ∧
        posts [eight s, { Ras.unitOf 10 1 (stackOf addr) 0 with pa := addr }] s t ∧ SameTables [Tab.ecount.num, Tab.badPages.num] s t) ∧
    Occurs (.correctedError struct unit addr)
      (fun s => trips s ∧ roomFor 1 s ∧ struct = 10 ∧ addr / 256 ∉ (s.cluster unit).recal ∧ s.teamsIn unit = [])
      (fun s t => counted s t ∧ t.cluster unit = { s.cluster unit with recal := (s.cluster unit).recal ++ [addr / 256] } ∧
        SameAt .clusters (· = unit) s t ∧ posts [eight s] s t)) ∧
  (∀ stack : Nat,
    Becomes (.pinRepair stack) (fun s => stack < 8 ∧ Tab.paused.val 0 stack s = 0) (fun s => Tab.paused.put stack (s.dev.ticks + 1) s) ∧
    ∀ ex : Bool, Occurs (.channelResume stack ex) (fun s => Tab.paused.val 0 stack s ≠ 0 ∧ roomFor 1 s)
      fun s t => Tab.paused.val 0 stack t = 0 ∧ SameAt .paused (· = stack) s t ∧ posts [Ras.unitOf 11 1 stack (if ex then 1 else 0)] s t ∧
        SameTables [Tab.paused.num] s t) ∧
  (∀ (cl bank : Nat) (masks : List (BitVec 256)),
    let mask (p : Nat) (s : State) : BitVec 256 := Tab.rowMasks.val (BitVec.allOnes 256) ((cl * 32 + bank) * 8 + p) s
    Becomes (.recalibrationComplete cl bank masks) (fun s => bank ∉ (s.cluster cl).recal) (fun s => s) ∧
    Occurs (.recalibrationComplete cl bank masks) (fun s => bank ∈ (s.cluster cl).recal)
      fun s t => (∀ p, p < 6 → mask p t = mask p s &&& (masks[p]?).getD (BitVec.allOnes 256)) ∧
        t.cluster cl = { s.cluster cl with recal := (s.cluster cl).recal.filter (· != bank) } ∧ t.dev.capGen = s.dev.capGen + 2) ∧
  (∀ (core : Nat) (ok : Bool),
    Occurs (.coreRecalibrationComplete core ok)
      (fun s => core < 256 ∧ (s.core core).service = false ∧ s.blocksOn core = [] ∧ roomFor 1 s)
      (fun s t => t.core core = (if ok then { s.core core with service := true, fenced := 0, rate := 8 } else s.core core) ∧
        SameAt .cores (· = core) s t ∧ t.dev.capGen = s.dev.capGen + 2 ∧ posts [Ras.unitOf 10 11 core 0] s t ∧ SameTables [Tab.cores.num] s t) ∧
    Becomes (.coreRecalibrationComplete core ok) (fun s => (s.core core).service = true ∨ s.blocksOn core ≠ []) fun s => s)

/-- R136, R137, R443 to R445: the voltage step of the clusters, temperature, reset, and the stages of the boot. -/
def Obligations.PowerAndBoot : Prop :=
  let still (s : State) : Prop := ∀ c, c < 32 → (s.cluster c).gmode = none
  let shows (st : BitVec 3) (s t : State) : Prop :=
    t.dev.stepState = st ∧ ∀ c, c < 32 → t.cluster c = { s.cluster c with step := st, target := BitVec.ofNat 3 t.dev.stepTarget }
  let switches (p : Nat) (s t : State) : Prop :=
    shows 4 s t ∧ t.dev.stepTarget = p ∧ t.dev.point = max s.dev.point p ∧ t.dev.stepEnd = s.dev.ticks + switchTicks s.dev.point p
  (∀ p : Nat,
    Becomes .stepCheck (fun s => s.dev.stepState = 0 ∧ s.dev.stepWish = none) (fun s => s) ∧
    Occurs .stepCheck (fun s => s.dev.stepState = 0 ∧ s.dev.stepWish = some p ∧ still s ∧ (s.dev.pointsOff ≤ p ∨ p = s.dev.point))
      (fun s t => t.dev = { s.dev with stepWish := none, stepForce := false } ∧ SameTables [Tab.boxes.num] s t ∧
        ∀ k, k ≠ 4 → t.box k = s.box k) ∧
    Occurs .stepCheck (fun s => s.dev.stepState = 0 ∧ s.dev.stepWish = some p ∧ still s ∧ p < s.dev.point ∧ p < s.dev.pointsOff)
      (fun s t => switches p s t ∧ t.dev.stepWish = none ∧ SameTables [Tab.clusters.num] s t) ∧
    Occurs .stepCheck (fun s => s.dev.stepState = 0 ∧ s.dev.stepWish = some p ∧ still s ∧ s.dev.point < p ∧ p < s.dev.pointsOff)
      (fun s t => shows 1 s t ∧ t.dev.stepTarget = p ∧ t.dev.stepWish = none ∧ .stepCheck ∈ t.dev.due ∧ SameTables [Tab.clusters.num] s t) ∧
    Occurs .stepCheck (fun s => s.dev.stepState = 1 ∧ s.dev.stepTarget = p ∧ s.floored p = false ∧ s.failing p = [])
      (fun s t => shows 3 s t ∧ t.dev.stepTarget = p ∧ .stepEvacuateDone ∈ t.dev.due ∧ SameTables [Tab.clusters.num] s t) ∧
    Occurs .stepCheck (fun s => s.dev.stepState = 1 ∧ s.dev.stepTarget = p ∧ (s.floored p = true ∨
        (s.failing p ≠ [] ∧ ((s.dev.preemptPolicy = false ∧ s.dev.stepForce = false) ∨ s.stepVictim p = none))))
      (fun s t => t.dev.stepState = 5 ∧
        (∀ c, c < 32 → (t.cluster c).step = 5 ∧ (if s.shortAt c p ≠ 0 ∨ c ∈ s.floorClusters p
          then (t.cluster c).refused = true ∧ (t.cluster c).short = BitVec.ofNat 16 (s.shortAt c p)
          else (t.cluster c).refused = (s.cluster c).refused ∧ (t.cluster c).short = (s.cluster c).short)) ∧
        t.dev.point = s.dev.point ∧ .stepCheck ∈ t.dev.due ∧ SameTables [Tab.clusters.num, Tab.boxes.num] s t) ∧
    (∀ ctx, Occurs .stepCheck (fun s => s.dev.stepState = 1 ∧ s.dev.stepTarget = p ∧ s.floored p = false ∧ s.failing p ≠ [] ∧
        (s.dev.preemptPolicy = true ∨ s.dev.stepForce = true) ∧ s.stepVictim p = some ctx)
      fun s t => shows 2 s t ∧ t.ctx ctx = { s.ctx ctx with cstate := 2, pstat := 1, preempt := some { drain := false, start := s.dev.ticks } } ∧
        SameAt .ctxs (· = ctx) s t ∧ SameTables [Tab.clusters.num, Tab.ctxs.num] s t) ∧
    Occurs .stepCheck (fun s => s.dev.stepState = 5) (fun s t => shows 0 s t ∧ t.dev.point = s.dev.point ∧ SameTables [Tab.clusters.num] s t) ∧
    Occurs .stepEvacuateDone (fun s => s.dev.stepState = 3 ∧ s.dev.stepTarget = p ∧ s.teams = [] ∧ ∀ c, c < 32 → (s.cluster c).fifo = [])
      (fun s t => switches p s t) ∧
    Becomes .stepEvacuateDone (fun s => s.dev.stepState ≠ 3) (fun s => s) ∧
    Occurs .stepSwitchDone (fun s => s.dev.stepState = 4 ∧ s.dev.stepEnd ≤ s.dev.ticks ∧ s.dev.stepTarget = p)
      (fun s t => t.dev.point = p ∧ shows 0 s t ∧ SameTables [Tab.clusters.num, Tab.boxes.num] s t) ∧
    Becomes .stepSwitchDone (fun s => s.dev.stepState ≠ 4 ∨ s.dev.ticks < s.dev.stepEnd) fun s => s) ∧
  (∀ v : BitVec 16,
    Becomes (.thermalSample v) (fun s => v.toNat < 105 * 16 ∨ (v.toNat < 115 * 16 ∧ s.dev.pointsOff ≤ s.dev.point + 1)) (fun s => { s with dev := { s.dev with tmax := v } }) ∧
    Becomes (.thermalSample v) (fun s => 105 * 16 ≤ v.toNat ∧ v.toNat < 115 * 16 ∧ s.dev.stepState = 0 ∧ s.dev.point + 1 < s.dev.pointsOff)
      (fun s => { s with dev := { s.dev with tmax := v, hot := true, stepWish := some (s.dev.point + 1), stepForce := true,
                                             due := s.dev.due ++ [.stepCheck] } }) ∧
    Occurs (.thermalSample v) (fun s => 115 * 16 ≤ v.toNat ∧ s.holdsEvents)
      fun s t => t.dev.resetHeld = true ∧ t.dev.tmax = v ∧ (∀ k, (s.ctx k).cstate ≠ 0 → (t.ctx k).cstate = 5) ∧
        t.dev.erPost = s.dev.erPost ++ [rasWords { Ras.unitOf 12 0 0 0 with cause := 0 } s]) ∧
  Becomes .reset (fun _ => True) (fun s => { State.reset with dev := { Dev.reset with agenda := s.dev.agenda, freeCtr := s.dev.freeCtr } }) ∧
  (∀ f : BitVec 8,
    let mask (b p : Nat) (s : State) : BitVec 256 := Tab.rowMasks.val (BitVec.allOnes 256) (b * 8 + p) s
    let goes (n : Nat) (s : State) : Prop := s.dev.stage.toNat = n ∧ s.dev.bootFail ∉ [1, 2, 4] ∧ f ∉ [1, 2, 4]
    let ends (n : Nat) (s t : State) : Prop := t.dev.stage = BitVec.ofNat 4 (n + 1) ∧ t.dev.bootFail = if f = 0 then s.dev.bootFail else f
    Becomes (.bootStageComplete f) (fun s => 7 ≤ s.dev.stage.toNat ∨ s.dev.bootFail ∈ [1, 2, 4]) (fun s => s) ∧
    Becomes (.bootStageComplete f) (fun s => s.dev.stage.toNat < 7 ∧ s.dev.bootFail ∉ [1, 2, 4] ∧ f ∈ [1, 2, 4])
      (fun s => { s with dev := { s.dev with bootFail := f } }) ∧
    Occurs (.bootStageComplete f) (goes 0) (fun s t => ends 0 s t ∧ t.dev.ticks = 0 ∧ t.dev.window = 0 ∧ SameTables [] s t) ∧
    Occurs (.bootStageComplete f) (goes 1) (fun s t => ends 1 s t ∧ SameTables [] s t) ∧
    Occurs (.bootStageComplete f) (goes 2) (fun s t => ends 2 s t ∧
      (∀ k, k < 8 → t.fw k = { FwCore.init with active := Config.bootVersion k, mActive := Config.bootDigest k }) ∧
      (∀ m ∈ [293, 296, 297], ∀ core, core < 8 → t.granted m .store (mailboxAddr core) 8 = true) ∧ SameTables [Tab.fws.num, Tab.access.num] s t) ∧
    Occurs (.bootStageComplete f) (goes 3) (fun s t => ends 3 s t ∧ t.dev.point = 2 ∧
      (∀ b p, b < 1024 → 3 ≤ p → p ≤ 5 → mask b p t = Config.calibration (b * 8 + p)) ∧
      (∀ b p, b < 1024 → p < 5 → mask b (p + 1) t &&& ~~~mask b p t ≠ 0 → t.dev.pointsOff ≤ p + 1) ∧
      (∀ c b, c < 32 → b < 32 → (t.cluster c).modeOf b = match Config.bankMode (c * 32 + b) with | 0 => .cache | 2 => .fifo | _ => .scratch) ∧
      SameTables [Tab.rowMasks.num, Tab.clusters.num, Tab.mem.num, Tab.l2.num] s t) ∧
    Occurs (.bootStageComplete f) (fun s => goes 4 s ∧ s.l2 = []) (fun s t => ends 4 s t ∧ (∀ pa, isHbm pa = true → t.homeByte pa = 0) ∧
      (∀ k, k < 0x400000000 → Tab.side.val 0 k t = 0 ∧ t.poisoned k = false) ∧ SameTables [Tab.mem.num, Tab.poison.num, Tab.side.num] s t) ∧
    Occurs (.bootStageComplete f) (fun s => goes 5 s ∧ f ≠ 5) (fun s t => ends 5 s t ∧
      (∀ p, p < 8 → Tab.expander.val 0 p t = min (Config.expanderSize p) 0xC000000000) ∧ SameTables [Tab.expander.num] s t) ∧
    Occurs (.bootStageComplete f) (goes 6) fun s t => ends 6 s t ∧ t.dev.capGen = s.dev.capGen + 2 ∧ SameTables [] s t)

/-- R365, R406, R411 to R425: breakpoints, watchpoint hits and stops, samples, ring heads, trial delays and journal releases. -/
def Obligations.DebugSteps : Prop :=
  (∀ (g n k scope : Nat) (c : Iss),
    let there (s : State) : Prop := Iss.of s g n (.nop false) = some c ∧ c.sp.outs = [] ∧ (s.ctx c.lau.ctx).tracing = false
    let hits (s : State) : Prop := there s ∧ bitAt c.sp.pre 0 = false ∧ s.breakpoint c = some (k, scope)
    Becomes (.breakpointHit g n) (fun s => there s ∧ (bitAt c.sp.pre 0 = true ∨ s.breakpoint c = none)) (fun s => s) ∧
    Occurs (.breakpointHit g n) (fun s => hits s ∧ c.lau.flags.getLsbD 3 = true ∧ scope = 0)
      (fun s t =>
        t.group? g = some { c.grp with
            stop := true, haltReq := none,
            halt := some { cause := 0x50, tag := word (0x10000 + k), split := n, frame := haltFrame s g c.sp.pc.toNat 0x50 0xFFFF } } ∧
        t.split? g n = some { c.sp with pre := c.sp.pre ||| 1, wait := if c.sp.wait.long then c.sp.wait else .stopped } ∧
        SameAt .groups (· = g) s t ∧ SameAt .splits (· = splitKey g n) s t ∧ SameBut [Tab.groups.num, Tab.splits.num] s t) ∧
    Occurs (.breakpointHit g n)
      (fun s => hits s ∧ c.lau.flags.getLsbD 3 = false ∧ c.canTrap ∧ c.blk.gids = [g])
      fun s t =>
        (∃ sh x, t.group? g = some x ∧ x.shadow = some sh ∧ sh.split = n ∧ sh.kind = 2 ∧ sh.resume = c.sp.pc ∧ sh.mask = c.sp.mask ∧
          sh.code = word (0x10000 + k) ∧ sh.frame = groupRecord s g c.lau c.sp.pc.toNat (.plain 1 0x50 0) ∧ sh.op = none ∧ sh.dead = false) ∧
        (∃ y, t.split? g n = some y ∧ y.pc = word c.lau.handler ∧ y.mask = c.sp.mask) ∧
        SameBut [Tab.groups.num, Tab.splits.num, Tab.bregs.num] s t) ∧
  (∀ (g wp : Nat) (x : Group) (q : HaltReq),
    let hit (s : State) : Prop := s.group? g = some x ∧ x.hit = some q ∧ q.tag = word wp ∧ s.hitEnded x = true
    Becomes (.watchpointHit g wp) (fun s => s.group? g = some x ∧ (x.hit = none ∨ s.hitEnded x = false)) (fun s => s) ∧
    Occurs (.watchpointHit g wp) (fun s => hit s ∧ q.scope = 0 ∧ x.halt = none ∧ x.haltReq = none)
      (fun s t => t.group? g = some { x with hit := none, haltReq := some { q with scope := 0, also := none } } ∧
        SameAt .groups (· = g) s t ∧ SameBut [Tab.groups.num] s t) ∧
    (∀ h, Occurs (.watchpointHit g wp) (fun s => hit s ∧ x.halt = some h)
      fun s t => t.group? g = some { x with
          hit := none, halt := some { h with cause := q.cause, tag := q.tag, frame := if q.frame.isEmpty then h.frame else q.frame } } ∧
        SameAt .groups (· = g) s t ∧ SameBut [Tab.groups.num] s t) ∧
    (∀ k z b, Occurs (.watchpointHit g wp)
      (fun s => hit s ∧ q.scope = 1 ∧ x.halt = none ∧ x.haltReq = none ∧ k ≠ g ∧ s.blockOf g = some b ∧ b.gids = [g, k] ∧
        (s.launchOf g).isSome ∧ s.group? k = some z ∧ z.halt = none ∧ z.haltReq = none ∧ ∀ m, m < 4 → s.held k m = false)
      fun _ t => t.group? k = some { z with haltReq := some { cause := 0x53, tag := word (slotOf g), scope := 3, frame := [], also := none } }) ∧
    (∀ n y l, Occurs (.watchpointStop g)
      (fun s => s.group? g = some x ∧ x.haltReq = some q ∧ q.cause = 0x51 ∧ q.scope = 0 ∧ x.halt = none ∧ s.stopSplit g = some n ∧ s.outsQuiet g = true ∧
        s.split? g n = some y ∧ s.launchOf g = some l ∧ (s.ctx l.ctx).tracing = false)
      fun s t =>
        t.group? g = some { x with
          stop := true, haltReq := none,
          halt := some { cause := 0x51, tag := q.tag, split := n, frame := if q.frame.isEmpty then haltFrame s g y.pc.toNat 0x51 0xFFFF else q.frame } } ∧
        t.split? g n = some { y with wait := if y.wait.long then y.wait else .stopped } ∧
        SameAt .groups (· = g) s t ∧ SameAt .splits (· = splitKey g n) s t ∧ SameBut [Tab.groups.num, Tab.splits.num] s t)) ∧
  (∀ (g n : Nat) (c : Iss),
    Becomes (.traceSample g n) (fun s => Iss.of s g n (.nop false) = some c ∧ s.sampleDue c.core c.lau.ctx = false) (fun s => s) ∧
    Occurs (.traceSample g n)
      (fun s => Iss.of s g n (.nop false) = some c ∧ s.launchOf g = some c.lau ∧ s.sampleDue c.core c.lau.ctx = true ∧ s.traceHeld c.lau.ctx = false)
      fun s t =>
        let x := s.ctx c.lau.ctx
        let a := x.trbase.toNat + 32 * (x.trtail.toNat % 2 ^ x.trsize.toNat)
        (∀ i, i < 8 → some (t.homeWord (a + 4 * i)) = (traceWords s 2 c.lau.ctx c.lau.inc 0 (coreOf g) (slotOf g)
          (siteOf s c.lau c.sp.pc.toNat) c.lau.codeId.toNat 0)[i]?) ∧
        (∀ pa, pa < a ∨ a + 32 ≤ pa → t.homeByte pa = s.homeByte pa) ∧
        t.ctx c.lau.ctx = { x with trtail := BitVec.ofNat 20 ((x.trtail.toNat + 1) % 2 ^ x.trsize.toNat) } ∧
        t.sampleDue c.core c.lau.ctx = false ∧ SameBut [Tab.mem.num, Tab.l2.num, Tab.ctxs.num, Tab.cores.num] s t) ∧
  (∀ (master ctx : Nat) (v : BitVec 20),
    Occurs (.trheadWrite master ctx v) (fun s => s.mayWrite master (0x90000010 + 256 * ctx) = true ∧ (s.ctx ctx).tracePost = [])
      (fun s t => t.ctx ctx = { s.ctx ctx with trhead := v } ∧ SameAt .ctxs (· = ctx) s t ∧ SameBut [Tab.ctxs.num] s t) ∧
    Becomes (.trheadWrite master ctx v) (fun s => s.mayWrite master (0x90000010 + 256 * ctx) = false) (fun s => s) ∧
    Becomes (.erheadWrite master v) (fun s => s.mayWrite master 0x80000010 = true ∧ s.dev.erPost = [])
      (fun s => { s with dev := { s.dev with erhead := v } }) ∧
    Becomes (.erheadWrite master v) (fun s => s.mayWrite master 0x80000010 = false) (fun s => s) ∧
    ∀ ws : List (BitVec 32), Occurs (.erheadWrite master v)
      (fun s => s.mayWrite master 0x80000010 = true ∧ s.dev.erPost = [ws] ∧ ws.length = 8 ∧ 8 ≤ s.dev.ersize.toNat ∧ s.dev.ersize.toNat ≤ 20 ∧
        (s.dev.ertail.toNat + 1) % 2 ^ s.dev.ersize.toNat ≠ v.toNat % 2 ^ s.dev.ersize.toNat ∧
        s.fwMay 3 .store (s.dev.erbase.toNat + 32 * (s.dev.ertail.toNat % 2 ^ s.dev.ersize.toNat)) 32 = true)
      fun s t =>
        let a := s.dev.erbase.toNat + 32 * (s.dev.ertail.toNat % 2 ^ s.dev.ersize.toNat)
        (∀ i, i < 8 → some (t.homeWord (a + 4 * i)) = ws[i]?) ∧ (∀ pa, pa < a ∨ a + 32 ≤ pa → t.homeByte pa = s.homeByte pa) ∧
        t.dev = { s.dev with erhead := v, erPost := [],
                             ertail := BitVec.ofNat 20 ((s.dev.ertail.toNat + 1) % 2 ^ s.dev.ersize.toNat) } ∧
        SameTables [Tab.mem.num, Tab.l2.num] s t) ∧
  (∀ (g n u : Nat) (y : Split), Occurs (.causalTrialDelayEnd g n)
    (fun s => s.split? g n = some y ∧ y.wait = .delay u ∧ u ≤ s.dev.cycle.toNat)
    fun s t => t.split? g n = some { y with wait := .ready, pre := y.pre ||| 2 } ∧ SameAt .splits (· = splitKey g n) s t ∧
      SameBut [Tab.splits.num] s t) ∧
  (∀ (op : Nat) (o : Op),
    Becomes (.journalRelease op)
      (fun s => Tab.ops.at op s = some o ∧ o.phase = .waiting ∧ isMemory o.instr = true ∧ o.journaled = true ∧ consumesPoison s o = false)
      (fun s => (respond op).run (Tab.ops.put op { o with phase := .responding } s)) ∧
    Becomes (.journalRelease op) (fun s => Tab.ops.at op s = some o ∧ (o.phase ≠ .waiting ∨ o.journaled = false)) fun s => s)

/-- R181 to R184, R429, R431, R432, R435 to R440: host accesses, answers of the companion processor, fabric requests, links and ports, time, writes to
registers, and the hand-over of a firmware core. -/
def Obligations.Outside : Prop :=
  let posts (r : Ras) (s t : State) : Prop := t.dev = { s.dev with capGen := s.dev.capGen + 2, erPost := s.dev.erPost ++ [rasWords r s] }
  let stores : List Nat := [Tab.mem.num, Tab.l2.num]
  (∀ a : HostAccess,
    Occurs (.hostAccess a) (fun s => s.hostGranted a = true ∧ a.write = true ∧ isCompanion a.pa = false ∧ isManagement a.pa = false)
      (fun s t => WroteAt a.pa a.bytes a.data s t ∧ SameBut stores s t) ∧
    Occurs (.hostAccess a) (fun _ => isCompanion a.pa = true ∧ a.write = true ∧ a.bytes ≤ 64 ∧ isCompanion (a.pa + a.bytes) = true)
      (fun s t => WroteAt a.pa a.bytes a.data s t ∧ SameBut stores s t) ∧
    Becomes (.hostAccess a) (fun s => a.write = false ∨ (s.hostGranted a = false ∧ isCompanion a.pa = false)) fun s => s) ∧
  (∀ (op : Nat) (o : Op),
    let waits (s : State) : Prop := Tab.ops.at op s = some o ∧ isMemory o.instr = true ∧ outerLine o ≠ none ∧ o.phase = .responding
    Becomes (.companionResponse op .done) waits (fun s => (respond op).run s) ∧
    let fails (cause : BitVec 8) (s t : State) : Prop :=
      (∃ f, Tab.ops.at op t = some { o with phase := .failed, fail := some f } ∧ f.cause = cause ∧ f.origin = 0) ∧
        SameAt .ops (· = op) s t ∧ (∀ pa, t.homeByte pa = s.homeByte pa) ∧ SameBut [Tab.ops.num, Tab.l1.num] s t
    Occurs (.companionResponse op .refused) waits (fails 0x14) ∧
    (∀ (line l p : Nat) (cause : BitVec 8) (cls : BitVec 3) (stamp : BitVec 16), 0x20 ≤ cause.toNat → cause.toNat ≤ 0x23 →
      Occurs (.companionResponse op (.conflict cause cls stamp))
        (fun s => waits s ∧ outerLine o = some line ∧ o.lineTr line = some (.ok l) ∧ peerOf (l * 128) = some p) (fails cause)) ∧
    ∀ b, Occurs (.companionResponse op .refused)
      (fun s => Tab.ops.at op s = some o ∧ isMemory o.instr = false ∧ o.phase = .running ∧ outerBlame s o = some b)
      fun s t => (Tab.ops.at op t).map (fun x => (x.phase, x.fail.map (·.cause))) = some (.failed, some b.1.cause) ∧
        ∀ pa, t.homeByte pa = s.homeByte pa) ∧
  (∀ (a : RemoteAccess) (ctx inc : Nat),
    let fits (s : State) : Prop := isHbm a.pa = true ∧ 0 < a.bytes ∧ a.bytes ≤ 16 ∧ a.pa / 32 = (a.pa + a.bytes - 1) / 32 ∧ a.port < 18 ∧
      a.window ≤ s.dev.window + 1 ∧ s.dev.window < a.window + 2 ∧ s.heldBack a.pa = false ∧ s.heldBack (a.pa + a.bytes - 1) = false
    Becomes (.remoteRequest a) (fun s => s.imported a = none ∨ s.heldBack a.pa = true) (fun s => s) ∧
    Occurs (.remoteRequest a) (fun s => fits s ∧ s.imported a = some (ctx, inc) ∧ a.kind = .write ∧ s.marks = [] ∧
        Tab.side.val 0 (a.pa / 32) s = 0 ∧ s.stale (.slice (homeSlice a.pa)) ctx inc = false)
      fun s t => WroteAt a.pa a.bytes a.data s t ∧
        (∃ e, Tab.marks.at (a.pa / 32) t = some e ∧ e.r0.valid = true ∧ e.r0.slot = BitVec.ofNat 16 (0x8100 + a.peer) ∧
          e.r0.stamp = BitVec.ofNat 16 a.window ∧ e.r0.cls = markClass a.cls true ∧ e.r1.valid = false) ∧
        SameBut (Tab.marks.num :: Tab.stamps.num :: stores) s t) ∧
  (∀ off : BitVec 64, Becomes (.ptpMessage off) (fun _ => True) fun s => { s with dev := { s.dev with
    offset := off, syncok := decide (-50 ≤ off.toInt ∧ off.toInt ≤ 50), clockAdj := s.dev.clockAdj - off.toInt } }) ∧
  (∀ p : Nat,
    Occurs (.portFailure p) (fun s => p < 18 ∧ s.dev.ports.getLsbD p = true ∧ s.holdsEvents ∧ s.dev.ports ≠ BitVec.ofNat 18 (2 ^ p))
      (fun s t => posts (Ras.unitOf 10 12 p 0) { s with dev := { s.dev with ports := s.dev.ports &&& ~~~(BitVec.ofNat 18 (2 ^ p)) } } t ∧
        SameTables [] s t) ∧
    (∀ id o, Occurs (.portFailure p) (fun s => p < 18 ∧ s.dev.ports = BitVec.ofNat 18 (2 ^ p) ∧ Tab.ops.at id s = some o ∧ o.remote = true ∧
        o.phase = .responding)
      (fun _ t => t.dev.ports = 0 ∧ .fabricResponseTimeout id ∈ t.dev.due)) ∧
    Occurs (.portTrained p) (fun s => p < 18 ∧ s.dev.ports.getLsbD p = false ∧ s.holdsEvents)
      (fun s t => posts (Ras.unitOf 10 12 p 0) { s with dev := { s.dev with ports := s.dev.ports ||| BitVec.ofNat 18 (2 ^ p) } } t ∧
        SameTables [] s t) ∧
    Occurs (.ubpenLinkFailure p) (fun s => p < 2 ∧ s.dev.ubpen.getLsbD p = true ∧ s.holdsEvents)
      (fun s t => posts (Ras.unitOf 10 12 p 0) { s with dev := { s.dev with ubpen := s.dev.ubpen &&& ~~~(BitVec.ofNat 2 (2 ^ p)) } } t ∧
        SameTables [] s t) ∧
    Becomes (.portFailure p) (fun s => s.dev.ports.getLsbD p = false) (fun s => s) ∧
    Becomes (.portTrained p) (fun s => s.dev.ports.getLsbD p = true) (fun s => s) ∧
    Becomes (.ubpenLinkFailure p) (fun s => s.dev.ubpen.getLsbD p = false) fun s => s) ∧
  (∀ (master a : Nat) (v : BitVec 64),
    let may (s : State) : Prop := a % 8 = 0 ∧ s.mayWrite master a = true
    Becomes (.registerWrite master a ⟨v, 0xFF⟩) (fun s => a % 8 = 0 ∧ s.mayWrite master a = false) (fun s => s) ∧
    (∀ core i, core < 8 →
      Occurs (.registerWrite master a ⟨v, 0xFF⟩) (fun s => may s ∧ 3 ≤ s.dev.stage.toNat ∧ a = 0xA0000008 + 0x1000 * core ∧ v.getLsbD 1 = true)
        (fun s t => t.box core = { s.box core with done := false } ∧ SameAt .boxes (· = core) s t ∧ SameBut [Tab.boxes.num] s t) ∧
      Occurs (.registerWrite master a ⟨v, 0xFF⟩)
        (fun s => may s ∧ 3 ≤ s.dev.stage.toNat ∧ i < 8 ∧ a = 0xA0000100 + 0x1000 * core + 8 * i ∧ (s.box core).busy = false)
        fun s t => t.box core = { s.box core with req := (s.box core).req.set i v } ∧ SameAt .boxes (· = core) s t ∧ SameBut [Tab.boxes.num] s t) ∧
    Becomes (.registerWrite master a ⟨v, 0xFF⟩) (fun s => may s ∧ a = 0xC0000008 ∧ v.getLsbD 0 = true)
      (fun s => { s with dev := { s.dev with hot := false } }) ∧
    (∀ c, c < 32 → Occurs (.registerWrite master a ⟨v, 0xFF⟩) (fun s => may s ∧ a = 0x20000010 + 4096 * c ∧ v.getLsbD 7 = true)
      fun s t => t.cluster c = { s.cluster c with refused := false } ∧ SameAt .clusters (· = c) s t ∧ SameBut [Tab.clusters.num] s t) ∧
    Becomes (.registerWrite master a ⟨v, 0xFF⟩)
      (fun _ => a % 8 = 0 ∧ a / 2 ^ 24 ∉ [0x10, 0x20, 0x60, 0x80, 0x90, 0xA0] ∧ a ≠ 0xC0000008) (fun s => s) ∧
    (∀ m : BitVec 8, Becomes (.registerWrite master a ⟨v, m⟩) (fun s => may s ∧ a = 0x80000010 ∧ s.dev.erPost = [])
      fun s => { s with dev := { s.dev with erhead := (putBytes (s.dev.erhead.setWidth 64) v m).setWidth 20 } })) ∧
  ∀ core : Nat, core < 8 →
    let sets (f : FwCore → FwCore) (s t : State) : Prop :=
      t.fw core = f (s.fw core) ∧ SameAt .fws (· = core) s t ∧ SameTables [Tab.fws.num] s t
    let told (s t : State) : Prop := t.dev = { s.dev with capGen := s.dev.capGen + 2 }
    let lost : Ras := Ras.unitOf 10 0 core 0
    Occurs (.imageVerified core true) (fun s => (s.fw core).hand = 1) (fun s t => sets (fun x => { x with hand := 2 }) s t ∧ told s t) ∧
    Occurs (.imageVerified core false) (fun s => (s.fw core).hand = 1 ∧ s.holdsEvents)
      (fun s t => sets (fun x => { x with hand := 5, pending := 0, mPending := 0 }) s t ∧ posts lost s t) ∧
    (∀ ok, Becomes (.imageVerified core ok) (fun s => (s.fw core).hand ≠ 1) (fun s => s) ∧
      Occurs (.handoverTransfer core ok) (fun s => (s.fw core).hand = 2) (fun s t => sets (fun x => { x with hand := 3 }) s t ∧ told s t) ∧
      Occurs (.handoverTransfer core ok) (fun s => (s.fw core).hand = 4 ∨ (s.fw core).hand = 5)
        (fun s t => sets (fun x => { x with hand := 0 }) s t ∧ t.dev = s.dev) ∧
      Becomes (.handoverTransfer core ok) (fun s => (s.fw core).hand.toNat < 2 ∨ 5 < (s.fw core).hand.toNat) fun s => s) ∧
    Occurs (.handoverTransfer core true) (fun s => (s.fw core).hand = 3 ∧ (s.fw core).held = [])
      (fun s t => sets (fun x => { x with hand := 4, active := x.pending, mActive := x.mPending, pending := 0, mPending := 0 }) s t ∧ told s t) ∧
    Occurs (.handoverTransfer core false) (fun s => (s.fw core).hand = 3 ∧ (s.fw core).held = [] ∧ s.holdsEvents)
      (fun s t => sets (fun x => { x with hand := 5, pending := 0, mPending := 0 }) s t ∧ posts lost s t) ∧
    ∀ q v, Occurs (.handoverTransfer 0 true) (fun s => (s.fw 0).hand = 3 ∧ (s.fw 0).held = [.doorbell q v])
      fun _ t => (t.fw 0).hand = 4 ∧ (t.fw 0).held = [] ∧ (t.ring q).qtail = v

/-! ## The step, the encodings, the form of the state -/

/-- R278, R284, R361, and the model's own order of steps (log 16 to 18): a step takes what `pick` names. A split whose
turn it is and whose text holds a well-formed instruction executes exactly that instruction, and time passes; a step of a unit is executed, and time passes;
the passing of time changes no register, no tile, no window and no operation. -/
def Obligations.StepRuns : Prop :=
  (∀ (s : State) (g n len : Nat) (f : Origin) (c : Iss) (i : Instr), pick s = .issue g n f → Iss.of (f.take s) g n (.nop false) = some c →
    c.standsBefore i len (f.take s) → c.unhindered i len (f.take s) →
    i.wf = true ∧ len = 4 * (encode i).length ∧
    step s = settle g n (some c.sp.pc) (stepFrame (f.take s) g n) (exec i ((f.take s).issuing g n))) ∧
  (∀ (s : State) (i : Instr) (f : Origin), pick s = .event i f → step s = finish 1 (exec i (f.take s))) ∧
  (∀ (s : State) (ac : Nat) (f : Origin), pick s = .pass ac f → step s = .next ((tick ac).run (f.take s))) ∧
  (∀ (g n ac : Nat) (pc : Option (BitVec 32)) (frame : List (BitVec 32)) (t : State),
    finish ac (.next t) = .next ((tick ac).run t) ∧ settle g n pc frame (.next t) = .next ((tick 1).run ((afterTurn g n pc frame).run t))) ∧
  (∀ (s : State) (g n : Nat) (pc : Option (BitVec 32)) (frame : List (BitVec 32)), SameTables [Tab.groups.num] s ((afterTurn g n pc frame).run s)) ∧
  ∀ (s : State) (ac : Nat), ((tick ac).run s).dev.cycle = s.dev.cycle + BitVec.ofNat 64 ac ∧
    SameTables [Tab.mem.num, Tab.l2.num, Tab.ctxs.num, Tab.groups.num, Tab.splits.num, Tab.cores.num, Tab.fws.num, Tab.boxes.num] s
      ((tick ac).run s)

/-- R25 to R30, R48 to R51, R114, R187, R256: words written out from the encodings decode to the instructions they stand for; a reserved opcode, a reserved
field, and a text that ends inside an instruction are refused. -/
def Obligations.DecodeWords : Prop :=
  let l (a b c : Nat) : Nat := a + b * 2 ^ 32 + c * 2 ^ 64
  let always : Head := { s := false, la := 0, neg := false, guard := 7 }
  decodeTableWord 32 0x010828C0 = some (.sadd false 4 5 6 false) ∧
  decodeTableWord 32 0x130FF802 = some (.sld false 7 { sa := 63, buf := 0, off := 2 }) ∧
  decodeTableWord 32 0x2017FFF4 = some (.bra false 1 false 0x7FFF4) ∧
  decodeTableWord 32 0x2A000021 = some (.trap false 0x21) ∧
  decodeTableWord 32 0x30800000 = some (.bar false false) ∧
  decodeTableWord 32 0x360E3100 = some (.tspawn false 7 { sa := 6, buf := 2, off := 0 }) ∧
  decodeTableWord 96 (l 0xA0054004 0x08050000 0x30000400) = some (.ld
    { head := { s := false, la := 2, neg := true, guard := 2 }, uidx := false, nc := false, z := false, scope := .blk, cls := .data, size := .b32,
      vd := 8, va := 5, vb := 0, vc := 0, buf := 3, off := 0x40, aop := 0 }) ∧
  decodeTableWord 96 (l 0x8000E020 0x04090500 0) = some (.vadd
    { head := always, ops := 0, vcs := .reg, vbs := .unif, sat := false, ty := .i32, vd := 4, va := 9, vb := 5, vc := 0, x32 := 0 }) ∧
  decodeTableWord 96 (l 0x90C0E020 0x04010103 0) = some (.ffma
    { head := always, clamp := false, absB := false, absA := false, negB := false, negA := false, vbs := .reg, rnd := .dyn, ty := .f32,
      vd := 4, va := 1, vb := 1, vc := 3, x32 := 0 }) ∧
  decodeTableWord 224 (l 0xF000E001 0 0 + 0x08800002 * 2 ^ 96 + 0x08801002 * 2 ^ 128 + 0x40 * 2 ^ 160) = some (.mma
    { head := always, lb := 0, noacc := false, negb := false, nega := true, tile := 0,
      shape := { w0 := 0x08800002, w1 := 0x08801002, w2 := 0x40, w3 := 0 } }) ∧
  decode (bytesOfNat 4 0x7F000000) = .error .reservedOpcode ∧ decode (bytesOfNat 4 0x01082FC0) = .error .reservedField ∧
  decode (bytesOfNat 8 (l 0x8000E020 0x04090500 0)) = .error .truncated

/-- R23 to R30, R45 to R53: decoding the bytes of any well-formed instruction gives that instruction and its length, whatever follows it; every operand at every
value that the encoding admits. -/
def Obligations.RoundTrip : Prop :=
  ∀ (i : Instr) (rest : List Byte), i.wf = true → encode i ≠ [] → decode (encodeBytes i ++ rest) = .ok (i, 4 * (encode i).length)

/-- The model's canonical form (DESIGN CHOICE, log 15): a step that answers a next state keeps every table of the state, memory among them, in
canonical form, so that equal memories are equal data. -/
def Obligations.CanonicalKept : Prop := ∀ s t : State, s.wf → step s = .next t → t.wf

/-- After reset every table is in canonical form, and so it is in the machine with any word placed to run next. -/
def Obligations.CanonicalReset : Prop := State.reset.wf ∧ ∀ nbits w : Nat, (State.reset.withFetchWord nbits w).wf
end

