-- ==== Sys2Proof/Laws/State.lean ====
section
/-! SUPPORT. Tables: reading after a write, writes to other tables, and the canonical form. -/

namespace Sys2Proof.Machine

open Sys2Proof

/-! ## Sparse tables -/

theorem Sparse.get_insert_self {α : Type} (k : Nat) (v : α) (t : Table α) : Sparse.get k (Sparse.insert k v t) = some v := by
  induction t with
  | nil => simp [Sparse.insert, Sparse.get]
  | cons e rest ih =>
    obtain ⟨a, x⟩ := e
    by_cases h : k < a
    · simp [Sparse.insert, Sparse.get, h]
    · by_cases h2 : a = k
      · simp [Sparse.insert, Sparse.get, h2]
      · simp [Sparse.insert, Sparse.get, h, h2, ih]

theorem Sparse.get_insert_ne {α : Type} {k j : Nat} (hn : j ≠ k) (v : α) (t : Table α) :
    Sparse.get j (Sparse.insert k v t) = Sparse.get j t := by
  induction t with
  | nil => simp [Sparse.insert, Sparse.get, hn.symm]
  | cons e rest ih =>
    obtain ⟨a, x⟩ := e
    by_cases h : k < a
    · simp [Sparse.insert, Sparse.get, h, hn.symm]
    · by_cases h2 : a = k
      · subst h2; simp [Sparse.insert, Sparse.get, hn.symm]
      · simp [Sparse.insert, Sparse.get, h, h2, ih]

theorem Sparse.get_eq_none {α : Type} {k : Nat} {t : Table α} (h : ∀ e ∈ t, e.1 ≠ k) : Sparse.get k t = none := by
  induction t with
  | nil => rfl
  | cons e rest ih =>
    obtain ⟨a, x⟩ := e
    have h1 : a ≠ k := h (a, x) (by simp)
    simp [Sparse.get, h1]
    exact ih fun e he => h e (by simp [he])

theorem Sparse.get_erase_in {α : Type} {k lo hi : Nat} (h : lo ≤ k ∧ k < hi) (t : Table α) :
    Sparse.get k (Sparse.erase lo hi t) = none := by
  apply Sparse.get_eq_none
  intro e he hk
  simp [Sparse.erase] at he
  omega

theorem Sparse.get_erase_out {α : Type} {k lo hi : Nat} (h : k < lo ∨ hi ≤ k) (t : Table α) :
    Sparse.get k (Sparse.erase lo hi t) = Sparse.get k t := by
  induction t with
  | nil => rfl
  | cons e rest ih =>
    obtain ⟨a, x⟩ := e
    simp only [Sparse.erase, List.filter_cons] at ih ⊢
    split
    · simp only [Sparse.get, ih]
    · next h3 =>
      have : a ≠ k := by intro hk; subst hk; simp at h3; omega
      simp [Sparse.get, this, ih]

theorem Sparse.mem_insert {α : Type} {k : Nat} {v : α} {t : Table α} {e : Nat × α} (h : e ∈ Sparse.insert k v t) :
    e = (k, v) ∨ e ∈ t := by
  induction t with
  | nil => simpa [Sparse.insert] using h
  | cons f rest ih =>
    obtain ⟨a, x⟩ := f
    simp only [Sparse.insert] at h
    split at h
    · simpa using h
    · split at h
      · rcases List.mem_cons.mp h with h | h
        · exact .inl h
        · exact .inr (List.mem_cons_of_mem _ h)
      · rcases List.mem_cons.mp h with h | h
        · simp [h]
        · rcases ih h with h | h <;> simp [h]

theorem Sparse.insert_wf {α : Type} (k : Nat) (v : α) {t : Table α} (h : Table.wf t) : Table.wf (Sparse.insert k v t) := by
  induction t with
  | nil => simp [Sparse.insert, Table.wf]
  | cons f rest ih =>
    obtain ⟨a, x⟩ := f
    obtain ⟨h1, h2⟩ := List.pairwise_cons.mp h
    simp only [Sparse.insert]
    split
    · next hlt =>
      refine List.pairwise_cons.mpr ⟨fun e he => ?_, h⟩
      rcases List.mem_cons.mp he with he | he
      · simpa [he] using hlt
      · exact Nat.lt_trans hlt (h1 e he)
    · split
      · next hge heq =>
        have heq : a = k := by simpa using heq
        exact List.pairwise_cons.mpr ⟨fun e he => by simpa [heq] using h1 e he, h2⟩
      · next hge hne =>
        have hne : a ≠ k := by simpa using hne
        refine List.pairwise_cons.mpr ⟨fun e he => ?_, ih h2⟩
        rcases Sparse.mem_insert he with he | he
        · simp [he]; omega
        · exact h1 e he

/-! ## Tables of the state -/

/-- Each table's reading of a field is the field. -/
@[simp] theorem Tab.get_set {α : Type} (t : Tab α) (x : Table α) (s : State) : t.get (t.set x s) = x := by cases t <;> rfl
@[simp] theorem Tab.set_dev {α : Type} (t : Tab α) (x : Table α) (s : State) : (t.set x s).dev = s.dev := by cases t <;> rfl
theorem Tab.get_set_ne {α β : Type} {t : Tab α} {u : Tab β} (h : u.num ≠ t.num) (x : Table α) (s : State) :
    u.get (t.set x s) = u.get s := by
  cases t <;> cases u <;> first | rfl | exact absurd rfl h

/-- The table of a number. -/
def Tab.ofNum : Nat → Option (Sigma Tab)
  | 0 => some ⟨_, .mem⟩
  | 1 => some ⟨_, .poison⟩
  | 2 => some ⟨_, .side⟩
  | 3 => some ⟨_, .l2⟩
  | 4 => some ⟨_, .l1⟩
  | 5 => some ⟨_, .wbs⟩
  | 6 => some ⟨_, .marks⟩
  | 7 => some ⟨_, .spills⟩
  | 8 => some ⟨_, .stamps⟩
  | 9 => some ⟨_, .reqs⟩
  | 10 => some ⟨_, .notices⟩
  | 11 => some ⟨_, .fnotices⟩
  | 12 => some ⟨_, .icount⟩
  | 13 => some ⟨_, .tlb1⟩
  | 14 => some ⟨_, .tlb2⟩
  | 15 => some ⟨_, .walks⟩
  | 16 => some ⟨_, .access⟩
  | 17 => some ⟨_, .accOwner⟩
  | 18 => some ⟨_, .pages⟩
  | 19 => some ⟨_, .badPages⟩
  | 20 => some ⟨_, .ctxs⟩
  | 21 => some ⟨_, .tags⟩
  | 22 => some ⟨_, .deadAt⟩
  | 23 => some ⟨_, .kills⟩
  | 24 => some ⟨_, .reclaims⟩
  | 25 => some ⟨_, .launches⟩
  | 26 => some ⟨_, .teams⟩
  | 27 => some ⟨_, .blocks⟩
  | 28 => some ⟨_, .groups⟩
  | 29 => some ⟨_, .splits⟩
  | 30 => some ⟨_, .sregs⟩
  | 31 => some ⟨_, .pregs⟩
  | 32 => some ⟨_, .bregs⟩
  | 33 => some ⟨_, .vregs⟩
  | 34 => some ⟨_, .filter⟩
  | 35 => some ⟨_, .wps⟩
  | 36 => some ⟨_, .ops⟩
  | 37 => some ⟨_, .savedOps⟩
  | 38 => some ⟨_, .cores⟩
  | 39 => some ⟨_, .win⟩
  | 40 => some ⟨_, .gside⟩
  | 41 => some ⟨_, .teamCnt⟩
  | 42 => some ⟨_, .tscan⟩
  | 43 => some ⟨_, .clusters⟩
  | 44 => some ⟨_, .rowMasks⟩
  | 45 => some ⟨_, .tiles⟩
  | 46 => some ⟨_, .tpoison⟩
  | 47 => some ⟨_, .tsince⟩
  | 48 => some ⟨_, .domains⟩
  | 49 => some ⟨_, .stations⟩
  | 50 => some ⟨_, .queues⟩
  | 51 => some ⟨_, .cmds⟩
  | 52 => some ⟨_, .tts⟩
  | 53 => some ⟨_, .watch⟩
  | 54 => some ⟨_, .boxes⟩
  | 55 => some ⟨_, .fws⟩
  | 56 => some ⟨_, .imports⟩
  | 57 => some ⟨_, .keys⟩
  | 58 => some ⟨_, .ecount⟩
  | 59 => some ⟨_, .expander⟩
  | 60 => some ⟨_, .fifo⟩
  | 61 => some ⟨_, .spawns⟩
  | 62 => some ⟨_, .jdone⟩
  | 63 => some ⟨_, .paused⟩
  | 64 => some ⟨_, .gways⟩
  | 65 => some ⟨_, .icache⟩
  | _ => none
theorem Tab.ofNum_num {α : Type} (t : Tab α) : Tab.ofNum t.num = some ⟨α, t⟩ := by cases t <;> rfl
/-- Tables of one number are one table. -/
theorem Tab.same {α β : Type} {t : Tab α} {u : Tab β} (h : t.num = u.num) : ∃ e : α = β, e ▸ t = u := by
  have := Tab.ofNum_num t
  rw [h, Tab.ofNum_num u] at this
  cases this
  exact ⟨rfl, rfl⟩

/-! ## Single writes -/

@[simp] theorem Tab.put_dev {α : Type} (t : Tab α) (k : Nat) (v : α) (s : State) : (t.put k v s).dev = s.dev := by
  unfold Tab.put; split <;> simp
@[simp] theorem Tab.clear_dev {α : Type} (t : Tab α) (lo hi : Nat) (s : State) : (t.clear lo hi s).dev = s.dev := by simp [Tab.clear]
theorem Tab.get_put_ne {α β : Type} {t : Tab α} {u : Tab β} (h : u.num ≠ t.num) (k : Nat) (v : α) (s : State) :
    u.get (t.put k v s) = u.get s := by
  unfold Tab.put; split <;> exact Tab.get_set_ne h _ _
theorem Tab.get_clear_ne {α β : Type} {t : Tab α} {u : Tab β} (h : u.num ≠ t.num) (lo hi : Nat) (s : State) :
    u.get (t.clear lo hi s) = u.get s := Tab.get_set_ne h _ _

/-- A write is read back; a value that unlisted keys have is not listed. -/
theorem Tab.at_put_self {α : Type} (t : Tab α) (k : Nat) (v : α) (s : State) :
    t.at k (t.put k v s) = if t.isDefault v then none else some v := by
  unfold Tab.put Tab.at; split
  · simp [Sparse.get_erase_in (k := k) (lo := k) (hi := k + 1) (by omega)]
  · simp [Sparse.get_insert_self]
theorem Tab.at_put_ne {α : Type} (t : Tab α) {j k : Nat} (h : j ≠ k) (v : α) (s : State) : t.at j (t.put k v s) = t.at j s := by
  unfold Tab.put Tab.at; split
  · simp [Sparse.get_erase_out (k := j) (lo := k) (hi := k + 1) (by omega)]
  · simp [Sparse.get_insert_ne h]
theorem Tab.at_clear_in {α : Type} (t : Tab α) {k lo hi : Nat} (h : lo ≤ k ∧ k < hi) (s : State) : t.at k (t.clear lo hi s) = none := by
  simp [Tab.clear, Tab.at, Sparse.get_erase_in h]
theorem Tab.at_clear_out {α : Type} (t : Tab α) {k lo hi : Nat} (h : k < lo ∨ hi ≤ k) (s : State) :
    t.at k (t.clear lo hi s) = t.at k s := by
  simp [Tab.clear, Tab.at, Sparse.get_erase_out h]
theorem Tab.at_other {α β : Type} {t : Tab α} {u : Tab β} (h : u.num ≠ t.num) (j k : Nat) (v : α) (s : State) :
    u.at j (t.put k v s) = u.at j s := by simp [Tab.at, Tab.get_put_ne h]

/-! ## The canonical form -/

theorem Tab.put_wf {α : Type} (t : Tab α) (k : Nat) (v : α) {s : State} (h : t.wf (t.get s)) : t.wf (t.get (t.put k v s)) := by
  unfold Tab.put
  split
  · simp only [Tab.get_set]
    exact ⟨h.1.filter _, fun e he => h.2 e ((List.mem_filter.mp he).1)⟩
  · next hd =>
    simp only [Tab.get_set]
    refine ⟨Sparse.insert_wf k v h.1, fun e he => ?_⟩
    rcases Sparse.mem_insert he with he | he
    · subst he; simpa using hd
    · exact h.2 e he
theorem Tab.clear_wf {α : Type} (t : Tab α) (lo hi : Nat) {s : State} (h : t.wf (t.get s)) : t.wf (t.get (t.clear lo hi s)) := by
  simp only [Tab.clear, Tab.get_set]
  exact ⟨h.1.filter _, fun e he => h.2 e ((List.mem_filter.mp he).1)⟩
/-- Every memory operation keeps the canonical form of memory. -/
theorem memory_put_wf (pa : Nat) (b : Byte) {s : State} (h : Memory.wf s.mem) : Memory.wf (Tab.mem.put pa b s).mem := Tab.put_wf .mem pa b h
theorem memory_clear_wf (lo hi : Nat) {s : State} (h : Memory.wf s.mem) : Memory.wf (Tab.mem.clear lo hi s).mem := Tab.clear_wf .mem lo hi h
theorem memory_reset_wf : Memory.wf State.reset.mem := ⟨List.Pairwise.nil, by simp [State.reset]⟩

/-! ## Acts -/

@[simp] theorem Act.run_skip (s : State) : Act.skip.run s = s := rfl
@[simp] theorem Act.run_seq (a b : Act) (s : State) : (Act.seq a b).run s = b.run (a.run s) := rfl
@[simp] theorem Act.run_put {α : Type} (t : Tab α) (k : Nat) (v : α) (s : State) : (Act.put t k v).run s = t.put k v s := rfl
@[simp] theorem Act.run_clear {α : Type} (t : Tab α) (lo hi : Nat) (s : State) : (Act.clear t lo hi).run s = t.clear lo hi s := rfl
@[simp] theorem Act.run_dev (f : Dev → Dev) (s : State) : (Act.dev f).run s = { s with dev := f s.dev } := rfl
@[simp] theorem Act.run_read (k : State → Act) (s : State) : (Act.read k).run s = (k s).run s := rfl
@[simp] theorem Act.run_all_nil (s : State) : (Act.all []).run s = s := rfl
@[simp] theorem Act.run_all_cons (a : Act) (as : List Act) (s : State) : (Act.all (a :: as)).run s = (Act.all as).run (a.run s) := rfl
@[simp] theorem Act.run_each_nil {β : Type} (f : β → Act) (s : State) : (Act.each [] f).run s = s := rfl
@[simp] theorem Act.run_each_cons {β : Type} (x : β) (xs : List β) (f : β → Act) (s : State) :
    (Act.each (x :: xs) f).run s = (Act.each xs f).run ((f x).run s) := rfl
@[simp] theorem Act.run_when (c : Bool) (a : Act) (s : State) : (Act.when c a).run s = if c then a.run s else s := by
  unfold Act.when; split <;> rfl

/-- Whatever an act does, a table that it writes only by single writes stays in canonical form. -/
theorem Act.run_wf {α : Type} (t : Tab α) (a : Act) : ∀ s : State, t.wf (t.get s) → t.wf (t.get (a.run s)) := by
  induction a with
  | skip => exact fun _ h => h
  | put u k v =>
    intro s h
    by_cases hn : t.num = u.num
    · obtain ⟨rfl, rfl⟩ := Tab.same hn
      exact Tab.put_wf _ k v h
    · simpa [Tab.get_put_ne hn] using h
  | clear u lo hi =>
    intro s h
    by_cases hn : t.num = u.num
    · obtain ⟨rfl, rfl⟩ := Tab.same hn
      exact Tab.clear_wf _ lo hi h
    · simpa [Tab.get_clear_ne hn] using h
  | dev f => intro s h; cases t <;> exact h
  | seq a b iha ihb => exact fun s h => ihb _ (iha s h)
  | read k ih => exact fun s h => ih s s h

/-! ## Frames of acts -/

/-- Whether an act never writes a table. -/
def Act.keeps {α : Type} (t : Tab α) : Act → Prop
  | .skip => True
  | .put u _ _ => t.num ≠ u.num
  | .clear u _ _ => t.num ≠ u.num
  | .dev _ => True
  | .seq a b => a.keeps t ∧ b.keeps t
  | .read k => ∀ s, (k s).keeps t
/-- Whether an act never writes the device registers. -/
def Act.keepsDev : Act → Prop
  | .dev _ => False
  | .seq a b => a.keepsDev ∧ b.keepsDev
  | .read k => ∀ s, (k s).keepsDev
  | _ => True
theorem Act.run_keeps {α : Type} {t : Tab α} {a : Act} (h : a.keeps t) (s : State) : t.get (a.run s) = t.get s := by
  induction a generalizing s with
  | skip => rfl
  | put u k v => exact Tab.get_put_ne h k v s
  | clear u lo hi => exact Tab.get_clear_ne h lo hi s
  | dev f => cases t <;> rfl
  | seq a b iha ihb => exact (ihb h.2 _).trans (iha h.1 s)
  | read k ih => exact ih s (h s) s
theorem Act.run_keepsDev {a : Act} (h : a.keepsDev) (s : State) : (a.run s).dev = s.dev := by
  induction a generalizing s with
  | skip => rfl
  | put u k v => simp
  | clear u lo hi => simp
  | dev f => exact h.elim
  | seq a b iha ihb => exact (ihb h.2 _).trans (iha h.1 s)
  | read k ih => exact ih s (h s) s

end Sys2Proof.Machine
end

