-- ==== Sys2Proof/Laws/Acts.lean ====
section
/-! SUPPORT. What acts write: which tables, and that everything else is as before; what the named writes of registers leave. -/

namespace Sys2Proof.Machine

open Sys2Proof

/-! ## Which tables an act writes -/

/-- An act writes only the named tables, and no device register. -/
def Act.within (ns : List Nat) : Act → Prop
  | .skip => True
  | .put u _ _ => u.num ∈ ns
  | .clear u _ _ => u.num ∈ ns
  | .dev _ => False
  | .seq a b => a.within ns ∧ b.within ns
  | .read k => ∀ s, (k s).within ns
/-- An act writes only the named tables; device registers may change. -/
def Act.inside (ns : List Nat) : Act → Prop
  | .skip => True
  | .put u _ _ => u.num ∈ ns
  | .clear u _ _ => u.num ∈ ns
  | .dev _ => True
  | .seq a b => a.inside ns ∧ b.inside ns
  | .read k => ∀ s, (k s).inside ns

theorem Act.inside_run {ns : List Nat} {a : Act} (h : a.inside ns) : ∀ s, SameTables ns s (a.run s) := by
  induction a with
  | skip => exact fun s α u _ => rfl
  | put t k v => exact fun s α u hu => Tab.get_put_ne (t := t) (fun e => hu (by rw [e]; exact h)) k v s
  | clear t lo hi => exact fun s α u hu => Tab.get_clear_ne (t := t) (fun e => hu (by rw [e]; exact h)) lo hi s
  | dev f => exact fun s α u _ => by cases u <;> rfl
  | seq a b iha ihb => exact fun s α u hu => (ihb h.2 _ α u hu).trans (iha h.1 s α u hu)
  | read k ih => exact fun s => ih s (h s) s
theorem Act.within_inside {ns : List Nat} {a : Act} (h : a.within ns) : a.inside ns := by
  induction a with
  | skip => trivial
  | put t k v => exact h
  | clear t lo hi => exact h
  | dev f => exact h.elim
  | seq a b iha ihb => exact ⟨iha h.1, ihb h.2⟩
  | read k ih => exact fun s => ih s (h s)
theorem Act.within_keepsDev {ns : List Nat} {a : Act} (h : a.within ns) : a.keepsDev := by
  induction a with
  | skip => trivial
  | put t k v => trivial
  | clear t lo hi => trivial
  | dev f => exact h
  | seq a b iha ihb => exact ⟨iha h.1, ihb h.2⟩
  | read k ih => exact fun s => ih s (h s)
/-- An act that writes only the named tables leaves all else as it was. -/
theorem Act.within_run {ns : List Nat} {a : Act} (h : a.within ns) (s : State) : SameBut ns s (a.run s) :=
  ⟨Act.run_keepsDev (Act.within_keepsDev h) s, Act.inside_run (Act.within_inside h) s⟩
theorem Act.within_mono {ns ms : List Nat} (hs : ∀ n ∈ ns, n ∈ ms) {a : Act} (h : a.within ns) : a.within ms := by
  induction a with
  | skip => trivial
  | put t k v => exact hs _ h
  | clear t lo hi => exact hs _ h
  | dev f => exact h
  | seq a b iha ihb => exact ⟨iha h.1, ihb h.2⟩
  | read k ih => exact fun s => ih s (h s)

@[simp] theorem Act.within_skip (ns : List Nat) : Act.skip.within ns := trivial
@[simp] theorem Act.within_put {α : Type} (ns : List Nat) (t : Tab α) (k : Nat) (v : α) : (Act.put t k v).within ns ↔ t.num ∈ ns := .rfl
@[simp] theorem Act.within_clear {α : Type} (ns : List Nat) (t : Tab α) (lo hi : Nat) : (Act.clear t lo hi).within ns ↔ t.num ∈ ns := .rfl
@[simp] theorem Act.within_del {α : Type} (ns : List Nat) (t : Tab α) (k : Nat) : (Act.del t k).within ns ↔ t.num ∈ ns := .rfl
@[simp] theorem Act.within_seq (ns : List Nat) (a b : Act) : (Act.seq a b).within ns ↔ a.within ns ∧ b.within ns := .rfl
@[simp] theorem Act.within_read (ns : List Nat) (k : State → Act) : (Act.read k).within ns ↔ ∀ s, (k s).within ns := .rfl
@[simp] theorem Act.within_all_nil (ns : List Nat) : (Act.all []).within ns := trivial
@[simp] theorem Act.within_all_cons (ns : List Nat) (a : Act) (as : List Act) :
    (Act.all (a :: as)).within ns ↔ a.within ns ∧ (Act.all as).within ns := .rfl
theorem Act.within_each {β : Type} {ns : List Nat} {xs : List β} {f : β → Act} (h : ∀ x ∈ xs, (f x).within ns) : (Act.each xs f).within ns := by
  induction xs with
  | nil => trivial
  | cons x xs ih => exact ⟨h x (by simp), ih fun y hy => h y (by simp [hy])⟩
theorem Act.within_when {ns : List Nat} {c : Bool} {a : Act} (h : c = true → a.within ns) : (Act.when c a).within ns := by
  cases c
  · trivial
  · exact h rfl
theorem Act.within_upd {α : Type} {ns : List Nat} (t : Tab α) (k : Nat) (f : α → α) (h : t.num ∈ ns) : (Act.upd t k f).within ns := by
  intro s; simp only; split
  · exact h
  · trivial
theorem Act.within_updD {α : Type} {ns : List Nat} (t : Tab α) (d : α) (k : Nat) (f : α → α) (h : t.num ∈ ns) : (Act.updD t d k f).within ns :=
  fun _ => h

/-! ## Single changes -/

/-- Change an entry that is there, in a table that lists every value. -/
theorem Act.at_upd {α : Type} {t : Tab α} {k : Nat} {f : α → α} {v : α} {s : State} (h : t.at k s = some v) (hd : t.isDefault (f v) = false) :
    t.at k ((Act.upd t k f).run s) = some (f v) := by
  have : (Act.upd t k f).run s = t.put k (f v) s := by simp only [Act.upd, Act.run, h]
  rw [this, Tab.at_put_self, hd]; rfl
theorem Act.upd_run {α : Type} {t : Tab α} {k : Nat} {f : α → α} {v : α} {s : State} (h : t.at k s = some v) :
    (Act.upd t k f).run s = t.put k (f v) s := by simp only [Act.upd, Act.run, h]
theorem Act.updD_run {α : Type} (t : Tab α) (d : α) (k : Nat) (f : α → α) (s : State) :
    (Act.updD t d k f).run s = t.put k (f (t.val d k s)) s := rfl
theorem Tab.val_put_self {α : Type} (t : Tab α) (d : α) (k : Nat) (v : α) (s : State) (h : t.isDefault v = true → v = d) :
    t.val d k (t.put k v s) = v := by
  unfold Tab.val; rw [Tab.at_put_self]; split
  · next hv => exact (h hv).symm
  · rfl
theorem Tab.val_put_ne {α : Type} (t : Tab α) (d : α) {j k : Nat} (h : j ≠ k) (v : α) (s : State) :
    t.val d j (t.put k v s) = t.val d j s := by unfold Tab.val; rw [Tab.at_put_ne t h]
theorem Tab.at_of_get {α : Type} {t : Tab α} {s u : State} (h : t.get u = t.get s) (k : Nat) : t.at k u = t.at k s := by simp [Tab.at, h]
theorem Tab.val_of_get {α : Type} {t : Tab α} {s u : State} (h : t.get u = t.get s) (d : α) (k : Nat) : t.val d k u = t.val d k s := by
  simp [Tab.val, Tab.at_of_get h]

/-! ## Registers -/

theorem sreg_of_get {s t : State} (h : Tab.sregs.get t = Tab.sregs.get s) (g r : Nat) : t.sreg g r = s.sreg g r := by
  simp [State.sreg, Tab.val_of_get h]
theorem preg_of_get {s t : State} (h : Tab.pregs.get t = Tab.pregs.get s) (g r : Nat) : t.preg g r = s.preg g r := by
  simp [State.preg, Tab.val_of_get h]
theorem breg_of_get {s t : State} (h : Tab.bregs.get t = Tab.bregs.get s) (g r : Nat) : t.breg g r = s.breg g r := by
  simp [State.breg, Tab.val_of_get h]
theorem vreg_of_get {s t : State} (h : Tab.vregs.get t = Tab.vregs.get s) (g r l : Nat) : t.vreg g r l = s.vreg g r l := by
  simp [State.vreg, Tab.val_of_get h]

theorem wrS_within {ns : List Nat} (h : Tab.sregs.num ∈ ns) (g r : Nat) (v : BitVec 32) : (wrS g r v).within ns := by
  unfold wrS; split
  · trivial
  · exact h
theorem wrSD_within {ns : List Nat} (h : Tab.sregs.num ∈ ns) (g r : Nat) (v : BitVec 64) : (wrSD g r v).within ns :=
  ⟨wrS_within h _ _ _, wrS_within h _ _ _⟩
theorem wrQ_within {ns : List Nat} (h : Tab.groups.num ∈ ns) (g n : Nat) (v : Bool) : (wrQ g n v).within ns := Act.within_upd _ _ _ h
theorem wrV_within {ns : List Nat} (h : Tab.vregs.num ∈ ns) (g r l : Nat) (v : BitVec 32) : (wrV g r l v).within ns := h
theorem wrVs_within {ns : List Nat} (h : Tab.vregs.num ∈ ns) (g r l n v : Nat) : (wrVs g r l n v).within ns := by
  induction n generalizing r v with
  | zero => trivial
  | succ n ih => exact ⟨h, ih _ _⟩
theorem wrP_within {ns : List Nat} (h : Tab.pregs.num ∈ ns) (g p : Nat) (m v : BitVec 64) : (wrP g p m v).within ns := Act.within_updD _ _ _ _ h
theorem wrB_within {ns : List Nat} (h : Tab.bregs.num ∈ ns) (g b : Nat) (v : BitVec 128) : (wrB g b v).within ns := h
theorem orFlags_within {ns : List Nat} (h : Tab.groups.num ∈ ns) (g : Nat) (f : BitVec 6) : (orFlags g f).within ns := by
  unfold orFlags; split
  · trivial
  · exact Act.within_upd _ _ _ h
theorem advance_within {ns : List Nat} (h : Tab.splits.num ∈ ns) (c : Iss) : c.advance.within ns := fun _ => h

/-- A uniform register after a write of one: s63 discards. -/
theorem sreg_wrS (g r : Nat) (v : BitVec 32) (s : State) (hr : r < 64) (k j : Nat) (hj : j < 64) :
    ((wrS g r v).run s).sreg k j = if k = g ∧ j ≠ 63 ∧ j = r then v else s.sreg k j := by
  unfold wrS State.sreg
  by_cases h63 : r = 63
  · subst h63
    simp only [beq_self_eq_true, if_true, Act.run_skip]
    by_cases hj63 : j = 63 <;> simp [hj63]
  · simp only [beq_iff_eq, h63, if_false, Act.run_put]
    by_cases hj63 : j = 63
    · simp [hj63]
    · simp only [hj63, if_false]
      by_cases hk : k = g ∧ j = r
      · obtain ⟨rfl, rfl⟩ := hk
        rw [Tab.val_put_self]
        · simp [hj63]
        · simp [Tab.isDefault]
      · rw [Tab.val_put_ne _ _ (by omega)]
        simp only [hj63, ne_eq, not_false_eq_true, true_and]
        rw [if_neg hk]

end Sys2Proof.Machine
end

