-- ==== Sys2Proof/Laws/Checks.lean ====
section
/-! SUPPORT. What checking an access gives the instruction that asks for it: either it goes on from one state, or it does not go on. -/

namespace Sys2Proof.Machine

open Sys2Proof

/-- Looking through records ends in the pass or in one conflict, in a state that does not depend on what follows. -/
theorem settleNow_run (q : Req) (xs : List Rec) : ∀ s : State,
    (∃ v, ∀ pass conflict, (settleNow q pass conflict xs).run s = pass.run v) ∨
    ∃ x c v, ∀ pass conflict, (settleNow q pass conflict xs).run s = (conflict x c).run v := by
  induction xs with
  | nil => exact fun s => .inl ⟨s, fun _ _ => rfl⟩
  | cons x rest ih =>
    intro s
    simp only [settleNow]
    split
    · split
      · exact ih s
      · next cause _ =>
        simp only [Act.run]
        split
        · simpa only [Act.run] using ih ((clearRec q.sector x).run s)
        · exact .inr ⟨x, cause, s, fun _ _ => rfl⟩
        · simp only [Act.run]
          split
          · exact .inr ⟨x, cause, _, fun _ _ => rfl⟩
          · simpa only [Act.run] using ih _
    · exact ih s
/-- A check of one sector answers, in a state that does not depend on what follows, or what follows never runs. -/
theorem checkNow_run (p : Party) (sector : Nat) (cls : BitVec 3) (mask : BitVec 8) (s : State) :
    (∃ a v, ∀ k, (checkNow p sector cls mask k).run s = (k a).run v) ∨ ∃ v, ∀ k, (checkNow p sector cls mask k).run s = v := by
  simp only [checkNow, Act.run]
  split
  · exact .inl ⟨_, _, fun _ => rfl⟩
  · split
    · exact .inr ⟨_, fun _ => rfl⟩
    · split
      · exact .inl ⟨_, _, fun _ => rfl⟩
      · next install _ =>
        simp only [Act.run]
        rcases settleNow_run (p.req sector cls mask) ((install.run s).recsOf sector) (install.run s) with ⟨v, h⟩ | ⟨x, c, v, h⟩
        · simp only [h, Act.run]
          split
          · exact .inl ⟨_, _, fun _ => rfl⟩
          · exact .inl ⟨_, _, fun _ => rfl⟩
        · simp only [h]
          exact .inl ⟨_, _, fun _ => rfl⟩
/-- A check of several sectors answers with its failures, in a state that does not depend on what follows, or what follows never runs. -/
theorem checkMany_run (p : Party) (cls : BitVec 3) (secs : List (Nat × BitVec 8)) : ∀ (fails : List (Nat × CheckAns)) (s : State),
    (∃ out v, ∀ k, (checkMany p cls secs fails k).run s = (k out).run v) ∨ ∃ v, ∀ k, (checkMany p cls secs fails k).run s = v := by
  induction secs with
  | nil => exact fun fails s => .inl ⟨fails, s, fun _ => rfl⟩
  | cons x rest ih =>
    intro fails s
    rcases checkNow_run p x.1 cls x.2 s with ⟨a, v, h⟩ | ⟨v, h⟩
    · cases a <;>
      · rcases ih _ v with ⟨out, u, hu⟩ | ⟨u, hu⟩
        · exact .inl ⟨out, u, fun k => (h _).trans (hu k)⟩
        · exact .inr ⟨u, fun k => (h _).trans (hu k)⟩
    · exact .inr ⟨v, fun k => h _⟩

/-- An act that takes what follows it: it goes on from a state that does not depend on what follows, or what follows never runs. -/
def GoesOnOrNot (f : Act → Act) (s : State) : Prop :=
  (∀ k, (f k).run s = k.run ((f .skip).run s)) ∨ ∀ k, (f k).run s = (f .skip).run s
theorem goesOnOrNot_of {f : Act → Act} {s v : State} (h : ∀ k, (f k).run s = k.run v) : GoesOnOrNot f s :=
  .inl fun k => by rw [h, h]; rfl
/-- A check of several sectors, and what follows when it finds no failure. -/
theorem goesOnOrNot_many (p : Party) (cls : BitVec 3) (secs : List (Nat × BitVec 8)) (f : List (Nat × CheckAns) → Option Act) (s : State) :
    GoesOnOrNot (fun k => checkMany p cls secs [] fun fails => match f fails with | some a => a | none => k) s := by
  rcases checkMany_run p cls secs [] s with ⟨out, v, h⟩ | ⟨v, h⟩
  · cases hw : f out with
    | some x => exact .inr fun k => by simp only [h, hw]
    | none => exact goesOnOrNot_of (v := v) fun k => by simp only [h, hw]
  · exact .inr fun k => by rw [h, h]
/-- An act that runs first changes where what follows goes on, not whether it does. -/
theorem GoesOnOrNot.after {f g : Act → Act} {a : Act} {s : State} (h : GoesOnOrNot f (a.run s)) (hg : ∀ k, (g k).run s = (f k).run (a.run s)) :
    GoesOnOrNot g s := by
  rcases h with h | h
  · exact .inl fun k => by rw [hg, hg, h]
  · exact .inr fun k => by rw [hg, hg, h]
/-- A failure's trap, or what follows. -/
theorem GoesOnOrNot.congr {f g : Act → Act} {s : State} (h : GoesOnOrNot f s) (hg : ∀ k, (g k).run s = (f k).run s) : GoesOnOrNot g s := by
  rcases h with h | h
  · exact .inl fun k => by rw [hg, hg, h]
  · exact .inr fun k => by rw [hg, hg, h]
theorem Iss.synced_run (c : Iss) (i : Instr) (pa n : Nat) (b : Blame) (bad : State → Option Act) (s : State) :
    GoesOnOrNot (c.synced i pa n b bad) s := by
  cases hb : s.badObj pa n
  · let u := (flushObj c.core pa n).run s
    cases hc : bad u with
    | some x => exact .inr fun k => by simp only [Iss.synced, Act.run, hb, Bool.false_eq_true, if_false, show bad ((flushObj c.core pa n).run s) = some x from hc]
    | none =>
      exact (goesOnOrNot_many (opParty u (c.op u i none)) mcSync (sectorsOf (vasOf pa n)) (fun fails => (worst fails).map fun f => c.trapCheck b f.2) u).after
        (a := flushObj c.core pa n) fun k => by
          simp only [Iss.synced, Act.run, hb, Bool.false_eq_true, if_false, show bad ((flushObj c.core pa n).run s) = none from hc]
          congr 2; funext fails; cases worst fails <;> rfl
  · exact .inr fun k => by simp only [Iss.synced, Act.run, hb]; rfl
theorem opSynced_run (id : Nat) (o : Op) (cls : BitVec 3) (pa n : Nat) (b : Blame) (bad : State → Option Act) (s : State) :
    GoesOnOrNot (opSynced id o cls pa n b bad) s := by
  cases hb : s.badObj pa n
  · let a : Act := .when (cls != mcRead) (flushObj (coreOf o.gid) pa n)
    let u := a.run s
    cases hc : bad u with
    | some x =>
      have hc' : bad (a.run s) = some x := hc
      exact .inr fun k => by simp only [opSynced, Act.run, hb, Bool.false_eq_true, if_false, a] at hc' ⊢; simp only [hc']
    | none =>
      exact (goesOnOrNot_many (opParty u o) cls ((sectorsOf (vasOf pa n)).map fun x => (x.1, x.2 &&& ~~~(u.covered o.gid x.1 cls)))
        (fun fails => (worst fails).map fun f => failEngine id o (f.2.blame b) f.2.origin) u).after (a := a) fun k => by
          have hc' : bad (a.run s) = none := hc
          simp only [opSynced, Act.run, hb, Bool.false_eq_true, if_false, a] at hc' ⊢
          simp only [hc']
          congr 2; funext fails; cases worst fails <;> rfl
  · exact .inr fun k => by simp only [opSynced, Act.run, hb]; rfl
/-- It goes on if what follows makes a difference. -/
theorem GoesOnOrNot.goes {f : Act → Act} {s : State} (h : GoesOnOrNot f s) {k : Act} (hk : (f k).run s ≠ (f .skip).run s) :
    ∀ k, (f k).run s = k.run ((f .skip).run s) := h.resolve_right fun g => hk (g k)
/-- Putting an act before what follows keeps the property. -/
theorem GoesOnOrNot.seq {f : Act → Act} {s : State} (h : GoesOnOrNot f s) (a : Act) : GoesOnOrNot (fun k => f (.seq a k)) s := by
  rcases h with h | h
  · exact .inl fun k => (h (.seq a k)).trans (congrArg k.run (h (.seq a .skip)).symm)
  · exact .inr fun k => by rw [h, h (.seq a .skip)]
/-- Two states that agree but for the named tables. -/
theorem SameButMarks.of_eq {s v : State} (h : { v with mem := s.mem, l2 := s.l2, side := s.side, l1 := s.l1, wbs := s.wbs, marks := s.marks,
                                                        spills := s.spills, stamps := s.stamps } = s) : SameButMarks s v := by
  refine ⟨congrArg (·.dev) h, fun α u hu => ?_⟩
  have := congrArg u.get h
  cases u <;> first | exact this | exact absurd (by decide) hu

end Sys2Proof.Machine
end

