-- ==== Sys2Proof/Laws/Issue.lean ====
section
/-! SUPPORT. The frames of the meanings: what issuing an encoded instruction answers; the split after an issue; uniform writes. -/

namespace Sys2Proof.Machine

open Sys2Proof

/-! ## Issue -/

theorem issue_next {i : Instr} {k : Iss → Act} {s : State} {c : Iss} (h : s.issuer i = some c) : issue i k s = .next ((k c).run s) := by
  simp [issue, h]
theorem uform_next {i : Instr} {k : Iss → State → Act} {s : State} {c : Iss} (h : s.issuer i = some c) :
    uform i k s = .next ((k c (c.advance.run s)).run (c.advance.run s)) := by
  simp only [uform, issue_next h, Act.run]
/-- An L-form whose checks pass (R54). -/
theorem lform_next {i : Instr} {k : Iss → State → Act} {s : State} {c : Iss} (h : s.issuer i = some c)
    (hc : c.check s (laneNames i) (tileNames i) = .pass) :
    lform i k s = .next ((k c s).run (c.advance.run s)) := by
  simp only [lform, issue_next h, Iss.checked, Act.run, hc]

/-- A well-formed instruction of the U-forms obeys their field rules. -/
theorem wf_uniform {i : Instr} (h : i.wf = true) (h1 : (wfInt i || wfFloat i || wfMem i) = false) : wfUniform i = true := by
  unfold Instr.wf at h
  simp only [Bool.or_eq_true, Bool.or_eq_false_iff] at h h1
  rcases h with ((h | h) | h) | h
  · exact h
  all_goals simp_all

/-- What the issuing split is. -/
theorem Iss.of_some {s : State} {g n : Nat} {i : Instr} {c : Iss} (h : Iss.of s g n i = some c) :
    c.gid = g ∧ c.n = n ∧ s.group? g = some c.grp ∧ s.split? g n = some c.sp ∧ c.bid = c.grp.bid ∧ s.block? c.bid = some c.blk ∧
      s.launch? c.blk.lid = some c.lau ∧ c.len = 4 * (encode i).length := by
  unfold Iss.of at h
  split at h
  · next grp sp hg hs =>
    split at h
    · next blk hb =>
      split at h
      · next lau hl => cases h; exact ⟨rfl, rfl, hg, hs, rfl, hb, hl, rfl⟩
      · cases h
    · cases h
  · cases h
theorem State.issuer_some {s : State} {i : Instr} {c : Iss} (h : s.issuer i = some c) :
    s.group? c.gid = some c.grp ∧ s.split? c.gid c.n = some c.sp ∧ c.bid = c.grp.bid ∧ s.block? c.bid = some c.blk ∧
      s.launch? c.blk.lid = some c.lau ∧ c.len = 4 * (encode i).length := by
  unfold State.issuer at h
  split at h
  · obtain ⟨e1, e2, h1, h2, h3, h4, h5, h6⟩ := Iss.of_some h
    exact ⟨e1 ▸ h1, e1 ▸ e2 ▸ h2, h3, h4, h5, h6⟩
  · cases h

/-! ## The split after an issue (R41) -/

theorem advance_run (c : Iss) (s : State) : c.advance.run s = Tab.splits.put c.key (c.past s) s := rfl
theorem advance_same (c : Iss) (s : State) : SameBut [Tab.splits.num] s (c.advance.run s) :=
  Act.within_run (advance_within (by simp) c) s
theorem advance_moved (c : Iss) (s : State) : MovedTo c c.next s (c.advance.run s) := by
  constructor
  · rw [advance_run, Tab.at_put_self]; simp [Tab.isDefault, Iss.next, Iss.past]
  · intro k hk; rw [advance_run, Tab.at_put_ne _ hk]
/-- A split that has moved stays moved when the splits are as they were then. -/
theorem MovedTo.of_get {c : Iss} {pc : BitVec 32} {s t u : State} (h : MovedTo c pc s t) (hu : Tab.splits.get u = Tab.splits.get t) :
    MovedTo c pc s u := ⟨by rw [Tab.at_of_get hu]; exact h.1, fun k hk => by rw [Tab.at_of_get hu]; exact h.2 k hk⟩

/-! ## Frames together -/

theorem SameTables.trans {ns : List Nat} {s t u : State} (h : SameTables ns s t) (h' : SameTables ns t u) : SameTables ns s u :=
  fun α x hx => (h' α x hx).trans (h α x hx)
theorem SameTables.mono {ns ms : List Nat} {s t : State} (hs : ∀ n ∈ ns, n ∈ ms) (h : SameTables ns s t) : SameTables ms s t :=
  fun α x hx => h α x fun hn => hx (hs _ hn)
theorem SameBut.trans {ns : List Nat} {s t u : State} (h : SameBut ns s t) (h' : SameBut ns t u) : SameBut ns s u :=
  ⟨h'.1.trans h.1, h.2.trans h'.2⟩
theorem SameBut.mono {ns ms : List Nat} {s t : State} (hs : ∀ n ∈ ns, n ∈ ms) (h : SameBut ns s t) : SameBut ms s t := ⟨h.1, h.2.mono hs⟩

theorem homeByte_of_get {s t : State} (h1 : t.mem = s.mem) (h2 : t.l2 = s.l2) (h3 : t.tags = s.tags) (h4 : t.deadAt = s.deadAt) (pa : Nat) :
    t.homeByte pa = s.homeByte pa := by
  have e1 := Tab.val_of_get (t := Tab.mem) (s := s) (u := t) h1 0 pa
  have e2 := Tab.at_of_get (t := Tab.l2) (s := s) (u := t) h2 (sectorOf pa)
  have e3 : ∀ u a b, t.stale u a b = s.stale u a b := fun u a b => by
    have a1 := Tab.val_of_get (t := Tab.tags) (s := s) (u := t) h3 false (tagKey a b)
    have a2 := Tab.val_of_get (t := Tab.deadAt) (s := s) (u := t) h4 false (unitCode u * 2 ^ 20 + tagKey a b)
    simp only [State.stale, a1, a2]
  simp only [State.homeByte, e1, e2, e3]
/-- Where the tables of memory are as before, every byte reads as before. -/
theorem SameTables.memory {ns : List Nat} {s t : State} (h : SameTables ns s t)
    (hn : Tab.mem.num ∉ ns ∧ Tab.l2.num ∉ ns ∧ Tab.tags.num ∉ ns ∧ Tab.deadAt.num ∉ ns ∧ Tab.l1.num ∉ ns ∧ Tab.wbs.num ∉ ns ∧ Tab.win.num ∉ ns) :
    SameMemory s t :=
  ⟨homeByte_of_get (h _ .mem hn.1) (h _ .l2 hn.2.1) (h _ .tags hn.2.2.1) (h _ .deadAt hn.2.2.2.1), h _ .l1 hn.2.2.2.2.1,
    h _ .wbs hn.2.2.2.2.2.1, h _ .win hn.2.2.2.2.2.2⟩

/-! ## Uniform writes -/

theorem wroteU_wrU (g : Nat) (wide : Bool) (d : BitVec 6) (v : Nat) (s : State) (hd : wide = true → even6 d = true) (hv : v < 2 ^ (if wide then 64 else 32)) :
    WroteU g wide d v s ((wrU g wide d v).run s) := by
  have hd63 : d.toNat < 64 := d.isLt
  intro k r hr
  cases wide
  · simp only [wrU, Bool.false_eq_true, if_false, false_and, and_false]
    rw [sreg_wrS _ _ _ _ hd63 _ _ hr]
  · have he : d.toNat % 2 = 0 := by simpa [even6] using hd rfl
    simp only [wrU, if_true, wrSD, Act.run_seq, true_and]
    rw [sreg_wrS _ _ _ _ (by omega) _ _ hr, sreg_wrS _ _ _ _ hd63 _ _ hr]
    have hv : v < 2 ^ 64 := by simpa using hv
    have e1 : (BitVec.ofNat 64 v).extractLsb' 0 32 = BitVec.ofNat 32 v := by
      apply BitVec.eq_of_toNat_eq; simp
    have e2 : (BitVec.ofNat 64 v).extractLsb' 32 32 = BitVec.ofNat 32 (v / 2 ^ 32) := by
      apply BitVec.eq_of_toNat_eq; simp [Nat.shiftRight_eq_div_pow]; omega
    rw [e1, e2]
    by_cases h1 : k = g ∧ r ≠ 63 ∧ r = d.toNat
    · rw [if_pos h1, if_neg (by omega), if_pos h1]
    · rw [if_neg h1, if_neg h1]
theorem wrU_within {ns : List Nat} (h : Tab.sregs.num ∈ ns) (g : Nat) (wide : Bool) (d : BitVec 6) (v : Nat) : (wrU g wide d v).within ns := by
  unfold wrU; split
  · exact wrSD_within h _ _ _
  · exact wrS_within h _ _ _
theorem WroteU.of_get {g : Nat} {wide : Bool} {d : BitVec 6} {v : Nat} {s s' t : State} (h : WroteU g wide d v s' t)
    (hs : Tab.sregs.get s' = Tab.sregs.get s) : WroteU g wide d v s t := by
  intro k r hr; rw [h k r hr, sreg_of_get hs]

end Sys2Proof.Machine
end

