-- ==== Sys2Proof/Laws/Lanes.lean ====
section
/-! SUPPORT. What the shared operations of the lane instructions leave: writes of lane registers and predicates. -/

namespace Sys2Proof.Machine

open Sys2Proof

theorem vreg_wrV (g r l : Nat) (v : BitVec 32) (s : State) (hr : r < 256) (hl : l < 64) (k j m : Nat) (hj : j < 256) (hm : m < 64) :
    ((wrV g r l v).run s).vreg k j m = if k = g ∧ m = l ∧ j = r then v else s.vreg k j m := by
  unfold wrV State.vreg
  rw [Act.run_put]
  by_cases h : k = g ∧ m = l ∧ j = r
  · obtain ⟨rfl, rfl, rfl⟩ := h
    rw [Tab.val_put_self]
    · simp
    · simp [Tab.isDefault]
  · rw [Tab.val_put_ne, if_neg h]
    unfold vKey; omega

/-- One lane's result. -/
theorem vreg_wrLane (g l : Nat) (wide : Bool) (d : BitVec 8) (v : Nat) (s : State) (hd : wide = true → d.toNat % 2 = 0) (hl : l < 64)
    (k j m : Nat) (hj : j < 256) (hm : m < 64) :
    ((wrLane g l wide d v).run s).vreg k j m =
      if k = g ∧ m = l ∧ j = d.toNat then BitVec.ofNat 32 v
      else if k = g ∧ m = l ∧ wide = true ∧ j = d.toNat + 1 then BitVec.ofNat 32 (v / 2 ^ 32) else s.vreg k j m := by
  have h8 := d.isLt
  cases wide
  · simp only [wrLane, words, Bool.false_eq_true, if_false, wrVs, Act.run_seq, Act.run_skip, false_and, and_false]
    rw [vreg_wrV _ _ _ _ _ (by omega) hl _ _ _ hj hm]
  · have := hd rfl
    simp only [wrLane, words, if_true, wrVs, Act.run_seq, Act.run_skip, true_and]
    rw [vreg_wrV _ _ _ _ _ (by omega) hl _ _ _ hj hm, vreg_wrV _ _ _ _ _ (by omega) hl _ _ _ hj hm]
    by_cases h1 : k = g ∧ m = l ∧ j = d.toNat
    · rw [if_neg (by omega), if_pos h1, if_pos h1]
    · rw [if_neg h1, if_neg h1]

/-- The results of a list of lanes. -/
theorem wroteV_each (g : Nat) (wide : Bool) (d : BitVec 8) (val : Nat → Nat) (hd : wide = true → d.toNat % 2 = 0) :
    ∀ (ls : List Nat) (s : State), (∀ l ∈ ls, l < 64) →
      WroteV g wide d ls val s ((Act.each (ls.map fun l => (l, val l)) fun x => wrLane g x.1 wide d x.2).run s) := by
  intro ls
  induction ls with
  | nil => intro s _ k r l _ _; simp
  | cons a ls ih =>
    intro s h k r l hr hl
    rw [List.map_cons, Act.run_each_cons, ih _ (fun x hx => h x (by simp [hx])) k r l hr hl]
    simp only []
    rw [vreg_wrLane g a wide d _ s hd (h a (by simp)) k r l hr hl]
    have h8 := d.isLt
    by_cases e : l = a
    · subst e
      by_cases h1 : k = g ∧ r = d.toNat
      · obtain ⟨rfl, rfl⟩ := h1; simp
      · by_cases h2 : k = g ∧ wide = true ∧ r = d.toNat + 1
        · obtain ⟨rfl, hw, rfl⟩ := h2; simp [hw]
        · have q1 : ¬ (k = g ∧ l ∈ ls ∧ r = d.toNat) := fun h => h1 ⟨h.1, h.2.2⟩
          have q2 : ¬ (k = g ∧ l ∈ ls ∧ wide = true ∧ r = d.toNat + 1) := fun h => h2 ⟨h.1, h.2.2.1, h.2.2.2⟩
          have q3 : ¬ (k = g ∧ l = l ∧ r = d.toNat) := fun h => h1 ⟨h.1, h.2.2⟩
          have q4 : ¬ (k = g ∧ l = l ∧ wide = true ∧ r = d.toNat + 1) := fun h => h2 ⟨h.1, h.2.2.1, h.2.2.2⟩
          have q5 : ¬ (k = g ∧ l ∈ l :: ls ∧ r = d.toNat) := fun h => h1 ⟨h.1, h.2.2⟩
          have q6 : ¬ (k = g ∧ l ∈ l :: ls ∧ wide = true ∧ r = d.toNat + 1) := fun h => h2 ⟨h.1, h.2.2.1, h.2.2.2⟩
          rw [if_neg q1, if_neg q2, if_neg q3, if_neg q4, if_neg q5, if_neg q6]
    · simp [e]

theorem lanesOf_lt {w : Nat} {m : BitVec 64} {l : Nat} (h : l ∈ lanesOf w m) : l < 64 := by
  simp only [lanesOf, List.mem_filter] at h
  exact BitVec.lt_of_getLsbD h.2

theorem wrLane_within {ns : List Nat} (h : Tab.vregs.num ∈ ns) (g l : Nat) (w : Bool) (r : BitVec 8) (v : Nat) : (wrLane g l w r v).within ns :=
  wrVs_within h _ _ _ _ _
theorem eachVd_within {ns : List Nat} (h : Tab.vregs.num ∈ ns) (c : Iss) (s : State) (hd : Head) (w : Bool) (vd : BitVec 8) (val : Nat → Nat) :
    (eachVd c s hd w vd val).within ns := Act.within_each fun _ _ => wrLane_within h _ _ _ _ _
theorem WroteV.of_get {g : Nat} {wide : Bool} {d : BitVec 8} {ls : List Nat} {val : Nat → Nat} {s s' t : State} (h : WroteV g wide d ls val s' t)
    (hs : Tab.vregs.get s' = Tab.vregs.get s) : WroteV g wide d ls val s t := by
  intro k r l hr hl; rw [h k r l hr hl, vreg_of_get hs]

/-- AN L-FORM THAT WRITES vd: its result, and what it leaves. -/
theorem lform_vd {i : Instr} {h : Head} {wide : Bool} {vd : BitVec 8} {v : Iss → State → Nat → Nat} {s : State} {c : Iss}
    (hi : s.issuer i = some c) (hc : c.may i s) (hd : wide = true → vd.toNat % 2 = 0) (hl : (encode i).length = 3) :
    ∃ t, lform i (fun c s => eachVd c s h wide vd (v c s)) s = .next t ∧ WroteV c.gid wide vd (c.execLanes s h) (v c s) s t ∧
      MovedTo c (c.sp.pc + 12) s t ∧ SameBut [Tab.splits.num, Tab.vregs.num] s t ∧ SameMemory s t := by
  refine ⟨_, lform_next hi hc, ?_⟩
  have h1 := advance_same c s
  have h2 := Act.within_run (eachVd_within (ns := [Tab.vregs.num]) (by simp) c s h wide vd (v c s)) (c.advance.run s)
  have e : c.next = c.sp.pc + 12 := by
    have := (State.issuer_some hi).2.2.2.2.2
    simp [Iss.next, this, hl]
  have h3 : SameBut [Tab.splits.num, Tab.vregs.num] s ((eachVd c s h wide vd (v c s)).run (c.advance.run s)) :=
    (h1.mono (by simp)).trans (h2.mono (by simp))
  refine ⟨(wroteV_each c.gid wide vd (v c s) hd _ _ fun l hl => lanesOf_lt hl).of_get (h1.2 _ .vregs (by decide)), ?_, h3, h3.2.memory (by decide)⟩
  rw [← e]
  exact (advance_moved c s).of_get (h2.2 _ .splits (by decide))

end Sys2Proof.Machine
end

