-- ==== Sys2Proof/Laws/Traps.lean ====
section
/-! SUPPORT. What taking a trap does: the one lemma about entering the handler, and what it rests on. -/

namespace Sys2Proof.Machine

open Sys2Proof

/-- The facts that stand behind an issuing split. -/
structure Stands (c : Iss) (s : State) : Prop where
  grp : s.group? c.gid = some c.grp
  sp : s.split? c.gid c.n = some c.sp
  bid : c.bid = c.grp.bid
  blk : s.block? c.bid = some c.blk
  lau : s.launch? c.blk.lid = some c.lau

theorem Stands.of_issuer {i : Instr} {c : Iss} {s : State} (h : s.issuer i = some c) : Stands c s := by
  obtain ⟨a, b, d, e, f, _⟩ := State.issuer_some h; exact ⟨a, b, d, e, f⟩
theorem Stands.blockOf {c : Iss} {s : State} (h : Stands c s) : s.blockOf c.gid = some c.blk := by
  simp [State.blockOf, h.grp, ← h.bid, h.blk]
theorem Stands.launchOf {c : Iss} {s : State} (h : Stands c s) : s.launchOf c.gid = some c.lau := by
  simp [State.launchOf, h.blockOf, h.lau]

theorem plain_record (c : Iss) (s : State) (kind lane : Nat) (cause : BitVec 8) :
    groupRecord s c.gid c.lau c.sp.pc.toNat (.plain kind cause lane) = c.record s kind cause.toNat lane := by
  simp [groupRecord, recordOf, Blame.plain, Iss.record, b2n, Iss.slot, State.window32, word]

/-- Splits that differ in their skid only. -/
def SkidOnly (s t : State) (k : Nat) : Prop :=
  (Tab.splits.at k t).map (fun y => { y with skid := 0 }) = (Tab.splits.at k s).map fun y => { y with skid := 0 }

theorem skid_upd (s : State) (j k : Nat) : SkidOnly s ((Act.upd .splits j fun x => { x with skid := 0 }).run s) k := by
  unfold SkidOnly
  simp only [Act.upd, Act.run_read]
  cases h : Tab.splits.at j s with
  | none => rfl
  | some v =>
    simp only [Act.run_put]
    by_cases hk : k = j
    · subst hk; rw [Tab.at_put_self, h]; simp [Tab.isDefault]
    · rw [Tab.at_put_ne _ hk]
theorem SkidOnly.trans {s t u : State} {k : Nat} (h : SkidOnly s t k) (h' : SkidOnly t u k) : SkidOnly s u k := Eq.trans h' h
theorem each_inv {β : Type} {P : State → State → Prop} (hr : ∀ s, P s s) (ht : ∀ s t u, P s t → P t u → P s u) {xs : List β} {f : β → Act}
   (h : ∀ x ∈ xs, ∀ s, P s ((f x).run s)) : ∀ s, P s ((Act.each xs f).run s) := by
  induction xs with
  | nil => exact fun s => hr s
  | cons x xs ih => exact fun s => ht _ _ _ (h x (by simp) s) (ih (fun y hy => h y (by simp [hy])) _)
theorem startHold_others (b : Block) (g n : Nat) (s : State) (k : Nat) : SkidOnly s ((startHold b g n).run s) k := by
  refine each_inv (P := fun s t => SkidOnly s t k) (fun _ => rfl) (fun _ _ _ => SkidOnly.trans) (fun g' _ => ?_) s
  refine each_inv (P := fun s t => SkidOnly s t k) (fun _ => rfl) (fun _ _ _ => SkidOnly.trans) (fun n' _ s => ?_)
  split
  · rfl
  · exact skid_upd _ _ _
theorem startHold_self (b : Block) (g n : Nat) (hn : n < 4) (s : State) :
    Tab.splits.at (splitKey g n) ((startHold b g n).run s) = Tab.splits.at (splitKey g n) s := by
  refine each_inv (P := fun s t => Tab.splits.at (splitKey g n) t = Tab.splits.at (splitKey g n) s) (fun _ => rfl) (fun _ _ _ h h' => h'.trans h) (fun g' _ => ?_) s
  refine each_inv (P := fun s t => Tab.splits.at (splitKey g n) t = Tab.splits.at (splitKey g n) s) (fun _ => rfl) (fun _ _ _ h h' => h'.trans h) (fun n' hn' s => ?_)
  have : n' < 4 := by simpa using hn'
  split
  · rfl
  · next h =>
    simp only [Act.upd, Act.run_read]
    split
    · rw [Act.run_put, Tab.at_put_ne]
      simp only [splitKey]; simp only [Bool.and_eq_true, beq_iff_eq] at h; omega
    · rfl
theorem startHold_within (b : Block) (g n : Nat) : (startHold b g n).within [Tab.splits.num] := by
  refine Act.within_each fun g' _ => Act.within_each fun n' _ => ?_
  split
  · trivial
  · exact Act.within_upd _ _ _ (by simp)

theorem traceGroup_off {s : State} {g : Nat} {l : Launch} (hl : s.launchOf g = some l) (ht : (s.ctx l.ctx).tracing = false) (k : Nat) (cause : BitVec 8) (pc v : Nat) :
    (traceGroup k g cause pc v).run s = s := by
  simp [traceGroup, hl, ht]
/-! ## The tables of a home write and of a trace record -/

theorem writeHome_inside (pa : Nat) (bs : List Byte) : (writeHome pa bs).inside [Tab.l2.num, Tab.mem.num] := by
  induction bs generalizing pa with
  | nil => trivial
  | cons b bs ih =>
    refine ⟨?_, ih _⟩
    intro s; simp only; split
    · trivial
    · split
      · simp [Act.inside]
      · have := Act.within_each (ns := [Tab.l2.num, Tab.mem.num]) (xs := (List.range 32).filter fun i => (byteMask (pa % 32) 1).getLsbD i)
          (f := fun i => putCell (sectorOf pa * 32 + i) (sectorByte (BitVec.ofNat 256 (b.toNat * 256 ^ (pa % 32))) i)) (fun x _ => by simp [putCell])
        exact Act.within_inside this
theorem Act.inside_mono {ns ms : List Nat} (hs : ∀ n ∈ ns, n ∈ ms) {a : Act} (h : a.inside ns) : a.inside ms := by
  induction a with
  | skip => trivial
  | put t k v => exact hs _ h
  | clear t lo hi => exact hs _ h
  | dev f => trivial
  | seq a b iha ihb => exact ⟨iha h.1, ihb h.2⟩
  | read k ih => exact fun s => ih s (h s)
theorem writeHomeWords_inside (pa : Nat) (ws : List (BitVec 32)) : (writeHomeWords pa ws).inside [Tab.l2.num, Tab.mem.num] := by
  induction ws generalizing pa with
  | nil => trivial
  | cons w ws ih => exact ⟨writeHome_inside _ _, ih _⟩
theorem writeTrace_inside (ctx : Nat) (ws : List (BitVec 32)) : (writeTrace ctx ws).inside [Tab.l2.num, Tab.mem.num, Tab.ctxs.num] := by
  intro s
  refine ⟨Act.inside_mono (by simp) (writeHomeWords_inside _ _), ?_⟩
  exact Act.within_inside (Act.within_updD _ _ _ _ (by simp))
theorem traceGroup_inside (k g : Nat) (cause : BitVec 8) (pc v : Nat) :
    (traceGroup k g cause pc v).inside [Tab.l2.num, Tab.mem.num, Tab.ctxs.num] := by
  intro s; simp only; split
  · unfold Act.when; split
    · intro s; simp only; split
      · trivial
      · split
        · exact writeTrace_inside _ _
        · exact Act.within_inside (Act.within_updD _ _ _ _ (by simp))
    · trivial
  · trivial

/-- THE ISSUING SPLIT ENTERS THE HANDLER (R370 to R373): everything that its trap does. -/
theorem trap_enters {c : Iss} {s : State} (h : Stands c s) (hn : c.n < 4) (hc : c.canTrap) (cause : BitVec 8) (lane : Nat) (code : BitVec 32) :
    EntersHandler c cause.toNat lane code s
      ((c.trapWith (.plain (if c.len == 4 then 1 else 0) cause lane) (taskWords c.grp) code 0).run s) := by
  obtain ⟨h1, h2⟩ := hc
  have hu : (c.lau.handler == 0xFFFFFFFF) = false := by simpa using h2
  simp only [Iss.trapWith, Act.run_read, takeTrap, h.grp, h.blockOf, h.launchOf, h1, hu, Bool.not_false, Bool.and_true, Bool.false_eq_true,
    if_false, Act.run_all_cons, Act.run_all_nil, Act.run_put, Act.run_when, plain_record]

  generalize hsh : (Shadow.mk _ _ _ _ _ _ _ _ _ _ _ _ _ _ _ _) = sh
  generalize hsp : ({ c.sp with pc := word c.lau.handler, wait := .producers, skid := 0, stage := 0, pre := 0 } : Split) = sp
  generalize h1s : Tab.groups.put c.gid { c.grp with shadow := some sh } s = s1
  generalize h2s : Tab.splits.put (splitKey c.gid c.n) sp s1 = s2
  generalize h3s : (if ((s.ctx c.lau.ctx).hbase != 0) = true then (wrB c.gid 15 (handlerRecord (s.ctx c.lau.ctx).hbase c.gid)).run s2 else s2) = s3
  generalize h4s : (startHold c.blk c.gid c.n).run s3 = s4
  generalize hcc : BitVec.setWidth 8 ((c.record s (if (c.len == 4) = true then 1 else 0) cause.toNat lane).headD 0) = cc
  have e1 : SameBut [Tab.groups.num] s s1 := h1s ▸ Act.within_run (a := .put _ _ _) (by simp) s
  have e2 : SameBut [Tab.splits.num] s1 s2 := h2s ▸ Act.within_run (a := .put _ _ _) (by simp) s1
  have e3 : SameBut [Tab.bregs.num] s2 s3 := by
    rw [← h3s]; split
    · exact Act.within_run (wrB_within (by simp) _ _ _) s2
    · exact ⟨rfl, fun _ _ _ => rfl⟩
  have e4 : SameBut [Tab.splits.num] s3 s4 := h4s ▸ Act.within_run (startHold_within _ _ _) s3
  have e5 := Act.inside_run (traceGroup_inside 3 c.gid cc c.sp.pc.toNat 0) s4
  have a1 : Tab.groups.at c.gid s1 = some { c.grp with shadow := some sh } := by rw [← h1s, Tab.at_put_self]; simp [Tab.isDefault]
  have a1' : SameAt .groups (· = c.gid) s s1 := fun k hk => by rw [← h1s, Tab.at_put_ne _ hk]
  have a2 : Tab.splits.at c.key s2 = some sp := by rw [← h2s]; show Tab.splits.at (splitKey c.gid c.n) _ = _; rw [Tab.at_put_self]; simp [Tab.isDefault]
  have a4 : Tab.splits.at c.key s4 = some sp := by
    rw [← h4s]; show Tab.splits.at (splitKey c.gid c.n) _ = _
    rw [startHold_self _ _ _ hn, Tab.at_of_get (e3.2 _ .splits (by decide))]; exact a2
  have g5 : Tab.groups.get ((traceGroup 3 c.gid cc c.sp.pc.toNat 0).run s4) = Tab.groups.get s1 := by
    rw [e5 _ .groups (by decide), e4.2 _ .groups (by decide), e3.2 _ .groups (by decide), e2.2 _ .groups (by decide)]
  have p5 : Tab.splits.get ((traceGroup 3 c.gid cc c.sp.pc.toNat 0).run s4) = Tab.splits.get s4 := e5 _ .splits (by decide)
  have b5 : Tab.bregs.get ((traceGroup 3 c.gid cc c.sp.pc.toNat 0).run s4) = Tab.bregs.get s3 := by
    rw [e5 _ .bregs (by decide), e4.2 _ .bregs (by decide)]
  refine ⟨⟨?_, ?_⟩, ?_, ?_, ?_, ?_⟩
  · rw [Tab.at_of_get g5, a1, ← hsh]
    simp [taskWords]
  · intro k hk; rw [Tab.at_of_get g5]; exact a1' k hk
  · rw [Tab.at_of_get p5, a4, hsp]
  · intro k hk
    rw [Tab.at_of_get p5]
    have := startHold_others c.blk c.gid c.n s3 k
    unfold SkidOnly at this; rw [h4s] at this; rw [this, Tab.at_of_get (e3.2 _ .splits (by decide)), ← h2s]
    have hk : k ≠ splitKey c.gid c.n := hk
    rw [Tab.at_put_ne _ hk, Tab.at_of_get (e1.2 _ .splits (by decide))]
  · intro g b hb
    have hb0 : ∀ g b, s2.breg g b = s.breg g b := fun g b => by
      rw [breg_of_get (e2.2 _ .bregs (by decide)), breg_of_get (e1.2 _ .bregs (by decide))]
    rw [breg_of_get b5, ← h3s]
    by_cases hz : (s.ctx c.lau.ctx).hbase = 0
    · simp [hz, hb0]
    · have hz' : ((s.ctx c.lau.ctx).hbase != 0) = true := by simpa using hz
      rw [if_pos hz']
      simp only [wrB, Act.run_put, State.breg]
      by_cases hg : g = c.gid ∧ b = 15
      · obtain ⟨rfl, rfl⟩ := hg
        rw [Tab.val_put_self _ _ _ _ _ (by simp [Tab.isDefault]), if_pos ⟨rfl, rfl, hz⟩]
      · rw [Tab.val_put_ne _ _ (by omega), if_neg (fun h => hg ⟨h.1, h.2.1⟩)]
        exact hb0 g b
  · intro htr
    have hl4 : s4.launchOf c.gid = some c.lau := by
      have eg : s4.group? c.gid = some { c.grp with shadow := some sh } := by
        show Tab.groups.at c.gid s4 = _
        rw [Tab.at_of_get (show Tab.groups.get s4 = Tab.groups.get s1 by
          rw [e4.2 _ .groups (by decide), e3.2 _ .groups (by decide), e2.2 _ .groups (by decide)])]; exact a1
      have eb : ∀ k, s4.block? k = s.block? k := fun k => Tab.at_of_get (by
        rw [e4.2 _ .blocks (by decide), e3.2 _ .blocks (by decide), e2.2 _ .blocks (by decide), e1.2 _ .blocks (by decide)]) k
      have el : ∀ k, s4.launch? k = s.launch? k := fun k => Tab.at_of_get (by
        rw [e4.2 _ .launches (by decide), e3.2 _ .launches (by decide), e2.2 _ .launches (by decide), e1.2 _ .launches (by decide)]) k
      simp only [State.launchOf, State.blockOf, eg, eb, el, Option.bind_some, ← h.bid, h.blk, h.lau]
    have hc4 : (s4.ctx c.lau.ctx).tracing = false := by
      have ec : Tab.ctxs.get s4 = Tab.ctxs.get s := by
        rw [e4.2 _ .ctxs (by decide), e3.2 _ .ctxs (by decide), e2.2 _ .ctxs (by decide), e1.2 _ .ctxs (by decide)]
      simpa [State.ctx, Tab.val_of_get ec] using htr
    rw [traceGroup_off hl4 hc4]
    have : SameBut [Tab.groups.num, Tab.splits.num, Tab.bregs.num] s s4 :=
      (((e1.mono (by simp)).trans (e2.mono (by simp))).trans (e3.mono (by simp))).trans (e4.mono (by simp))
    exact ⟨this, this.2.memory (by decide)⟩

end Sys2Proof.Machine
end

