-- ==== Sys2Proof/Laws/Uniform.lean ====
section
/-! SUPPORT. What the shared operations of the uniform instructions leave. -/

namespace Sys2Proof.Machine

open Sys2Proof

/-- A U-form that writes one result. -/
theorem uform_result {i : Instr} {wide : Bool} {d : BitVec 6} {f : Iss → State → Nat} {r : Iss → State → Nat} {s : State} {c : Iss}
    (h : s.issuer i = some c) (hd : wide = true → even6 d = true)
    (hf : f c (c.advance.run s) = r c s) (hv : r c s < 2 ^ (if wide then 64 else 32)) :
    ∃ t, uform i (fun c s => wrU c.gid wide d (f c s)) s = .next t ∧ UniformResult wide d r c s t := by
  refine ⟨_, uform_next h, ?_⟩
  rw [hf]
  have h1 := advance_same c s
  have hw : (wrU c.gid wide d (r c s)).within [Tab.sregs.num] := wrU_within (by simp) _ _ _ _
  have h2 := Act.within_run hw (c.advance.run s)
  refine ⟨(wroteU_wrU _ _ _ _ _ hd hv).of_get (h1.2 _ .sregs (by decide)), (advance_moved c s).of_get (h2.2 _ .splits (by decide)), ?_⟩
  have h3 : SameBut [Tab.splits.num, Tab.sregs.num] s ((wrU c.gid wide d (r c s)).run (c.advance.run s)) :=
    (h1.mono (by simp)).trans (h2.mono (by simp))
  exact ⟨h3, h3.2.memory (by decide)⟩
theorem ureg_advance (c : Iss) (s : State) (g : Nat) (w : Bool) (a : BitVec 6) : (c.advance.run s).ureg g w a = s.ureg g w a := by
  have h := (advance_same c s).2 _ .sregs (by decide)
  simp only [State.ureg, State.spair, sreg_of_get h]
theorem ureg_lt (s : State) (g : Nat) (w : Bool) (a : BitVec 6) : s.ureg g w a < 2 ^ (if w then 64 else 32) := by
  unfold State.ureg; split
  · exact BitVec.isLt _
  · exact BitVec.isLt _

/-- U.RRR arithmetic. -/
theorem arith_result {i : Instr} {wide wideB : Bool} {d a b : BitVec 6} {op : Nat → Nat → Nat} {r : Iss → State → Nat} {s : State} {c : Iss}
    (h : s.issuer i = some c) (hd : wide = true → even6 d = true)
    (hf : op (s.ureg c.gid wide a) (s.ureg c.gid wideB b) = r c s) (hv : r c s < 2 ^ (if wide then 64 else 32)) :
    ∃ t, arith i d a b wide wideB op s = .next t ∧ UniformResult wide d r c s t :=
  uform_result h hd (by simpa [ureg_advance] using hf) hv

theorem wrap_lt (w : Nat) (i : Int) : wrap w i < 2 ^ w := by
  unfold wrap
  have h1 : (0:Int) < Int.ofNat (2 ^ w) := Int.ofNat_lt.mpr (Nat.two_pow_pos w)
  have := Int.emod_lt_of_pos i h1
  have h0 := Int.emod_nonneg i (Int.ne_of_gt h1)
  have e : Int.ofNat (2 ^ w) = ((2 ^ w : Nat) : Int) := rfl
  omega

end Sys2Proof.Machine
end

