-- ==== Sys2Proof/Tests/Slice0.lean ====
section
/-! SUPPORT. Tests: ill-formed terms that the checks refuse, words written out from the encoding tables of 02_encoding.md, numbers worked out in
the spec or by hand from its rules, and for the statements with hypotheses a state that meets them. -/

namespace Sys2Proof.Tests

open Sys2Proof Sys2Proof.Machine

set_option maxRecDepth 10000
set_option Elab.async false

/-! ## Helpers -/

/-- One group of width 32 with one split at offset 0, whose turn it is: group 0, block 1, team 2, launch 0, context 1; no slice holds a sector. -/
def base : State := { (State.reset.withFetchWord 32 0).issuing 0 0 with l2 := [] }
def sr (r v : Nat) (s : State) : State := Tab.sregs.put r (BitVec.ofNat 32 v) s
def pr (p v : Nat) (s : State) : State := Tab.pregs.put p (BitVec.ofNat 64 v) s
def br (b v : Nat) (s : State) : State := Tab.bregs.put b (BitVec.ofNat 128 v) s
def vr (r lane v : Nat) (s : State) : State := Tab.vregs.put (r * 64 + lane) (BitVec.ofNat 32 v) s
def upG (f : Group → Group) (s : State) : State := (Act.upd .groups 0 f).run s
def upS (f : Split → Split) (s : State) : State := (Act.upd .splits 0 f).run s
def upB (f : Block → Block) (s : State) : State := (Act.upd .blocks 1 f).run s
def upL (f : Launch → Launch) (s : State) : State := (Act.upd .launches 0 f).run s
def upC (f : Ctx → Ctx) (s : State) : State := (Act.updD .ctxs Ctx.init 1 f).run s
def upD (f : Dev → Dev) (s : State) : State := { s with dev := f s.dev }

/-- An instruction is well-formed, is issued in the state, and meets a condition there. -/
def meets (i : Instr) (s : State) (p : Iss → State → Bool) : Bool :=
  i.wf && match s.issuer i with
    | some c => p c s
    | none => false
/-- What the machine holds after an instruction. -/
def after {α : Type} (i : Instr) (s : State) (f : State → α) : Option α :=
  match exec i s with
  | .next t => some (f t)
  | _ => none
/-- A uniform register, a lane register and the pc after an instruction of the group. -/
def sAfter (i : Instr) (s : State) (r : Nat) : Option Nat := after i s fun t => (t.sreg 0 r).toNat
def vAfter (i : Instr) (s : State) (r lane : Nat) : Option Nat := after i s fun t => (t.vreg 0 r lane).toNat
def pcOf (t : State) : Nat := ((t.split? 0 0).map fun y => y.pc.toNat).getD 0xBAD
def pcAfter (i : Instr) (s : State) : Option Nat := after i s pcOf
def always : Head := { s := false, la := 0, neg := false, guard := 7 }
def window : Head := { always with la := 4 }
def iform : IForm := { head := always, ops := 0, vcs := .reg, vbs := .reg, sat := false, ty := .i32, vd := 8, va := 4, vb := 5, vc := 0, x32 := 0 }
def fform : FForm :=
  { head := always, clamp := false, absB := false, absA := false, negB := false, negA := false, vbs := .reg, rnd := .rne, ty := .f32,
    vd := 8, va := 4, vb := 5, vc := 0, x32 := 0 }
def mform : MForm :=
  { head := always, uidx := false, nc := false, z := false, scope := .blk, cls := .data, size := .b32, vd := 8, va := 4, vb := 0, vc := 0,
    buf := 3, off := 0, aop := 0 }
def gform : GForm :=
  { head := always, uidx := false, z := false, team := false, cls := .data, size := .b32, vd := 8, va := 4, vb := 0, vc := 0, off := 0, aop := 0 }
def tform : TForm := { head := window, hi := false, n := 0, lb := 0, vd := 8, va := 0, col := 0 }
def noShape : Shape := { w0 := 0, w1 := 0, w2 := 0, w3 := 0 }
def mmaform : MmaForm := { head := always, lb := 0, noacc := false, negb := false, nega := false, tile := 0, shape := noShape }
def xform : XferForm :=
  { head := always, mode := 0, cvt := 0, ti := false, lb := 0, mem := false, rel := false, acq := false, tile := 0, buf := 0, shape := noShape }
def cform : CopyForm :=
  { head := always, arv := false, rel := false, acq := false, scope := .team, dir := 3, rtype := 0, vd := 0, va := 0, vb := 0, vc := 0, x32 := 0,
    shape := noShape }

/-- The gate is open; the group may trap; an instruction may issue on its operands. -/
def goes (c : Iss) (s : State) (rel : Option Scope) : Bool := match s.gate c rel with | .go => true | _ => false
def canTrap (c : Iss) : Bool := c.grp.shadow == none && c.lau.handler != 0xFFFFFFFF
def may (i : Instr) (c : Iss) (s : State) : Bool := match c.check s (laneNames i) (tileNames i) with | .pass => true | _ => false
/-- A launch with a handler at offset 8. -/
def handled : State := upL (fun l => { l with handler := 8 }) base

/-! ## Ill-formed instructions (R28 to R30, R48 to R53) -/

theorem test_wf_accepts : (Instr.vadd iform).wf ∧ (Instr.fadd fform).wf ∧ (Instr.ld mform).wf ∧ (Instr.ldg gform).wf ∧ (Instr.trd tform).wf ∧
    (Instr.mma mmaform).wf ∧ (Instr.tload xform).wf ∧ (Instr.cpy cform).wf ∧ (Instr.fcvt { fform with x32 := 0x1A }).wf := by decide +kernel
/-- The head: guard 7 negated, LA on an instruction that is no producer, LA 15 on a producer that no path counts. -/
theorem test_wf_head : (Instr.vadd { iform with head := { always with neg := true } }).wf = false ∧ (Instr.vadd { iform with head := window }).wf = false ∧
    (Instr.vredux { iform with vb := 0, head := { always with la := 15 } }).wf = false ∧
    (Instr.ldg { gform with head := { always with la := 15 } }).wf = true := by decide +kernel
/-- Integer forms: odd pairs, an unused operand, an unused or unlisted op-specific field, a Saturate or a type not honoured, an immediate without use. -/
theorem test_wf_int : (Instr.vadd { iform with ty := .i64, vd := 9 }).wf = false ∧ (Instr.vadd { iform with vc := 1 }).wf = false ∧
    (Instr.vadd { iform with vcs := .unif }).wf = false ∧ (Instr.vadd { iform with ops := 1 }).wf = false ∧ (Instr.vadd { iform with x32 := 1 }).wf = false ∧
    (Instr.vmulh { iform with sat := true }).wf = false ∧ (Instr.vand { iform with ops := 4 }).wf = false ∧ (Instr.vshr { iform with ops := 2 }).wf = false ∧
    (Instr.vfsh iform).wf = false ∧ (Instr.vabs { iform with ty := .n32, vb := 0 }).wf = false ∧ (Instr.vcmp { iform with ops := 6 }).wf = false ∧
    (Instr.vcmp { iform with vd := 7 }).wf = false ∧ (Instr.vmov iform).wf = false ∧ (Instr.vpopc iform).wf = false ∧
    (Instr.vaddc { iform with ty := .i32 }).wf = false ∧ (Instr.vsel { iform with vc := 8 }).wf = false ∧ (Instr.vbfe { iform with ty := .i16x2 }).wf = false ∧
    (Instr.vbfi iform).wf = false ∧ (Instr.vlut3 { iform with ty := .n32, x32 := 256 }).wf = false ∧ (Instr.vlut4 { iform with ty := .n32, ops := 1, x32 := 256 }).wf = false ∧
    (Instr.vdot4 iform).wf = false ∧ (Instr.vcvti { iform with vb := 0, ops := 16 }).wf = false ∧ (Instr.vprm iform).wf = false ∧
    (Instr.vlane { iform with va := 0, vb := 0, ty := .n32, ops := 4 }).wf = false ∧ (Instr.plog { iform with vd := 8 }).wf = false ∧
    (Instr.vadd { iform with vbs := .unif, vb := 64 }).wf = false := by decide +kernel
theorem test_wf_cross : (Instr.vshfl { iform with ty := .n32, ops := 28 }).wf = false ∧ (Instr.vballot { iform with ty := .n32, va := 8, vb := 0 }).wf = false ∧
    (Instr.vvote { iform with vd := 3, va := 2, vb := 0, ops := 3 }).wf = false ∧ (Instr.vredux { iform with head := window, vb := 0, ops := 6 }).wf = false ∧
    (Instr.vmatch { iform with vb := 0 }).wf = false ∧ (Instr.vscan { iform with head := window, vb := 0, ops := 1, sat := true }).wf = false ∧
    (Instr.vbcast { iform with ty := .n32 }).wf = false ∧ (Instr.vfirst { iform with ty := .n32, va := 2, vb := 0, ops := 2 }).wf = false := by decide +kernel
/-- Float forms: modifiers and roundings not honoured, a vc not used, types not accepted, x32 fields out of range. -/
theorem test_wf_float : (Instr.fadd { fform with vc := 1 }).wf = false ∧ (Instr.fmin { fform with rnd := .rz }).wf = false ∧
    (Instr.fmax { fform with clamp := true }).wf = false ∧ (Instr.fcmp { fform with vd := 7 }).wf = false ∧ (Instr.fcmp { fform with vd := 3, ty := .f16x2 }).wf = false ∧
    (Instr.frcp { fform with head := window, vb := 0, negB := true }).wf = false ∧ (Instr.frsq { fform with head := window }).wf = false ∧
    (Instr.fdiv { fform with head := window, ty := .bf16x2 }).wf = false ∧ (Instr.fexp2 { fform with head := window, vb := 0, ty := .f64 }).wf = false ∧
    (Instr.fcvt { fform with vb := 0, x32 := 0 }).wf = false ∧ (Instr.fcvti { fform with vb := 0, x32 := 8 }).wf = false ∧
    (Instr.icvtf { fform with vb := 0, negA := true }).wf = false ∧ (Instr.fclass { fform with vd := 3, vb := 0, x32 := 1024 }).wf = false ∧
    (Instr.frnd fform).wf = false ∧ (Instr.fscale { fform with negB := true }).wf = false ∧ (Instr.fquant { fform with x32 := 64 }).wf = false ∧
    (Instr.fdeq { fform with vb := 0, ty := .f64 }).wf = false ∧ (Instr.fflags { fform with va := 0, vb := 0, x32 := 3 }).wf = false ∧
    (Instr.fadd { fform with ty := .f16, vbs := .imm, vb := 0, x32 := 0x10000 }).wf = false ∧ (Instr.fadd { fform with ty := .f64, va := 5 }).wf = false := by
  decide +kernel
/-- Memory, Gallery, tile, matrix and copy forms. -/
theorem test_wf_mem : (Instr.ld { mform with vb := 1 }).wf = false ∧ (Instr.ld { mform with cls := .add }).wf = false ∧ (Instr.ld { mform with aop := 1 }).wf = false ∧
    (Instr.ld { mform with size := .b64, vd := 9 }).wf = false ∧ (Instr.ld { mform with size := .b128, vd := 10 }).wf = false ∧
    (Instr.ld { mform with uidx := true, va := 64 }).wf = false ∧ (Instr.st mform).wf = false ∧ (Instr.st { mform with vd := 0, cls := .peek }).wf = false ∧
    (Instr.atom { mform with cls := .add, aop := 3 }).wf = false ∧ (Instr.atom { mform with cls := .swap, aop := 8, size := .n8 }).wf = false ∧
    (Instr.atom { mform with cls := .add, aop := 2, vc := 1 }).wf = false ∧ (Instr.pref { mform with vd := 0, z := true }).wf = false ∧
    (Instr.ldg { gform with vc := 1 }).wf = false ∧ (Instr.stg gform).wf = false ∧ (Instr.atg { gform with cls := .add, aop := 10 }).wf = false ∧
    (Instr.trd { tform with n := 1, vd := 9 }).wf = false ∧ (Instr.trd { tform with va := 128 }).wf = false ∧ (Instr.trd { tform with n := 2, col := 2 }).wf = false ∧
    (Instr.twr tform).wf = false ∧ (Instr.tzero { tform with head := always, vd := 1, n := 1 }).wf = false ∧
    (Instr.mma { mmaform with shape := { noShape with w0 := 0x80000040 } }).wf = false ∧ (Instr.tload { xform with mode := 1 }).wf = false ∧
    (Instr.tload { xform with buf := 1 }).wf = false ∧ (Instr.tdrain { xform with mode := 5 }).wf = false ∧ (Instr.tdrain { xform with cvt := 4 }).wf = false ∧
    (Instr.tdrain { xform with mode := 3 }).wf = false ∧ (Instr.tdrain { xform with ti := true }).wf = false ∧ (Instr.cpy { cform with scope := .blk }).wf = false ∧
    (Instr.cpy { cform with rtype := 1 }).wf = false ∧ (Instr.cpy { cform with va := 1 }).wf = false ∧ (Instr.cpy { cform with vb := 1 }).wf = false ∧
    (Instr.cpymc { cform with x32 := 0 }).wf = false ∧ (Instr.cpymc { cform with dir := 1, x32 := 1 }).wf = false ∧ (Instr.cpyred { cform with rtype := 6 }).wf = false := by
  decide +kernel
/-- U-forms: odd pairs, quads, p7 or q7 as a destination, reserved codes. -/
theorem test_wf_uniform : (Instr.sadd false 1 2 4 true).wf = false ∧ (Instr.smul false 1 2 3 true false false).wf = false ∧
    (Instr.smul false 2 2 2 false true true).wf = false ∧ (Instr.scmp false 7 1 2 false false 0).wf = false ∧ (Instr.scmp false 1 1 2 false false 6).wf = false ∧
    (Instr.qlog false 7 0 0 1).wf = false ∧ (Instr.movs false 1 0).wf = false ∧ (Instr.movs false 1 31).wf = false ∧ (Instr.sets false 1 31).wf = false ∧
    (Instr.sfmt false 1 3).wf = false ∧ (Instr.brecl false 1 6).wf = false ∧ (Instr.bra false 7 true 0).wf = false ∧ (Instr.call false 7 true 0).wf = false ∧
    (Instr.brp false 7 false 0).wf = false ∧ (Instr.waitc false 6 0).wf = false ∧ (Instr.twait 1 { sa := 0, buf := 0, off := 0 }).wf = false ∧
    (Instr.tfill false 1 { sa := 0, buf := 0, off := 0 }).wf = false ∧ (Instr.qpush 2 { sa := 0, buf := 0, off := 0 }).wf = false ∧
    (Instr.qpop 6 { sa := 0, buf := 0, off := 0 }).wf = false ∧ (Instr.reset).wf = false := by decide +kernel
/-- Words that are no instruction: reserved opcodes, reserved fields, S clear on an instruction of R35. -/
theorem test_decode_refuses : decodeTableWord 32 0x1C000000 = none ∧ decodeTableWord 32 0x2F000000 = none ∧ decodeTableWord 32 0x00000001 = none ∧
    decodeTableWord 32 0x30000000 = none ∧ decodeTableWord 32 0x31000000 = none ∧ decodeTableWord 32 0x35000000 = none ∧ decodeTableWord 32 0x27800000 ≠ none ∧
    decodeTableWord 32 0x3F000060 = none ∧ decodeTableWord 32 0x32000000 = none ∧ decodeTableWord 96 0x87800000 = none ∧ decodeTableWord 96 0xB0000000 = none ∧
    decodeTableWord 224 0xC0000000 = none := by decide +kernel

/-! ## Words written out from the encoding tables: one for every constructor -/

theorem test_decode_uniform_arithmetic :
    decodeTableWord 32 0x00800000 = some (.nop true) ∧
    decodeTableWord 32 0x010828C0 = some (.sadd false 4 5 6 false) ∧
    decodeTableWord 32 0x029057C1 = some (.ssub true 8 10 62 true) ∧
    decodeTableWord 32 0x03021066 = some (.smul false 1 2 3 true true false) ∧
    decodeTableWord 32 0x04431460 = some (.sand false 33 34 35 false) ∧
    decodeTableWord 32 0x058420C1 = some (.sor true 2 4 6 true) ∧
    decodeTableWord 32 0x060E4960 = some (.sxor false 7 9 11 false) ∧
    decodeTableWord 32 0x070420A1 = some (.sshl false 2 4 5 true) ∧
    decodeTableWord 32 0x080620A2 = some (.sshr false 3 4 5 true false) ∧
    decodeTableWord 32 0x090620A2 = some (.smin false 3 4 5 true false) ∧
    decodeTableWord 32 0x0A8420C1 = some (.smax true 2 4 6 false true) ∧
    decodeTableWord 32 0x0B0A20EB = some (.scmp false 5 4 7 false true 3) ∧
    decodeTableWord 32 0x0C0A20E6 = some (.ssel false 5 4 7 6) ∧
    decodeTableWord 32 0x0D0BFFFF = some (.saddi false 5 0x1FFFF) ∧
    decodeTableWord 32 0x0E8E5678 = some (.smovi true 7 0x5678) ∧
    decodeTableWord 32 0x0F0E1234 = some (.smovh false 7 0x1234) ∧
    decodeTableWord 32 0x10020F0F = some (.sandi false 1 0x0F0F) ∧
    decodeTableWord 32 0x11050001 = some (.sori false 2 0x10001) ∧
    decodeTableWord 32 0x1207AAAA = some (.sxori false 3 0x1AAAA) := by
  decide +kernel

theorem test_decode_uniform_moves :
    decodeTableWord 32 0x130FF802 = some (.sld false 7 { sa := 63, buf := 0, off := 2 }) ∧
    decodeTableWord 32 0x141237FF = some (.sst false 9 { sa := 6, buf := 15, off := 127 }) ∧
    decodeTableWord 32 0x151E001D = some (.movs false 15 0x1D) ∧
    decodeTableWord 32 0x161E0014 = some (.sets false 15 0x14) ∧
    decodeTableWord 32 0x17002801 = some (.sfmt false 5 1) ∧
    decodeTableWord 32 0x18183188 = some (.brec false 12 { sa := 6, buf := 3, off := 8 }) ∧
    decodeTableWord 32 0x19124000 = some (.brecl false 9 8) ∧
    decodeTableWord 32 0x1A840A05 = some (.brecx true 2 { sa := 1, buf := 4, off := 5 }) ∧
    decodeTableWord 32 0x1B0A30E8 = some (.qlog false 5 6 7 8) := by
  decide +kernel

theorem test_decode_control :
    decodeTableWord 32 0x2017FFF4 = some (.bra false 1 false 0x7FFF4) ∧
    decodeTableWord 32 0x21700003 = some (.call false 7 false 3) ∧
    decodeTableWord 32 0x22000000 = some (.ret false) ∧
    decodeTableWord 32 0x23014000 = some (.jmpi false 40) ∧
    decodeTableWord 32 0x24280005 = some (.brp false 2 true 5) ∧
    decodeTableWord 32 0x2500BEEF = some (.recv false 0xBEEF) ∧
    decodeTableWord 32 0x26800000 = some (.exit true) ∧
    decodeTableWord 32 0x273FC000 = some (.waitc false 3 63) ∧
    decodeTableWord 32 0x280036B0 = some (.sleep false 14000) ∧
    decodeTableWord 32 0x29000000 = some (.yield false) ∧
    decodeTableWord 32 0x2A000021 = some (.trap false 0x21) ∧
    decodeTableWord 32 0x2B000001 = some (.brk false 1) ∧
    decodeTableWord 32 0x2C000001 = some (.tret false true) ∧
    decodeTableWord 32 0x2D0A0011 = some (.tinfo false 5 0x11) ∧
    decodeTableWord 32 0x2E001234 = some (.dbgmark false 0x1234) := by
  decide +kernel

theorem test_decode_synchronisation :
    decodeTableWord 32 0x30800002 = some (.bar true false) ∧
    decodeTableWord 32 0x31980001 = some (.barc 12 false true) ∧
    decodeTableWord 32 0x32000013 = some (.fence false .rel .dev) ∧
    decodeTableWord 32 0x330C0002 = some (.rollset false 6 2) ∧
    decodeTableWord 32 0x340E0003 = some (.rollarv false 7 3) ∧
    decodeTableWord 32 0x35800003 = some (.rollwait 3) ∧
    decodeTableWord 32 0x360E3100 = some (.tspawn false 7 { sa := 6, buf := 2, off := 0 }) ∧
    decodeTableWord 32 0x378DF980 = some (.twait 6 { sa := 63, buf := 3, off := 0 }) ∧
    decodeTableWord 32 0x38103101 = some (.tfill false 8 { sa := 6, buf := 2, off := 1 }) ∧
    decodeTableWord 32 0x39000000 = some (.tend false) ∧
    decodeTableWord 32 0x3A803103 = some (.lkacq { sa := 6, buf := 2, off := 3 }) ∧
    decodeTableWord 32 0x3B803103 = some (.lkrel true { sa := 6, buf := 2, off := 3 }) ∧
    decodeTableWord 32 0x3C883103 = some (.qpush 4 { sa := 6, buf := 2, off := 3 }) ∧
    decodeTableWord 32 0x3D903103 = some (.qpop 8 { sa := 6, buf := 2, off := 3 }) ∧
    decodeTableWord 32 0x3E003103 = some (.qreg false { sa := 6, buf := 2, off := 3 }) ∧
    decodeTableWord 32 0x3F000051 = some (.gmode false .fifo 17) := by
  decide +kernel

theorem test_decode_integer :
    decodeTableWord 96 0x00000000040905008000E020 = some (.vadd { head := { s := false, la := 0, neg := false, guard := 7 }, ops := 0, vcs := .reg, vbs := .unif, sat := false, ty := .i32, vd := 4, va := 9, vb := 5, vc := 0, x32 := 0x0 }) ∧
    decodeTableWord 96 0x00000000010203008061400C = some (.vsub { head := { s := true, la := 0, neg := true, guard := 2 }, ops := 0, vcs := .reg, vbs := .reg, sat := true, ty := .i16x2, vd := 1, va := 2, vb := 3, vc := 0, x32 := 0x0 }) ∧
    decodeTableWord 96 0xDEADBEEF070800008080E011 = some (.vmul { head := { s := false, la := 0, neg := false, guard := 7 }, ops := 0, vcs := .reg, vbs := .imm, sat := false, ty := .n32, vd := 7, va := 8, vb := 0, vc := 0, x32 := 0xDEADBEEF }) ∧
    decodeTableWord 96 0x000000000708090080C0E001 = some (.vmulh { head := { s := false, la := 0, neg := false, guard := 7 }, ops := 0, vcs := .reg, vbs := .reg, sat := false, ty := .n32, vd := 7, va := 8, vb := 9, vc := 0, x32 := 0x0 }) ∧
    decodeTableWord 96 0x00000000010203048100E000 = some (.vmad { head := { s := false, la := 0, neg := false, guard := 7 }, ops := 0, vcs := .reg, vbs := .reg, sat := false, ty := .i32, vd := 1, va := 2, vb := 3, vc := 4, x32 := 0x0 }) ∧
    decodeTableWord 96 0x000000000A0B0C038140F301 = some (.vaddc { head := { s := false, la := 0, neg := false, guard := 7 }, ops := 19, vcs := .reg, vbs := .reg, sat := false, ty := .n32, vd := 10, va := 11, vb := 12, vc := 3, x32 := 0x0 }) ∧
    decodeTableWord 96 0x00000000010203008180E101 = some (.vand { head := { s := false, la := 0, neg := false, guard := 7 }, ops := 1, vcs := .reg, vbs := .reg, sat := false, ty := .n32, vd := 1, va := 2, vb := 3, vc := 0, x32 := 0x0 }) ∧
    decodeTableWord 96 0x000000000102030081C0E201 = some (.vor { head := { s := false, la := 0, neg := false, guard := 7 }, ops := 2, vcs := .reg, vbs := .reg, sat := false, ty := .n32, vd := 1, va := 2, vb := 3, vc := 0, x32 := 0x0 }) ∧
    decodeTableWord 96 0x00000000010203008200E301 = some (.vxor { head := { s := false, la := 0, neg := false, guard := 7 }, ops := 3, vcs := .reg, vbs := .reg, sat := false, ty := .n32, vd := 1, va := 2, vb := 3, vc := 0, x32 := 0x0 }) ∧
    decodeTableWord 96 0x00000000010203008240E008 = some (.vshl { head := { s := false, la := 0, neg := false, guard := 7 }, ops := 0, vcs := .reg, vbs := .reg, sat := true, ty := .i32, vd := 1, va := 2, vb := 3, vc := 0, x32 := 0x0 }) ∧
    decodeTableWord 96 0x00000000010203008280E100 = some (.vshr { head := { s := false, la := 0, neg := false, guard := 7 }, ops := 1, vcs := .reg, vbs := .reg, sat := false, ty := .i32, vd := 1, va := 2, vb := 3, vc := 0, x32 := 0x0 }) ∧
    decodeTableWord 96 0x000000000102030482C0E101 = some (.vfsh { head := { s := false, la := 0, neg := false, guard := 7 }, ops := 1, vcs := .reg, vbs := .reg, sat := false, ty := .n32, vd := 1, va := 2, vb := 3, vc := 4, x32 := 0x0 }) ∧
    decodeTableWord 96 0x00000000C8C9CA008300E000 = some (.vmin { head := { s := false, la := 0, neg := false, guard := 7 }, ops := 0, vcs := .reg, vbs := .reg, sat := false, ty := .i32, vd := 200, va := 201, vb := 202, vc := 0, x32 := 0x0 }) ∧
    decodeTableWord 96 0x00000000C8CACC008340E002 = some (.vmax { head := { s := false, la := 0, neg := false, guard := 7 }, ops := 0, vcs := .reg, vbs := .reg, sat := false, ty := .i64, vd := 200, va := 202, vb := 204, vc := 0, x32 := 0x0 }) ∧
    decodeTableWord 96 0x00000000010200008380E006 = some (.vabs { head := { s := false, la := 0, neg := false, guard := 7 }, ops := 0, vcs := .reg, vbs := .reg, sat := false, ty := .i8x4, vd := 1, va := 2, vb := 0, vc := 0, x32 := 0x0 }) := by
  decide +kernel

theorem test_decode_logic :
    decodeTableWord 96 0x000000000502030083C0ED00 = some (.vcmp { head := { s := false, la := 0, neg := false, guard := 7 }, ops := 13, vcs := .reg, vbs := .reg, sat := false, ty := .i32, vd := 5, va := 2, vb := 3, vc := 0, x32 := 0x0 }) ∧
    decodeTableWord 96 0x00000000010203068400E001 = some (.vsel { head := { s := false, la := 0, neg := false, guard := 7 }, ops := 0, vcs := .reg, vbs := .reg, sat := false, ty := .n32, vd := 1, va := 2, vb := 3, vc := 6, x32 := 0x0 }) ∧
    decodeTableWord 96 0x12345678090000008440E011 = some (.vmov { head := { s := false, la := 0, neg := false, guard := 7 }, ops := 0, vcs := .reg, vbs := .imm, sat := false, ty := .n32, vd := 9, va := 0, vb := 0, vc := 0, x32 := 0x12345678 }) ∧
    decodeTableWord 96 0x00000000010200008480E001 = some (.vpopc { head := { s := false, la := 0, neg := false, guard := 7 }, ops := 0, vcs := .reg, vbs := .reg, sat := false, ty := .n32, vd := 1, va := 2, vb := 0, vc := 0, x32 := 0x0 }) ∧
    decodeTableWord 96 0x000000000204000084C0E003 = some (.vclz { head := { s := false, la := 0, neg := false, guard := 7 }, ops := 0, vcs := .reg, vbs := .reg, sat := false, ty := .n64, vd := 2, va := 4, vb := 0, vc := 0, x32 := 0x0 }) ∧
    decodeTableWord 96 0x00000000010200008500E001 = some (.vbrev { head := { s := false, la := 0, neg := false, guard := 7 }, ops := 0, vcs := .reg, vbs := .reg, sat := false, ty := .n32, vd := 1, va := 2, vb := 0, vc := 0, x32 := 0x0 }) ∧
    decodeTableWord 96 0x00000804010200008540E010 = some (.vbfe { head := { s := false, la := 0, neg := false, guard := 7 }, ops := 0, vcs := .reg, vbs := .imm, sat := false, ty := .i32, vd := 1, va := 2, vb := 0, vc := 0, x32 := 0x804 }) ∧
    decodeTableWord 96 0x00000000010203048580E001 = some (.vbfi { head := { s := false, la := 0, neg := false, guard := 7 }, ops := 0, vcs := .reg, vbs := .reg, sat := false, ty := .n32, vd := 1, va := 2, vb := 3, vc := 4, x32 := 0x0 }) ∧
    decodeTableWord 96 0x000000E80102030485C0E001 = some (.vlut3 { head := { s := false, la := 0, neg := false, guard := 7 }, ops := 0, vcs := .reg, vbs := .reg, sat := false, ty := .n32, vd := 1, va := 2, vb := 3, vc := 4, x32 := 0xE8 }) ∧
    decodeTableWord 96 0x0000000C080405068600E101 = some (.vlut4 { head := { s := false, la := 0, neg := false, guard := 7 }, ops := 1, vcs := .reg, vbs := .reg, sat := false, ty := .n32, vd := 8, va := 4, vb := 5, vc := 6, x32 := 0xC }) ∧
    decodeTableWord 96 0x00000000010203048640E106 = some (.vdot4 { head := { s := false, la := 0, neg := false, guard := 7 }, ops := 1, vcs := .reg, vbs := .reg, sat := false, ty := .i8x4, vd := 1, va := 2, vb := 3, vc := 4, x32 := 0x0 }) ∧
    decodeTableWord 96 0x00000000020400008680E200 = some (.vcvti { head := { s := false, la := 0, neg := false, guard := 7 }, ops := 2, vcs := .reg, vbs := .reg, sat := false, ty := .i32, vd := 2, va := 4, vb := 0, vc := 0, x32 := 0x0 }) ∧
    decodeTableWord 96 0x000000000102030486C0E001 = some (.vprm { head := { s := false, la := 0, neg := false, guard := 7 }, ops := 0, vcs := .reg, vbs := .reg, sat := false, ty := .n32, vd := 1, va := 2, vb := 3, vc := 4, x32 := 0x0 }) ∧
    decodeTableWord 96 0x00000000030000008700E201 = some (.vlane { head := { s := false, la := 0, neg := false, guard := 7 }, ops := 2, vcs := .reg, vbs := .reg, sat := false, ty := .n32, vd := 3, va := 0, vb := 0, vc := 0, x32 := 0x0 }) ∧
    decodeTableWord 96 0x00000000010203008740E800 = some (.plog { head := { s := false, la := 0, neg := false, guard := 7 }, ops := 8, vcs := .reg, vbs := .reg, sat := false, ty := .i32, vd := 1, va := 2, vb := 3, vc := 0, x32 := 0x0 }) := by
  decide +kernel

theorem test_decode_cross_lane :
    decodeTableWord 96 0x00000000030405078C00E601 = some (.vshfl { head := { s := false, la := 0, neg := false, guard := 7 }, ops := 6, vcs := .reg, vbs := .reg, sat := false, ty := .n32, vd := 3, va := 4, vb := 5, vc := 7, x32 := 0x0 }) ∧
    decodeTableWord 96 0x00000000020500008C40E003 = some (.vballot { head := { s := false, la := 0, neg := false, guard := 7 }, ops := 0, vcs := .reg, vbs := .reg, sat := false, ty := .n64, vd := 2, va := 5, vb := 0, vc := 0, x32 := 0x0 }) ∧
    decodeTableWord 96 0x00000000020300008C80E100 = some (.vvote { head := { s := false, la := 0, neg := false, guard := 7 }, ops := 1, vcs := .reg, vbs := .reg, sat := false, ty := .i32, vd := 2, va := 3, vb := 0, vc := 0, x32 := 0x0 }) ∧
    decodeTableWord 96 0x00000000030400008CC8E000 = some (.vredux { head := { s := false, la := 4, neg := false, guard := 7 }, ops := 0, vcs := .reg, vbs := .reg, sat := false, ty := .i32, vd := 3, va := 4, vb := 0, vc := 0, x32 := 0x0 }) ∧
    decodeTableWord 96 0x00000000030400008D00E101 = some (.vmatch { head := { s := false, la := 0, neg := false, guard := 7 }, ops := 1, vcs := .reg, vbs := .reg, sat := false, ty := .n32, vd := 3, va := 4, vb := 0, vc := 0, x32 := 0x0 }) ∧
    decodeTableWord 96 0x000000000A0300008D4CE000 = some (.vscan { head := { s := false, la := 6, neg := false, guard := 7 }, ops := 0, vcs := .reg, vbs := .reg, sat := false, ty := .i32, vd := 10, va := 3, vb := 0, vc := 0, x32 := 0x0 }) ∧
    decodeTableWord 96 0x00000000030405008D80E021 = some (.vbcast { head := { s := false, la := 0, neg := false, guard := 7 }, ops := 0, vcs := .reg, vbs := .unif, sat := false, ty := .n32, vd := 3, va := 4, vb := 5, vc := 0, x32 := 0x0 }) ∧
    decodeTableWord 96 0x00000000030400008DC0E001 = some (.vfirst { head := { s := false, la := 0, neg := false, guard := 7 }, ops := 0, vcs := .reg, vbs := .reg, sat := false, ty := .n32, vd := 3, va := 4, vb := 0, vc := 0, x32 := 0x0 }) := by
  decide +kernel

theorem test_decode_float :
    decodeTableWord 96 0x00000000010203009000E110 = some (.fadd { head := { s := false, la := 0, neg := false, guard := 7 }, clamp := false, absB := false, absA := false, negB := false, negA := true, vbs := .reg, rnd := .rdn, ty := .f32, vd := 1, va := 2, vb := 3, vc := 0, x32 := 0x0 }) ∧
    decodeTableWord 96 0x00000000020406009040E201 = some (.fsub { head := { s := false, la := 0, neg := false, guard := 7 }, clamp := false, absB := false, absA := false, negB := true, negA := false, vbs := .reg, rnd := .rne, ty := .f64, vd := 2, va := 4, vb := 6, vc := 0, x32 := 0x0 }) ∧
    decodeTableWord 96 0x3C003C00010200009080F042 = some (.fmul { head := { s := false, la := 0, neg := false, guard := 7 }, clamp := true, absB := false, absA := false, negB := false, negA := false, vbs := .imm, rnd := .rne, ty := .f16x2, vd := 1, va := 2, vb := 0, vc := 0, x32 := 0x3C003C00 }) ∧
    decodeTableWord 96 0x000000000401010390C0E020 = some (.ffma { head := { s := false, la := 0, neg := false, guard := 7 }, clamp := false, absB := false, absA := false, negB := false, negA := false, vbs := .reg, rnd := .dyn, ty := .f32, vd := 4, va := 1, vb := 1, vc := 3, x32 := 0x0 }) ∧
    decodeTableWord 96 0x00000000010203009100E403 = some (.fmin { head := { s := false, la := 0, neg := false, guard := 7 }, clamp := false, absB := false, absA := true, negB := false, negA := false, vbs := .reg, rnd := .rne, ty := .bf16x2, vd := 1, va := 2, vb := 3, vc := 0, x32 := 0x0 }) ∧
    decodeTableWord 96 0x00000000010203009140E800 = some (.fmax { head := { s := false, la := 0, neg := false, guard := 7 }, clamp := false, absB := true, absA := false, negB := false, negA := false, vbs := .reg, rnd := .rne, ty := .f32, vd := 1, va := 2, vb := 3, vc := 0, x32 := 0x0 }) ∧
    decodeTableWord 96 0x00000003050203009180E000 = some (.fcmp { head := { s := false, la := 0, neg := false, guard := 7 }, clamp := false, absB := false, absA := false, negB := false, negA := false, vbs := .reg, rnd := .rne, ty := .f32, vd := 5, va := 2, vb := 3, vc := 0, x32 := 0x3 }) ∧
    decodeTableWord 96 0x000000000102000091CAE000 = some (.frcp { head := { s := false, la := 5, neg := false, guard := 7 }, clamp := false, absB := false, absA := false, negB := false, negA := false, vbs := .reg, rnd := .rne, ty := .f32, vd := 1, va := 2, vb := 0, vc := 0, x32 := 0x0 }) ∧
    decodeTableWord 96 0x0000000001020000920AE000 = some (.frsq { head := { s := false, la := 5, neg := false, guard := 7 }, clamp := false, absB := false, absA := false, negB := false, negA := false, vbs := .reg, rnd := .rne, ty := .f32, vd := 1, va := 2, vb := 0, vc := 0, x32 := 0x0 }) ∧
    decodeTableWord 96 0x0000000002040000924AE009 = some (.fsqrt { head := { s := false, la := 5, neg := false, guard := 7 }, clamp := false, absB := false, absA := false, negB := false, negA := false, vbs := .reg, rnd := .rz, ty := .f64, vd := 2, va := 4, vb := 0, vc := 0, x32 := 0x0 }) ∧
    decodeTableWord 96 0x0000000001020300928AE018 = some (.fdiv { head := { s := false, la := 5, neg := false, guard := 7 }, clamp := false, absB := false, absA := false, negB := false, negA := false, vbs := .reg, rnd := .rup, ty := .f32, vd := 1, va := 2, vb := 3, vc := 0, x32 := 0x0 }) ∧
    decodeTableWord 96 0x000000000102000092CAE000 = some (.fexp2 { head := { s := false, la := 5, neg := false, guard := 7 }, clamp := false, absB := false, absA := false, negB := false, negA := false, vbs := .reg, rnd := .rne, ty := .f32, vd := 1, va := 2, vb := 0, vc := 0, x32 := 0x0 }) ∧
    decodeTableWord 96 0x0000000001020000930AE004 = some (.flog2 { head := { s := false, la := 5, neg := false, guard := 7 }, clamp := false, absB := false, absA := false, negB := false, negA := false, vbs := .reg, rnd := .rne, ty := .f16, vd := 1, va := 2, vb := 0, vc := 0, x32 := 0x0 }) := by
  decide +kernel

theorem test_decode_float_conversion :
    decodeTableWord 96 0x0000000001020000934AE100 = some (.fsin { head := { s := false, la := 5, neg := false, guard := 7 }, clamp := false, absB := false, absA := false, negB := false, negA := true, vbs := .reg, rnd := .rne, ty := .f32, vd := 1, va := 2, vb := 0, vc := 0, x32 := 0x0 }) ∧
    decodeTableWord 96 0x0000000001020000938AE005 = some (.fcos { head := { s := false, la := 5, neg := false, guard := 7 }, clamp := false, absB := false, absA := false, negB := false, negA := false, vbs := .reg, rnd := .rne, ty := .bf16, vd := 1, va := 2, vb := 0, vc := 0, x32 := 0x0 }) ∧
    decodeTableWord 96 0x000000000102000093CAE002 = some (.ftanh { head := { s := false, la := 5, neg := false, guard := 7 }, clamp := false, absB := false, absA := false, negB := false, negA := false, vbs := .reg, rnd := .rne, ty := .f16x2, vd := 1, va := 2, vb := 0, vc := 0, x32 := 0x0 }) ∧
    decodeTableWord 96 0x00000001020400009400E000 = some (.fcvt { head := { s := false, la := 0, neg := false, guard := 7 }, clamp := false, absB := false, absA := false, negB := false, negA := false, vbs := .reg, rnd := .rne, ty := .f32, vd := 2, va := 4, vb := 0, vc := 0, x32 := 0x1 }) ∧
    decodeTableWord 96 0x00000001010200009440E008 = some (.fcvti { head := { s := false, la := 0, neg := false, guard := 7 }, clamp := false, absB := false, absA := false, negB := false, negA := false, vbs := .reg, rnd := .rz, ty := .f32, vd := 1, va := 2, vb := 0, vc := 0, x32 := 0x1 }) ∧
    decodeTableWord 96 0x00000001010200009480E020 = some (.icvtf { head := { s := false, la := 0, neg := false, guard := 7 }, clamp := false, absB := false, absA := false, negB := false, negA := false, vbs := .reg, rnd := .dyn, ty := .f32, vd := 1, va := 2, vb := 0, vc := 0, x32 := 0x1 }) ∧
    decodeTableWord 96 0x000003FF0302000094C0E000 = some (.fclass { head := { s := false, la := 0, neg := false, guard := 7 }, clamp := false, absB := false, absA := false, negB := false, negA := false, vbs := .reg, rnd := .rne, ty := .f32, vd := 3, va := 2, vb := 0, vc := 0, x32 := 0x3FF }) ∧
    decodeTableWord 96 0x00000000010200009500E010 = some (.frnd { head := { s := false, la := 0, neg := false, guard := 7 }, clamp := false, absB := false, absA := false, negB := false, negA := false, vbs := .reg, rnd := .rdn, ty := .f32, vd := 1, va := 2, vb := 0, vc := 0, x32 := 0x0 }) ∧
    decodeTableWord 96 0x00000000010203009540E100 = some (.fscale { head := { s := false, la := 0, neg := false, guard := 7 }, clamp := false, absB := false, absA := false, negB := false, negA := true, vbs := .reg, rnd := .rne, ty := .f32, vd := 1, va := 2, vb := 3, vc := 0, x32 := 0x0 }) ∧
    decodeTableWord 96 0x00000014060102079580E000 = some (.fquant { head := { s := false, la := 0, neg := false, guard := 7 }, clamp := false, absB := false, absA := false, negB := false, negA := false, vbs := .reg, rnd := .rne, ty := .f32, vd := 6, va := 1, vb := 2, vc := 7, x32 := 0x14 }) ∧
    decodeTableWord 96 0x000000140601000795C0E000 = some (.fdeq { head := { s := false, la := 0, neg := false, guard := 7 }, clamp := false, absB := false, absA := false, negB := false, negA := false, vbs := .reg, rnd := .rne, ty := .f32, vd := 6, va := 1, vb := 0, vc := 7, x32 := 0x14 }) ∧
    decodeTableWord 96 0x00000000030000009600E000 = some (.fflags { head := { s := false, la := 0, neg := false, guard := 7 }, clamp := false, absB := false, absA := false, negB := false, negA := false, vbs := .reg, rnd := .rne, ty := .f32, vd := 3, va := 0, vb := 0, vc := 0, x32 := 0x0 }) := by
  decide +kernel

theorem test_decode_memory :
    decodeTableWord 96 0x3000040008050000A0054004 = some (.ld { head := { s := false, la := 2, neg := true, guard := 2 }, uidx := false, nc := false, z := false, scope := .blk, cls := .data, size := .b32, vd := 8, va := 5, vb := 0, vc := 0, buf := 3, off := 0x40, aop := 0 }) ∧
    decodeTableWord 96 0xFFFFFFC000070600A040FD95 = some (.st { head := { s := false, la := 0, neg := false, guard := 7 }, uidx := true, nc := true, z := true, scope := .dev, cls := .sync, size := .b64, vd := 0, va := 7, vb := 6, vc := 0, buf := 15, off := 0xFFFFFC, aop := 0 }) ∧
    decodeTableWord 96 0x50000089FF090102A080E1C4 = some (.atom { head := { s := false, la := 0, neg := false, guard := 7 }, uidx := false, nc := false, z := false, scope := .dev, cls := .swap, size := .b32, vd := 255, va := 9, vb := 1, vc := 2, buf := 5, off := 0x8, aop := 9 }) ∧
    decodeTableWord 96 0x2000010000040000A180E800 = some (.pref { head := { s := false, la := 0, neg := false, guard := 7 }, uidx := false, nc := true, z := false, scope := .blk, cls := .data, size := .n8, vd := 0, va := 4, vb := 0, vc := 0, buf := 2, off := 0x10, aop := 0 }) ∧
    decodeTableWord 96 0x0000040008050000A0C6F406 = some (.ldg { head := { s := false, la := 3, neg := false, guard := 7 }, uidx := true, z := true, team := false, cls := .data, size := .b128, vd := 8, va := 5, vb := 0, vc := 0, off := 0x40, aop := 0 }) ∧
    decodeTableWord 96 0x0FFFFFF000050600A100E094 = some (.stg { head := { s := false, la := 0, neg := false, guard := 7 }, uidx := false, z := false, team := true, cls := .sync, size := .b32, vd := 0, va := 5, vb := 6, vc := 0, off := 0xFFFFFF, aop := 0 }) ∧
    decodeTableWord 96 0x000001000A040600A15EE0A5 = some (.atg { head := { s := false, la := 15, neg := false, guard := 7 }, uidx := false, z := false, team := true, cls := .add, size := .b64, vd := 10, va := 4, vb := 6, vc := 0, off := 0x10, aop := 0 }) ∧
    decodeTableWord 96 0x0000000004000000A80AE000 = some (.trd { head := { s := false, la := 5, neg := false, guard := 7 }, hi := false, n := 0, lb := 0, vd := 4, va := 0, col := 0 }) ∧
    decodeTableWord 96 0x0000000406080000A840E198 = some (.twr { head := { s := false, la := 0, neg := false, guard := 7 }, hi := true, n := 2, lb := 3, vd := 6, va := 8, col := 4 }) ∧
    decodeTableWord 96 0x000000007F000000A880E008 = some (.tzero { head := { s := false, la := 0, neg := false, guard := 7 }, hi := false, n := 0, lb := 1, vd := 127, va := 0, col := 0 }) := by
  decide +kernel

theorem test_decode_matrix_and_copy :
    decodeTableWord 224 0x8000003F0000004080000005001000200000000005000000F000E015 = some (.mma { head := { s := false, la := 0, neg := false, guard := 7 }, lb := 2, noacc := true, negb := false, nega := true, tile := 5, shape := { w0 := 0x100020, w1 := 0x80000005, w2 := 0x40, w3 := 0x8000003F } }) ∧
    decodeTableWord 224 0x8000003F0000004080000005001000200000000009030000F040E00C = some (.tload { head := { s := false, la := 0, neg := false, guard := 7 }, mode := 0, cvt := 0, ti := false, lb := 1, mem := true, rel := false, acq := false, tile := 9, buf := 3, shape := { w0 := 0x100020, w1 := 0x80000005, w2 := 0x40, w3 := 0x8000003F } }) ∧
    decodeTableWord 224 0x8000003F0000004080000005001000200000000064070000F080E53E = some (.tdrain { head := { s := false, la := 0, neg := false, guard := 7 }, mode := 1, cvt := 4, ti := true, lb := 3, mem := true, rel := true, acq := false, tile := 100, buf := 7, shape := { w0 := 0x100020, w1 := 0x80000005, w2 := 0x40, w3 := 0x8000003F } }) ∧
    decodeTableWord 224 0x8000003F0000004080000005001000200000000000040209F200F580 = some (.cpy { head := { s := false, la := 0, neg := false, guard := 7 }, arv := true, rel := false, acq := true, scope := .dev, dir := 0, rtype := 0, vd := 0, va := 4, vb := 2, vc := 9, x32 := 0x0, shape := { w0 := 0x100020, w1 := 0x80000005, w2 := 0x40, w3 := 0x8000003F } }) ∧
    decodeTableWord 224 0x8000003F0000004080000005001000200000000F03040000F240E940 = some (.cpymc { head := { s := false, la := 0, neg := false, guard := 7 }, arv := false, rel := true, acq := false, scope := .die, dir := 2, rtype := 0, vd := 3, va := 4, vb := 0, vc := 0, x32 := 0xF, shape := { w0 := 0x100020, w1 := 0x80000005, w2 := 0x40, w3 := 0x8000003F } }) ∧
    decodeTableWord 224 0x8000003F000000408000000500100020000000000C000000F280E0B4 = some (.cpyred { head := { s := false, la := 0, neg := false, guard := 7 }, arv := false, rel := false, acq := false, scope := .team, dir := 1, rtype := 5, vd := 12, va := 0, vb := 0, vc := 0, x32 := 0x0, shape := { w0 := 0x100020, w1 := 0x80000005, w2 := 0x40, w3 := 0x8000003F } }) := by
  decide +kernel
/-! ## Uniform instructions and control flow -/

/-- A pair wraps at 64 bits; a product's high half is signed; shifts by the width give 0 or the sign (R292). -/
theorem test_uniform_arithmetic :
    sAfter (.sadd false 2 4 6 true) (sr 4 0xFFFFFFFF (sr 5 0xFFFFFFFF (sr 6 1 base))) 3 = some 0 ∧
    sAfter (.ssub false 7 4 5 false) (sr 4 1 (sr 5 2 base)) 7 = some 0xFFFFFFFF ∧
    sAfter (.smul false 7 4 5 true true false) (sr 4 0xFFFFFFFF (sr 5 2 base)) 7 = some 0xFFFFFFFF ∧
    sAfter (.smul false 7 4 5 false true false) (sr 4 0xFFFFFFFF (sr 5 2 base)) 7 = some 1 ∧
    sAfter (.sand false 7 4 5 false) (sr 4 12 (sr 5 10 base)) 7 = some 8 ∧ sAfter (.sor false 7 4 5 false) (sr 4 12 (sr 5 10 base)) 7 = some 14 ∧
    sAfter (.sxor false 7 4 5 false) (sr 4 12 (sr 5 10 base)) 7 = some 6 ∧ sAfter (.sshl false 7 4 5 false) (sr 4 1 (sr 5 32 base)) 7 = some 0 ∧
    sAfter (.sshr false 7 4 5 true false) (sr 4 0x80000000 (sr 5 40 base)) 7 = some 0xFFFFFFFF ∧
    sAfter (.smin false 7 4 5 true false) (sr 4 0xFFFFFFFF (sr 5 1 base)) 7 = some 0xFFFFFFFF ∧
    sAfter (.smax false 7 4 5 false false) (sr 4 0xFFFFFFFF (sr 5 1 base)) 7 = some 0xFFFFFFFF := by decide +kernel
/-- A signed comparison; s63 reads 0 and discards; 0x1234 and 0x5678 make 0x12345678 (R293 to R295, R32). -/
theorem test_uniform_moves :
    after (.scmp false 5 4 63 false true 2) (sr 4 0xFFFFFFFF base) (fun t => (t.group? 0).map fun x => x.q) = some (some 0x20) ∧
    sAfter (.ssel false 7 4 5 6) (sr 4 1 (sr 5 2 base)) 7 = some 2 ∧
    sAfter (.smovi false 63 5) base 63 = some 0 ∧ sAfter (.smovh false 7 0x1234) (sr 7 0x5678 base) 7 = some 0x12345678 ∧
    sAfter (.saddi false 7 0x1FFFF) (sr 7 5 base) 7 = some 4 ∧ sAfter (.sandi false 7 0x1FFF0) (sr 7 0x12345678 base) 7 = some 0x12345670 ∧
    sAfter (.sori false 7 0x10000) (sr 7 1 base) 7 = some 0xFFFF0001 ∧ sAfter (.sxori false 7 1) (sr 7 1 base) 7 = some 0 ∧
    after (.qlog false 0 7 1 0xC) base (fun t => (t.group? 0).map fun x => x.q) = some (some 1) ∧
    sAfter (.movs false 7 0x0C) base 7 = some 32 ∧ sAfter (.movs false 7 0x19) base 7 = some 1 ∧
    after (.sets false 4 0x1D) (sr 4 9 base) (fun t => (t.group? 0).map fun x => x.gtthr.toNat) = some (some 9) ∧
    after (.sfmt false 4 2) (sr 4 3 (upS (fun y => { y with fmt := 7 }) base)) (fun t => (t.split? 0 0).map fun y => y.fmt.toNat) = some (some 4) := by
  decide +kernel
/-- Targets are offsets in parcels from the instruction itself; CALL leaves the return address in s62 (R297, R298). -/
theorem test_control :
    pcAfter (.bra false 7 false 5) base = some 20 ∧ pcAfter (.bra false 1 false 5) base = some 4 ∧ pcAfter (.bra false 1 true 0) base = some 0 ∧
    pcAfter (.call false 7 false 2) base = some 8 ∧ sAfter (.call false 7 false 2) base 62 = some 4 ∧ pcAfter (.ret false) (sr 62 24 base) = some 24 ∧
    pcAfter (.jmpi false 9) (sr 9 12 base) = some 12 ∧ pcAfter (.nop true) base = some 4 ∧ pcAfter (.recv false 3) base = some 0 ∧
    pcAfter (.waitc true 0 63) base = some 4 ∧ pcAfter (.yield true) base = some 4 ∧
    after (.sleep true 14000) base (fun t => (t.split? 0 0).map fun y => y.wait) = some (some (.sleep 14000)) ∧
    after (.brp false 2 false 5) (pr 2 0xF base) (fun t => (t.split? 0 0, t.split? 0 1).map (Option.map fun y => (y.pc.toNat, y.mask.toNat))
      (Option.map fun y => (y.pc.toNat, y.mask.toNat))) = some (some (4, 0xFFFFFFF0), some (20, 0xF)) ∧
    after (.exit false) (upS (fun y => { y with mask := 0xF }) base) (fun t => (t.group? 0).map fun x => x.live.toNat) = some (some 0xFFFFFFF0) := by
  decide +kernel
/-- Traps: the handler's address, the saved cause and code; TRET.skip goes on behind the instruction (R371, R374, R379). -/
theorem test_traps :
    let h := upL (fun l => { l with handler := 8 }) base
    let sh : Shadow :=
      { split := 0, resume := 12, mask := 0xFFFFFFFF, fmt := 7, q := 5, b15 := none, kind := 0, op := none, length := 4, frame := [0x21], words := [],
        code := 9, origin := 0, codeId := 0, since := 0, dead := false }
    let t := upG (fun x => { x with shadow := some sh }) h
    pcAfter (.trap false 0x21) h = some 8 ∧ after (.trap false 0x21) h (fun t => (t.group? 0).bind fun x => x.shadow.map fun y =>
      (y.code.toNat, (y.frame.headD 0).toNat % 256, y.resume.toNat)) = some (some (0x21, 0x56, 0)) ∧
    after (.brk false 1) h (fun t => (t.group? 0).bind fun x => x.shadow.map fun y => (y.code.toNat, (y.frame.headD 0).toNat % 256)) = some (some (1, 0x50)) ∧
    pcAfter (.tret false true) t = some 16 ∧ pcAfter (.tret false false) t = some 12 ∧ sAfter (.tinfo false 5 0x11) t 5 = some 9 ∧
    after (.dbgmark false 7) (upC (fun x => { x with pmatch := 7 }) base) (fun t => (t.ctx 1).prog0.toNat) = some 1 := by decide +kernel

/-! ## The statements on uniform instructions and control flow can be met -/

theorem test_meets_uniform_arithmetic : meets (.sadd false 2 4 6 true) base (fun _ _ => true) ∧ meets (.smul false 2 3 4 true true false) base (fun _ _ => true) := by
  decide +kernel
theorem test_meets_uniform_moves : meets (.scmp false 6 62 60 true true 5) base (fun _ _ => true) ∧ meets (.ssel false 63 1 2 7) base (fun _ _ => true) ∧
    meets (.qlog false 6 7 7 15) base (fun _ _ => true) ∧ meets (.smovh false 63 0xFFFF) base (fun _ _ => true) := by decide +kernel
theorem test_meets_special_registers : meets (.movs false 1 0x01) base (fun _ _ => true) ∧ meets (.movs false 1 0x1E) base (fun _ _ => true) ∧
    meets (.movs false 1 0x10) base (fun _ _ => true) ∧ meets (.movs false 1 0x12) base (fun _ _ => true) ∧ meets (.sets false 1 0x1D) base (fun _ _ => true) ∧
    meets (.sfmt false 1 0) (sr 1 0xFFF3FF base) (fun c s => (s.sreg c.gid 1).toNat < 2 ^ 24 && (s.sreg c.gid 1).toNat / 2 ^ 10 % 4 != 3) := by
  decide +kernel
theorem test_meets_jumps :
    meets (.bra false 0 false 3) base (fun c _ => !c.grp.qreg 0) ∧
    meets (.bra false 7 false 6) base (fun c _ => c.grp.qreg 7 && (c.sp.pc.toNat + 24 < c.lau.textSize)) ∧
    meets (.call false 0 false 3) base (fun c _ => !c.grp.qreg 0) ∧ meets (.call false 7 false 6) base (fun c _ => c.sp.pc.toNat + 24 < c.lau.textSize) ∧
    meets (.ret false) (sr 62 24 base) (fun c s => (s.sreg c.gid 62).toNat < c.lau.textSize) ∧ meets (.jmpi false 63) base (fun c _ => 0 < c.lau.textSize) ∧
    meets (.brp false 2 false 5) base (fun c s => (c.sp.mask &&& s.preg c.gid 2) == 0) ∧
    meets (.brp false 2 true 5) base (fun c s => (c.sp.mask &&& ~~~(s.preg c.gid 2)) == c.sp.mask && c.sp.mask != 0) := by decide +kernel
theorem test_meets_divergence_and_merging :
    meets (.brp false 2 false 6) (pr 2 1 base) (fun c s => (c.sp.mask &&& s.preg c.gid 2) == 1 && c.n == 0 && (s.split? 0 1).isNone && c.grp.join 0 == none) ∧
    (let s := upS (fun y => { y with wait := .recv }) base
     s.stopping 0 = false ∧ (∀ m, m < 4 → s.held 0 m = false) ∧ (Iss.of s 0 0 (.recv false 0)).isSome) ∧
    (let s := upG (fun x => x.setJoin 0 (some { oldJ := 0xFFFFFFFF, oldEnt := none }))
       (Tab.splits.put 1 { Split.start 0 0xF 0 with wait := .recv, j := 0xFFFFFFFF, jent := some 0 }
         (upS (fun y => { y with wait := .recv, mask := 0xFFFFFFF0, jent := some 0 }) base))
     s.stopping 0 = false ∧ (s.split? 0 0).map (fun y => y.mask ||| 0xF) = some 0xFFFFFFFF ∧ (s.split? 0 0).map (·.j) = some 0xFFFFFFFF ∧ s.opsOf 0 = []) := by
  decide +kernel
theorem test_meets_split_control :
    meets (.nop false) base (fun _ _ => true) ∧ meets (.sleep true 1) base (fun _ _ => true) ∧ meets (.sleep true 0) base (fun _ _ => true) ∧
    meets (.yield true) base (fun _ _ => true) ∧ meets (.recv false 3) base (fun c _ => c.sp.stack == []) ∧
    meets (.recv false 3) (upS (fun y => { y with stack := [{ mask := 2, fmt := 0, pc := 8, token := 3, state := .unserved, since := 0, told := false }] }) base)
      (fun c _ => c.sp.stack.map (·.mask) == [2] && c.sp.outs == []) ∧
    meets (.waitc true 5 1) base (fun c s => c.sp.wait == .ready && s.counter c.gid 5 == 0) ∧ meets (.dbgmark false 0) base (fun c s => !(s.ctx c.lau.ctx).tracing) ∧
    (upS (fun y => { y with wait := .sleep 0 }) base).split? 0 0 ≠ none := by decide +kernel
theorem test_meets_exits :
    meets (.exit true) (upS (fun y => { y with mask := 1 }) base)
      (fun c s => c.grp.live &&& ~~~c.sp.mask != 0 && c.sp.stack == [] && goes c s (some .dev) && (s.splitsOf c.gid).length == 1) ∧
    meets (.exit true) (upB (fun b => { b with gids := [0, 1] }) base)
      (fun c s => c.grp.live &&& ~~~c.sp.mask == 0 && c.grp.thandle == 0xFFFFFFFF && c.grp.locks == 0 && c.grp.shadow == none && s.opsOf c.gid == [] &&
        goes c s (some .dev) && c.mayAdvanceTwice s && c.oldestTask s == none && (s.ctx c.lau.ctx).cstate == 1 && c.blk.gids.filter (· != c.gid) == [1]) := by
  decide +kernel
theorem test_meets_trap_instructions :
    meets (.trap false 0xFF) handled (fun c _ => canTrap c) ∧ meets (.brk false 0xFFFF) handled (fun c s => canTrap c && !(s.ctx c.lau.ctx).attached) ∧
    meets (.brk false 1) (upC (fun x => { x with attached := true }) (upL (fun l => { l with flags := 8 }) base))
      (fun c s => c.lau.flags.getLsbD 3 && (s.ctx c.lau.ctx).attached && !(s.ctx c.lau.ctx).tracing && c.sp.outs == []) := by decide +kernel
theorem test_meets_trap_return :
    let sh : Shadow :=
      { split := 0, resume := 12, mask := 1, fmt := 0, q := 0, b15 := some 3, kind := 0, op := none, length := 4, frame := [], words := [],
        code := 0, origin := 0, codeId := 0, since := 0, dead := false }
    let s := upG (fun x => { x with shadow := some sh }) handled
    meets (.tret false true) s (fun c s => c.grp.shadow == some sh && s.ops == [] && !sh.dead) ∧
    meets (.tinfo false 63 63) s (fun c _ => c.grp.shadow == some sh) := by decide +kernel
theorem test_meets_control_traps :
    let s := sr 62 2 (sr 9 28 handled)
    let outside (c : Iss) (t : BitVec 32) : Bool := !(t.toNat % 4 == 0 && t.toNat < c.lau.textSize)
    meets (.bra false 7 false 7) s (fun c _ => canTrap c && outside c (c.sp.pc + 28)) ∧
    meets (.call false 7 false 0x40000) s (fun c _ => canTrap c && outside c (c.sp.pc - 0x100000)) ∧
    meets (.ret false) s (fun c s => canTrap c && outside c (s.sreg c.gid 62)) ∧ meets (.jmpi false 9) s (fun c s => canTrap c && outside c (s.sreg c.gid 9)) ∧
    meets (.sets false 1 1) s (fun c _ => canTrap c) ∧ meets (.tinfo false 1 0) s (fun c _ => canTrap c) ∧ meets (.tret false false) s (fun c _ => canTrap c) ∧
    meets (.tend true) s (fun c _ => canTrap c && c.grp.thandle == 0xFFFFFFFF) ∧
    meets (.exit true) (upG (fun x => { x with locks := 1 }) s)
      (fun c s => canTrap c && c.grp.live &&& ~~~c.sp.mask == 0 && c.grp.thandle == 0xFFFFFFFF && c.grp.locks != 0 && s.opsOf c.gid == []) := by
  decide +kernel

/-! ## Barriers, roll call, fences -/

/-- Domain 3 of context 1 with a quorum of 2 and station 0 registered: one arrival expected, one to come, in phase 9. -/
def rolled : State := upD (fun d => { d with lastQ := 0 })
  (Tab.wps.put 3 (some 8) (Tab.stations.put (3 * 4096) { reg := true, e := 1, c := 1, x := 0 }
    (Tab.domains.put 3 { Domain.init with en := true, ctx := 1, quorum := 2, phase := 9 } base)))

/-- The station counts down; ROLLSET registers 2 << 16 | 5 at no station of the domain, 1 << 16 | 5 at station 1 with 5 arrivals to come (R339, R340, R342). -/
theorem test_roll_call :
    after (.rollarv false 7 3) (sr 7 0 rolled) (fun t => (t.station 3 0).c) = some 0 ∧
    after (.rollset false 7 3) (sr 7 0x10005 rolled) (fun t => ((t.station 3 1).reg, (t.station 3 1).c, (t.station 3 1).e)) = some (true, 5, 5) ∧
    pcAfter (.rollwait 3) rolled = some 4 := by decide +kernel
/-- The last arrival completes the barrier at once; a fence with acquire at the device advances GEN (R148, R165, R332). -/
theorem test_barrier_and_fence :
    after (.bar false false) base (fun t => (pcOf t, (t.block? 1).map fun b => b.bar.arrived)) = some (4, some []) ∧
    after (.barc 7 false false) (sr 7 1 base) (fun t => (pcOf t, (t.block? 1).map fun b => b.bar.fixed)) = some (4, some none) ∧
    after (.fence false .ar .dev) base (fun t => (t.core 0).gen) = some 2 := by decide +kernel

theorem test_meets_fences :
    meets (.fence false .rel .sys) base (fun c s => goes c s (some .sys) && !fenceWaits s c .rel && (s.core c.core).gen == 1) ∧
    meets (.fence false .acq .team) base (fun c s => goes c s none && !fenceWaits s c .acq && (s.core c.core).gen == 1) := by decide +kernel
theorem test_meets_barriers :
    let b : Barrier := Barrier.open_
    meets (.bar true false) base (fun c s => s.splitsOf c.gid == [c.n] && c.sp.stack == [] && goes c s (some .blk) && c.blk.bar == b) ∧
    meets (.bar true true) base (fun c s => (s.team? c.tid).map (·.bar) == some b && goes c s (some .team)) ∧
    meets (.barc 1 false false) (sr 1 1 base) (fun c s => goes c s (some .blk) && (s.sreg c.gid 1).toNat ≤ c.blk.gids.length) ∧
    meets (.barc 1 false true) (sr 1 1 base) (fun c s => goes c s (some .team) && (s.sreg c.gid 1).toNat ≤ (s.barMembers c.bid c.tid true).length) ∧
    (let s := upB (fun k => { k with bar := { b with arrived := [0], bar := true } }) (upS (fun y => { y with wait := .barrier false false none }) base)
     (s.block? 1).map (fun k => (k.gids, k.bar.arrived, k.bar.fixed)) = some ([0], [0], none) ∧ (s.launch? 0).isSome ∧
     (s.group? 0).map (·.bid) = some 1) := by decide +kernel
theorem test_meets_roll_call :
    let mine (c : Iss) (s : State) : Bool := (s.domain 3).en && (s.domain 3).ctx.toNat == c.lau.ctx && (s.domain 3).inc.toNat == c.lau.inc
    meets (.rollset false 7 3) (sr 7 0x1FFFF rolled) (fun c s => mine c s && !(s.station 3 1).reg && s.census 3 < (s.domain 3).quorum.toNat) ∧
    meets (.rollarv false 7 3) (sr 7 0 rolled) (fun c s => mine c s && (s.station 3 0).reg && 0 < (s.station 3 0).c && goes c s (some .dev)) ∧
    meets (.rollwait 3) rolled (fun c s => mine c s && goes c s none && (s.core c.core).gen == 1 && Tab.wps.val none 3 s == some 8) ∧
    meets (.rollwait 3) (Tab.wps.put 3 (some 9) rolled) (fun c s => mine c s && Tab.wps.val none 3 s == some (s.domain 3).phase) := by decide +kernel
theorem test_meets_phases :
    (rolled.domain 3).en = true ∧ (rolled.station 3 0).reg = true ∧ 0 < (rolled.station 3 0).c ∧
    (let s := Tab.stations.put (3 * 4096) { reg := true, e := 1, c := 0, x := 0 } (Tab.domains.put 3 { Domain.init with en := true, quorum := 1 } base)
     Tab.stations.wf s.stations ∧ (s.domain 3).span = false ∧ (s.domain 3).sentAt = none ∧ s.census 3 = (s.domain 3).quorum.toNat ∧
     ∀ e ∈ s.stations, e.2.c = 0) ∧
    (let s := Tab.domains.put 3 { Domain.init with en := true, span := true, memb0 := 3 } base
     (s.domain 3).member 1 = true ∧ (s.domain 3).got = []) := by decide +kernel

/-! ## Memory -/

/-- b3 is a buffer of 4,096 bytes of 4-byte elements at 0x40000, mapped for reading and writing; lane 0 of v4 is index 4; only lane 0 executes under p1. -/
def data : State := vr 4 0 4 (pr 1 1 (br 3 (0x40000 + 2 * 2 ^ 60 + 4096 * 2 ^ 64)
  (Tab.access.put 0 { wbase := 0, limit := 0x7FFFF, at_ := true, wr := true, rd := true }
    (Tab.mem.put 0x3000 0x3D (Tab.mem.put 0x40010 0x44 (Tab.mem.put 0x40011 0x33 (Tab.mem.put 0x40012 0x22 (Tab.mem.put 0x40013 0x11 base))))))))
def one : Head := { always with guard := 1 }
def ldOne : Instr := .ld { mform with head := { one with la := 2 } }
def stOne : Instr := .st { mform with head := one, vd := 0, vb := 6 }
def addOne : Instr := .atom { mform with head := { one with la := 2 }, cls := .add, scope := .dev, vb := 6 }
/-- The state in which an instruction's operation has been answered for its one line, at physical 0x40000. -/
def answered (i : Instr) (s : State) : State :=
  match exec i s with
  | .next t => (Act.upd .ops s.dev.nextId fun o => { o with phase := .responding, lines := [(0x40000 / 128, .ok (0x40000 / 128))], secs := [] }).run t
  | _ => s

/-- Index 4 of 4-byte elements is offset 16; a buffer of 4,096 bytes has no byte 4,096; swizzle 16-byte units by the row: row 1 of 256 bytes moves unit 0
to unit 1 (R98). -/
theorem test_placement :
    (Buf.of (0x40000 + 2 * 2 ^ 60 + 4096 * 2 ^ 64)).place 16 4 = (false, 0x40010) ∧ ((Buf.of (0x40000 + 4096 * 2 ^ 64)).place 4093 4).1 = true ∧
    (Buf.of (0x40000 + 512 * 2 ^ 64 + 0x43 * 2 ^ 104 + 8 * 2 ^ 120)).place 256 16 = (false, 0x40110) ∧
    ((Buf.of (0x40000 + 512 * 2 ^ 64 + 0x43 * 2 ^ 104 + 8 * 2 ^ 120)).place 8 16).1 = true := by decide +kernel
/-- Little-endian: bytes 44 33 22 11 are 0x11223344; an add of 1 leaves 0x11223345 and returns the old value; a store goes to the L1, not home (R4, R76, R159). -/
theorem test_memory :
    vAfter (.loadResponse 3) (answered ldOne data) 8 0 = some 0x11223344 ∧ vAfter (.loadResponse 3) (answered ldOne data) 8 1 = some 0 ∧
    vAfter (.atomicResponse 3) (answered addOne (vr 6 0 1 data)) 8 0 = some 0x11223344 ∧
    after (.atomicResponse 3) (answered addOne (vr 6 0 1 data)) (fun t => (t.homeWord 0x40010).toNat) = some 0x11223345 ∧
    after (.writeIntentAnswer 3) (answered stOne (vr 6 0 9 data)) (fun t => ((t.homeWord 0x40010).toNat, (t.l1At 0 (0x40000 / 32)).map fun l => l.s0.dirty.toNat)) =
      some (0x11223344, some 0xF0000) := by decide +kernel
/-- BRECL takes s4 to s7 with s4 lowest; BRECX moves the base by the index and shortens the extent (R116, R117). -/
theorem test_buffer_records :
    after (.brecl false 9 4) (sr 4 1 (sr 5 2 (sr 6 3 (sr 7 4 base)))) (fun t => (t.breg 0 9).toNat) = some (1 + 2 * 2 ^ 32 + 3 * 2 ^ 64 + 4 * 2 ^ 96) ∧
    after (.brecx false 9 { sa := 4, buf := 3, off := 2 }) (sr 4 2 data) (fun t => ((Buf.of (t.breg 0 9)).base, (Buf.of (t.breg 0 9)).extent)) =
      some (0x40010, 4080) := by decide +kernel

theorem test_meets_placement : (Buf.of (0x40000 + 4096 * 2 ^ 64)).valid = true ∧ (Buf.of (0x40000 + 512 * 2 ^ 64 + 0x43 * 2 ^ 104 + 8 * 2 ^ 120)).valid = true ∧
    (Buf.of (0x40000 + 512 * 2 ^ 64 + 0x43 * 2 ^ 104 + 8 * 2 ^ 120)).mode = 1 := by decide +kernel
theorem test_meets_memory_issue :
    let starts (c : Iss) (s : State) (i : Instr) (f : MForm) (at_ wr : Bool) : Bool := match memFront c s i f at_ wr false with
      | .start o fails => fails.length == 0 && (s.before o).isNone
      | _ => false
    let known (c : Iss) (s : State) : Bool := c.sp.outs.all fun o => o.op < s.dev.nextId
    meets ldOne data (fun c s => may ldOne c s && s.counter c.gid 0 < 63 && c.execMask s one == 1 && starts c s ldOne { mform with head := { one with la := 2 } } false false && known c s) ∧
    meets stOne data (fun c s => may stOne c s && s.counter c.gid 1 < 63 && starts c s stOne { mform with head := one, vd := 0, vb := 6 } false true && known c s) ∧
    meets addOne data (fun c s => may addOne c s && starts c s addOne { mform with head := { one with la := 2 }, cls := .add, scope := .dev, vb := 6 } true true && known c s) ∧
    (let m : UMem := { sa := 63, buf := 3, off := 127 }
     let plain (i : Instr) (v : Nat) (p : Option Nat) (c : Iss) (s : State) : Bool := (match uniFront c s i m v p with
       | .start o fails => fails.length == 0 && (s.before o).isNone
       | _ => false) && known c s
     meets (.sld false 7 m) data (plain (.sld false 7 m) 0 none) ∧ meets (.sst false 63 m) data (plain (.sst false 63 m) 0 (some 1)) ∧
     meets (.brec false 15 m) data (plain (.brec false 15 m) 0 none)) := by decide +kernel
theorem test_meets_memory_lanes :
    let f : MForm := { mform with head := one }
    meets (.ld f) data (fun c s =>
      let b := Buf.of (s.breg c.gid f.buf.toNat)
      b.valid && f.aop != 1 && c.execLanes s f.head == [0] && (c.execLanes s f.head).all fun l => !(b.place (b.offset (s.vreg c.gid 4 l) 0) 4).1) := by decide +kernel
theorem test_meets_memory_responses :
    let ok (i : Instr) (s : State) : Bool := match Tab.ops.at 3 (answered i s) with
      | some o => o.phase == .responding && o.parkedLanes == 0 && !consumesPoison (answered i s) o && !o.dropped (answered i s) && !o.heldUp (answered i s) &&
          o.prog == 0 && !o.crosses && o.secs == [] && o.passLanes.length == 1 &&
          o.lines == [(0x800, .ok 0x800)] && (o.lineFault (answered i s) 0x800).isNone && ((answered i s).launchOf o.gid).all (!·.journals)
      | none => false
    ok (.ld { mform with head := { one with la := 2 }, nc := true }) data ∧ ok (.sld false 7 { sa := 63, buf := 3, off := 4 }) data ∧ ok stOne data ∧ ok addOne data ∧
    (Tab.ops.at 3 (answered (.ld { mform with head := { one with la := 2 }, nc := true }) data)).map (·.uncached) = some true ∧
    (Tab.l1.put (lineKey 0 0x800) (L1Line.fresh 1 0 false 0) (answered stOne data)).l1At 0 0x2000 = some (L1Line.fresh 1 0 false 0) ∧
    (answered addOne data).l1At 0 0x2000 = none ∧ (answered addOne data).wbs = [] ∧ (answered addOne data).ownerOf 0x40000 = (0, 0) := by decide +kernel
/-- A lane whose 8 bytes lie in two sectors is performed in two parts, whose bytes come together in the register pair (R179, R158, log 135). -/
def acrossLd : Instr := .ld { mform with head := { one with la := 2 }, size := .b64, nc := true }
def across : State := answered acrossLd (Tab.mem.put 0x4001C 0x66 (Tab.mem.put 0x40020 0x55 (vr 4 0 7 data)))
theorem test_crossing_load :
    let ok (h : Nat) (s : State) : Bool := match Tab.ops.at 3 s with
      | some o => o.phase == .responding && o.parkedLanes == 0 && !consumesPoison s o && !o.dropped s && !o.heldUp s && o.prog == h && o.crosses &&
          o.secs == [] && o.passLanes.length == 1 && o.uncached && (o.lineFault s 0x800).isNone
      | none => false
    ok 0 across ∧ (after (.loadResponse 3) across id).map (ok 1) = some true ∧
    (after (.loadResponse 3) across id).bind (vAfter (.loadResponse 3) · 8 0) = some 0x66 ∧
    (after (.loadResponse 3) across id).bind (vAfter (.loadResponse 3) · 9 0) = some 0x55 := by decide +kernel
/-- A sector of HBM: its stack, its place in the stack and its home slice, worked out from the pseudocode of R68. -/
theorem test_stack_of_sector : stackOf 0x4A3C7D80 = 7 ∧ stackSector 0x4A3C7D80 = 0x4A3C6C ∧ homeSlice 0x4A3C7D80 = 50 ∧ stackAddr 7 0x4A3C6C = 0x4A3C7D80 := by decide +kernel
theorem test_meets_buffer_records :
    meets (.brecl false 15 60) data (fun _ _ => true) ∧
    meets (.brecx false 0 { sa := 63, buf := 3, off := 127 }) data (fun c s => 4 * 127 ≤ (Buf.of (s.breg c.gid 3)).extent && (Buf.of (s.breg c.gid 3)).mode == 0) ∧
    meets (.pref { mform with size := .n8, vd := 0 }) data (fun c s => may (.pref { mform with size := .n8, vd := 0 }) c s && (Buf.of (s.breg c.gid 3)).valid) := by
  decide +kernel

/-! ## Lane instructions -/

/-- v4, v5 and v6 of lanes 0 and 1. -/
def lanes2 (a0 b0 c0 : Nat) : State := vr 4 0 a0 (vr 5 0 b0 (vr 6 0 c0 base))
def v8 (i : Instr) (s : State) : Option Nat := vAfter i s 8 0
/-- Wrap and saturation, the high half, rounding shifts, packed types (R204, R206, R209, R210). -/
theorem test_lane_arithmetic :
    v8 (.vadd iform) (lanes2 0x7FFFFFFF 1 0) = some 0x80000000 ∧ v8 (.vadd { iform with sat := true }) (lanes2 0x7FFFFFFF 1 0) = some 0x7FFFFFFF ∧
    v8 (.vsub { iform with ty := .n32, sat := true }) (lanes2 1 2 0) = some 0 ∧ v8 (.vmul iform) (lanes2 0x10001 0x10001 0) = some 0x20001 ∧
    v8 (.vmulh iform) (lanes2 0xFFFFFFFF 2 0) = some 0xFFFFFFFF ∧ v8 (.vmad { iform with vc := 6 }) (lanes2 3 4 5) = some 17 ∧
    v8 (.vadd { iform with ty := .i8x4 }) (lanes2 0xFF00FF01 0x01000101 0) = some 0x00000002 ∧ v8 (.vshl iform) (lanes2 1 33 0) = some 0 ∧
    v8 (.vshr { iform with ops := 1 }) (lanes2 7 1 0) = some 4 ∧ v8 (.vmin iform) (lanes2 0xFFFFFFFF 1 0) = some 0xFFFFFFFF ∧
    v8 (.vmax { iform with ty := .n32 }) (lanes2 0xFFFFFFFF 1 0) = some 0xFFFFFFFF ∧ v8 (.vabs { iform with vb := 0, sat := true }) (lanes2 0x80000000 0 0) = some 0x7FFFFFFF ∧
    v8 (.vaddc { iform with ty := .n32, vc := 2, ops := 0 }) (lanes2 0xFFFFFFFF 1 0) = some 0 ∧
    after (.vaddc { iform with ty := .n32, vc := 2, ops := 0 }) (lanes2 0xFFFFFFFF 1 0) (fun t => (t.preg 0 2).toNat) = some 1 := by decide +kernel
/-- Logic, counts, fields and tables (R208, R211, R212, R214, R463). -/
theorem test_lane_bits :
    v8 (.vand { iform with ops := 2 }) (lanes2 12 10 0) = some 4 ∧ v8 (.vor iform) (lanes2 12 10 0) = some 14 ∧ v8 (.vxor iform) (lanes2 12 10 0) = some 6 ∧
    v8 (.vfsh { iform with ty := .n32, vc := 6 }) (lanes2 0x80000000 1 4) = some 0x18000000 ∧ v8 (.vpopc { iform with ty := .n32, vb := 0 }) (lanes2 0xF0F 0 0) = some 8 ∧
    v8 (.vclz { iform with ty := .n32, vb := 0 }) (lanes2 1 0 0) = some 31 ∧ v8 (.vbrev { iform with ty := .n32, vb := 0 }) (lanes2 1 0 0) = some 0x80000000 ∧
    v8 (.vbfe iform) (lanes2 0xF0 0x404 0) = some 0xFFFFFFFF ∧ v8 (.vbfi { iform with ty := .n32, vc := 6 }) (lanes2 5 0xFFFFFFFF 0x404) = some 0xFFFFFF5F ∧
    v8 (.vlut3 { iform with ty := .n32, vc := 6, x32 := 0xE8 }) (lanes2 12 10 6) = some 14 ∧
    v8 (.vlut4 { iform with ty := .n32, vc := 6, x32 := 0x8000 }) (vr 8 0 7 (lanes2 13 11 15)) = some 1 ∧
    v8 (.vsel { iform with vc := 2 }) (pr 2 1 (lanes2 1 2 0)) = some 1 ∧ v8 (.vmov { iform with va := 0 }) (lanes2 1 2 0) = some 2 := by decide +kernel
/-- Bytes, dot products, conversions, lane values and predicates (R205, R213, R215 to R218, R223). -/
theorem test_lane_values :
    v8 (.vprm { iform with ty := .n32, vc := 6 }) (lanes2 0x33221100 0x77665544 0x0C7) = some 0x00000077 ∧
    v8 (.vdot4 { iform with ty := .i8x4, vc := 6 }) (lanes2 0x01020304 0x01010101 (2 ^ 32 - 3)) = some 7 ∧
    v8 (.vcvti { iform with vb := 0, ty := .i16x2, ops := 8, sat := true }) (lanes2 0xFFFE0001 0 0) = some 0xFFFFFFFE ∧
    v8 (.vlane { iform with va := 0, vb := 0, ty := .n32 }) base = some 0 ∧
    after (.vcmp { iform with vd := 3, ops := 2 }) (lanes2 0xFFFFFFFF 1 0) (fun t => (t.preg 0 3).getLsbD 0) = some true ∧
    after (.plog { iform with vd := 3, va := 1, vb := 2, ops := 8 }) (pr 1 3 (pr 2 1 base)) (fun t => (t.preg 0 3).toNat) = some 1 ∧
    after (.vvote { iform with vd := 3, va := 1, vb := 0, ops := 1 }) (pr 1 4 base) (fun t => (t.preg 0 3).toNat) = some 0xFFFFFFFF := by decide +kernel
/-- Lanes that exchange values: a butterfly by 1, a ballot, a match, a broadcast of lane 1, the first lane of a predicate (R219 to R222, R225). -/
theorem test_lane_exchange :
    v8 (.vshfl { iform with ty := .n32, vbs := .imm, vb := 0, x32 := 1, ops := 3, vc := 7 }) (vr 4 1 77 base) = some 77 ∧
    v8 (.vballot { iform with ty := .n32, va := 1, vb := 0 }) (pr 1 5 base) = some 5 ∧
    v8 (.vmatch { iform with ty := .n32, vb := 0 }) (vr 4 1 77 base) = some 0xFFFFFFFD ∧
    v8 (.vbcast { iform with ty := .n32, vbs := .imm, vb := 0, x32 := 1 }) (vr 4 1 77 base) = some 77 ∧
    v8 (.vfirst { iform with ty := .n32, va := 1, vb := 0 }) (pr 1 12 base) = some 2 := by decide +kernel
/-- The sum of lanes 0 to 31 of v4 = 1, 2, 0, … is 3; the inclusive scan holds 1, 3, 3, … (R224). -/
theorem test_folds :
    let s := vr 4 0 1 (vr 4 1 2 base)
    let red : Instr := .vredux { iform with head := window, vb := 0 }
    let scan : Instr := .vscan { iform with head := window, vb := 0 }
    after red s (fun t => (Tab.ops.at 3 t).bind fun o => o.results.head?.map (·.val.toNat)) = some (some 3) ∧
    after scan s (fun t => (Tab.ops.at 3 t).map fun o => (o.results.take 2).map (·.val.toNat)) = some (some [1, 3]) ∧
    (after red s id).bind (fun t => vAfter (.producerComplete 3) t 8 31) = some 3 := by decide +kernel

def lane (i : Instr) (s : State) : Bool := meets i s fun c s => may i c s && c.execMask s always == 0xFFFFFFFF
theorem test_meets_lane_arithmetic :
    let f64 : IForm := { iform with ty := .n64, vd := 254, va := 254, vb := 252 }
    lane (.vadd f64) base ∧ lane (.vsub { iform with ty := .n8x4, sat := true }) base ∧ lane (.vmul iform) base ∧ lane (.vmulh f64) base ∧ lane (.vmad { iform with vc := 255 }) base ∧
    lane (.vshl f64) base ∧ lane (.vshr iform) base ∧ lane (.vshr { f64 with ops := 1 }) base ∧ lane (.vmin iform) base ∧ lane (.vmax f64) base ∧
    lane (.vabs { iform with vb := 0 }) base ∧ lane (.vaddc { f64 with vc := 6, ops := 0x1E }) base := by decide +kernel
theorem test_meets_lane_bits :
    let n : IForm := { iform with ty := .n32 }
    lane (.vand { n with ops := 3 }) base ∧ lane (.vor n) base ∧ lane (.vxor n) base ∧ lane (.vfsh { n with ops := 1 }) base ∧ lane (.vpopc { n with vb := 0 }) base ∧
    lane (.vclz { n with vb := 0 }) base ∧ lane (.vbrev { n with vb := 0 }) base ∧ lane (.vbfe iform) base ∧ lane (.vbfi { n with vc := 6 }) base ∧
    lane (.vlut3 { n with ops := 1, x32 := 255 }) base ∧ lane (.vlut4 { n with x32 := 65535 }) base ∧ lane (.vsel { iform with vc := 7 }) base ∧
    lane (.vmov { iform with va := 0 }) base := by decide +kernel
theorem test_meets_lane_values :
    lane (.vprm { iform with ty := .n32, vc := 255 }) base ∧ lane (.vdot4 { iform with ty := .i16x2, ops := 1 }) base ∧ lane (.vcvti { iform with vb := 0, ops := 3, vd := 6 }) base ∧
    lane (.vcvti { iform with ops := 4 }) base ∧ lane (.vcvti { iform with ty := .i16x2, ops := 8, vb := 0 }) base ∧
    lane (.vlane { iform with va := 0, vb := 0, ty := .n32, ops := 3 }) base ∧ lane (.vlane { iform with va := 0, vb := 0, ty := .n64, ops := 1 }) base := by decide +kernel
theorem test_meets_lane_predicates :
    lane (.vcmp { iform with vd := 6, ops := 5 }) base ∧ lane (.vcmp { iform with vd := 6, ops := 8 }) base ∧ lane (.vcmp { iform with vd := 0, ops := 0x15 }) base ∧
    lane (.plog { iform with vd := 0, va := 7, vb := 7, ops := 15 }) base ∧ lane (.vvote { iform with vd := 6, va := 7, vb := 0, ops := 2 }) base ∧
    lane (.vvote { iform with vd := 6, va := 7, vb := 0, ops := 16 }) base ∧
    meets (.vvote { iform with head := one, vd := 6, va := 7, vb := 0 }) base (fun c s => c.execMask s one == 0) := by decide +kernel
theorem test_meets_lane_exchange :
    let n : IForm := { iform with ty := .n32 }
    lane (.vshfl { n with ops := 20, vc := 6 }) base ∧ lane (.vballot { n with va := 7, vb := 0, ops := 1 }) base ∧ lane (.vmatch { n with vb := 0 }) base ∧
    lane (.vbcast { n with vbs := .unif, ops := 0 }) base ∧ lane (.vbcast { n with vbs := .unif, ops := 1 }) base ∧
    meets (.vbcast { n with head := one, vbs := .unif, ops := 1 }) base (fun c s => c.execMask s one == 0) ∧
    lane (.vfirst { n with va := 7, vb := 0, ops := 1 }) base ∧ lane (.vfirst { n with va := 7, vb := 0, ops := 17 }) base := by decide +kernel
theorem test_meets_folds :
    let f : IForm := { iform with head := window, vb := 0 }
    lane (.vredux { f with ops := 5 }) base ∧ lane (.vredux { f with ty := .n64, ops := 16 + 8 + 2 }) base ∧ lane (.vscan { f with ops := 8 }) base ∧
    lane (.vscan { f with ops := 16 + 4 }) base := by decide +kernel
theorem test_meets_producers_complete :
    (after (.vredux { iform with head := window, vb := 0 }) base fun t => (Tab.ops.at 3 t).map fun o =>
      o.phase == .running && o.path == none && !isTileOp o.instr && o.flags == 0 && (o.results.map fun r => (r.reg, r.lane)).length == 32 &&
      o.results.all fun r => r.reg == 8 && r.lane < 64) = some (some true) := by decide +kernel

/-! ## Float instructions -/

def f2 (i : Instr) (a0 b0 c0 : Nat) : Option Nat := v8 i (lanes2 a0 b0 c0)
/-- 1 + 2 = 3; 1 - 1 = +0; overflow rounds to infinity under RNE and to the largest number under RZ; 2^-24 x 2^-1 of halves is 0 or the least subnormal by mode;
minimum of -0 and +0 is -0; -2.5 rounds to -2 and, downward, -3; scaling by 2^3 (R235, R242, R243, R246). -/
theorem test_float_arithmetic :
    f2 (.fadd fform) 0x3F800000 0x40000000 0 = some 0x40400000 ∧ f2 (.fsub fform) 0x3F800000 0x3F800000 0 = some 0 ∧
    f2 (.fmul fform) 0x7F7FFFFF 0x40000000 0 = some 0x7F800000 ∧ f2 (.fmul { fform with rnd := .rz }) 0x7F7FFFFF 0x40000000 0 = some 0x7F7FFFFF ∧
    f2 (.fmul { fform with ty := .f16, rnd := .rup }) 0x0001 0x3800 0 = some 1 ∧ f2 (.fmul { fform with ty := .f16 }) 0x0001 0x3800 0 = some 0 ∧
    f2 (.ffma { fform with vc := 6 }) 0x3F800001 0x3F800001 0xBF800002 = some 0x28800000 ∧ f2 (.fmin fform) 0x80000000 0 0 = some 0x80000000 ∧
    f2 (.fmax fform) 0x7FC00000 0x3F800000 0 = some 0x3F800000 ∧ f2 (.frnd { fform with vb := 0 }) 0xC0200000 0 0 = some 0xC0000000 ∧
    f2 (.frnd { fform with vb := 0, rnd := .rdn }) 0xC0200000 0 0 = some 0xC0400000 ∧ f2 (.fscale { fform with negA := true }) 0x3F800000 3 0 = some 0xC1000000 ∧
    f2 (.fadd { fform with clamp := true }) 0x3F800000 0x40000000 0 = some 0x3F800000 ∧
    f2 (.fadd { fform with ty := .f16x2 }) 0x3C004000 0x3C003C00 0 = some 0x40004200 := by decide +kernel
/-- The flags of an overflow are OF and NX; a NaN compares unordered; a quiet NaN, a negative number and +0 have their classes (R238, R244, R250). -/
theorem test_float_predicates :
    after (.fmul fform) (lanes2 0x7F7FFFFF 0x40000000 0) (fun t => (t.group? 0).map fun x => x.flags.toNat) = some (some (4 + 16)) ∧
    after (.fcmp { fform with vd := 3, x32 := 2 }) (lanes2 0x3F800000 0x40000000 0) (fun t => (t.preg 0 3).getLsbD 0) = some true ∧
    after (.fcmp { fform with vd := 3, x32 := 6 }) (lanes2 0x7FC00000 0x40000000 0) (fun t => (t.preg 0 3).getLsbD 0) = some true ∧
    after (.fclass { fform with vd := 3, vb := 0, x32 := 0x3FF }) base (fun t => (t.preg 0 3).toNat) = some 0xFFFFFFFF ∧
    after (.fclass { fform with vd := 3, vb := 0, x32 := 0 }) base (fun t => (t.preg 0 3).toNat) = some 0 := by decide +kernel
/-- 1/2, 1/sqrt 4, sqrt 2 rounded, 1/3 rounded, 2^3, log2 8; the sine of +0 is +0 and its cosine 1; tanh +0 is +0 (R245). -/
theorem test_float_producers :
    let r (i : Instr) (a0 b0 : Nat) : Option Nat := (after i (lanes2 a0 b0 0) id).bind fun t => v8 (.producerComplete 3) t
    let w : FForm := { fform with head := window, vb := 0 }
    r (.frcp w) 0x40000000 0 = some 0x3F000000 ∧ r (.frsq w) 0x40800000 0 = some 0x3F000000 ∧ r (.fsqrt w) 0x40000000 0 = some 0x3FB504F3 ∧
    r (.fdiv { w with vb := 5 }) 0x3F800000 0x40400000 = some 0x3EAAAAAB ∧ r (.fexp2 w) 0x40400000 0 = some 0x41000000 ∧
    r (.flog2 w) 0x41000000 0 = some 0x40400000 ∧ r (.fsin w) 0 0 = some 0 ∧ r (.fcos w) 0 0 = some 0x3F800000 ∧ r (.ftanh w) 0 0 = some 0 := by decide +kernel
/-- 1.0 as a half in each place, 2.5 to an integer by mode, an integer to a float, FFLAGS (R248, R249, R251, R252). -/
theorem test_float_conversions :
    f2 (.fcvt { fform with x32 := 2 }) 0x3F800000 0x40000000 0 = some 0x40003C00 ∧ f2 (.fcvti { fform with vb := 0 }) 0x40200000 0 0 = some 2 ∧
    f2 (.fcvti { fform with vb := 0, rnd := .rup }) 0x40200000 0 0 = some 3 ∧ f2 (.fcvti { fform with vb := 0 }) 0x4F000000 0 0 = some 0x7FFFFFFF ∧
    f2 (.icvtf { fform with vb := 0 }) 0xFFFFFFFF 0 0 = some 0xBF800000 ∧
    v8 (.fflags { fform with va := 0, vb := 0 }) (upG (fun x => { x with flags := 5 }) base) = some 5 ∧
    after (.fflags { fform with va := 0, vb := 0, vd := 0, x32 := 0x401 }) (upG (fun x => { x with flags := 5 }) base) (fun t => (t.group? 0).map fun x => x.flags.toNat) =
      some (some 1) := by decide +kernel
/-- The worked example of chapter 10: v6 becomes 0xFE5D3344, the flags 0x14, v8 3.25 and v9 -56; FQUANT's bytes. -/
theorem test_quantising_example :
    let q : FForm := { fform with head := one, vd := 6, va := 1, vb := 2, vc := 7, x32 := 0x14 }
    let d (n : BitVec 8) (k : BitVec 32) : Instr := .fdeq { fform with head := one, vd := n, va := 6, vb := 0, vc := 7, x32 := k }
    let s := vr 1 0 0x40533333 (vr 2 0 0xC2C80000 (vr 6 0 0x11223344 (vr 7 0 0x040003FD (pr 1 1 base))))
    after (.fquant q) s (fun t => ((t.vreg 0 6 0).toNat, (t.group? 0).map fun x => x.flags.toNat)) = some (0xFE5D3344, some 0x14) ∧
    (after (.fquant q) s id).bind (vAfter (d 8 0x24) · 8 0) = some 0x40500000 ∧ (after (.fquant q) s id).bind (vAfter (d 9 0x34) · 9 0) = some 0xC2600000 ∧
    encodeBytes (.fquant { q with head := always }) = [0x00, 0xE0, 0x80, 0x95, 0x07, 0x02, 0x01, 0x06, 0x14, 0, 0, 0] := by decide +kernel

theorem test_meets_rounding : (fp16.finish false .rne false 1 0).2.testBit 2 = false ∧ (fp64.finish false .rup true (2 ^ 60 + 1) (-200)).2.testBit 2 = false := by
  decide +kernel
theorem test_meets_float_arithmetic :
    let quiet (i : Instr) : Bool := lane i base && meets i base fun c _ => !c.sp.fmt.getLsbD 23
    quiet (.fadd fform) ∧ quiet (.fsub { fform with ty := .f64, vd := 254, va := 252, vb := 250 }) ∧ quiet (.fmul { fform with ty := .bf16x2, clamp := true }) ∧
    quiet (.ffma { fform with vc := 255, rnd := .dyn }) ∧ quiet (.fmin fform) ∧ quiet (.fmax { fform with ty := .f16 }) ∧ quiet (.frnd { fform with vb := 0 }) ∧
    quiet (.fscale fform) := by decide +kernel
theorem test_meets_float_specials : (FV.nan false true 0).isNan = true ∧ (FV.fin true 1 0).isNan = false := by decide
theorem test_meets_float_predicates : lane (.fcmp { fform with vd := 6, x32 := 7 }) base ∧ lane (.fclass { fform with vd := 0, vb := 0, x32 := 1023 }) base ∧
    meets (.fcmp { fform with vd := 6, x32 := 7 }) base (fun c _ => !c.sp.fmt.getLsbD 23) := by decide +kernel
theorem test_meets_float_producers :
    let w : FForm := { fform with head := window, vb := 0 }
    lane (.frcp w) base ∧ lane (.frsq { w with ty := .f64, vd := 254 }) base ∧ lane (.fsqrt w) base ∧ lane (.fdiv { w with vb := 5 }) base ∧ lane (.fexp2 w) base ∧
    lane (.flog2 { w with ty := .bf16x2 }) base ∧ lane (.fsin w) base ∧ lane (.fcos w) base ∧ lane (.ftanh { w with ty := .f16 }) base := by decide +kernel
theorem test_meets_float_conversions :
    let n : FForm := { fform with va := 0, vb := 0 }
    (CvtFields.ofWord 2).reserved = false ∧ lane (.fcvt { fform with x32 := 2 }) base ∧ lane (.fcvti { fform with vb := 0 }) base ∧ lane (.icvtf { fform with vb := 0 }) base ∧
    lane (.fquant { fform with vc := 6 }) base ∧ lane (.fdeq { fform with vb := 0, vc := 6 }) base ∧ scaleOk 0 0 = true ∧ lane (.fflags n) base ∧
    lane (.fflags { n with vd := 0, x32 := 0x3F01 }) base ∧ lane (.fflags { n with vd := 0, x32 := 0x3F02 }) base ∧
    meets (.fflags { n with head := one }) base (fun c s => c.sp.outs == [] && c.execMask s one == 0) := by decide +kernel
theorem test_meets_lane_traps :
    let few := upL (fun l => { l with vregs := 8 }) handled
    meets (.vadd iform) few (fun c _ => canTrap c && (laneNames (.vadd iform)).any fun n => c.lau.vregs < n.1 + n.2) ∧
    (let s := (after (.vredux { iform with head := window, vb := 0 }) handled fun t => upD (fun d => { d with cur := some 0 }) t).getD base
     meets (.vadd { iform with va := 8 }) s fun c s => canTrap c && c.sp.outs.any fun p => match Tab.ops.at p.op s with
       | some x => x.phase != .done && x.dest == some (8, 1)
       | none => false) ∧
    meets (.vshfl { iform with ty := .n32, vc := 7, ops := 24 }) handled (fun c _ => canTrap c && c.lau.width < 2 ^ 6) ∧
    (let s := upS (fun y => { y with fmt := 0x800000 }) (upL (fun l => { l with handler := 8 }) (lanes2 0x7F800000 0 0))
     meets (.fmul fform) s fun c s => canTrap c && may (.fmul fform) c s && c.sp.fmt.getLsbD 23) ∧
    meets (.fquant { fform with x32 := 15 }) handled (fun c s => canTrap c && may (.fquant { fform with x32 := 15 }) c s) ∧
    meets (.fcvt { fform with x32 := 0x1A }) handled (fun c s => canTrap c && may (.fcvt { fform with x32 := 0x1A }) c s && (CvtFields.ofWord 0x1A).reserved) ∧
    meets (.fdeq { fform with vb := 0, vc := 6 }) (upL (fun l => { l with handler := 8 }) (lanes2 0 0 0x40000)) (fun c s =>
      canTrap c && !scaleOk (s.vreg c.gid 6 0).toNat 0) := by decide +kernel

/-! ## The Gallery, copies and the matrix unit -/

/-- The Gallery window is 64 KiB and holds 16 bytes 1 to 16 at offset 0; lane 0 of v4 is 0 and only lane 0 executes under p1. -/
def gal : State := pr 1 1 { upL (fun l => { l with gal := 65536 }) base with win := (List.range 16).map fun i => (winKey 2 i, BitVec.ofNat 8 (i + 1)) }
def gone : GForm := { gform with head := { one with la := 2 } }
/-- The state after an instruction and after the unit's steps that follow it. -/
def then_ (s : State) (is : List Instr) : Option State := is.foldl (fun s i => s.bind fun s => after i s id) (some s)
/-- What an operation in flight under identifier 3 is, after an instruction, and the state. -/
def flown (i : Instr) (s : State) (p : Op → State → Bool) : Bool :=
  match (after i s id).bind fun t => (Tab.ops.at 3 t).map fun o => (o, t) with
  | some (o, t) => p o t
  | none => false
/-- A copy of 16 bytes from offset 0 to offset 256 of the window. -/
def move : CopyForm := { cform with shape := { w0 := 0, w1 := 256, w2 := 16, w3 := 0 } }
/-- A multiplication of halves: A at 0x100, B at 0x1000, pitch 64 bytes, K 2. -/
def mxShape : Shape := { w0 := 0x02000100, w1 := 0x02001000, w2 := 2, w3 := 0 }
def mx : MmaForm := { mmaform with head := one, shape := mxShape }
/-- The window holds 1.0 and 1.0 in row 0 of A, 0.25 and 0.25 in column 0 of B; the formats are FP16. -/
def mats (fmt : BitVec 32) (a b : List Nat) : State :=
  { upS (fun y => { y with fmt := fmt }) gal with
    win := a.zipIdx.map (fun e => (winKey 2 (0x100 + e.2), BitVec.ofNat 8 e.1)) ++ b.zipIdx.map fun e => (winKey 2 (0x1000 + e.2), BitVec.ofNat 8 e.1) }
def halves : State := mats 0x88 [0, 0x3C, 0, 0x3C] [0, 0x34, 0, 0x34]
def drain : XferForm := { xform with head := one, shape := { w0 := 0, w1 := 4096, w2 := 0x000F0080, w3 := 0 } }
def load : XferForm := { xform with head := one, shape := { w0 := 0, w1 := 0, w2 := 0x000F0080, w3 := 0 } }

/-- A load of the window is little-endian; a store leaves its bytes and a record; an atomic add changes 0x04030201 to 0x04030203 (R125, R126, R130 to R132). -/
theorem test_gallery :
    (then_ gal [.ldg gone, .producerComplete 3]).map (fun t => (t.vreg 0 8 0).toNat) = some 0x04030201 ∧
    after (.stg { gform with head := one, vb := 6, vd := 0 }) (vr 4 0 64 (vr 6 0 0xA1B2C3D4 gal)) (fun t => t.winNat 2 64 4) = some 0xA1B2C3D4 ∧
    after (.stg { gform with head := one, vb := 6, vd := 0 }) (vr 4 0 64 gal) (fun t => (Tab.gside.val SideRec.init (2 * 2 ^ 19 + 2) t).mask.toNat) = some 1 ∧
    after (.atg { gone with cls := .add, vb := 6 }) (vr 6 0 2 gal) (fun t => t.winNat 2 0 4) = some 0x04030203 := by decide +kernel
/-- A copy takes engine slot 96, moves its bytes and ends its interval (R186, R191, R192). -/
theorem test_copy :
    after (.cpy move) gal (fun t => (Tab.ops.at 3 t).map (·.slot.toNat)) = some (some 96) ∧
    (then_ gal [.cpy move, .copyChunk 3]).map (fun t => t.winNat 2 256 16) = some 0x100F0E0D0C0B0A090807060504030201 ∧
    (then_ gal [.cpy move, .copyChunk 3, .copyComplete 3]).map (fun t => (Tab.teamCnt.val 0 (2 * 512 + 32) t).toNat) = some 1 ∧
    (then_ (Tab.win.put (winKey 2 256) 9 gal) [.cpyred move, .copyChunk 3]).map (fun t => t.winNat 2 256 4) = some 0x0403020A ∧
    (then_ gal [.cpymc { move with x32 := 1 }, .copyChunk 3]).map (fun t => t.winNat 2 256 4) = some 0x04030201 := by decide +kernel
/-- 2 x 1.0 x 0.25 = 0.5 without, and with what the tile holds; NEGA gives -0.5; 3 x -5 in integers; rows, words and zeros of tiles (R260, R267, R271). -/
theorem test_matrix :
    (then_ halves [.mma mx, .mmaBlock 3, .mmaBlock 3]).map (fun t => (t.tile 1 0 0 0).toNat) = some 0x3F000000 ∧
    (then_ halves [.mma mx, .mmaBlock 3, .mmaBlock 3, .mma { mx with nega := true, noacc := true }, .mmaBlock 4, .mmaBlock 4]).map (fun t => (t.tile 1 0 0 0).toNat) = some 0xBF000000 ∧
    (then_ (mats 0x400 [3, 0] [0xFB, 0]) [.mma mx, .mmaBlock 3, .mmaBlock 3]).map (fun t => (t.tile 1 0 0 0).toNat) = some 0xFFFFFFF1 ∧
    (then_ gal [.tload load, .tloadComplete 3, .tloadComplete 3]).map (fun t => ((t.tile 1 0 0 0).toNat, (t.tile 1 0 0 3).toNat, (t.tile 1 0 1 0).toNat)) =
      some (0x04030201, 0x100F0E0D, 0) ∧
    (then_ gal [.tload load, .tloadComplete 3, .tloadComplete 3, .tdrain drain, .tdrainSnapshot 4, .tdrainComplete 4]).map (fun t => t.winNat 2 4096 16) =
      some 0x100F0E0D0C0B0A090807060504030201 := by decide +kernel
theorem test_tiles :
    (then_ (vr 4 0 7 gal) [.twr { tform with head := one, vd := 2, va := 4, col := 5 }, .producerComplete 3]).map (fun t => (t.tile 1 2 0 5).toNat) = some 7 ∧
    (then_ (Tab.tiles.put (tileKey 1 2 0 5) 7 gal) [.trd { tform with head := { one with la := 2 }, va := 2, col := 5 }, .producerComplete 3]).map
      (fun t => (t.vreg 0 8 0).toNat) = some 7 ∧
    (then_ (Tab.tiles.put (tileKey 1 2 0 5) 7 gal) [.tzero { tform with head := one, vd := 2 }, .producerComplete 3]).map
      (fun t => (t.tile 1 2 0 5).toNat) = some 0 := by decide +kernel
/-- The words of chapter 11's listing. -/
theorem test_matrix_words :
    (encodeBytes (.mma { mmaform with nega := true, shape := { w0 := 0x08800002, w1 := 0x08801002, w2 := 0x40, w3 := 0 } })).take 12 =
      [0x01, 0xE0, 0, 0xF0, 0, 0, 0, 0, 0, 0, 0, 0] ∧
    (encodeBytes (.tdrain { xform with mem := true, buf := 2, shape := { w0 := 0, w1 := 0, w2 := 0x000F0080, w3 := 0 } })).take 8 =
      [0x04, 0xE0, 0x80, 0xF0, 0, 0, 2, 0] ∧
    encodeBytes (.trd { tform with head := { always with la := 1 }, vd := 4, col := 5 }) = [0, 0xE0, 2, 0xA8, 0, 0, 0, 4, 5, 0, 0, 0] := by decide +kernel

/-- The window of a lane at offset 30, whose four bytes stand in two sectors. -/
def cross : State := vr 4 0 30 gal
theorem test_meets_gallery_access :
    let plain (i : Instr) (f : GForm) (at_ : Nat) (c : Iss) (s : State) : Bool :=
      may i c s && c.execLanes s f.head == [0] && (s.opsOf c.gid).isEmpty && s.watch == [] && !c.lau.journals && c.blk.landSlot == none &&
      !s.stale (.gallery (clusterOf c.core)) c.lau.ctx c.lau.inc && at_ + 4 ≤ s.wsz c.tid &&
      (s.vreg c.gid 4 0).toNat == at_ && s.gside == [] && s.clusters == []
    let st : GForm := { gform with head := one, vb := 6, vd := 0 }
    meets (.ldg gone) gal (plain (.ldg gone) gone 0) ∧
    meets (.ldg { gone with cls := .sync }) gal (fun c s => plain (.ldg { gone with cls := .sync }) gone 0 c s && goes c s none) ∧
    meets (.ldg gone) cross (plain (.ldg gone) gone 30) ∧ meets (.stg st) cross (plain (.stg st) st 30) ∧
    flown (.ldg gone) cross (fun o s => o.phase == .running && o.prog == 1 && (o.lanes.all fun l => l.va + 4 ≤ 2 ^ 57) && (s.blockOf o.gid).isSome) ∧
    flown (.stg st) cross (fun o s => o.phase == .running && o.prog == 1 && (o.lanes.all fun l => l.va + 4 ≤ 2 ^ 57) && (s.blockOf o.gid).isSome) ∧
    meets (.stg { st with cls := .sync }) gal (fun c s =>
      plain (.stg { st with cls := .sync }) st 0 c s && goes c s (some .blk) && (s.core c.core).gen != 0xFFFFFF) ∧
    meets (.atg { gone with cls := .add, vb := 6 }) gal (fun c s => plain (.atg { gone with cls := .add, vb := 6 }) gone 0 c s) ∧
    (let r : SideRec := { tslot := 9, tstamp := 0, mask := 1, cls := mcWrite }
     meets (.stg st) (Tab.gside.put (2 * 2 ^ 19) r gal) (fun c s =>
       may (.stg st) c s && s.gside == [(c.tid * 2 ^ 19, r)] && r.mask &&& wordMask 0 4 != 0 && r.tslot.toNat != tslotOf c.lau c.blk c.grp &&
       s.clusters == [] && (Tab.teamCnt.val 0 (c.tid * 512 + 9) s).toNat % 4096 == 0 && c.execLanes s one == [0] && (s.team? c.tid).isSome &&
       !s.stale (.gallery (clusterOf c.core)) c.lau.ctx c.lau.inc)) := by decide +kernel
/-- A load across a sector boundary reads what it finds in the first sector, and then what it finds in the second (R179). -/
theorem test_gallery_crossing :
    (then_ (Tab.win.put (winKey 2 31) 5 (Tab.win.put (winKey 2 32) 6 cross)) [.ldg gone, .producerComplete 3, .producerComplete 3]).map
      (fun t => (t.vreg 0 8 0).toNat) = some 0x00060500 ∧
    (((then_ (Tab.win.put (winKey 2 31) 5 cross) [.ldg gone]).map fun t => Tab.win.put (winKey 2 32) 7 (Tab.win.put (winKey 2 31) 8 t)).bind fun t =>
      then_ t [.producerComplete 3, .producerComplete 3]).map (fun t => (t.vreg 0 8 0).toNat) = some 0x00070500 := by decide +kernel
theorem test_meets_copy_issue :
    let ok (i : Instr) (f : CopyForm) (kind : CopyKind) : Bool := meets i gal fun c s =>
      let k := Copy.make kind f f.shape 0 0 0
      !k.shapeBad f.shape && c.execMask s f.head != 0 && (copyStop s c.lau.ctx c.lau.inc c.tid c.blk.lid c.sp.fmt k 0).isNone && s.shape c.gid f.shape == f.shape &&
      s.counter c.gid 3 < 63 && s.freeEngine c.core == some 96 && s.mayAdvance 96 && s.mayAdvanceT c.tid (tslotOfEngine c.lau c.blk 96)
    ok (.cpy move) move .plain ∧ ok (.cpymc { move with x32 := 1 }) { move with x32 := 1 } .multi ∧ ok (.cpyred move) move .reduce := by decide +kernel
/-- A copy with an arrival at station 0 of domain 3, as its last chunk leaves it; `early` arrivals came before their registration. -/
def moving (arv : Bool) (prog early accepted : Nat) : State :=
  ((after (.cpy move) (Tab.domains.put 3 { Domain.init with en := true, ctx := 1, quorum := 1 } gal) fun t =>
    (Act.upd .ops 3 fun o => { o with prog := prog, instr := .cpy { move with arv := arv, vb := 3 }, regs := [0, 0, 0, 0],
                                      rows := BitVec.ofNat 16 accepted }).run
      (if early = 0 then t else Tab.stations.put (3 * 4096) { Station.init with x := early } t))).getD base
theorem test_meets_copy_steps :
    let here (s : State) (p : Op → Copy → Bool) : Bool := match Tab.ops.at 3 s with
      | some o => o.phase == .running && (match copyOf o with
        | some k => p o k
        | none => false) && (s.group? o.gid).isSome && (s.block? 1).isSome && (s.launch? 0).isSome
      | none => false
    let s := moving false 0 0 0
    here s (fun o k => k.chunk o.prog == some (0, 2) && s.ops == [(3, o)] && !staleOp s o && !s.frozen o.gid && s.gside == [] && s.clusters == [] && s.watch == [] &&
      (s.block? 1).map (·.landSlot) == some none && (s.team? 2).map (·.cluster) == some 0 && !s.stale (.gallery 0) o.ctx o.inc) ∧
    here (moving false 1 0 0) (fun o k => (k.chunk o.prog).isNone && !k.f.arv && !o.remote && 96 ≤ o.slot.toNat % 128 && o.rows == 0) ∧
    here (moving true 1 0 0) (fun o k => (k.chunk o.prog).isNone && k.f.arv && !o.remote && arvOk (moving true 1 0 0) o.ctx o.inc k.f.vb.toNat 0 &&
      o.rows == 0 && ((moving true 1 0 0).domain 3).gen == (o.regs[3]?).getD 0 && !(moving true 1 0 0).refuses 3 0) ∧
    here (moving true 1 65535 0) (fun o k => (k.chunk o.prog).isNone && k.f.arv && !o.remote && o.rows == 0 && (moving true 1 65535 0).refuses 3 0) ∧
    here (moving true 1 0 1) (fun o k => (k.chunk o.prog).isNone && k.f.arv && o.rows == 1) := by decide +kernel
theorem test_meets_tile_registers :
    let t1 : TForm := { tform with head := { one with la := 2 }, va := 2, col := 5 }
    let t2 : TForm := { tform with head := one, vd := 2, va := 4, n := 1, lb := 1 }
    let ok (i : Instr) (f : TForm) : Bool := meets i (pr 1 0x10001 gal) fun c s =>
      may i c s && 16 * f.lb.toNat + 16 ≤ max c.lau.width 16 && laneRows c.lau.width f.lb f.hi (c.execMask s f.head) != []
    let flies (i : Instr) : Bool := flown i gal fun o s => o.phase == .running && o.path == none && tileTurn s 3 o && o.tile == 2 &&
      !s.stale (.core (coreOf o.gid)) o.ctx o.inc && (s.launchOf o.gid).isSome && s.tpoison == [] && (o.results.map (·.reg)).length ≤ 1
    ok (.trd t1) t1 ∧ ok (.twr t2) t2 ∧ meets (.tzero { t2 with va := 0, n := 0 }) (pr 1 0x10001 gal) (fun c s => selRows c.lau.width 1 (c.execMask s one) != []) ∧
    flies (.trd t1) ∧ flies (.twr { t2 with lb := 0, n := 0 }) ∧ flies (.tzero { t2 with va := 0, n := 0, lb := 0 }) ∧
    (base.core 0).fenced.getLsbD 7 = false := by decide +kernel
theorem test_meets_matrix_issue :
    let idle (c : Iss) (s : State) : Bool := (s.opsOf c.gid).isEmpty && s.gside == [] && s.clusters == [] && s.watch == [] && !c.lau.journals && c.blk.landSlot == none
    meets (.mma mx) halves (fun c s =>
      let m := Mma.make (s.shape c.gid mxShape) c.sp.fmt
      may (.mma mx) c s && !m.shapeBad mxShape && !m.misaligned && !m.formatsBad && selRows c.lau.width 0 (c.execMask s one) == [0] &&
      ((m.parts [0]).all fun q => q.2.all fun x => x.1 + x.2 ≤ s.wsz c.tid) && (m.badScale s c.tid [0]).isNone && idle c s) ∧
    (let ok (i : Instr) (f : XferForm) (d : Bool) (b : BitVec 128) (s : State) (p : Iss → State → Xfer → Bool) : Bool := meets i s fun c s =>
       let x := Xfer.make f d f.shape b
       may i c s && s.shape c.gid f.shape == f.shape && !x.shapeBad f d f.shape && selRows c.lau.width 0 (c.execMask s one) == [0] &&
       xferStop s c.tid c.sp.fmt f d x [0] == none && (s.opsOf c.gid).isEmpty && p c s x
     let ro : BitVec 128 := 0x40000 + 2 ^ 57 + 4096 * 2 ^ 64
     ok (.tload load) load false 0 gal (fun c s _ => idle c s) ∧ ok (.tdrain drain) drain true 0 gal (fun _ _ _ => true) ∧
     ok (.tload { load with mem := true, buf := 3 }) { load with mem := true, buf := 3 } false ro (Tab.bregs.put 3 ro data) (fun c s x =>
       idle c s && x.buf.ro && s.breg c.gid 3 == ro && (match probeBytes s c.lau.ctx c.core .load .load (x.bytesOf { load with mem := true } [0]) with
         | .ok => true
         | _ => false) &&
       (x.bytesOf { load with mem := true } [0]).all fun va => isHomed (s.phys c.lau.ctx va) && !s.poisoned (s.phys c.lau.ctx va / 32))) := by decide +kernel
/-- The second has scale records for A, at 0x2000, whose TAG is not that of FP16. -/
theorem test_meets_matrix_steps :
    let turn (o : Op) (s : State) (p : OpPhase) : Bool := s.ops == [(3, o)] && o.phase == p && !s.stale (.core (coreOf o.gid)) o.ctx o.inc && o.path == some 4 &&
      ((s.group? o.gid).map (·.bid)) == some o.bid && (s.block? o.bid).isSome && o.tile < 128
    let open_ (o : Op) (s : State) : Bool := s.gside == [] && s.clusters == [] && s.watch == [] && (s.team? 2).map (·.cluster) == some 0 &&
      !s.stale (.gallery 0) o.ctx o.inc
    let at_ (s : Option State) (p : Op → State → Bool) : Bool := match s.bind fun s => (Tab.ops.at 3 s).map fun o => (o, s) with
      | some (o, s) => p o s
      | none => false
    flown (.mma mx) halves (fun o s => turn o s .checking && !s.frozen o.gid && open_ o s && (Mma.badScale s 2 (Mma.make o.shape o.fmt) o.rowList).isNone) ∧
    flown (.mma { mx with shape := { mxShape with w3 := 0x2000 } }) (mats 0x188 [0, 0x3C, 0, 0x3C] [0, 0x34, 0, 0x34]) (fun o s => turn o s .checking && !s.frozen o.gid && open_ o s &&
      (Mma.badScale s 2 (Mma.make o.shape o.fmt) o.rowList).isSome) ∧
    at_ (then_ halves [.mma mx, .mmaBlock 3]) (fun o s => turn o s .running && !s.frozen o.gid) ∧
    flown (.tload load) gal (fun o s => turn o s .running && o.snap == [] && open_ o s && (Xfer.make load false o.shape o.brec).len == 128) ∧
    (let ro : BitVec 128 := 0x40000 + 2 ^ 57 + 4096 * 2 ^ 64
     let f : XferForm := { load with mem := true, buf := 3 }
     flown (.tload f) (Tab.bregs.put 3 ro data) (fun o s =>
       let x := Xfer.make f false o.shape o.brec
       turn o s .running && o.snap == [] && x.buf.ro && x.len == 128 && s.watch == [] &&
       (match probeBytes s o.ctx (coreOf o.gid) .load .load (x.bytesOf f o.rowList) with
         | .ok => true
         | _ => false) &&
       !s.heldAt ((x.bytesOf f o.rowList).map (s.phys o.ctx)) && !s.droppedAt o ((x.bytesOf f o.rowList).map (s.phys o.ctx)) &&
       (x.bytesOf f o.rowList).all fun va => isHomed (s.phys o.ctx va) && !s.poisoned (s.phys o.ctx va / 32))) ∧
    at_ (then_ gal [.tload load, .tloadComplete 3]) (fun o s => turn o s .running && o.snap != []) ∧
    flown (.tdrain drain) gal (fun o s => turn o s .running && o.snap == [] && s.tpoison == []) ∧
    at_ ((then_ gal [.tdrain drain, .tdrainSnapshot 3]).map (Act.upd .ops 3 fun o => { o with regs := [1] }).run) (fun o s =>
      turn o s .running && o.snap != [] && o.regs != [] && open_ o s && (s.block? 1).map (·.landSlot) == some none &&
      (s.launchOf o.gid).map (·.journals) == some false && (Xfer.make drain true o.shape o.brec).len == 128 &&
      128 ≤ (Xfer.make drain true o.shape o.brec).pitch) := by decide +kernel
/-! ## Home slices, translation, parks -/

/-- The store of lane 0 to 0x40010 has its translation; its registration is on the way as request 5. -/
def asked : State := (then_ data [stOne, .pageTableWalk 4]).getD base
/-- Another slot's record on the word at 0x40010. -/
def other (slot : BitVec 16) (valid : Bool) : MarkEntry :=
  { ctx := 1, inc := 0, r0 := { slot := slot, stamp := 0, mask := 0x10, cls := 1, ovf := false, valid := valid },
    r1 := { slot := 0, stamp := 0, mask := 0, cls := 0, ovf := false, valid := false }, o0 := none, o1 := none, age := 0 }
def markAt (slot : BitVec 16) : State := Tab.marks.put 0x2000 (other slot true) asked
/-- The page at 0x40000 is context 1's. -/
def owned (s : State) : State := Tab.pages.put 0x40 { ctx := 1, inc := 0, va := 0x40000, size := 12 } s
/-- The page at 1 GiB is not mapped: the load of lane 0 is parked. -/
def parked : State := (then_ (Tab.bregs.put 3 (0x40000000 + 4096 * 2 ^ 64) data) [ldOne, .pageTableWalk 4, .loadResponse 3]).getD base
/-- The access rows of the firmware cores allow everything in the first 512 MiB. -/
def fwRows (s : State) : State :=
  Act.run (.each (List.range 8) fun k => .put .access ((288 + k) * 4) { wbase := 0, limit := 0x1FFFF, at_ := true, wr := true, rd := true }) s
def ringed : State := fwRows ((Act.updD .ctxs Ctx.init 1 fun x => { x with frbase := 0x50000, frsize := 8 }).run parked)
/-- A dirty byte of the line at 0x40000. -/
def dirtied : State := Tab.l1.put (lineKey 0 0x800) { L1Line.fresh 1 0 false 0 with s0 := { data := 0x77, valid := 1, dirty := 1, pending := 0, stamp := 0 } } data
def wb : WriteBk := { core := 0, sector := 0x2000, mask := 1, data := 0x77, ctx := 1, inc := 0 }
def sect (dirty : Bool) : L2Sector := { ctx := 1, inc := 0, data := 0x77, dirty := dirty, poison := 0 }

/-- A write enters its record and is answered; a record of a slot that no group occupies gives way; one that is live refuses it with 0x20 (R80, R84 to R86). -/
theorem test_registration :
    (after (.registration 5) asked fun t => (Tab.marks.at 0x2000 t).map fun e => (e.r0.slot.toNat, e.r0.mask.toNat, e.r0.valid)) = some (some (0, 0x10, true)) ∧
    ((then_ (markAt 9) [.registration 5, .livenessProbe 5, .probeAnswer 5]).bind fun t => (Tab.marks.at 0x2000 t).map (·.r0.slot.toNat)) = some 0 ∧
    ((after (.probeAnswer 5) ((Act.upd .reqs 5 fun q => { q with phase := .answered 9 0 true 0 }).run (markAt 9)) id).bind fun t =>
      (Tab.ops.at 3 t).map fun o => o.secs.map (·.ans)) = some [.conflict 0x20 9 1 0 0x10 none] := by decide +kernel
/-- Evicting sends the dirty byte home; merging it leaves the other bytes; the slice then writes memory (R62, R72, R140). -/
theorem test_traffic :
    (after (.l1Eviction 0 0x800) dirtied fun t => (t.l1, t.wbs.map (·.2))) = some ([], [wb]) ∧
    (after (.writeBack (.fromL1 9)) (Tab.wbs.put 9 wb (Tab.mem.put 0x40001 5 data)) fun t => (t.homeByte 0x40000, t.homeByte 0x40001)) = some (0x77, 5) ∧
    (after (.writeBack (.fromSlice 0x2000)) (Tab.l2.put 0x2000 (sect true) data) fun t => Tab.mem.val 0 0x40000 t) = some 0x77 := by decide +kernel
/-- A walk fills both TLBs; an unmapped page parks the operation with 0x10 and posting its record advances FRTAIL; a shootdown empties (R104, R105, R108). -/
theorem test_translation :
    (after (.pageTableWalk 4) ((after stOne data id).getD base) fun t => ((Tab.tlb1.at (tlbKey 0 1 0) t).map (·.size), (Tab.tlb2.at (tlbKey 0 1 0) t).map (·.size))) =
      some (some 30, some 30) ∧
    ((Tab.ops.at 3 parked).map fun o => (o.phase, o.lines.length)) = some (.parked, 1) ∧
    (after (.faultRecordPost 1) ringed fun t => (t.ctx 1).frtail.toNat) = some 1 ∧
    (after (.shootdown 1 0 4096) asked fun t => (t.tlb1.length, t.tlb2.length)) = some (0, 0) := by decide +kernel
/-- Purging clears a page's records; moving carries one (R73). -/
theorem test_pages :
    (after (.pagePurge 0x40 1) (markAt 9) fun t => t.marks.length) = some 0 ∧
    (after (.pageMove 0x40 0x50 1) (owned (Tab.marks.put 0x2800 (other 9 false) (markAt 0))) fun t => (Tab.marks.at 0x2800 t).map fun e => (e.r0.slot.toNat, e.r0.valid)) =
      some (some (0, true)) ∧
    (after (.pageMove 0x40 0x50 1) (owned (Tab.marks.put 0x2800 (other 0 false) (markAt 9))) fun t => (Tab.marks.at 0x2800 t).map (·.r0.valid)) = some (some false) := by
  decide +kernel

theorem test_meets_class_table : (mcRead : BitVec 3) ≠ 7 := by decide
theorem test_meets_registration :
    let here (s : State) (e : MarkEntry) : Bool := match Tab.reqs.at 5 s with
      | some q => (Tab.ops.at q.op s).isSome && !s.stale (.slice (homeSlice (q.sector * 32))) q.ctx q.inc && Tab.marks.at q.sector s == some e &&
          isHbm (q.sector * 32) && !e.r0.ovf && !e.r1.ovf && !e.r1.valid && s.reqs.length == 1 && q.phase == .sent &&
          (!e.r0.valid || (e.r0.slot != q.slot && e.r0.mask &&& q.mask != 0 && clash q.cls.toNat e.r0.cls.toNat == some 0x20 && !isPeerSlot e.r0.slot.toNat &&
            (Tab.stamps.at (homeSlice (q.sector * 32) * 65536 + e.r0.slot.toNat) s).isNone))
      | none => false
    here (Tab.marks.put 0x2000 (other 9 false) asked) (other 9 false) ∧ here (markAt 9) (other 9 true) := by decide +kernel
theorem test_meets_sector_traffic :
    (Tab.l1.at (lineKey 0 0x800) dirtied).isSome ∧ dirtied.stale (.core 0) 1 0 = false ∧ dirtied.stale (.slice (homeSlice 0x40000)) 1 0 = false ∧
    isHomed 0x40000 = true ∧ wb.mask ≠ 0 ∧ data.pausedAt 0x40000 = false ∧ data.stale (.controller (stackOf 0x40000)) 1 0 = false ∧
    data.stale (.slice (homeSlice 0x40000)) (data.ownerOf 0x40000).1 (data.ownerOf 0x40000).2 = false ∧ Tab.l2.at 0x2000 data = none ∧
    (data.group? 0).isSome ∧ data.wbs = [] := by decide +kernel
theorem test_meets_quarters_and_windows :
    let n : Notice := { slot := 9, quarter := 2, left := [.slice 3, .gallery 1], handled := [] }
    let s := Tab.notices.put (9 * 4 + 2) n (markAt 9)
    s.noticesOf 9 = [(9 * 4 + 2, n)] ∧ s.marks = [(0x2000, other 9 true)] ∧ homeSlice 0x40000 < 64 ∧ isHbm 0x40000 = true ∧ s.side = [] ∧ s.spills = [] ∧
    s.ovfOf (s.ownerOf 0x40000).1 0x2000 = [] ∧ s.fnotices = [] := by decide +kernel
theorem test_meets_page_marks :
    let s := owned (Tab.marks.put 0x2800 (other 9 false) (markAt 0))
    (List.range 128).all (fun i => isHbm ((0x40 * 128 + i) * 32) && isHbm ((0x50 * 128 + i) * 32) && (i == 0 || (Tab.marks.at (0x40 * 128 + i) s).isNone) &&
      s.ovfOf (s.ownerOf ((0x40 * 128 + i) * 32)).1 (0x40 * 128 + i) == []) = true ∧ s.side = [] ∧ s.marks.length < 15 ∧
    Tab.marks.at 0x2000 s = some (other 0 true) ∧ Tab.marks.at 0x2800 s = some (other 9 false) ∧
    s.recLive (s.ownerOf 0x40000).1 (homeSlice 0x40000) (other 0 true).r0 = true := by decide +kernel
theorem test_meets_translation_and_parks :
    (let waits (need : Bool) (s : State) : Bool := match Tab.ops.at 3 s, Tab.walks.at 4 s with
       | some o, some k => s.ops == [(3, o)] && o.lines == [(0x800, .walking 4)] && (s.walks.filter fun e => e.1 < 4 && e.2.die == k.die).length < 256 &&
         !s.stale (.tlb (clusterOf k.core)) k.ctx k.inc && (match s.translate k.ctx (k.page * 4096) with
          | .ok x => o.needs.met x == need
          | _ => false)
       | _, _ => false
     let t := (after stOne data id).getD base
     waits true t ∧ waits false (Tab.mem.put 0x3000 0x2D t)) ∧
    (let s := (Act.upd .ops 3 fun o => { o with fail := some { cause := 0x10, frame := [], words := [], origin := 0 } }).run ringed
     (s.parkedOps 1).map (·.1) = [3] ∧ s.ringRoom 1 = true ∧ s.fwMay 2 .store ((s.ctx 1).frbase.toNat + 32 * ((s.ctx 1).frtail.toNat % 2 ^ (s.ctx 1).frsize.toNat)) 32 = true ∧ (Tab.ops.at 3 s).map (fun o => (o.unposted, o.fail.isSome)) = some (true, true)) ∧
    (Tab.ops.at 3 ringed).map (fun o => (isMemory o.instr, o.vlines.length, o.slot.toNat)) = some (true, 1, 0) ∧ parked.tlb1 = [] ∧ parked.tlb2 = [] ∧
    (Tab.access.put 0 { wbase := 0xF000000000, limit := 0xFFFFFFFFFF, at_ := true, wr := true, rd := true } data).granted 0 .store (0xF000010000010 + 64) 8 = true ∧
    (let s := (after ldOne (upD (fun d => { d with devnum := 1 }) data) fun t =>
       (Act.upd .ops 3 fun o => { o with phase := .responding, lines := [(0x800, .ok (0x2000000000000 / 128))] }).run t).getD base
     (match Tab.ops.at 3 s with
     | some o => o.phase == .responding && lostPeer s o && remoteLane o == some (0, 0x800) && !(memKind o.instr).write
     | none => false) = true) := by decide +kernel
/-! ## Tasks -/

/-- The object of b3 at index register s63 and offset 0. -/
def obj : UMem := { sa := 63, buf := 3, off := 0 }
def mems (xs : List (Nat × Nat × Nat)) (s : State) : State :=
  xs.foldl (fun s e => (bytesOfNat e.2.1 e.2.2).zipIdx.foldl (fun s b => Tab.mem.put (e.1 + b.2) b.1 s) s) s
/-- b3 is 4,096 bytes at 0x40000; the rest of a page of objects is zero. -/
def objects (xs : List (Nat × Nat × Nat)) : State := mems xs (Tab.mem.put 0x40010 0 (Tab.mem.put 0x40011 0 (Tab.mem.put 0x40012 0 (Tab.mem.put 0x40013 0 data))))
/-- A table of 1,024 tasks at 0x60000. -/
def tabled (s : State) : State := (Act.updD .ctxs Ctx.init 1 fun x => { x with ttbase := 0x60000, ttsize := 10 }).run s
def future : State := objects [(0x40000, 8, 77), (0x40008, 1, 1)]
def lock_ (h : Nat) : State := objects [(0x40000, 4, h)]
/-- A registered queue of 4 entries with its ring at 0x40100 and one entry, 0x0123. -/
def queue_ (tail : Nat) : State :=
  objects [(0x40000, 8, 0x40100), (0x40008, 4, 4), (0x40018, 8, tail), (0x40028, 4, 2 ^ 31), (0x40100, 4, 0x123)]
/-- A launch with a safe point at 0 that is an entry point, and a descriptor of a task there with width code 2. -/
def spawner : State := tabled (mems [(0x10040, 4, 0), (0x10044, 4, 2), (0x40000, 4, 0), (0x40004, 1, 2), (0x40008, 4, 5)]
  (upL (fun l => { l with spOff := 0x40, spCount := 1 }) (objects [])))

/-- A FULL future's value; a free lock gets the group's anonymous handle; an entry pushed goes to the ring, one popped comes from it; a future is filled
(R301, R305, R306, R308, R312, R320 to R326). -/
theorem test_tasks :
    after (.twait 8 obj) future (fun t => (t.sreg 0 8).toNat) = some 77 ∧
    after (.lkacq obj) (lock_ 0xFFFFFFFF) (fun t => t.homeNat 0x40000 4) = some 0xFFF00000 ∧
    after (.lkrel false obj) (lock_ 0xFFF00000) (fun t => t.homeNat 0x40000 4) = some 0xFFFFFFFF ∧
    after (.qpush 4 obj) (sr 5 9 (queue_ 1)) (fun t => (t.homeNat 0x40018 8, t.homeNat 0x40110 16)) = some (2, 9 * 2 ^ 32) ∧
    after (.qpop 4 obj) (queue_ 1) (fun t => (t.homeNat 0x40010 8, (t.sreg 0 4).toNat)) = some (1, 0x123) ∧
    after (.tfill false 8 obj) (sr 8 7 (objects [])) (fun t => t.homeNat 0x40000 9) = some (7 + 2 ^ 64) ∧
    after (.qreg false obj) (objects [(0x40000, 8, 0x40100), (0x40008, 4, 4)]) (fun t => t.homeNat 0x40028 4) = some (2 ^ 31) := by decide +kernel
/-- A spawned task is entry 0 with generation 0, UNSTARTED, and its handle is 0 (R301, R303, R312). -/
theorem test_spawn :
    after (.tspawn false 9 obj) spawner (fun t => ((t.taskEnt 1 0).state, (t.taskEnt 1 0).args, (t.taskEnt 1 0).width, (t.sreg 0 9).toNat, (t.ctx 1).ttused.toNat)) =
      some (1, [5, 0, 0, 0], 2, 0, 1) := by decide +kernel

/-- What `meets` decides, as a statement. -/
theorem of_meets {i : Instr} {s : State} {p : Iss → State → Bool} {P : Iss → Prop} (h : meets i s p = true) (hp : ∀ c, p c s = true → P c) :
    ∃ c, i.wf = true ∧ s.issuer i = some c ∧ P c := by
  simp only [meets, Bool.and_eq_true] at h
  obtain ⟨hw, hc⟩ := h
  cases hi : s.issuer i with
  | none => rw [hi] at hc; cases hc
  | some c => rw [hi] at hc; exact ⟨c, hw, rfl, hp c hc⟩
/-- The state in which the check of an object leaves the machine. -/
def checked (c : Iss) (i : Instr) (pa n va : Nat) (bad : State → Option Act) (s : State) : State := (c.synced i pa n (objBlame i 0 n va) bad .skip).run s
def sameButMarks (s v : State) : Bool :=
  { v with mem := s.mem, l2 := s.l2, side := s.side, l1 := s.l1, wbs := s.wbs, marks := s.marks, spills := s.spills,
           stamps := s.stamps } == s
def calm (v : State) : Bool := v.watch == [] && v.groups.all fun e => e.2.blocker == none
def stands (x : ObjAt) (va : Nat) : Bool := match x with | .at_ v => v == va | _ => false
def fine (x : Probe) : Bool := match x with | .ok => true | _ => false
/-- Something that an act would leave. -/
def trace_ : Act := .dev fun d => { d with nextId := d.nextId + 1000000 }
/-- What makes an object's access go through. -/
def reachB (c : Iss) (s : State) (i : Instr) (n : Nat) (need : Need) (ask : Ask) (rel : Option Scope) (va : Nat)
    (bad : State → Option Act) : Bool :=
  let v := checked c i va n va bad s
  stands (objFront c s obj n false) va && fine (probeBytes s c.lau.ctx c.core need ask (vasOf va n)) && va == s.phys c.lau.ctx va && goes c s rel &&
  (c.synced i va n (objBlame i 0 n va) bad trace_).run s != v && sameButMarks s v && calm v && isHomed (v.phys c.lau.ctx va)
theorem stands_at {x : ObjAt} {va : Nat} (h : stands x va = true) : x = .at_ va := by
  cases x <;> simp_all [stands]
theorem fine_ok {x : Probe} (h : fine x = true) : x = .ok := by cases x <;> simp_all [fine]
theorem goes_go {c : Iss} {s : State} {r : Option Scope} (h : goes c s r = true) : s.gate c r = .go := by
  unfold goes at h
  cases hg : s.gate c r <;> simp_all
theorem sameButMarks_of {s v : State} (h : sameButMarks s v = true) : SameButMarks s v := SameButMarks.of_eq (eq_of_beq h)
theorem calm_undisturbed {v : State} (h : calm v = true) : v.undisturbed := by
  simpa [calm, State.undisturbed] using h
theorem reachB_reaches {c : Iss} {s : State} {i : Instr} {n : Nat} {need : Need} {ask : Ask} {rel : Option Scope} {va : Nat}
    {bad : State → Option Act} (h : reachB c s i n need ask rel va bad = true) : c.reaches i obj n need ask rel va va bad s (checked c i va n va bad s) := by
  simp only [reachB, Bool.and_eq_true, bne_iff_ne, ne_eq, beq_iff_eq] at h
  obtain ⟨⟨⟨⟨⟨⟨⟨h1, h2⟩, h3⟩, h4⟩, h5⟩, h6⟩, h7⟩, h8⟩ := h
  exact ⟨stands_at h1, fine_ok h2, h3, goes_go h4, (Iss.synced_run c i va n _ bad s).goes h5, sameButMarks_of h6, calm_undisturbed h7, h8⟩
/-- Entry `n` of a queue is reached at `pa`. -/
theorem entry_run {c : Iss} {i : Instr} {q : QDesc} {n : Nat} {need : Need} {ask : Ask} {v : State} {pa : Nat}
    (h : (fine (probeBytes v c.lau.ctx c.core need ask (vasOf (q.slot n) 16)) && v.phys c.lau.ctx (q.slot n) == pa &&
      (c.synced i pa 16 (objBlame i 0 64 (q.slot n)) noCheck trace_).run v != (c.synced i pa 16 (objBlame i 0 64 (q.slot n)) noCheck .skip).run v) = true) :
    ∀ k, (c.entrySlot i q n need ask k).run v = (k pa).run ((c.synced i pa 16 (objBlame i 0 64 (q.slot n)) noCheck .skip).run v) := by
  simp only [Bool.and_eq_true, bne_iff_ne, ne_eq, beq_iff_eq] at h
  intro k
  simp only [Iss.entrySlot, Iss.probed, Act.run, fine_ok h.1.1, h.1.2]
  exact (Iss.synced_run c i pa 16 _ noCheck v).goes h.2 (k pa)

/-- What each of the five instructions checks at its object. -/
def badTwait (c : Iss) : State → Option Act := c.only43 (.twait 8 obj) 16 0x40000 fun s => s.homeNat (0x40000 + 8) 1 ≤ 2
def badLkacq (c : Iss) : State → Option Act := c.notOwn (.lkacq obj) 0x40000 0x40000
def badQreg (c : Iss) : State → Option Act := c.only43 (.qreg false obj) 64 0x40000 fun s => queueOk s 0x40000
def badQpush (c : Iss) : State → Option Act := c.only43 (.qpush 4 obj) 64 0x40000 fun s => (s.queueAt 0x40000).reg
def badQpop (c : Iss) : State → Option Act := c.only43 (.qpop 4 obj) 64 0x40000 fun s => (s.queueAt 0x40000).reg
theorem test_meets_twait : ∃ c, (Instr.twait 8 obj).wf = true ∧ future.issuer (.twait 8 obj) = some c ∧
    ∃ v, c.reaches (.twait 8 obj) obj 16 .load .load none 0x40000 0x40000 (badTwait c) future v ∧ (v.core c.core).gen ≠ 0xFFFFFF ∧ v.homeNat (0x40000 + 8) 1 = 1 :=
  of_meets (p := fun c s =>
      let v := checked c (.twait 8 obj) 0x40000 16 0x40000 (badTwait c) s
      reachB c s (.twait 8 obj) 16 .load .load none 0x40000 (badTwait c) && decide ((v.core c.core).gen ≠ 0xFFFFFF ∧ v.homeNat (0x40000 + 8) 1 = 1))
    (by decide +kernel) fun _ h => by
      simp only [Bool.and_eq_true] at h
      exact ⟨_, reachB_reaches h.1, of_decide_eq_true h.2⟩
theorem test_meets_lkacq : ∃ c, (Instr.lkacq obj).wf = true ∧ (lock_ 0xFFFFFFFF).issuer (.lkacq obj) = some c ∧
    ∃ v, c.reaches (.lkacq obj) obj 4 .atomic .atomic none 0x40000 0x40000 (badLkacq c) (lock_ 0xFFFFFFFF) v ∧ (v.core c.core).gen ≠ 0xFFFFFF ∧ c.lau.journals = false ∧
      v.homeNat 0x40000 4 ≠ c.ownHandle ∧ v.homeNat 0x40000 4 = 0xFFFFFFFF :=
  of_meets (p := fun c s =>
      let v := checked c (.lkacq obj) 0x40000 4 0x40000 (badLkacq c) s
      reachB c s (.lkacq obj) 4 .atomic .atomic none 0x40000 (badLkacq c) && decide ((v.core c.core).gen ≠ 0xFFFFFF ∧ c.lau.journals = false ∧
        v.homeNat 0x40000 4 ≠ c.ownHandle ∧ v.homeNat 0x40000 4 = 0xFFFFFFFF))
    (by decide +kernel) fun _ h => by
      simp only [Bool.and_eq_true] at h
      exact ⟨_, reachB_reaches h.1, of_decide_eq_true h.2⟩
theorem test_meets_qreg : ∃ c, (Instr.qreg false obj).wf = true ∧ (objects [(0x40000, 8, 0x40100), (0x40008, 4, 4)]).issuer (.qreg false obj) = some c ∧
    ∃ v, c.reaches (.qreg false obj) obj 64 .atomic .atomic none 0x40000 0x40000 (badQreg c) (objects [(0x40000, 8, 0x40100), (0x40008, 4, 4)]) v ∧
      queueOk v 0x40000 = true ∧ v.homeNat (0x40000 + 12) 2 = 0 :=
  of_meets (p := fun c s =>
      let v := checked c (.qreg false obj) 0x40000 64 0x40000 (badQreg c) s
      reachB c s (.qreg false obj) 64 .atomic .atomic none 0x40000 (badQreg c) && decide (queueOk v 0x40000 = true ∧ v.homeNat (0x40000 + 12) 2 = 0))
    (by decide +kernel) fun _ h => by
      simp only [Bool.and_eq_true] at h
      exact ⟨_, reachB_reaches h.1, of_decide_eq_true h.2⟩
/-- The state after both checks of a queue instruction: of the queue, and of entry `n`. -/
def entered (c : Iss) (i : Instr) (bad : State → Option Act) (n : Nat) (s : State) : State :=
  let v := checked c i 0x40000 64 0x40000 bad s
  (c.synced i (0x40100 + 16 * n) 16 (objBlame i 0 64 ((v.queueAt 0x40000).slot n)) noCheck .skip).run v
def entryB (c : Iss) (i : Instr) (bad : State → Option Act) (n : Nat) (need : Need) (ask : Ask) (s : State) : Bool :=
  let v := checked c i 0x40000 64 0x40000 bad s
  let a := (v.queueAt 0x40000).slot n
  fine (probeBytes v c.lau.ctx c.core need ask (vasOf a 16)) && v.phys c.lau.ctx a == 0x40100 + 16 * n &&
  (c.synced i (0x40100 + 16 * n) 16 (objBlame i 0 64 a) noCheck trace_).run v != (c.synced i (0x40100 + 16 * n) 16 (objBlame i 0 64 a) noCheck .skip).run v
theorem test_meets_qpush : ∃ c, (Instr.qpush 4 obj).wf = true ∧ (queue_ 1).issuer (.qpush 4 obj) = some c ∧
    ∃ v w, c.reaches (.qpush 4 obj) obj 64 .atomic .atomic (some .dev) 0x40000 0x40000 (badQpush c) (queue_ 1) v ∧ SameButMarks v w ∧
      (c.lau.journals = false ∧ (v.queueAt 0x40000).reg = true ∧ (v.queueAt 0x40000).tail = 1 ∧
        (v.queueAt 0x40000).tail - (v.queueAt 0x40000).head < (v.queueAt 0x40000).cap ∧ v.fifoRows c.lau 0x40000 = 0) ∧
      ∀ k, (c.entrySlot (.qpush 4 obj) (v.queueAt 0x40000) 1 .atomic .atomic k).run v = (k (0x40100 + 16 * 1)).run w :=
  of_meets (p := fun c s =>
      let v := checked c (.qpush 4 obj) 0x40000 64 0x40000 (badQpush c) s
      reachB c s (.qpush 4 obj) 64 .atomic .atomic (some .dev) 0x40000 (badQpush c) && sameButMarks v (entered c (.qpush 4 obj) (badQpush c) 1 s) && decide (c.lau.journals = false ∧
        (v.queueAt 0x40000).reg = true ∧ (v.queueAt 0x40000).tail = 1 ∧
        (v.queueAt 0x40000).tail - (v.queueAt 0x40000).head < (v.queueAt 0x40000).cap ∧ v.fifoRows c.lau 0x40000 = 0) &&
      entryB c (.qpush 4 obj) (badQpush c) 1 .atomic .atomic s)
    (by decide +kernel) fun _ h => by
      simp only [Bool.and_eq_true] at h
      exact ⟨_, _, reachB_reaches h.1.1.1, sameButMarks_of h.1.1.2, of_decide_eq_true h.1.2, entry_run h.2⟩
theorem test_meets_qpop : ∃ c, (Instr.qpop 4 obj).wf = true ∧ (queue_ 1).issuer (.qpop 4 obj) = some c ∧
    ∃ v w, c.reaches (.qpop 4 obj) obj 64 .atomic .atomic none 0x40000 0x40000 (badQpop c) (queue_ 1) v ∧ SameButMarks v w ∧
      (c.lau.journals = false ∧ (v.core c.core).gen ≠ 0xFFFFFF ∧ (v.queueAt 0x40000).reg = true ∧ (v.queueAt 0x40000).head = 0 ∧
        (v.queueAt 0x40000).head < (v.queueAt 0x40000).tail ∧ Tab.fifo.at (fifoKey c.tag 0x40000 0) v = none) ∧
      ∀ k, (c.entrySlot (.qpop 4 obj) (v.queueAt 0x40000) 0 .load .load k).run v = (k (0x40100 + 16 * 0)).run w :=
  of_meets (p := fun c s =>
      let v := checked c (.qpop 4 obj) 0x40000 64 0x40000 (badQpop c) s
      reachB c s (.qpop 4 obj) 64 .atomic .atomic none 0x40000 (badQpop c) && sameButMarks v (entered c (.qpop 4 obj) (badQpop c) 0 s) && decide (c.lau.journals = false ∧
        (v.core c.core).gen ≠ 0xFFFFFF ∧ (v.queueAt 0x40000).reg = true ∧ (v.queueAt 0x40000).head = 0 ∧
        (v.queueAt 0x40000).head < (v.queueAt 0x40000).tail ∧ Tab.fifo.at (fifoKey c.tag 0x40000 0) v = none) &&
      entryB c (.qpop 4 obj) (badQpop c) 0 .load .load s)
    (by decide +kernel) fun _ h => by
      simp only [Bool.and_eq_true] at h
      exact ⟨_, _, reachB_reaches h.1.1.1, sameButMarks_of h.1.1.2, of_decide_eq_true h.1.2, entry_run h.2⟩
/-- The check of a task operation goes on. -/
def opRuns (f : Act → Act) (u : State) : Bool := (f trace_).run u != (f .skip).run u
def opB (c : Iss) (i : Instr) (n b ev : Nat) (need : Need) (ask : Ask) (spawn : Bool) (s : State) : Bool :=
  let u := c.sent i obj 0x40000 b ev s
  decide (s.counter c.gid 5 < 63) && stands (objFront c s obj n spawn) 0x40000 && goes c s (some .dev) &&
  fine (probeBytes u (c.taskOp i obj 0x40000 b s).ctx c.core need ask (vasOf 0x40000 n)) && decide (u.phys (c.taskOp i obj 0x40000 b s).ctx 0x40000 = 0x40000)
theorem test_meets_tspawn :
    let i := Instr.tspawn false 9 obj
    ∃ c, i.wf = true ∧ spawner.issuer i = some c ∧
      let s := spawner
      let o := c.taskOp i obj 0x40000 0 s
      let u := c.sent i obj 0x40000 0 1 s
      let r := (touchSector c.gid c.core o.ctx o.inc (0x40000 / 32) false (BitVec.allOnes 32)).run u
      s.counter c.gid 5 < 63 ∧ objFront c s obj 32 true = .at_ 0x40000 ∧ s.gate c (some .dev) = .go ∧
      probeBytes u o.ctx c.core .load .load (vasOf 0x40000 32) = .ok ∧ u.phys o.ctx 0x40000 = 0x40000 ∧
      ∃ v, (∀ k : Act, (opSynced s.dev.nextId o mcRead 0x40000 32 (objBlame i 0 32 0x40000) noCheck k).run r = k.run v) ∧
        SameButMarks u v ∧ v.undisturbed ∧ (c.lau.journals = false ∧ c.core < 256 ∧ (Buf.of (s.breg c.gid 3)).ro = false ∧ isHomed 0x40000 = true ∧
          descOk r c.lau (r.seen c.gid c.core (0x40000 / 32) false).toNat = true ∧ descFuture (r.seen c.gid c.core (0x40000 / 32) false).toNat = 0 ∧
          r.freeTask c.lau.ctx = some 0) :=
  let i := Instr.tspawn false 9 obj
  let f (c : Iss) (s : State) (k : Act) : Act :=
    opSynced s.dev.nextId (c.taskOp i obj 0x40000 0 s) mcRead 0x40000 32 (objBlame i 0 32 0x40000) noCheck k
  of_meets (p := fun c s =>
      let o := c.taskOp i obj 0x40000 0 s
      let u := c.sent i obj 0x40000 0 1 s
      let r := (touchSector c.gid c.core o.ctx o.inc (0x40000 / 32) false (BitVec.allOnes 32)).run u
      let v := (f c s .skip).run r
      opB c i 32 0 1 .load .load true s && opRuns (f c s) r && sameButMarks u v && calm v && decide (c.lau.journals = false ∧ c.core < 256 ∧
        (Buf.of (s.breg c.gid 3)).ro = false ∧ isHomed 0x40000 = true ∧
        descOk r c.lau (r.seen c.gid c.core (0x40000 / 32) false).toNat = true ∧ descFuture (r.seen c.gid c.core (0x40000 / 32) false).toNat = 0 ∧
        r.freeTask c.lau.ctx = some 0))
    (by decide +kernel) fun c h => by
      simp only [opB, opRuns, Bool.and_eq_true, bne_iff_ne, ne_eq] at h
      obtain ⟨⟨⟨⟨⟨⟨⟨⟨h1, h2⟩, h3⟩, h4⟩, h5⟩, h6⟩, h7⟩, h8⟩, h9⟩ := h
      exact ⟨of_decide_eq_true h1, stands_at h2, goes_go h3, fine_ok h4, of_decide_eq_true h5, _,
        (opSynced_run _ _ _ _ _ _ _ _).goes h6, sameButMarks_of h7, calm_undisturbed h8, of_decide_eq_true h9⟩
/-- What TFILL and LKREL ask of an object of `n` bytes, with the word `b`; `P` is what the object holds then. -/
def OpPasses (i : Instr) (bad : Iss → State → Op → State → Option Act) (s : State) (n b : Nat) (P : State → Iss → Prop) (c : Iss) : Prop :=
  let o := c.taskOp i obj 0x40000 b s
  let u := c.sent i obj 0x40000 b 0 s
  s.counter c.gid 5 < 63 ∧ objFront c s obj n false = .at_ 0x40000 ∧ s.gate c (some .dev) = .go ∧
  probeBytes u o.ctx c.core .atomic .atomic (vasOf 0x40000 n) = .ok ∧ u.phys o.ctx 0x40000 = 0x40000 ∧
  ∃ v, (∀ k : Act, (opSynced s.dev.nextId o mcSync 0x40000 n (objBlame i 0 n 0x40000) (bad c s o) k).run u = k.run v) ∧
    SameButMarks u v ∧ v.undisturbed ∧ P v c
def opPasses (i : Instr) (bad : Iss → State → Op → State → Option Act) (s : State) (n b : Nat) (P : State → Iss → Bool) : Bool := meets i s fun c s =>
  let o := c.taskOp i obj 0x40000 b s
  let f (k : Act) : Act := opSynced s.dev.nextId o mcSync 0x40000 n (objBlame i 0 n 0x40000) (bad c s o) k
  let u := c.sent i obj 0x40000 b 0 s
  let v := (f .skip).run u
  opB c i n b 0 .atomic .atomic false s && opRuns f u && sameButMarks u v && calm v && P v c
theorem op_meets {i : Instr} {bad : Iss → State → Op → State → Option Act} {s : State} {n b : Nat} {P : State → Iss → Bool}
    (h : opPasses i bad s n b P = true) : ∃ c, i.wf = true ∧ s.issuer i = some c ∧ OpPasses i bad s n b (fun v c => P v c = true) c :=
  of_meets h fun c h => by
    simp only [opB, opRuns, Bool.and_eq_true, bne_iff_ne, ne_eq] at h
    obtain ⟨⟨⟨⟨⟨⟨⟨⟨h1, h2⟩, h3⟩, h4⟩, h5⟩, h6⟩, h7⟩, h8⟩, h9⟩ := h
    exact ⟨of_decide_eq_true h1, stands_at h2, goes_go h3, fine_ok h4, of_decide_eq_true h5, _,
      (opSynced_run _ _ _ _ _ _ _ _).goes h6, sameButMarks_of h7, calm_undisturbed h8, h9⟩
def badTfill (_ : Iss) (s : State) (o : Op) (w : State) : Option Act :=
  if w.homeNat (0x40000 + 8) 1 == 0 then none else some (failEngine s.dev.nextId o (objBlame (.tfill false 8 obj) 0x43 16 0x40000) 0)
def badLkrel (c : Iss) (s : State) (o : Op) (w : State) : Option Act :=
  if w.homeNat 0x40000 4 == c.ownHandle then none else some (failEngine s.dev.nextId o (objBlame (.lkrel false obj) 0x46 4 0x40000) 0)
theorem test_meets_tfill : ∃ c, (Instr.tfill false 8 obj).wf = true ∧ (sr 8 7 (objects [])).issuer (.tfill false 8 obj) = some c ∧
    OpPasses (.tfill false 8 obj) badTfill (sr 8 7 (objects [])) 16 7 (fun v _ => (v.homeNat (0x40000 + 8) 1 == 0) = true) c := op_meets (by decide +kernel)
theorem test_meets_lkrel : ∃ c, (Instr.lkrel false obj).wf = true ∧ (lock_ 0xFFF00000).issuer (.lkrel false obj) = some c ∧
    OpPasses (.lkrel false obj) badLkrel (lock_ 0xFFF00000) 4 0xFFF00000 (fun v c => (v.homeNat 0x40000 4 == c.ownHandle && c.ownHandle == 0xFFF00000) = true) c :=
  op_meets (by decide +kernel)
/-- A group of two that runs task 5 of generation 3. -/
def running : State := tabled (mems [(0x60000 + 64 * 5, 4, 3 * 2 ^ 20 + 2)] (upG (fun x => { x with thandle := 0x300005 }) (upB (fun k => { k with gids := [0, 1] }) base)))
theorem test_meets_tasks :
    meets (.tend false) running (fun c s =>
      let e := s.taskEnt c.lau.ctx (handleIdx c.grp.thandle.toNat)
      c.grp.thandle != 0xFFFFFFFF && c.grp.depth == 0 && c.grp.locks == 0 && (s.opsOf c.gid).isEmpty && goes c s (some .dev) && c.mayAdvanceTwice s &&
      e.future == 0 && s.taskKnown c.lau.ctx c.grp.thandle.toNat && (c.oldestTask s).isNone && (s.ctx c.lau.ctx).cstate == 1 && calm s &&
      c.blk.gids.filter (· != c.gid) != []) ∧
    flown (.tfill false 8 obj) (sr 8 7 (objects [])) (fun o _ => o.path == some 5 && o.phase == .responding) ∧
    (let b : Blocker := { kind := 4, va := 0x40000, pa := 0x40000, owner := 0, woken := true }
     ((upG (fun x => { x with blocker := some b }) base).group? 0).map (·.blocker) = some (some b)) ∧
    (let s := (Act.updD .ctxs Ctx.init 1 fun x => { x with qdead := some 3 }).run base
     (s.ctx 1).qdead = some 3 ∧ s.queuesDead 1 = false) ∧
    (let b : Blocker := { kind := 4, va := 0x40000, pa := 0x40000, owner := 0, woken := false }
     let w := upG (fun x => { x with blocker := some b }) (upS (fun y => { y with wait := .parkedTask }) (upL (fun l => { l with handler := 8 }) (queue_ 0)))
     let s := upD (fun d => { d with ticks := 10 ^ 12 }) ((Act.updD .ctxs Ctx.init 1 fun x => { x with qdead := some 0 }).run w)
     meets (.qpop 0 { sa := 63, buf := 0, off := 0 }) s fun c s => (s.ctx 1).qdead == some 0 && s.queuesDead 1 && 10 ≤ s.us && s.groups == [(c.gid, c.grp)] &&
       c.n == 0 && s.splitsOf c.gid == [0] && (Iss.of s c.gid 0 (.qpop 0 { sa := 63, buf := 0, off := 0 })).isSome && c.sp.wait == .parkedTask &&
       c.sp.outs == [] && s.ops == [] && c.grp.thandle == 0xFFFFFFFF && canTrap c) := by decide +kernel
/-! ## One mapped gigabyte -/

/-- Context 1 maps the first GiB to itself, for everything. -/
def Flat (w : State) : Prop :=
  (w.ctx 1).root.toNat = 0x1000 ∧ w.homeQuad 0x1000 = 0x2001 ∧ w.homeQuad 0x2000 = 0x3001 ∧ w.homeQuad 0x3000 = 0x3D
theorem flat_translate {w : State} (h : Flat w) {va : Nat} (hv : va < 2 ^ 30) :
    w.translate 1 va = .ok { pa := va, size := 30, rd := true, wr := true, ex := true } := by
  obtain ⟨h0, h1, h2, h3⟩ := h
  have e : va % 2 ^ 57 = va := Nat.mod_eq_of_lt (by omega)
  have f5 : fld va 48 9 = 0 := by simp only [fld, Nat.div_eq_of_lt (show va < 2 ^ 48 by omega), Nat.zero_mod]
  have f4 : fld va 39 9 = 0 := by simp only [fld, Nat.div_eq_of_lt (show va < 2 ^ 39 by omega), Nat.zero_mod]
  have f3 : fld va 30 9 = 0 := by simp only [fld, Nat.div_eq_of_lt hv, Nat.zero_mod]
  simp only [State.translate, e, h0, walkFrom, f5, f4, f3, h1, Nat.mul_zero, Nat.add_zero]
  have e' : va < 1073741824 := hv
  simp [fld, bitAt, leafSize, h2, h3, Nat.mod_eq_of_lt e']
theorem flat_for {w : State} (h : Flat w) {va : Nat} (hv : va < 2 ^ 30) (n : Need) : w.translateFor 1 n va = .ok va := by
  simp [State.translateFor, flat_translate h hv, Need.met]
/-- The bytes from an address. -/
def bytesFrom (b : Nat → Byte) (a : Nat) : Nat → List Byte
  | 0 => []
  | n + 1 => b a :: bytesFrom b (a + 1) n
theorem flat_readVirt {w : State} (h : Flat w) : ∀ (n va : Nat), va + n ≤ 2 ^ 30 → w.readVirt 1 va n = .ok (bytesFrom w.homeByte va n)
  | 0, _, _ => rfl
  | n + 1, va, hv => by
    rw [State.readVirt, flat_for h (by omega), flat_readVirt h n (va + 1) (by omega)]
    rfl
theorem homeNat_congr {s w : State} : ∀ {n pa : Nat}, (∀ a, pa ≤ a → a < pa + n → w.homeByte a = s.homeByte a) → w.homeNat pa n = s.homeNat pa n
  | 0, _, _ => rfl
  | n + 1, pa, h => by
    rw [State.homeNat, State.homeNat, h pa (by omega) (by omega), homeNat_congr fun a h1 h2 => h a (by omega) (by omega)]
theorem bytesFrom_congr {b c : Nat → Byte} : ∀ {n a : Nat}, (∀ k, a ≤ k → k < a + n → b k = c k) → bytesFrom b a n = bytesFrom c a n
  | 0, _, _ => rfl
  | n + 1, a, h => by
    rw [bytesFrom, bytesFrom, h a (by omega) (by omega), bytesFrom_congr fun k h1 h2 => h k (by omega) (by omega)]
/-- Bytes that differ elsewhere leave the tables alone. -/
theorem flat_congr {s w : State} (h : Flat s) (hc : w.ctxs = s.ctxs) (hb : ∀ a, a < 0x4000 → w.homeByte a = s.homeByte a) : Flat w := by
  obtain ⟨h0, h1, h2, h3⟩ := h
  have e (k : Nat) (hk : k ≤ 0x3000) : w.homeQuad k = s.homeQuad k := homeNat_congr fun a _ h2 => hb a (by omega)
  exact ⟨by unfold State.ctx; simp only [Tab.val, Tab.at, Tab.get, hc]; exact h0, (e _ (by omega)).trans h1, (e _ (by omega)).trans h2,
    (e _ (by omega)).trans h3⟩
/-- A place above the tables stands fast. -/
theorem flat_standsFast {s : State} (h : Flat s) {va n : Nat} (h1 : 0x4000 ≤ va) (h2 : va + n ≤ 2 ^ 30) : s.standsFast 1 va va n :=
  fun _ hc hb _ _ _ ho => flat_for (flat_congr h hc fun a ha => hb a (by omega)) (by omega) _
/-- The Conductor's row lets it read the first 512 MiB (R112). -/
def Open (w : State) : Prop := ∀ a, a + 64 ≤ 2 ^ 29 → w.fwMay 0 .load a 64 = true
def openB (s : State) : Bool := Tab.access.at (288 * 4) s == some { wbase := 0, limit := 0x1FFFF, at_ := true, wr := true, rd := true }
theorem open_of {s : State} (h : openB s = true) : Open s := fun a ha => by
  have hg : s.granted 288 .load a 64 = true := by
    refine Bool.and_eq_true _ _ ▸ ⟨by decide, List.any_eq_true.2 ⟨0, by decide, ?_⟩⟩
    have e : Tab.access.val AccWin.closed (288 * 4 + 0) s = { wbase := 0, limit := 0x1FFFF, at_ := true, wr := true, rd := true } := by
      simp only [Tab.val, Nat.add_zero, eq_of_beq h, Option.getD_some]
    rw [e]
    simp only [AccWin.grants, Ask.load, Bool.and_eq_true, decide_eq_true_eq]
    refine ⟨⟨⟨⟨Nat.zero_le _, ?_⟩, rfl⟩, rfl⟩, rfl⟩
    show (a + 64 - 1) / 4096 ≤ 0x1FFFF
    omega
  have h1 : isHbm a = true := by simp only [isHbm, decide_eq_true_eq]; omega
  have h2 : isManagement a = false := by simp only [isManagement]; simp; omega
  have h3 : peerOf a = none := by simp only [peerOf]; rw [if_neg]; simp; omega
  simp only [State.fwMay, State.accessFault, State.unmapped, h1, h2, h3, hg, if_true, Bool.false_eq_true, if_false, Bool.false_and, Bool.not_true, Option.isNone_none]
theorem flat_readBy {w : State} (h : Flat w) (ho : Open w) {n va : Nat} (hv : va + n ≤ 2 ^ 29) : w.readBy 0 1 va n = .ok (bytesFrom w.homeByte va n) := by
  simp only [State.readBy, flat_readVirt h n va (by omega)]
  rw [if_pos]
  refine List.all_eq_true.2 fun i hi => ?_
  have := List.mem_range.1 hi
  rw [flat_for h (by omega)]
  exact ho _ (by omega)
/-- What a launch is, from bytes. -/
def launchBy (b : Nat → Byte) (src : LaunchSrc) (va : Nat) : Launch :=
  let d := natOfBytes (bytesFrom b va 128)
  launchOfDesc 1 0 src d (natOfBytes (bytesFrom b (fld d 0 64) 64))
def launchOk (b : Nat → Byte) (src : LaunchSrc) (va : Nat) : Bool :=
  let d := natOfBytes (bytesFrom b va 128)
  let l := launchBy b src va
  let word (k : Nat) : Nat := natOfBytes (bytesFrom b (l.code + l.spOff + 4 * k) 4)
  va + 128 ≤ 2 ^ 29 && fld d 0 64 + 64 ≤ 2 ^ 29 && l.code + l.spOff + 64 ≤ 2 ^ 30 && l.ctx == 1 && l.spCount == 1 && !l.land &&
  descValid d l && headerValid (natOfBytes (bytesFrom b (fld d 0 64) 64)) l && word 0 == l.entry && bitAt (word 1) 1
theorem flat_readLaunch {w : State} (h : Flat w) (hr : Open w) {src : LaunchSrc} {va : Nat} (ho : launchOk w.homeByte src va = true) :
    readLaunch w 1 0 src va = .ok (launchBy w.homeByte src va, true) := by
  simp only [launchOk, Bool.and_eq_true, decide_eq_true_eq, beq_iff_eq, Bool.not_eq_true'] at ho
  obtain ⟨⟨⟨⟨⟨⟨⟨⟨⟨h1, h2⟩, h3⟩, h4⟩, h5⟩, h6⟩, h7⟩, h8⟩, h9⟩, h10⟩ := ho
  have hw (k : Nat) (hk : k < 2) : spWord w (launchBy w.homeByte src va) 0 k =
      natOfBytes (bytesFrom w.homeByte ((launchBy w.homeByte src va).code + (launchBy w.homeByte src va).spOff + 4 * k) 4) := by
    simp only [spWord, h4, Nat.mul_zero, Nat.add_zero]
    rw [flat_readVirt h _ _ (by omega)]
  have hl : launchOfDesc 1 0 src (natOfBytes (bytesFrom w.homeByte va 128))
      (natOfBytes (bytesFrom w.homeByte (fld (natOfBytes (bytesFrom w.homeByte va 128)) 0 64) 64)) = launchBy w.homeByte src va := rfl
  simp only [readLaunch, flat_readBy h hr h1, flat_readBy h hr h2, hl, h7, h8, Bool.true_and]
  have he : isEntry w (launchBy w.homeByte src va) (launchBy w.homeByte src va).entry = true := by
    simp only [isEntry, h5, List.range_one, List.any_cons, List.any_nil, Bool.or_false, hw 0 (by omega), hw 1 (by omega), Bool.and_eq_true, beq_iff_eq]
    exact ⟨h9, h10⟩
  simp only [he, landValid, h6, Bool.not_false, Bool.true_or, Bool.true_and]
/-- A launch depends on the bytes that it reads. -/
theorem launch_congr {b c : Nat → Byte} {src : LaunchSrc} {va : Nat} (hva : va < 0x45000) (hs : fld (natOfBytes (bytesFrom c va 128)) 0 64 = 0x43000)
    (ho : (launchBy c src va).code = 0x43000 ∧ (launchBy c src va).spOff = 0x40) (h : ∀ a, a < 0x46000 → b a = c a) :
    launchBy b src va = launchBy c src va ∧ launchOk b src va = launchOk c src va := by
  have e1 : bytesFrom b va 128 = bytesFrom c va 128 := bytesFrom_congr fun k _ h2 => h k (by omega)
  have e2 : bytesFrom b 0x43000 64 = bytesFrom c 0x43000 64 := bytesFrom_congr fun k _ h2 => h k (by omega)
  have el : launchBy b src va = launchBy c src va := by simp only [launchBy, e1, hs, e2]
  refine ⟨el, ?_⟩
  have e3 (k : Nat) (hk : k < 2) : bytesFrom b (0x43000 + 0x40 + 4 * k) 4 = bytesFrom c (0x43000 + 0x40 + 4 * k) 4 :=
    bytesFrom_congr fun a _ h2 => h a (by omega)
  simp only [launchOk, el, e1, hs, e2, ho.1, ho.2, e3 0 (by omega), e3 1 (by omega)]
/-- A queue that stands at a packet. -/
def standsB (s : State) (q : Nat) (p : Packet) : Bool :=
  let k := s.ring q
  let a := (k.qbase.toNat + 16 * (k.qhead.toNat % 2 ^ (k.size.toNat + 4))) % 2 ^ 64
  let n := natOfBytes (bytesFrom s.homeByte a 16)
  k.en && k.qstat == 0 && !k.barrier && k.chains == [] && k.qhead != k.qtail && k.qdone == k.qhead && s.cmds == [] &&
  !s.stale (.controller 0) k.ctx.toNat k.inc.toNat && (s.ctx k.ctx.toNat).cstate == 1 && (packetFault k p).isNone && k.ctx.toNat == 1 &&
  decide (a + 16 ≤ 2 ^ 29) && decide (p = { op := n % 2 ^ 8, flags := n / 2 ^ 8 % 2 ^ 8, count := n / 2 ^ 16 % 2 ^ 16,
                                            param := n / 2 ^ 32 % 2 ^ 32, addr := n / 2 ^ 64 % 2 ^ 64 })
def flatB (s : State) : Bool :=
  (s.ctx 1).root.toNat == 0x1000 && s.homeQuad 0x1000 == 0x2001 && s.homeQuad 0x2000 == 0x3001 && s.homeQuad 0x3000 == 0x3D
theorem flat_of {s : State} (h : flatB s = true) : Flat s := by
  simpa [flatB, Flat, and_assoc] using h
theorem stands_of {s : State} {q : Nat} {p : Packet} (h : (flatB s && openB s && standsB s q p) = true) : s.standsAt q p := by
  simp only [standsB, Bool.and_eq_true, beq_iff_eq, bne_iff_ne, ne_eq, Bool.not_eq_true', decide_eq_true_eq, Option.isNone_iff_eq_none] at h
  obtain ⟨⟨hf, ho⟩, ⟨⟨⟨⟨⟨⟨⟨⟨⟨⟨⟨⟨h1, h2⟩, h3⟩, h4⟩, h5⟩, h6⟩, h7⟩, h8⟩, h9⟩, h10⟩, h11⟩, h12⟩, h13⟩⟩ := h
  exact ⟨h1, h2, h3, h4, h5, h6, h7, h8, h9, h10, _, by rw [h11]; exact flat_readBy (flat_of hf) (open_of ho) h12, h13⟩
/-! ## Upkeep, command queues, launches -/

/-- Context 1 may read and write its pages too, and the firmware cores what stands there. -/
def rw_ : State := fwRows (Tab.mem.put 0x3000 0x3D base)
def gmodes (f : Ctx → Ctx) : State := (Act.updD .ctxs Ctx.init 1 fun x => f { x with gmodeen := true }).run rw_
/-- Only bank 5 is a scratch bank, and a team has rows of it. -/
def lastBank : State :=
  (Act.upd .teams 2 fun t => { t with bankRows := (List.replicate 32 0).set 5 1, rows := 1 }).run
    ((Act.updD .clusters Cluster.init 0 fun c => { c with modes := (List.replicate 32 BankMode.cache).set 5 .scratch }).run
      (upL (fun l => { l with handler := 8 }) (gmodes id)))
def micros (n : Nat) (s : State) : State := upD (fun d => { d with ticks := n * usTicks }) s
/-- Queue 5 of context 1 holds one packet at 0x40000. -/
def queued (op flags count param addr : Nat) (s : State) : State :=
  Tab.queues.put 5 { Queue.init with qbase := 0x40000, en := true, priv := true, ctx := 1, qtail := 1 }
    (mems [(0x40000, 16, op + flags * 2 ^ 8 + count * 2 ^ 16 + param * 2 ^ 32 + addr * 2 ^ 64)] s)
def packet (op flags count param addr : Nat) : Packet := { op := op, flags := flags, count := count, param := param, addr := addr }
/-- A translation that succeeds, and where it leads. -/
def fine_ (x : Except XFail Nat) (pa : Nat) : Bool := match x with | .ok a => a == pa | .error _ => false
def runs (i : Instr) (s : State) : State := (after i s id).getD s
/-- A launch descriptor at 0x42000 and the header of its code at 0x43000, with one safe point, an entry point, at offset 0. -/
def described (s : State) : State := mems
  [(0x42000, 8, 0x43000), (0x4200C, 4, 1), (0x42010, 4, 1), (0x42014, 4, 1), (0x42018, 1, 1), (0x42019, 1, 32), (0x4201A, 1, 32), (0x42020, 1, 1),
   (0x42050, 8, 0x45000), (0x42058, 8, 9), (0x43000, 4, 0x4F435454), (0x43008, 4, 4096), (0x4300C, 4, 4), (0x43010, 4, 64), (0x43014, 4, 1),
   (0x43018, 4, 0xFFFFFFFF), (0x43044, 4, 2)] s
/-- A chip of which only bank 0 of cluster 0 is a scratch bank. -/
def small (s : State) : State :=
  { s with clusters := (List.range 32).map fun c =>
      (c, { Cluster.init with modes := (List.replicate 32 BankMode.cache).set 0 (if c == 0 then .scratch else .cache) }) }
def launching : State := queued 1 0 0 0 0x42000 (described rw_)
/-- Its launch, begun. -/
def oneTeam : Launch := { launchBy launching.homeByte (.cmd 3) 0x42000 with src := .cmd 3 }
def cmd_ (kind : CmdKind) : Cmd := { q := 5, ringIndex := 0, parent := none, irq := false, kind := kind, done := false, open_ := false }
def launched : State := Tab.cmds.put 3 (cmd_ .launch) (Tab.launches.put 1 oneTeam (small rw_))
def seated : State := runs (.teamPlacement 1) launched
/-- A launch that is over: it had one team, which has run. -/
def ended_ : State := Tab.cmds.put 3 (cmd_ .launch) (Tab.launches.put 1 { oneTeam with nextTeam := 1 } rw_)
/-- A timetable at 0x46000 of one node that launches 0x42000 and waits for none. -/
def timed : State := queued 2 0 0 0 0x46000 (mems [(0x46000, 8, 0x42000)] (described rw_))
/-- Its node's launch is over. -/
def timedOver : State := Tab.cmds.put 3 (cmd_ .timetable) (Tab.tts.put 3 { cmd := 3, ctx := 1, inc := 0, va := 0x46000, nodes := 1, running := 1 }
  (Tab.launches.put 1 { oneTeam with src := .node 3 0, nextTeam := 1 } (mems [(0x46000, 8, 0x42000)] rw_)))
/-- A state with everything in a bank drained for a change of mode. -/
def draining : State := (Act.updD .clusters Cluster.init 0 fun c => { c with gmode := some { bank := 5, mode := .cache, gid := 0, ctx := 1 } }).run base

/-- A block of the same launch stands on core 7 too. -/
def beside (s : State) : State :=
  match s.block? 1 with
  | some b => Tab.blocks.put 9 { b with core := 7 } s
  | none => s
/-- WAIT, SIGNAL, COPY, KILL and RECLAIM do what their packets say (R349 to R352, R390, R393). -/
theorem test_commands :
    (runs (.signal 5) (queued 5 0 0 0x1234 0x41000 rw_)).homeNat 0x41000 8 = 0x1234 ∧
    ((runs (.wait 5) (queued 4 0 0 7 0x41000 (mems [(0x41000, 8, 7)] rw_))).ring 5).qdone = 1 ∧
    ((runs (.wait 5) (queued 4 4 0 7 0x41000 (mems [(0x41000, 8, 6)] rw_))).ring 5).qdone = 0 ∧
    (runs (.copy 5) (queued 6 0 0 0 0x41000 (mems [(0x41000, 8, 0x47000), (0x41008, 8, 0x48003), (0x41010, 8, 2), (0x47000, 2, 0xBEEF)]
      (Tab.access.put (256 * 4) { wbase := 0, limit := 0x7FFFF, at_ := true, wr := true, rd := true } rw_)))).homeNat 0x48002 4 = 0xBEEF00 ∧
    ((runs (.kill 5) (queued 8 0 0 1 0 rw_)).ctx 1).cstate = 5 := by decide +kernel
/-- The one team of a launch: s0 the block, v0 the lane, pc the entry, the record of its end (R288, R354, R357, R359). -/
theorem test_launch :
    (oneTeam.width, oneTeam.vregs, oneTeam.textOff, oneTeam.doneval.toNat) = (32, 256, 4096, 9) ∧
    (seated.team? 3).map (·.index) = some 0 ∧ seated.vreg 1 0 31 = 31 ∧ (seated.split? 1 0).map (·.pc.toNat) = some 0 ∧
    (runs (.launchComplete 1) ended_).homeNat 0x45000 16 = 9 + 2 ^ 96 := by decide +kernel
/-- A bank changes its mode when it is drained; a group that waits 2 us is gated; a task moves to another core (R135, R346, R309). -/
theorem test_upkeep :
    ((runs (.gmodeDrainComplete 0) draining).cluster 0).modeOf 5 = .cache ∧
    ((runs (.clockGate 0) (micros 2 (upG (fun x => { x with waitStart := some 0 }) base))).group? 0).map (·.gated) = some true ∧
    ((runs (.prefectScan [.tasks 0 7 1]) (beside (runs (.tspawn false 9 obj) spawner))).core 7).tasks = [(tagKey 1 0, 0)] := by decide +kernel

/-- Another split, of group 1, waits for the banks of cluster 0. -/
def gmodeLater : State := (Act.updD .clusters Cluster.init 0 fun k => { k with gwait := [splitKey 1 0] }).run
  (Tab.splits.put (splitKey 1 0) { Split.start 0 1 0 with wait := .gmode } (gmodes id))
/-- The tables of a drained bank, in canonical form. -/
def drainedOnly : State := { State.reset with clusters := [(0, { Cluster.init with gmode := some { bank := 5, mode := .cache, gid := 0, ctx := 1 } })] }
theorem test_drained_wf : drainedOnly.wf := fun _ t => by cases t <;> decide
theorem test_meets_upkeep :
    let on (c : Iss) (s : State) : Bool := (s.ctx c.lau.ctx).gmodeen && s.dev.stepState == 0 && (s.cluster (clusterOf c.core)).gmode == none &&
      (s.gmodeQueue (clusterOf c.core)).head?.all (· == c.key)
    meets (.gmode false .scratch 5) gmodeLater (fun c s => (s.ctx c.lau.ctx).gmodeen && (s.gmodeQueue (clusterOf c.core)) == [splitKey 1 0] && c.key != splitKey 1 0) ∧
    ((drainedOnly.cluster 0).gmode.isSome ∧ (drainedOnly.cluster 0).fifo = [] ∧ drainedOnly.teamsIn 0 = []) ∧
    let room (s : State) : Nat := (((s.cluster 0).scratchBanks.filter (· != 5)).map (s.bankFree 0)).sum
    meets (.gmode false .scratch 5) (gmodes id) (fun c s => on c s && (s.cluster 0).modeOf 5 == .scratch) ∧
    meets (.gmode false .cache 31) (gmodes id) (fun c s => on c s && (s.cluster 0).modeOf 31 != .cache && s.bankAlloc 0 31 ≤ room s) ∧
    meets (.gmode false .cache 5) handled (fun c s => canTrap c && !(s.ctx c.lau.ctx).gmodeen) ∧
    meets (.gmode false .cache 5) lastBank (fun c s => canTrap c && on c s && (s.cluster 0).modeOf 5 == .scratch && room s < s.bankAlloc 0 5) ∧
    (let s := micros 2 (upG (fun x => { x with waitStart := some 0, gtthr := 1, timer := 4096 }) base)
     (s.group? 0).map (fun x => (x.waitStart, x.gtthr)) = some (some 0, 1) ∧ 0 + 2 ≤ s.us) ∧
    (base.group? 0).map (·.gtthr) = some 0 ∧ (base.group? 0).map (·.waitStart) = some none ∧
    (let s := micros 200 (upG (fun x => { x with waitStart := some 0 }) base)
     s.groupsOn 0 ≠ [] ∧ (s.groupsOn 0).all (fun e => match s.waited e.1 with
       | some t => decide (100 ≤ t)
       | none => false) = true) ∧
    (let s := micros 50 (upD (fun d => { d with hangthr := 50 }) (upS (fun y => { y with wait := .roll 3 9 }) (upG (fun x => { x with waitStart := some 0 }) base)))
     s.dev.hangthr ≠ 0 ∧ s.dependsOnHalted 0 = false ∧ 0 + s.dev.hangthr.toNat ≤ s.us ∧ (s.group? 0).map (·.hung) = some false ∧
     (s.split? 0 0).map (·.stack) = some [] ∧ s.dev.ersize = 0 ∧ s.dev.erPost.length < 64) := by
  decide +kernel
theorem test_meets_commands :
    let at_ (s : State) (op flags count param addr : Nat) : Prop := (queued op flags count param addr s).standsAt 5 (packet op flags count param addr)
    let traced : State := gmodes fun x => { x with attached := true, tren := true, trbase := 0x50000, trsize := 8 }
    let owing : State := gmodes fun x => { x with unreclaimed := [7] }
    at_ rw_ 0 0 0 0 0 ∧ at_ rw_ 7 0 0 5 0 ∧ at_ traced 7 0 0 5 0 ∧ at_ rw_ 4 4 0 0xFFFFFFFF 0x41000 ∧ at_ rw_ 5 0 0 7 0x41000 ∧ at_ rw_ 6 0 0 0 0x41000 ∧
    at_ rw_ 3 0 1 0 0x41000 ∧ at_ rw_ 8 0 0 1 0 ∧ at_ rw_ 8 0 0 2 0 ∧ at_ owing 9 0 0 (1 + 7 * 2 ^ 12) 0 ∧ at_ rw_ 9 0 0 (1 + 7 * 2 ^ 12) 0 ∧
    ((rw_.ctx 1).tracing = false ∧ (traced.ctx 1).tracing = true ∧ (traced.ctx 1).tracePost = [] ∧ traced.traceShut 1 = false ∧ (rw_.ctx 1).cstate = 1 ∧
     (rw_.ctx 2).cstate = 0 ∧ 7 ∈ (owing.ctx 1).unreclaimed ∧ owing.reclaims = [] ∧ (rw_.ctx 1).unreclaimed = []) ∧
    fine_ (rw_.translateFor 1 .load 0x41000) 0x41000 = true ∧ fine_ (rw_.translateFor 1 .store 0x41000) 0x41000 = true ∧
    (rw_.fwMay 0 .load 0x41000 8 = true ∧ rw_.fwMay 0 .store 0x41000 8 = true ∧ (∃ bs, rw_.readBy 0 1 0x41000 16 = .ok bs) ∧
     ∃ bs, (queued 6 0 0 0 0x41000 rw_).readBy 0 1 0x41000 32 = .ok bs ∧ natOfBytes bs / 2 ^ 192 = 0) :=
  ⟨stands_of (by decide +kernel), stands_of (by decide +kernel), stands_of (by decide +kernel), stands_of (by decide +kernel), stands_of (by decide +kernel),
   stands_of (by decide +kernel), stands_of (by decide +kernel), stands_of (by decide +kernel), stands_of (by decide +kernel), stands_of (by decide +kernel),
   stands_of (by decide +kernel), by decide +kernel, by decide +kernel, by decide +kernel, by decide +kernel, by decide +kernel,
   ⟨_, flat_readBy (flat_of (by decide +kernel)) (open_of (by decide +kernel)) (by decide)⟩,
   _, flat_readBy (flat_of (by decide +kernel)) (open_of (by decide +kernel)) (by decide), by decide +kernel⟩
theorem test_meets_commands_too :
    (let s := Tab.cmds.put 3 (cmd_ (.wait 0x41000 7 false false)) (queued 4 0 0 7 0x41000 rw_)
     (Tab.cmds.at 3 s).map (fun e => (e.q, e.done, e.parent, e.ringIndex)) = some (5, false, none, (s.ring 5).qdone.toNat) ∧ s.homeNat 0x41000 8 ≠ 7) ∧
    (let s := Tab.access.put (256 * 4) { wbase := 0, limit := 0x7FFFF, at_ := true, wr := true, rd := true } rw_
     (match rangeFor s 1 256 .load .load 0x47000 2 with
      | .ok l => l == [0x47000, 0x47001]
      | .error _ => false) = true ∧
     (match rangeFor s 1 256 .store .store 0x48003 2 with
      | .ok l => l == [0x48003, 0x48004]
      | .error _ => false) = true) ∧
    (Tab.access.put 8 { wbase := 0xF000000000, limit := 0xFFFFFFFFFF, at_ := false, wr := true, rd := true } base).granted 2 .store
      (0xF000060000018 + 64 * 1023) 8 = true ∧ base.granted 2 .store (0xF000060000018 + 64 * 1023) 8 = false ∧ (Tab.fws.val FwCore.init 0 base).hand ≠ 3 := by
  decide +kernel
theorem test_meets_launching :
    launching.standsAt 5 (packet 1 0 0 0 0x42000) ∧
    readLaunch launching 1 0 (.cmd 0) 0x42000 = .ok (launchBy launching.homeByte (.cmd 0) 0x42000, true) ∧
    (match launched.launch? 1 with
     | some l => (launched.ctx l.ctx).cstate == 1 && (launched.ctx l.ctx).savedTeams == [] && !(launched.ctx l.ctx).tracing && l.nextTeam < l.teamCount &&
         l.rows ≤ launched.capMax && l.gpb == 1 && l.width ≤ 64 && l.teamBlocks l.nextTeam == [0] && launched.movedTeam 1 == none &&
         (match launched.firstToPlace with
          | some k => k.lid == 1 && k.lau == l && k.seat == { cluster := 0, cores := [0], adopt := [none], areas := [none] } && k.saved.isNone
          | none => false) && launched.freeIndices 0 == 1 :: (List.range 96).drop 2 && launched.mayAdvance (slotAt 0 1) &&
         (launched.core 0).gen != 0xFFFFFF
     | none => false) = true ∧
    launched.capMax < { oneTeam with gal := 2 ^ 31 }.rows ∧ (seated.team? 3).map (·.state) = some .clearing ∧
    (match ended_.launch? 1 with
     | some l => l.running == 0 && l.teamCount ≤ l.nextTeam && l.src == .cmd 3 && l.doneaddr == 0x45000 && fine_ (ended_.translateFor l.ctx .store l.doneaddr) 0x45000 &&
         (ended_.accessFault 289 .store 0x45000 16).isNone && ended_.cmds == [(3, cmd_ .launch)] && (ended_.ring 5).qdone == 0
     | none => false) = true :=
  ⟨stands_of (by decide +kernel), flat_readLaunch (flat_of (by decide +kernel)) (open_of (by decide +kernel)) (by decide +kernel), by decide +kernel, by decide +kernel, by decide +kernel,
   by decide +kernel⟩
theorem test_meets_timetables :
    (timed.standsAt 5 (packet 2 0 0 0 0x46000) ∧ timed.standsFast 1 0x46000 0x46000 64 ∧ timed.fwMay 0 .load (0x46000 / 64 * 64) 64 = true ∧ timed.homeNat 0x46008 2 = 0 ∧ timed.homeNat 0x4600C 2 = 0 ∧
     ∀ w : State, w.ctxs = timed.ctxs → (∀ a n, w.fwMay 0 .load a n = timed.fwMay 0 .load a n) → (∀ a, ¬ (0x46000 + 8 ≤ a ∧ a < 0x46000 + 64) → w.homeByte a = timed.homeByte a) →
       readLaunch w 1 0 (.node timed.dev.nextId 0) 0x42000 = .ok (launchBy timed.homeByte (.node timed.dev.nextId 0) 0x42000, true)) ∧
    (timedOver.launches.find? (fun k => k.2.src == .node 3 0)).isSome = true ∧ (timedOver.ctx 1).cstate = 1 ∧ timedOver.standsFast 1 0x46000 0x46000 64 ∧
    timedOver.homeNat 0x4600C 2 = 0 ∧ timedOver.cmds = [(3, cmd_ .timetable)] ∧ (timedOver.ring 5).qdone = 0 :=
  ⟨⟨stands_of (by decide +kernel), flat_standsFast (flat_of (by decide +kernel)) (by decide) (by decide), by decide +kernel, by decide +kernel, by decide +kernel,
    fun w hc hf hb => by
      have e := launch_congr (b := w.homeByte) (c := timed.homeByte) (src := .node timed.dev.nextId 0) (va := 0x42000) (by decide) (by decide +kernel)
        (by decide +kernel) fun a ha => hb a (by omega)
      rw [← e.1]
      exact flat_readLaunch (flat_congr (flat_of (by decide +kernel)) hc fun a ha => hb a (by omega))
        (fun a ha => (hf a 64).trans (open_of (s := timed) (by decide +kernel) a ha)) (e.2.trans (by decide +kernel))⟩,
   by decide +kernel, by decide +kernel, flat_standsFast (flat_of (by decide +kernel)) (by decide) (by decide), by decide +kernel, by decide +kernel,
   by decide +kernel⟩
/-! ## Contexts, requests, repair, power -/

def ctxAs (n : Nat) (f : Ctx → Ctx) (s : State) : State := (Act.updD .ctxs Ctx.init n f).run s
/-- The kill of context 1 is known to every unit but those given. -/
def dying (us : List UnitRef) (s : State) : State := Tab.kills.put (tagKey 1 0) { cause := 0x59, left := us, cmd := some 3, revive := false } s
/-- Every master reaches the mailboxes and the registers. -/
def boxed : State :=
  [293, 296, 297, 2].foldl (fun s m => Tab.access.put (m * 4 + 1) { wbase := 0xF000000000, limit := 0xFFFFFFFFFF, at_ := false, wr := true, rd := true } s) rw_
def asks (body : List Nat) : Request := { driver := true, tag := 0x77, body := body.map (BitVec.ofNat 64) }
/-- The status and the body of an answer. -/
def reply (core : Nat) (s : State) : Nat × List Nat := (((s.box core).resp.headD 0).toNat / 2 ^ 56, ((s.box core).resp.drop 1).map (·.toNat))
def saving_ (size : BitVec 64) : State :=
  ctxAs 1 (fun x => { x with cstate := 2, savebase := 0x80000, savesize := size, preempt := some { drain := false, start := 0 } }) (upG (fun x => { x with stop := true })
    (upS (fun y => { y with wait := .stopped }) base))

/-- OPEN, REVIVE, KILL's last unit, RECLAIM; a save image that does not fit (R380 to R393). -/
theorem test_contexts :
    ((runs (.openCtx 9) base).ctx 9).cstate = 1 ∧ ((runs (.openCtx 1) base).ctx 1).pstat = 2 ∧
    ((runs (.revive 1) (ctxAs 1 (fun x => { x with cstate := 5 }) base)).ctx 1).cinc = 1 ∧
    (runs (.deadBroadcast (.controller 0) 1 0) (dying [.controller 0] base)).launches = [] ∧
    Tab.tags.val false (tagKey 1 0) (runs (.reclaimComplete 1 0) (Tab.reclaims.put (tagKey 1 0) { cause := 0, left := [], cmd := none, revive := false } base)) = false ∧
    (let x := (runs (.saveComplete 1) (saving_ 0)).ctx 1
     x.cstate = 1 ∧ x.pstat = 3) := by decide +kernel
/-- Requests: a context attached, a window of the access table, a body with a bit too many, a reply's words (R429, R430, R464). -/
theorem test_requests :
    (let t := runs (.attach (asks [1 * 2 ^ 5])) boxed
     (t.ctx 1).attached = true ∧ reply 7 t = (0, [0, 0, 0, 0, 0, 0, 0])) ∧
    (Tab.access.at (40 * 4 + 2) (runs (.writeAccessTableWindow (asks [40 + 2 * 2 ^ 9, 0x5000 + 3, 0x8000])) boxed)).map (fun w => (w.wbase, w.limit, w.wr, w.at_)) =
      some (5, 8, true, false) ∧
    reply 2 (runs (.setGmodeen (asks [1 + 5 * 2 ^ 12, 3])) boxed) = (3, [0, 0, 0, 0, 0, 0, 0]) ∧
    reply 6 (runs (.joinDomain (asks [1 + 5 * 2 + 3 * 2 ^ 9, 1000])) boxed) = (0, [5 + 2 ^ 8 + 3 * 2 ^ 16, 0, 0, 0, 0, 0, 0]) := by decide +kernel
/-- 31 us from VP0 to VP3 (R444): 1 us and 10 us for each point; at 105 degrees the next point is asked for; boot stages; counts of errors. -/
theorem test_power :
    switchTicks 0 3 = 31 * usTicks ∧ (runs (.thermalSample (105 * 16)) base).dev.stepWish = some 1 ∧ (runs (.bootStageComplete 0) State.reset).dev.stage = 1 ∧
    (runs (.bootStageComplete 2) State.reset).dev.bootFail = 2 ∧
    (Tab.ecount.val 0 (errorKey 3 5 0) (runs (.correctedError 3 5 0) (runs (.correctedError 3 5 0) base))) = 2 ^ 32 + 2 ∧
    (runs (.coreRecalibrationComplete 9 true) (Tab.cores.put 9 { CoreRec.init with service := false, fenced := 3, rate := 6 } base)).core 9 = CoreRec.init := by
  decide +kernel

theorem test_meets_contexts :
    ((base.ctx 1).cstate = 1 ∧ (base.ctx 4095).cstate = 0 ∧ (base.ctx 1).preempt = none) ∧
    ((ctxAs 1 (fun x => { x with cstate := 5, unreclaimed := [0], unrecl := 127 }) base).ctx 1).cinc + 1 ∉ [(0 : BitVec 8)] ∧
    (let x := (ctxAs 1 (fun x => { x with preempt := some { drain := false, start := 5 }, deadline := 1 }) (micros 2 base)).ctx 1
     x.preempt = some { drain := false, start := 5 } ∧ x.deadline ≠ 0 ∧ 5 + x.deadline.toNat * usTicks ≤ (micros 2 base).dev.ticks) ∧
    (ctxAs 2 (fun x => { x with cstate := 4 }) base).groupsOf 2 = [] ∧ (ctxAs 2 (fun x => { x with cstate := 3 }) base).groupsOf 2 = [] ∧
    (let s := ctxAs 1 (fun x => { x with cstate := 5, unreclaimed := [0], unrecl := 1 }) base
     (s.ctx 1).unrecl.toNat < 128 ∧ (s.ctx 1).cinc + 1 ∉ (s.ctx 1).unreclaimed ∧ Tab.kills.at (tagKey 1 0) s = none ∧
     (Tab.kills.at (tagKey 1 (s.ctx 1).cinc.toNat) (dying [.controller 7] s)).isSome) ∧
    ((saving_ 0).saveReady 1 = true ∧ ((saving_ 0).ctx 1).savesize.toNat < imageSize (saving_ 0) 1 ∧ ((saving_ 0).ctx 1).cstate = 2 ∧ (saving_ 0).ops = []) ∧
    (let s := saving_ 0x1000000
     s.saveReady 1 = true ∧ imageSize s 1 ≤ (s.ctx 1).savesize.toNat ∧ (s.ctx 1).tracing = false ∧ s.groupsOf 1 = [0] ∧ s.dirtyCount 0 = 0 ∧
     s.mayAdvance 0 = true ∧ s.wbs = [] ∧ (s.launchOf 0).map (·.journals) = some false ∧ s.mayAdvanceT 2 0 = true ∧ s.mayAdvanceT 2 64 = true) ∧
    (let e : Ending := { cause := 0x59, left := [.core 0, .controller 7], cmd := some 3, revive := false }
     Tab.kills.at (tagKey 1 0) (dying e.left base) = some e ∧ UnitRef.core 0 ∈ e.left ∧ e.left.filter (· != .core 0) ≠ []) ∧
    (let s := Tab.queues.put 5 Queue.init (Tab.cmds.put 3 (cmd_ (.kill 1)) (dying [.controller 0] base))
     s.cmds = [(3, cmd_ (.kill 1))] ∧ (s.ring 5).qdone = 0 ∧ (s.ring 5).ctx = 0) ∧
    (Tab.reclaims.put (tagKey 1 0) { cause := 0, left := [], cmd := none, revive := false } base).kills = [] := by decide +kernel
/-- A leaf for virtual page 0x5000000 of context 3 at 0x99000, or none, under tables at 0x90000 to 0x94000. -/
def tabled4 (leaf : Nat) : State := Tab.pages.put 0x99 { ctx := 3, inc := 0, va := 0x5000000, size := 12 }
  (mems [(0x90000, 8, 0x91001), (0x91000, 8, 0x92001), (0x92000, 8, 0x93001), (0x93000 + 8 * 40, 8, 0x94001), (0x94000, 8, leaf)]
    (ctxAs 3 (fun x => { x with root := 0x90000, cstate := 1 }) boxed))
theorem test_meets_requests :
    ((List.range 8).all fun k => [true, false].all fun d => boxed.reachesBox k d && !(boxed.box k).busy && (boxed.fw k).hand != 3) = true ∧
    ((boxed.domain 15).en = false ∧ (boxed.ctx 2).cstate = 0 ∧ (boxed.ctx 1).pstat ≠ 1 ∧ (boxed.ctx 0).oasets = 0) ∧
    (let s := (Act.del .pages 0x99).run (tabled4 0)
     s.mappable 3 0x99000 4096 = true ∧ s.homeNat (0x90000 + 8 * (0x5000000 / 2 ^ 48 % 2 ^ 9)) 8 = 0x91001 ∧
     s.homeNat (0x91000 + 8 * (0x5000000 / 2 ^ 39 % 2 ^ 9)) 8 = 0x92001 ∧ s.homeNat (0x92000 + 8 * (0x5000000 / 2 ^ 30 % 2 ^ 9)) 8 = 0x93001 ∧
     s.homeNat (0x93000 + 8 * (0x5000000 / 2 ^ 21 % 2 ^ 9)) 8 = 0x94001 ∧ s.homeNat (0x94000 + 8 * (0x5000000 / 2 ^ 12 % 2 ^ 9)) 8 = 0 ∧
     (s.ctx 3).cstate ≠ 5 ∧ (s.ctx 0).oasets = 0 ∧ (s.ctx 3).root = 0x90000 ∧
     [0x90000, 0x91000, 0x92000, 0x93000 + 8 * 40, 0x94000].all (fun x => decide (x + 8 ≤ 0x99000)) = true) ∧
    (let s := tabled4 (0x99000 + 0xD)
     s.pagesAt 3 0x5000000 12 1 = some [(0x5000000, 0x99000)] ∧ s.freePlace 3 0 12 4096 = some 0 ∧ (Tab.pages.at 0x99 s).isSome ∧ s.l1 = [] ∧ s.wbs = [] ∧
     s.ops = [] ∧ (s.ctx 3).root.toNat % 8 = 0 ∧ s.ctxs.all (fun e => e.2.oasets == 0) = true ∧ s.movesWhole [(0x99000, 0)] 12 = true) ∧
    (boxed.holdsMarks 1 = false ∧ boxed.populated 0x100000 (128 * 2 ^ 10) = true ∧ boxed.mappedAt 0x100000 (128 * 2 ^ 10) = none ∧
     reserved 0x100000 (128 * 2 ^ 10) = false ∧
     boxed.inOverflow (some 1) 0x100000 (128 * 2 ^ 10) = false ∧ boxed.retired 0x100000 (128 * 2 ^ 10) = false) ∧
    (boxed.dev.erPost = [] ∧ 5 < boxed.dev.pointsOff) ∧ (31 ∉ (boxed.cluster 31).recal ∧ boxed.teamsIn 31 = []) ∧
    reserved (5 * 4096) (3 * 4096) = false ∧ (boxed.memoryAt 0x80000 1364 = true ∧ ((List.range 8).all fun k => (boxed.fw k).hand == 0) = true) ∧
    (boxed.dev.domen = false ∧ (upD (fun d => { d with domen := true }) boxed).remoteOutstanding = false ∧ boxed.imports = []) ∧
    (let s := ctxAs 1 (fun x => { x with attached := true }) boxed
     (s.ctx 1).attached = true ∧ s.targets 1 0 0 = [0] ∧ (s.ctx 1).tracePost = [] ∧ s.watch = [] ∧ s.groupsOf 2 = [] ∧ s.ops = [] ∧
     (s.group? 0).map (fun x => (x.halt, x.haltReq)) = some (none, none)) ∧
    ((upG (fun x => { x with halt := some { cause := 0x53, tag := 0, split := 0, frame := [] } }) boxed).group? 0).map (·.halt.isSome) = some true := by
  decide +kernel
/-- The tables of that page stand outside it. -/
theorem test_meets_unmap_pages : let s := tabled4 (0x99000 + 0xD)
    ∀ w : State, w.ctxs = s.ctxs → (∀ a, ¬ (0x99000 ≤ a ∧ a < 0x99000 + 4096) → w.homeByte a = s.homeByte a) → w.leaf 3 0x5000000 = s.leaf 3 0x5000000 := by
  intro s w hc hb
  have go (v : State) (h0 : (v.ctx 3).root = 0x90000) (h5 : v.homeQuad 0x90000 = 0x91001) (h4 : v.homeQuad 0x91000 = 0x92001)
      (h3 : v.homeQuad 0x92000 = 0x93001) (h2 : v.homeQuad 0x93140 = 0x94001) (h1 : v.homeQuad 0x94000 = 0x9900D) :
      v.leaf 3 0x5000000 = some (0x94000, 0x9900D, 12) := by
    simp [State.leaf, leafOf, tableIndex, fld, bitAt, h0, h5, h4, h3, h2, h1]
  have e (k : Nat) (hk : k + 8 ≤ 0x99000) : w.homeQuad k = s.homeQuad k := homeNat_congr fun a _ h2 => hb a (by omega)
  have hs := go s (by decide +kernel) (by decide +kernel) (by decide +kernel) (by decide +kernel) (by decide +kernel) (by decide +kernel)
  exact (go w (by unfold State.ctx; simp only [Tab.val, Tab.at, Tab.get, hc]; exact (by decide +kernel : (s.ctx 3).root = 0x90000))
    ((e _ (by decide)).trans (by decide +kernel)) ((e _ (by decide)).trans (by decide +kernel)) ((e _ (by decide)).trans (by decide +kernel))
    ((e _ (by decide)).trans (by decide +kernel)) ((e _ (by decide)).trans (by decide +kernel))).trans hs.symm
/-- A block with a landing, whose operation waits on bad data and which is stopped. -/
def stopped (land : Option Nat) : State :=
  upB (fun b => { b with landSlot := land, landed := land.isSome }) (upS (fun y => { y with wait := .stopped }) base)
theorem test_meets_repair :
    (base.dev.ersize = 0 ∧ base.dev.erPost.length + 2 ≤ 64 ∧ base.block? 9 = none) ∧
    ((base.block? 1).map (·.gids) = some [0] ∧ 0 ∈ base.splitsOf 0 ∧ (base.split? 0 0).map Split.goes = some true) ∧
    ([none, some 3].all fun land => (stopped land).blockOps 1 == [] && (stopped land).splitsOf 0 == [0] &&
      ((stopped land).split? 0 0).map Split.goes == some false && (stopped land).mayAdvance (slotOf 0) && (((stopped land).block? 1).map fun b => (b.landSlot, b.landed, b.escaped, b.rolled)) ==
        some (land, land.isSome, false, false)) = true ∧
    (let s := upB (fun b => { b with landSlot := some 3, landed := true }) base
     (s.block? 1).map (fun b => (b.landed, b.escaped, b.rolled)) = some (true, false, false) ∧ s.mayAdvance (slotOf 0) = true ∧
     (match s.block? 1, s.launch? 0, s.group? 0 with
      | some b, some l, some x => s.mayAdvanceT b.tid (tslotOf l b x) && (stopped (some 3)).mayAdvanceT b.tid (tslotOf l b x)
      | _, _, _ => false) = true ∧ (s.split? 0 0).map Split.goes = some true) ∧
    (base.dev.uekill = false ∧ (upD (fun d => { d with uekill := true }) base).dev.uekill = true ∧ (base.ctx 1).cstate = 1) ∧
    (Tab.marks.at 0x2000 (Tab.marks.put 0x2000 (other 9 true) base)).map (·.ctx) = some 1 ∧
    (let s := upD (fun d => { d with cethr := 1 }) base
     s.dev.cethr.toNat = 1 ∧ s.ecount = [] ∧ s.mappedAt 0x9000 1 = none ∧ 5 ∉ (s.cluster 3).recal ∧ s.teamsIn 3 = []) ∧
    (Tab.paused.val 0 7 base = 0 ∧ Tab.paused.val 0 7 (Tab.paused.put 7 5 base) ≠ 0) ∧
    (let s := Tab.cores.put 9 { CoreRec.init with service := false } (Tab.clusters.put 3 { Cluster.init with recal := [5] } base)
     5 ∈ (s.cluster 3).recal ∧ (s.core 9).service = false ∧ s.blocksOn 9 = []) := by decide +kernel
/-- A step to `p` has begun. -/
def stepping (st : BitVec 3) (p : Nat) : State := upD (fun d => { d with stepState := st, stepTarget := p }) (small base)
/-- A point at which nothing of cluster 0's one bank is good, and where a team has rows. -/
def failing (p : Nat) : State :=
  (Act.upd .teams 2 fun t => { t with bankRows := (List.replicate 32 0).set 0 1, rows := 1 }).run (Tab.rowMasks.put p 0 (stepping 1 p))
theorem test_meets_power_and_boot :
    (base.dev.stepState = 0 ∧ base.dev.stepWish = none ∧ ((List.range 32).all fun c => (base.cluster c).gmode == none) = true ∧ base.dev.point < 5) ∧
    (let s := upD (fun d => { d with point := 2, stepWish := some 1 }) base
     1 < s.dev.point ∧ s.dev.stepWish = some 1 ∧ 1 < s.dev.pointsOff ∧ s.dev.point + 1 < s.dev.pointsOff ∧
       (upD (fun d => { d with pointsOff := 3, stepWish := some 3 }) s).dev.pointsOff ≤ 3 ∧ (upD (fun d => { d with pointsOff := 3 }) s).dev.point + 1 = 3) ∧
    ((stepping 1 3).floored 3 = false ∧ (stepping 1 3).failing 3 = []) ∧
    ((failing 4).failing 4 = [0] ∧ (failing 4).floored 4 = false ∧ (failing 4).dev.preemptPolicy = false ∧ (failing 4).dev.stepForce = false ∧
     (failing 4).stepVictim 4 = some 1) ∧
    (upL (fun l => { l with floor := 3 }) (stepping 1 4)).floored 4 = true ∧
    ((stepping 3 4).teams.length = 1 ∧ ({ stepping 3 4 with teams := [] }).dev.stepState = 3 ∧ ((List.range 32).all fun c => ((stepping 3 4).cluster c).fifo == []) = true) ∧
    ((stepping 4 4).dev.stepEnd ≤ (stepping 4 4).dev.ticks ∧ (micros 0 (stepping 4 4)).dev.ticks < (upD (fun d => { d with stepEnd := 1 }) (stepping 4 4)).dev.stepEnd) ∧
    (base.dev.ersize = 0 ∧ base.dev.erPost.length < 64) ∧
    ((List.range 7).all fun n => (upD (fun d => { d with stage := BitVec.ofNat 4 n }) State.reset).dev.stage.toNat == n && State.reset.dev.bootFail == 0 && (upD (fun d => { d with bootFail := 2 }) State.reset).dev.bootFail == 2 &&
      State.reset.l2 == []) = true := by decide +kernel
/-! ## Debug, the outside, steps -/

/-- What issues for split 0 of group 0. -/
def stood (s : State) (p : Iss → Bool) : Bool := match Iss.of s 0 0 (.nop false) with
  | some c => p c
  | none => false
/-- The first instruction is safe point 0, and breakpoint 0 of the context is set there. -/
def broken (s : State) : State := ctxAs 1 (fun x => { x with attached := true, bps := x.bps.set 0 (2 ^ 63) }) (upL (fun l => { l with spOff := 0x100, spCount := 1 }) s)
def ask_ (scope : Nat) (cause : BitVec 8) : HaltReq := { cause := cause, tag := 3, scope := scope, frame := [], also := none }
def struck (scope : Nat) : State := upG (fun x => { x with hit := some (ask_ scope 0x51) }) base
def sampled : State := upD (fun d => { d with cycle := 4096 }) (ctxAs 1 (fun x => { x with attached := true, tren := true, sper := 1, trsize := 8, trbase := 0x80000 }) (fwRows base))
/-- An access in flight, whose one line the companion processor holds. -/
def lineAway (i : Instr) : State := (Act.upd .ops 3 fun o => { o with lines := [(2 ^ 41, .ok (2 ^ 41))] }).run (answered i data)
/-- The same of a store to peer 3. -/
def linePeer : State := (Act.upd .ops 3 fun o => { o with lines := [(0x800, .ok ((0x2000000000000 + 3 * 2 ^ 44) / 128))] }).run (answered stOne data)
/-- Virtual 1 GiB is the companion's memory, and a copy reads there. -/
def copyAway : State :=
  (then_ (mems [(0x3008, 8, 0x100000000003D)] (Tab.access.put 0 { wbase := 0, limit := 0xFFFFFFFFFF, at_ := true, wr := true, rd := true }
    (br 3 (0x40000000 + 4096 * 2 ^ 64) gal))) [.cpy { move with dir := 0, va := 3, shape := { w0 := 0, w1 := 256, w2 := 16, w3 := 0 } }]).getD base
/-- Peer 7 reaches context 1 through port 17, whose row grants low memory. -/
def imported_ : State :=
  upD (fun d => { d with domen := true, syncok := true, peers := [7], ports := 0x20000 })
    (Tab.imports.put 0 { peer := 7, peerCtx := 2, ctx := 1 } (Tab.pages.put 9 { ctx := 1, inc := 0, va := 0x9000, size := 12 }
      (Tab.access.put (315 * 4) { wbase := 0, limit := 0x7FFFF, at_ := true, wr := true, rd := true }
        (Tab.access.put (296 * 4 + 1) { wbase := 0, limit := 0x7FFFF, at_ := false, wr := true, rd := true } boxed))))
def sent : RemoteAccess :=
  { peer := 7, port := 17, peerCtx := 2, cls := .data, kind := .write, pa := 0x9010, bytes := 16, data := 0x77, data2 := 0, window := 0 }
def told_ : HostAccess := { link := 0, write := true, pa := 0x9FC0, bytes := 64, data := 0x1234 }

/-- A breakpoint stops with cause 0x50 before its instruction; a host's store is at home; a remote write leaves the marks of its peer's slot; a missing port
makes no event twice; an offset of 51 is out of step (R412, R435, R440, R182, R409). -/
theorem test_outside :
    ((runs (.breakpointHit 0 0) (ctxAs 1 (fun x => { x with attached := true }) (upL (fun l => { l with flags := 8 }) (broken base)))).group? 0).map (fun x => x.halt.map fun h => (h.cause, h.tag, h.split)) = some (some (0x50, 0x10000, 0)) ∧
    (runs (.hostAccess told_) imported_).homeNat 0x9FC0 4 = 0x1234 ∧
    (Tab.marks.at (0x9010 / 32) (runs (.remoteRequest sent) imported_)).map (fun e => (e.r0.slot, e.r0.valid)) = some (0x8107, true) ∧
    (runs (.portFailure 3) base).dev.erPost = [] ∧ (runs (.ptpMessage 51) imported_).dev.syncok = false ∧
    (runs (.ptpMessage (-50)) base).dev.syncok = true := by decide +kernel
theorem test_meets_breakpoints :
    stood base (fun c => c.sp.outs == [] && !(base.ctx c.lau.ctx).tracing && !bitAt c.sp.pre 0 && (base.breakpoint c).isNone) ∧
    (let s := ctxAs 1 (fun x => { x with attached := true }) (upL (fun l => { l with flags := 8 }) (broken base))
     stood s fun c => c.sp.outs == [] && !bitAt c.sp.pre 0 && s.breakpoint c == some (0, 0) && c.lau.flags.getLsbD 3 && (s.ctx 1).attached) ∧
    (let s := broken handled
     stood s fun c => s.breakpoint c == some (0, 0) && !c.lau.flags.getLsbD 3 && canTrap c && c.blk.gids == [0]) := by decide +kernel
theorem test_meets_watchpoints :
    (base.group? 0).map (·.hit) = some none ∧
    ((struck 0).group? 0).map (fun x => (x.hit, x.halt, x.haltReq)) = some (some (ask_ 0 0x51), none, none) ∧
    ((struck 0).group? 0).map (fun x => (struck 0).hitEnded x) = some true ∧
    (let s := upG (fun x => { x with hit := some (ask_ 0 0x51), hitOp := some 3 }) (answered ldOne data)
     (s.group? 0).map (fun x => s.hitEnded x) = some false ∧
     ((runs (.watchpointHit 0 0) s).group? 0).map (fun x => (x.hit.isSome, x.haltReq)) = some (true, none)) ∧
    ((upG (fun x => { x with halt := some { cause := 0x53, tag := 0, split := 0, frame := [] } }) (struck 0)).group? 0).map (fun x => (x.hit, x.halt.isSome)) =
      some (some (ask_ 0 0x51), true) ∧
    (let s := Tab.groups.put 1 (Group.start 1 0 0 0 (fullMask 32) 1) (upB (fun b => { b with gids := [0, 1] }) (struck 1))
     (s.blockOf 0).map (·.gids) = some [0, 1] ∧ (s.launchOf 0).isSome ∧ (s.group? 1).map (fun z => (z.halt, z.haltReq)) = some (none, none) ∧
     ((List.range 4).all fun m => !s.held 1 m) = true) ∧
    (let s := upS (fun y => { y with wait := .stopped }) (upG (fun x => { x with haltReq := some (ask_ 0 0x51) }) base)
     s.stopSplit 0 = some 0 ∧ s.outsQuiet 0 = true ∧ (s.group? 0).map (fun x => (x.haltReq, x.halt)) = some (some (ask_ 0 0x51), none) ∧ (s.launchOf 0).map (·.ctx) = some 1 ∧
     (s.ctx 1).tracing = false) := by decide +kernel
theorem test_meets_debug :
    stood base (fun c => !base.sampleDue c.core c.lau.ctx) ∧
    stood sampled (fun c => sampled.sampleDue c.core c.lau.ctx && sampled.launchOf 0 == some c.lau && !sampled.traceHeld c.lau.ctx) ∧
    (boxed.mayWrite 296 0x90000110 = true ∧ (boxed.ctx 1).tracePost = [] ∧ boxed.mayWrite 0 0x90000110 = false) ∧
    (boxed.mayWrite 296 0x80000010 = true ∧ boxed.dev.erPost = [] ∧ boxed.mayWrite 0 0x80000010 = false) ∧
    (let s := upD (fun d => { d with erPost := [List.replicate 8 5], ersize := 20 }) boxed
     s.mayWrite 296 0x80000010 = true ∧ s.dev.erPost = [List.replicate 8 5] ∧ 8 ≤ s.dev.ersize.toNat ∧ s.dev.ersize.toNat ≤ 20 ∧
     (s.dev.ertail.toNat + 1) % 2 ^ s.dev.ersize.toNat ≠ 0 ∧
     s.fwMay 3 .store (s.dev.erbase.toNat + 32 * (s.dev.ertail.toNat % 2 ^ s.dev.ersize.toNat)) 32 = true) ∧
    (let s := upD (fun d => { d with cycle := 5 }) (upS (fun y => { y with wait := .delay 5 }) base)
     (s.split? 0 0).map (·.wait) = some (.delay 5) ∧ 5 ≤ s.dev.cycle.toNat) ∧
    (let s := (Act.upd .ops 3 fun o => { o with phase := .waiting }).run (answered addOne (vr 6 0 1 data))
     (Tab.ops.at 3 s).map (fun o => o.phase == .waiting && isMemory o.instr && o.journaled && !consumesPoison s o) = some true) ∧
    (Tab.ops.at 3 (answered ldOne data)).map (fun o => o.phase != .waiting) = some true := by decide +kernel
theorem test_meets_host :
    (imported_.hostGranted told_ = true ∧ isCompanion told_.pa = false ∧ isManagement told_.pa = false) ∧
    (isCompanion (2 ^ 48) = true ∧ isCompanion (2 ^ 48 + 64) = true) ∧ base.hostGranted { told_ with link := 1 } = false ∧
    (Tab.ops.at 3 (lineAway ldOne)).map (fun o => isMemory o.instr && (outerLine o).isSome && o.phase == .responding) = some true ∧
    (Tab.ops.at 3 linePeer).map (fun o => isMemory o.instr && o.phase == .responding && outerLine o == some 0x800 &&
      (match o.lineTr 0x800 with
       | some (.ok l) => peerOf (l * 128) == some 3
       | _ => false)) = some true ∧
    after (.companionResponse 3 (.conflict 0x20 1 5)) linePeer (fun t => (Tab.ops.at 3 t).map fun o => (o.phase, o.fail.map (·.cause))) =
      some (some (.failed, some 0x20)) ∧
    (Tab.ops.at 3 copyAway).map (fun o => !isMemory o.instr && o.phase == .running && (outerBlame copyAway o).isSome) = some true := by decide +kernel
theorem test_meets_remote :
    (imported_.imported sent = some (1, 0) ∧ imported_.heldBack 0x9010 = false ∧ imported_.heldBack 0x901F = false ∧ imported_.dev.window = 0 ∧
     imported_.marks = [] ∧ Tab.side.val 0 (0x9010 / 32) imported_ = 0 ∧ imported_.stale (.slice (homeSlice 0x9010)) 1 0 = false) ∧
    base.imported sent = none ∧ (Tab.paused.put (stackOf 0x9010) 1 imported_).heldBack 0x9010 = true := by decide +kernel
theorem test_meets_links :
    (let s := upD (fun d => { d with ports := 3 }) base
     s.dev.ports.getLsbD 0 = true ∧ s.dev.ports.getLsbD 17 = false ∧ s.dev.ports ≠ BitVec.ofNat 18 (2 ^ 0) ∧ s.dev.ersize = 0 ∧ s.dev.erPost = []) ∧
    (let s := upD (fun d => { d with ports := 0x20000 }) ((Act.upd .ops 3 fun o => { o with remote := true }).run (answered ldOne data))
     s.dev.ports = BitVec.ofNat 18 (2 ^ 17) ∧ (Tab.ops.at 3 s).map (fun o => (o.remote, o.phase)) = some (true, .responding)) ∧
    (base.dev.ubpen.getLsbD 1 = true ∧ (upD (fun d => { d with ubpen := 0 }) base).dev.ubpen.getLsbD 0 = false) := by decide +kernel
theorem test_meets_registers :
    ((List.range 8).all fun k => boxed.mayWrite 296 (0xA0000008 + 0x1000 * k) && boxed.mayWrite 296 (0xA0000138 + 0x1000 * k) && !(boxed.box k).busy) = true ∧
    3 ≤ boxed.dev.stage.toNat ∧ boxed.mayWrite 296 0xC0000008 = true ∧ boxed.mayWrite 296 0x20000010 = true ∧ boxed.mayWrite 296 (0x20000010 + 4096 * 31) = true ∧
    boxed.mayWrite 9 0xC0000008 = false ∧ (boxed.mayWrite 296 0x80000010 = true ∧ boxed.dev.erPost = []) ∧
    (runs (.registerWrite 296 0x80000010 ⟨0xFFFFFF, 0x2⟩) (upD (fun d => { d with erhead := 0x12345 }) boxed)).dev.erhead = 0x1FF45 ∧
    ((List.range 6).all fun h => (Tab.fws.put 7 { boxed.fw 7 with hand := BitVec.ofNat 3 h } boxed).dev.erPost == []) = true ∧
    ((Tab.fws.put 7 { boxed.fw 7 with hand := 3 } boxed).fw 7).held = [] ∧
    ((Tab.fws.put 0 { boxed.fw 0 with hand := 3, held := [.doorbell 5 1] } boxed).fw 0).held = [.doorbell 5 1] := by decide +kernel

/-- The word of an SADD, placed where the next step issues it. -/
def placed : State := State.reset.withFetchWord 32 0x010828C0
theorem test_meets_steps :
    (match pick placed with
     | .issue 0 0 f => stood (f.take placed) fun c =>
        let s := f.take placed
        let va := c.lau.code + c.lau.textOff + c.sp.pc.toNat
        match fetchBytes s (some c.core) c.lau c.sp.pc.toNat 28 with
        | .ok bs => match decode bs with
          | .ok (i, len) => lengthAt s (some c.core) c.lau c.sp.pc.toNat == len && c.sp.pc.toNat % 4 == 0 && c.sp.pc.toNat < c.lau.textSize &&
            (i.stop || (c.sp.pc.toNat != c.lau.handler && !isEntry s c.lau c.sp.pc.toNat)) && ([va, va + len - 1].all fun a => match s.translate c.lau.ctx a with
              | .ok x => (s.accessFault c.core .load (x.pa / 128 * 128) 128).isNone && !s.poisoned (sectorOf x.pa)
              | .error _ => false) &&
            !s.mustStop 0 0 && (windowHold s c).isNone && (convertedHere s c).isNone && (storeHold s c).isNone && (atStop s { c with len := len } i).isNone &&
            (uniformHold s { c with len := len } i).isNone
          | .error _ => false
        | .error _ => false
     | _ => false) = true ∧
    (match pick State.reset with
     | .event (.bootStageComplete 0) _ => true
     | _ => false) = true ∧
    (match pick (upD (fun d => { d with stage := 7 }) State.reset) with
     | .pass _ _ => true
     | _ => false) = true := by decide +kernel
theorem test_meets_canonical : drainedOnly.wf ∧ drainedOnly.goesOn := ⟨test_drained_wf, _, rfl⟩
theorem test_meets_round_trip : (Instr.nop false).wf = true ∧ encode (.nop false) ≠ [] := by decide +kernel
end Sys2Proof.Tests
end

section
/-! PROOFS. The end of an interval (R147), its acquire and its release (R148, R183), and FENCE (R165). -/

namespace Sys2Proof.Machine.L1Memory

open Sys2Proof

/-! ## The entry of the issuing group -/

theorem groupIs_refl {c : Iss} {x : Group} {s : State} (h : Tab.groups.at c.gid s = some x) : GroupIs c x s s := ⟨h, fun _ _ => rfl⟩
theorem groupIs_trans {c : Iss} {x y : Group} {s t u : State} (h : GroupIs c x s t) (h' : GroupIs c y t u) : GroupIs c y s u :=
  ⟨h'.1, fun k hk => (h'.2 k hk).trans (h.2 k hk)⟩
theorem groupIs_put (c : Iss) (x : Group) (s : State) : GroupIs c x s (Tab.groups.put c.gid x s) :=
  ⟨by rw [Tab.at_put_self]; rfl, fun _ hk => Tab.at_put_ne _ hk _ _⟩
theorem groupIs_upd {c : Iss} {x : Group} {s : State} (h : Tab.groups.at c.gid s = some x) (f : Group → Group) :
    GroupIs c (f x) s ((Act.upd .groups c.gid f).run s) := by
  rw [Act.upd_run h]; exact groupIs_put c (f x) s
/-- An act that writes no group, before the one that does. -/
theorem groupIs_after {c : Iss} {x : Group} {s s' t : State} (hs : Tab.groups.get s' = Tab.groups.get s) (h : GroupIs c x s' t) :
    GroupIs c x s t := ⟨h.1, fun k hk => (h.2 k hk).trans (Tab.at_of_get hs k)⟩
/-- An act that writes no group, after the one that does. -/
theorem groupIs_before {c : Iss} {x : Group} {s t u : State} (h : GroupIs c x s t) (hu : Tab.groups.get u = Tab.groups.get t) :
    GroupIs c x s u := ⟨(Tab.at_of_get hu _).trans h.1, fun k hk => (Tab.at_of_get hu k).trans (h.2 k hk)⟩

/-! ## Core records -/

theorem core_of_get {s t : State} (h : Tab.cores.get t = Tab.cores.get s) (k : Nat) : t.core k = s.core k := Tab.val_of_get h _ k
theorem core_put (k : Nat) (v : CoreRec) (s : State) : (Tab.cores.put k v s).core k = v :=
  Tab.val_put_self _ _ _ _ _ fun h => by simpa [Tab.isDefault] using h
theorem core_put_ne {j k : Nat} (h : j ≠ k) (v : CoreRec) (s : State) : (Tab.cores.put k v s).core j = s.core j := Tab.val_put_ne _ _ h _ _

/-! ## Interval counters (R91, R124) -/

theorem icountOf_of_get {s t : State} (h : Tab.icount.get t = Tab.icount.get s) (k : Nat) : t.icountOf k = s.icountOf k := Tab.val_of_get h _ k
theorem icountOf_put (k : Nat) (v : BitVec 32) (s : State) : (Tab.icount.put k v s).icountOf k = v :=
  Tab.val_put_self _ _ _ _ _ fun h => by simpa [Tab.isDefault] using h

theorem due_inside (ns : List Nat) (xs : List Instr) : (Act.due xs).inside ns := by
  unfold Act.due; split <;> trivial
theorem advanceSlot_inside (slot : Nat) : (advanceSlot slot).inside [Tab.icount.num, Tab.notices.num] := by
  intro s
  refine ⟨by simp [Act.inside], ?_⟩
  split
  · exact ⟨by simp [Act.inside], due_inside _ _⟩
  · trivial
/-- The counter of a slot advances by one, whether or not the stamp enters a new quarter. -/
theorem advanceSlot_icount (slot : Nat) (s : State) : ((advanceSlot slot).run s).icountOf slot = s.icountOf slot + 1 := by
  simp only [advanceSlot, Act.run_read, Act.run_seq, Act.run_put]
  refine (icountOf_of_get ?_ slot).trans (icountOf_put slot _ s)
  split
  · next => exact Act.inside_run (ns := [Tab.notices.num]) (a := .seq _ _) ⟨by simp [Act.inside], due_inside _ _⟩ _ _ .icount (by decide)
  · rfl
theorem advanceTslot_inside (t k : Nat) : (advanceTslot t k).inside [Tab.teamCnt.num, Tab.tscan.num] :=
  fun _ => ⟨by simp [Act.inside], Act.within_inside (Act.within_when fun _ => by simp)⟩

/-! ## The end of a group's interval (R147) -/

/-- What the end of the issuing group's interval leaves. -/
structure IntervalEnded (c : Iss) (s t : State) : Prop where
  group : GroupIs c { c.grp with overflowed := false } s t
  icount : t.icountOf c.slot = s.icountOf c.slot + 1
  gen : ∀ k, (t.core k).gen = (s.core k).gen
  filter : ∀ sec, sec < 2 ^ 47 → Tab.filter.at (filterKey c.gid sec) t = none
  rest : SameTables [Tab.groups.num, Tab.icount.num, Tab.notices.num, Tab.teamCnt.num, Tab.tscan.num, Tab.filter.num, Tab.cores.num] s t

/-- Counting an overflowed filter changes no generation. -/
theorem gen_countOverflow (on : Bool) (j k : Nat) (s : State) :
    (((Act.when on (.updD .cores CoreRec.init j fun x => { x with fovf := x.fovf + 1 })).run s).core k).gen = (s.core k).gen := by
  rw [Act.run_when]
  split
  · rw [Act.updD_run]
    by_cases h : k = j
    · subst h; rw [core_put]; rfl
    · rw [core_put_ne h]
  · rfl

/-- The filter of the issuing group is cleared, and an overflow of it counted. -/
def clearFilter (c : Iss) : Act :=
  .seq (.clear .filter (c.gid * 2 ^ 47) ((c.gid + 1) * 2 ^ 47))
    (.when c.grp.overflowed (.updD .cores CoreRec.init (coreOf c.gid) fun x => { x with fovf := x.fovf + 1 }))
/-- The counters of the issuing group advance. -/
def countInterval (c : Iss) : Act := .seq (advanceSlot (slotOf c.gid)) (advanceTslot c.blk.tid (tslotOf c.lau c.blk c.grp))

theorem endInterval_run {c : Iss} {s : State} (hx : s.group? c.gid = some c.grp) (hb : s.blockOf c.gid = some c.blk)
    (hl : s.launchOf c.gid = some c.lau) :
    (endInterval c.gid).run s =
      (countInterval c).run (Tab.groups.put c.gid { c.grp with overflowed := false } ((clearFilter c).run s)) := by
  simp only [endInterval, clearFilter, countInterval, hx, hb, hl, Act.run_read, Act.run_all_cons, Act.run_all_nil, Act.run_put,
    Act.run_seq]
theorem clearFilter_same (c : Iss) (s : State) : SameTables [Tab.filter.num, Tab.cores.num] s ((clearFilter c).run s) :=
  Act.inside_run (Act.within_inside (a := .seq _ _) ⟨by simp, Act.within_when fun _ => Act.within_updD _ _ _ _ (by simp)⟩) s
theorem clearFilter_filter (c : Iss) (s : State) {sec : Nat} (h : sec < 2 ^ 47) :
    Tab.filter.at (filterKey c.gid sec) ((clearFilter c).run s) = none := by
  have hcount := Act.inside_run (ns := [Tab.cores.num]) (Act.within_inside (Act.within_when (c := c.grp.overflowed) fun _ =>
    Act.within_updD .cores CoreRec.init (coreOf c.gid) (fun x => { x with fovf := x.fovf + 1 }) (by simp)))
    (Tab.filter.clear (c.gid * 2 ^ 47) ((c.gid + 1) * 2 ^ 47) s)
  exact (Tab.at_of_get (hcount _ .filter (by decide)) _).trans (Tab.at_clear_in _ (by unfold filterKey; omega) s)
theorem clearFilter_gen (c : Iss) (k : Nat) (s : State) : (((clearFilter c).run s).core k).gen = (s.core k).gen :=
  (gen_countOverflow _ _ _ _).trans (congrArg CoreRec.gen (core_of_get (Tab.get_clear_ne (by decide) _ _ s) k))
theorem countInterval_same (c : Iss) (s : State) :
    SameTables [Tab.icount.num, Tab.notices.num, Tab.teamCnt.num, Tab.tscan.num] s ((countInterval c).run s) :=
  Act.inside_run (a := .seq _ _) ⟨Act.inside_mono (by simp) (advanceSlot_inside _), Act.inside_mono (by simp) (advanceTslot_inside _ _)⟩ s
theorem countInterval_icount (c : Iss) (s : State) : ((countInterval c).run s).icountOf c.slot = s.icountOf c.slot + 1 :=
  (icountOf_of_get (Act.inside_run (advanceTslot_inside _ _) _ _ .icount (by decide)) _).trans (advanceSlot_icount _ _)

theorem endInterval_ends {c : Iss} {s : State} (hx : s.group? c.gid = some c.grp) (hb : s.blockOf c.gid = some c.blk)
    (hl : s.launchOf c.gid = some c.lau) : IntervalEnded c s ((endInterval c.gid).run s) := by
  rw [endInterval_run hx hb hl]
  have hclear := clearFilter_same c s
  have hput := groupIs_put c { c.grp with overflowed := false } ((clearFilter c).run s)
  have hsame : SameTables [Tab.groups.num] ((clearFilter c).run s) (Tab.groups.put c.gid { c.grp with overflowed := false } ((clearFilter c).run s)) :=
    Act.inside_run (a := .put _ _ _) (by simp [Act.inside]) _
  have hcount := countInterval_same c (Tab.groups.put c.gid { c.grp with overflowed := false } ((clearFilter c).run s))
  have hicount := countInterval_icount c (Tab.groups.put c.gid { c.grp with overflowed := false } ((clearFilter c).run s))
  generalize Tab.groups.put c.gid { c.grp with overflowed := false } ((clearFilter c).run s) = u at *
  constructor
  · exact groupIs_before (groupIs_after (hclear _ .groups (by decide)) hput) (hcount _ .groups (by decide))
  · rw [hicount, icountOf_of_get (hsame _ .icount (by decide)), icountOf_of_get (hclear _ .icount (by decide))]
  · intro k
    rw [core_of_get (hcount _ .cores (by decide)), core_of_get (hsame _ .cores (by decide)), clearFilter_gen]
  · intro sec hsec
    rw [Tab.at_of_get (hcount _ .filter (by decide)), Tab.at_of_get (hsame _ .filter (by decide)), clearFilter_filter c s hsec]
  · exact (hclear.mono (by simp)).trans ((hsame.mono (by simp)).trans (hcount.mono (by simp)))

/-! ## Acquire and release (R148, R183) -/

/-- What an acquire at `acq` leaves, for a group whose entry was `x`. -/
structure Acquired (c : Iss) (x : Group) (acq : Option Scope) (s t : State) : Prop where
  group : GroupIs c { x with va := if acq.any Scope.wide then (s.core c.core).gen + 1 else x.va } s t
  gen : (t.core c.core).gen = if acq.any Scope.wide then (s.core c.core).gen + 1 else (s.core c.core).gen
  rest : SameTables [Tab.groups.num, Tab.cores.num] s t

theorem acquireAt_eq (g : Nat) (acq : Option Scope) : acquireAt g acq = Act.when (acq.any Scope.wide) (acquireAct g) := by
  cases acq <;> rfl
/-- Short of the last generation an acquire is no wrap (R150). -/
theorem acquireAct_run {g : Nat} {x : Group} {s : State} (hx : Tab.groups.at g s = some x) (hg : (s.core (coreOf g)).gen ≠ 0xFFFFFF) :
    (acquireAct g).run s = Tab.groups.put g { x with va := (s.core (coreOf g)).gen + 1 }
      (Tab.cores.put (coreOf g) { s.core (coreOf g) with gen := (s.core (coreOf g)).gen + 1 } s) := by
  have hx' := (Tab.at_other (t := Tab.cores) (u := Tab.groups) (by decide) g (coreOf g)
    { s.core (coreOf g) with gen := (s.core (coreOf g)).gen + 1 } s).trans hx
  simp only [acquireAct, Act.run_read, Act.run_seq, Act.run_when, beq_iff_eq, hg, if_false, Act.run_put, Act.upd_run hx']
theorem acquireAt_acquires {c : Iss} {x : Group} {s : State} (hx : Tab.groups.at c.gid s = some x) (hg : (s.core c.core).gen ≠ 0xFFFFFF)
    (acq : Option Scope) : Acquired c x acq s ((acquireAt c.gid acq).run s) := by
  rw [acquireAt_eq, Act.run_when]
  cases hw : acq.any Scope.wide
  · constructor
    · rw [hw]; exact groupIs_refl hx
    · rw [hw]; rfl
    · exact fun _ _ _ => rfl
  · rw [if_pos rfl, acquireAct_run hx hg]
    constructor
    · rw [hw]; exact groupIs_after (Tab.get_put_ne (by decide) _ _ _) (groupIs_put _ _ _)
    · rw [hw, core_of_get (Tab.get_put_ne (by decide) _ _ _), show c.core = coreOf c.gid from rfl, core_put]; rfl
    · exact Act.inside_run (a := .seq (.put .cores _ _) (.put .groups _ _)) (by simp [Act.inside]) s

theorem escape_within (g : Nat) : (escape g).within [Tab.blocks.num] := by
  intro s; dsimp only; split
  · exact Act.within_upd _ _ _ (by simp)
  · trivial

/-- A release at `rel`: its block has escaped when it is wider than the block, and N_last is clear after one at system scope. -/
def releaseAct (g : Nat) (rel : Option Scope) : Act :=
  .seq (.when (rel.any Scope.wide) (escape g)) (.when (rel == some .sys) (.upd .groups g fun x => { x with nlast := none }))
theorem releaseAct_same (g : Nat) (rel : Option Scope) (s : State) :
    SameTables [Tab.groups.num, Tab.blocks.num] s ((releaseAct g rel).run s) :=
  Act.inside_run (Act.within_inside (a := .seq _ _) ⟨Act.within_when fun _ => Act.within_mono (by simp) (escape_within g),
    Act.within_when fun _ => Act.within_upd _ _ _ (by simp)⟩) s
theorem releaseAct_group {c : Iss} {x : Group} {s : State} (hx : Tab.groups.at c.gid s = some x) (rel : Option Scope) :
    GroupIs c { x with nlast := if rel = some .sys then none else x.nlast } s ((releaseAct c.gid rel).run s) := by
  rw [releaseAct, Act.run_seq]
  have hesc := Act.inside_run (Act.within_inside (Act.within_when (c := rel.any Scope.wide) fun _ => escape_within c.gid)) s _ .groups (by decide)
  generalize (Act.when (rel.any Scope.wide) (escape c.gid)).run s = u at *
  have hu := (Tab.at_of_get hesc c.gid).trans hx
  refine groupIs_after hesc ?_
  rw [Act.run_when]
  by_cases hsys : rel = some .sys
  · simpa only [hsys, beq_self_eq_true, if_true] using groupIs_upd hu _
  · simpa only [beq_iff_eq, hsys, if_false] using groupIs_refl hu

/-! ## An instruction that ends the interval -/

theorem group_advance (c : Iss) (s : State) (g : Nat) : (c.advance.run s).group? g = s.group? g :=
  Tab.at_of_get ((advance_same c s).2 _ .groups (by decide)) g
theorem blockOf_advance (c : Iss) (s : State) (g : Nat) : (c.advance.run s).blockOf g = s.blockOf g := by
  have hblocks : ∀ k, (c.advance.run s).block? k = s.block? k := Tab.at_of_get ((advance_same c s).2 _ .blocks (by decide))
  simp only [State.blockOf, group_advance, hblocks]
theorem launchOf_advance (c : Iss) (s : State) (g : Nat) : (c.advance.run s).launchOf g = s.launchOf g := by
  have hlaunches : ∀ k, (c.advance.run s).launch? k = s.launch? k := Tab.at_of_get ((advance_same c s).2 _ .launches (by decide))
  simp only [State.launchOf, blockOf_advance, hlaunches]

/-- What an instruction with gate open leaves that ends the interval with a release at `rel` and an acquire at `acq`. -/
structure EndedBy (c : Iss) (rel acq : Option Scope) (s t : State) : Prop where
  moved : MovedTo c c.next s t
  icount : t.icountOf c.slot = s.icountOf c.slot + 1
  group : GroupIs c { c.grp with overflowed := false, va := if acq.any Scope.wide then (s.core c.core).gen + 1 else c.grp.va,
                                 nlast := if rel = some .sys then none else c.grp.nlast } s t
  gen : (t.core c.core).gen = if acq.any Scope.wide then (s.core c.core).gen + 1 else (s.core c.core).gen
  filter : ∀ sec, sec < 2 ^ 47 → Tab.filter.at (filterKey c.gid sec) t = none
  rest : SameTables [Tab.splits.num, Tab.groups.num, Tab.blocks.num, Tab.icount.num, Tab.notices.num, Tab.teamCnt.num, Tab.tscan.num,
    Tab.filter.num, Tab.cores.num] s t

theorem ending_run {c : Iss} {rel acq : Option Scope} {s : State} (hg : s.gate c rel = .go) :
    (c.ending rel acq .skip).run s =
      (releaseAct c.gid rel).run ((acquireAt c.gid acq).run ((endInterval c.gid).run (c.advance.run s))) := by
  simp only [Iss.ending, Iss.gated, Act.run_read, hg, releaseAct, Act.run_all_cons, Act.run_all_nil, Act.run_seq, Act.run_skip]
  cases rel <;> rfl

theorem ending_ends {c : Iss} {rel acq : Option Scope} {s : State} (h : Stands c s) (hg : s.gate c rel = .go)
    (hmax : (s.core c.core).gen ≠ 0xFFFFFF) : EndedBy c rel acq s ((c.ending rel acq .skip).run s) := by
  rw [ending_run hg]
  have hadv := advance_same c s
  have hmoved := advance_moved c s
  have hend := endInterval_ends (s := c.advance.run s) ((group_advance c s _).trans h.grp) ((blockOf_advance c s _).trans h.blockOf)
    ((launchOf_advance c s _).trans h.launchOf)
  generalize c.advance.run s = s1 at *
  have hgen : (((endInterval c.gid).run s1).core c.core).gen = (s.core c.core).gen := by
    rw [hend.gen, core_of_get (hadv.2 _ .cores (by decide))]
  generalize (endInterval c.gid).run s1 = s2 at *
  have hacq := acquireAt_acquires hend.group.1 (by rwa [hgen]) acq
  generalize (acquireAt c.gid acq).run s2 = s3 at *
  have hrel := releaseAct_group hacq.group.1 rel
  have hrest := releaseAct_same c.gid rel s3
  generalize (releaseAct c.gid rel).run s3 = t at *
  constructor
  · refine hmoved.of_get ?_
    rw [hrest _ .splits (by decide), hacq.rest _ .splits (by decide), hend.rest _ .splits (by decide)]
  · rw [icountOf_of_get (hrest _ .icount (by decide)), icountOf_of_get (hacq.rest _ .icount (by decide)), hend.icount,
      icountOf_of_get (hadv.2 _ .icount (by decide))]
  · rw [← hgen]
    exact groupIs_after (hadv.2 _ .groups (by decide)) (groupIs_trans hend.group (groupIs_trans hacq.group hrel))
  · rw [core_of_get (hrest _ .cores (by decide)), hacq.gen, hgen]
  · intro sec hsec
    rw [Tab.at_of_get (hrest _ .filter (by decide)), Tab.at_of_get (hacq.rest _ .filter (by decide)), hend.filter sec hsec]
  · exact (hadv.2.mono (by simp)).trans ((hend.rest.mono (by simp)).trans ((hacq.rest.mono (by simp)).trans (hrest.mono (by simp))))

/-! ## FENCE (R165) -/

/-- A gate stands open only when no late fault is to be reported (R43, R147). -/
theorem failedOp_of_gate_go {c : Iss} {rel : Option Scope} {s : State} (hg : s.gate c rel = .go) : s.failedOp c.gid = none := by
  unfold State.gate at hg
  split at hg
  · cases hg
  · assumption

theorem execFence_next {sb : Bool} {k : FenceKind} {sc : Scope} {c : Iss} {s : State} (hi : s.issuer (.fence sb k sc) = some c)
    (hf : s.failedOp c.gid = none) (hw : fenceWaits s c k = false) :
    execFence sb k sc s = .next ((c.ending (if k = .acq then none else some sc) (if k = .rel then none else some sc) .skip).run s) := by
  simp only [execFence, issue_next hi, Act.run_read, hf, hw, Bool.false_eq_true, if_false, beq_iff_eq]

/-- A fence acquires in the L1 when it is no plain release and wider than the block (R148). -/
theorem fence_acquires (k : FenceKind) (sc : Scope) :
    (if k = .rel then none else some sc).any Scope.wide = (k ≠ .rel && sc ≠ .blk : Bool) := by
  cases k <;> cases sc <;> rfl

end Sys2Proof.Machine.L1Memory

open Sys2Proof Sys2Proof.Machine Sys2Proof.Machine.L1Memory

/-- Settles O11: FENCE is an instruction that ends the interval, with the scopes of its kind. -/
theorem fences : Obligations.Fences := by
  unfold Obligations.Fences
  intro sb k sc rel acq s c _ hi ⟨hgate, hwait, hmax⟩
  refine ⟨_, execFence_next hi (failedOp_of_gate_go hgate) hwait, ?_⟩
  obtain ⟨hmoved, hicount, hgroup, hgen, hfilter, hrest⟩ :=
    ending_ends (acq := if k = .rel then none else some sc) (Stands.of_issuer hi) hgate hmax
  rw [fence_acquires] at hgroup hgen
  obtain ⟨-, -, -, -, -, hlen⟩ := State.issuer_some hi
  have hpc : c.next = c.sp.pc + 4 := by rw [Iss.next, hlen]; rfl
  exact ⟨hpc ▸ hmoved, hicount, hgroup, hgen, hfilter, hrest.memory (by decide), hrest⟩

end

section
/-! PROOFS. What the front of LD, ST and ATOM finds (R156, R157). -/

namespace Sys2Proof.Machine.L1Memory

open Sys2Proof

/-- Where a lane of a memory form is placed, and whether that is out of bounds (R98), in an access of the form's own size. -/
def laneAt (c : Iss) (s : State) (f : MForm) (l : Nat) : Bool × Nat :=
  let b := Buf.of (s.breg c.gid f.buf.toNat)
  b.place (b.offset (if f.uidx then s.sreg c.gid f.va.toNat else s.vreg c.gid f.va.toNat l) f.off.toInt) f.size.bytes

/-- A lane of the operation of a memory form that is no fadd: its address, its operand, and for cas the replacement (R161). -/
def laneAcc (c : Iss) (s : State) (f : MForm) (atomic : Bool) (l : Nat) : LaneAcc :=
  { lane := l, va := (laneAt c s f l).2, b := s.vwide c.gid f.vb.toNat l (sizeWords f.size),
    c := if atomic && f.aop == 9 then s.vwide c.gid f.vc.toNat l (sizeWords f.size) else 0 }

theorem laneData_plain (s : State) (g l : Nat) (b : Buf) (f : MForm) (fmt : BitVec 32) :
    laneData s g l b f false fmt = (s.vwide g f.vb.toNat l (sizeWords f.size), 0) := rfl
theorem faddTrap_other {f : MForm} (h : f.aop ≠ 1) (b : Buf) (fmt : BitVec 32) : faddTrap b f fmt = none := by
  rw [faddTrap, if_pos (by simpa using h)]

/-- A lane as the front of a memory form places it. -/
def lanePlaced (c : Iss) (s : State) (f : MForm) (l : Nat) : Placed :=
  { lane := l, out := (laneAt c s f l).1, va := (laneAt c s f l).2 }

/-- THE FRONT OF A MEMORY FORM, no fadd, through a record that it may use, with every executing lane in bounds, and aligned when its class asks it:
none of the stops of stages 1 and 2 applies, and the operation starts with every executing lane. -/
theorem memFront_start {c : Iss} {s : State} {f : MForm} {atomic write : Bool} (i : Instr)
    (hvalid : (Buf.of (s.breg c.gid f.buf.toNat)).valid = true) (hro : write = true → (Buf.of (s.breg c.gid f.buf.toNat)).ro = false)
    (haop : f.aop ≠ 1) (hin : ∀ l ∈ c.execLanes s f.head, (laneAt c s f l).1 = false)
    (hal : (f.cls != .data && f.cls != .peek) = true → ∀ l ∈ c.execLanes s f.head, (laneAt c s f l).2 % f.size.bytes = 0) :
    ∃ o, memFront c s i f atomic write false = .start o [] ∧ o.lanes = (c.execLanes s f.head).map (laneAcc c s f atomic) ∧
      o.dest = if write && (!atomic || f.vd == 255) then none else some (f.vd.toNat, sizeWords f.size) := by
  unfold memFront
  extract_lets b fixed n m placed strict data good dest lanes unf base
  have hfixed : fixed = false := by simp only [fixed, beq_eq_false_iff_ne.mpr haop, Bool.and_false, Bool.false_and]
  have hn : n = f.size.bytes := by simp [n, hfixed]
  have hplaced : placed = (c.execLanes s f.head).map (lanePlaced c s f) := by simp only [placed, hn]; rfl
  have hout : ∀ p ∈ placed, p.out = false := by simpa [hplaced, lanePlaced] using hin
  have haligned : (if strict then placed.find? fun p => p.va % n != 0 else none) = none := by
    split
    · next hstrict => simpa [hplaced, hn, lanePlaced] using hal hstrict
    · rfl
  have hbounds : (if f.z then none else placed.find? fun p => p.out) = none := by
    split
    · rfl
    · simpa using hout
  have hzero : (placed.filter fun p => p.out) = [] := by simpa using hout
  have hgood : good = placed.map fun p => (p, s.vwide c.gid f.vb.toNat p.lane (sizeWords f.size), 0) := by
    have hdata : data = placed.map fun p => (p, s.vwide c.gid f.vb.toNat p.lane (sizeWords f.size), 0) :=
      List.map_congr_left fun p hp => by simp [hout p hp, hfixed, laneData_plain]
    rw [← hdata, List.filter_eq_self, hdata]
    simpa using hout
  have hwrite : (write && b.ro) = false := by simpa using hro
  have hlanes : lanes = (c.execLanes s f.head).map (laneAcc c s f atomic) := by
    simp only [lanes, hgood, hplaced, List.map_map]; rfl
  have hdest : dest = if write && (!atomic || f.vd == 255) then none else some (f.vd.toNat, sizeWords f.size) := by
    simp only [dest, hfixed, Bool.false_eq_true, if_false]
  have hb : b.valid = true := hvalid
  simp only [hb, hfixed, hwrite, haligned, faddTrap_other haop, hbounds, hzero, Bool.not_true, Bool.false_and, Bool.false_eq_true, if_false,
    List.map_nil]
  exact ⟨_, rfl, hlanes, hdest⟩

end Sys2Proof.Machine.L1Memory

open Sys2Proof Sys2Proof.Machine Sys2Proof.Machine.L1Memory

/-- Settles O17: with no lane out of bounds and none misaligned, the front starts the operation with every executing lane. -/
theorem memoryLanes : Obligations.MemoryLanes := by
  unfold Obligations.MemoryLanes
  intro f c s atomic write i b idx at_ hvalid hro _ haop hlanes
  obtain ⟨o, hstart, hacc, hdest⟩ := memFront_start (atomic := atomic) (write := write) i hvalid hro haop (fun l hl => (hlanes l hl).1)
    fun hstrict l hl => by
      obtain ⟨hdata, hpeek⟩ : f.cls ≠ .data ∧ f.cls ≠ .peek := by simpa using hstrict
      exact ((hlanes l hl).2.resolve_left hdata).resolve_left hpeek
  refine ⟨o, hstart, ?_, fun x hx => ?_, ?_⟩
  · simp [hacc, laneAcc, Function.comp_def]
  · rw [hacc] at hx
    obtain ⟨l, -, rfl⟩ := List.mem_map.mp hx
    refine ⟨rfl, rfl, ?_⟩
    simp only [laneAcc, sizeWords, Bool.and_eq_true, beq_iff_eq]
  · simpa only [sizeWords, Bool.and_eq_true, Bool.or_eq_true, Bool.not_eq_true', beq_iff_eq] using hdest

end

section
/-! PROOFS. A refused store lets its L1 set shed a line (R141, R146, R436). -/

namespace Sys2Proof.Machine.OuterAnswers

open Sys2Proof

/-! ## A store behind a link, in an L1 set with more lines than good ways -/

/-- A byte store of two lanes of group 0, on core 0: lane 0 writes physical address 0, whose registration is acknowledged, and lane 1 writes
the companion processor's memory, at 2^48. -/
def refusedStore : Op :=
  { gid := 0, split := 0, bid := 0, ctx := 0, inc := 0, slot := 0, stamp := 0,
    instr := .st { head := { s := false, la := 0, neg := false, guard := 7 }, uidx := false, nc := false, z := false, scope := .blk, cls := .data,
                   size := .n8, vd := 0, va := 4, vb := 5, vc := 0, buf := 3, off := 0, aop := 0 },
    pc := 0, site := 0, fmt := 0, path := some 1, dest := none, phase := .responding, blocking := false, exec := 3, unf := 3, zeroed := 0,
    brec := 0, brec2 := 0, lanes := [{ lane := 0, va := 0, b := 0, c := 0 }, { lane := 1, va := 128, b := 0, c := 0 }],
    lines := [(0, .ok 0), (1, .ok (2 ^ 41))], secs := [{ sector := 0, vsector := 0, words := 1, need := 1, ans := .ack }], results := [],
    flags := 0, fail := none, shape := { w0 := 0, w1 := 0, w2 := 0, w3 := 0 }, regs := [], prog := 0, rows := 0, snap := [], sent := [],
    seq := 0, remote := false, jseq := 0 }
/-- The line of lane 0, whose first byte is pending. -/
def pendingLine : L1Line := { L1Line.fresh 0 0 false 1 with s0 := { L1Sector.empty with pending := 1 } }
/-- An older line, whose first byte is dirty. -/
def dirtyLine : L1Line := { L1Line.fresh 0 0 false 0 with s0 := { L1Sector.empty with valid := 1, dirty := 1 } }
/-- The store waits for its answer while its L1 set holds 17 lines and has 16 good ways. A set holds more lines than it has good ways when
pending bytes kept it from shedding them at a step to a lower point (R141). -/
def overfullSet : State :=
  { State.reset with ops := [(0, refusedStore)], l1 := (0, pendingLine) :: (List.range 16).map fun i => (128 * (i + 1), dirtyLine) }

theorem overfullSet_waits : Tab.ops.at 0 overfullSet = some refusedStore ∧ isMemory refusedStore.instr = true ∧
    outerLine refusedStore ≠ none ∧ refusedStore.phase = .responding := by decide +kernel

/-- With the store's pending bytes gone, the set sheds its oldest line, whose dirty byte leaves as a write-back. -/
theorem clearPending_writes_back : ((clearPending refusedStore).run overfullSet).wbs ≠ [] := by decide +kernel

/-! ## What a refusal leaves of the write-backs -/

/-- The refusal of an access behind a link takes its pending bytes away; what it writes after that is its operation alone. -/
theorem refused_wbs {op : Nat} {o : Op} {s : State} (hat : Tab.ops.at op s = some o) (hmem : isMemory o.instr = true)
    (houter : outerLine o ≠ none) (hphase : o.phase = .responding) :
    ∃ t, exec (.companionResponse op .refused) s = .next t ∧ t.wbs = ((clearPending o).run s).wbs := by
  obtain ⟨line, hline⟩ := Option.ne_none_iff_exists'.mp houter
  refine ⟨_, rfl, ?_⟩
  simp only [hat, hmem, hline, hphase, peerBlame, Act.with?, if_true]
  exact (Act.within_run (ns := [Tab.ops.num]) (Act.within_upd _ _ _ (by simp)) _).2 _ .wbs (by decide)

end Sys2Proof.Machine.OuterAnswers

open Sys2Proof Sys2Proof.Machine Sys2Proof.Machine.OuterAnswers

/-- Refutes O55, in what COMPANION_RESPONSE may change when it refuses an access (R436): the statement allows the operation and the L1 only. A
refused store's pending bytes go (R146), and where they kept an L1 set above its good ways the set then sheds a line (R141), whose dirty bytes
leave as a write-back in flight. -/
theorem not_outside : ¬ Obligations.Outside := by
  unfold Obligations.Outside
  rintro ⟨-, hresponse, -⟩
  obtain ⟨-, hrefused, -⟩ := hresponse 0 refusedStore
  obtain ⟨t, hexec, -, -, -, -, hsame⟩ := hrefused overfullSet overfullSet_waits
  obtain ⟨hat, hmem, houter, hphase⟩ := overfullSet_waits
  obtain ⟨u, hexec', hwbs⟩ := refused_wbs hat hmem houter hphase
  cases hexec.symm.trans hexec'
  exact clearPending_writes_back (hwbs.symm.trans (hsame _ .wbs (by decide)))

end

section
/-! PROOFS. A copy takes an engine slot at issue (R186, R190). -/

namespace Sys2Proof.Machine.CopyEngine

open Sys2Proof Sys2Proof.Machine.L1Memory

/-! ## The operands of a copy -/

theorem memSrc_iff (f : CopyForm) : CopyForm.memSrc f = true ↔ f.dir = 0 ∨ f.dir = 2 := by simp [CopyForm.memSrc]
theorem memDst_iff (f : CopyForm) : CopyForm.memDst f = true ↔ f.dir = 1 ∨ f.dir = 2 := by simp [CopyForm.memDst]

/-- The records of the sides in memory, the first team of a multicast to windows, the station that the copy arrives at (R187, R190). -/
def srcRec (f : CopyForm) (c : Iss) (s : State) : BitVec 128 := if f.dir = 0 ∨ f.dir = 2 then s.breg c.gid f.va.toNat else 0
def dstRec (f : CopyForm) (c : Iss) (s : State) : BitVec 128 := if f.dir = 1 ∨ f.dir = 2 then s.breg c.gid f.vd.toNat else 0
def firstTeam (kind : CopyKind) (f : CopyForm) (c : Iss) (s : State) : Nat :=
  if kind = .multi ∧ ¬ (f.dir = 1 ∨ f.dir = 2) then (s.sreg c.gid f.vd.toNat).toNat else 0
def arriveAt (f : CopyForm) (c : Iss) (s : State) : BitVec 32 := if f.arv then s.sreg c.gid f.vc.toNat else 0

theorem srcRec_eq (f : CopyForm) (c : Iss) (s : State) : (if CopyForm.memSrc f then s.breg c.gid f.va.toNat else 0) = srcRec f c s := by
  simp only [srcRec, memSrc_iff]
theorem dstRec_eq (f : CopyForm) (c : Iss) (s : State) : (if CopyForm.memDst f then s.breg c.gid f.vd.toNat else 0) = dstRec f c s := by
  simp only [dstRec, memDst_iff]
theorem firstTeam_eq (kind : CopyKind) (f : CopyForm) (c : Iss) (s : State) :
    (if kind == .multi && !CopyForm.memDst f then (s.sreg c.gid f.vd.toNat).toNat else 0) = firstTeam kind f c s := by
  simp only [firstTeam, Bool.and_eq_true, beq_iff_eq, Bool.not_eq_true', ← Bool.not_eq_true, memDst_iff]
theorem arriveAt_eq (f : CopyForm) (c : Iss) (s : State) : (if f.arv then s.sreg c.gid f.vc.toNat else 0) = arriveAt f c s := rfl

/-- The copy that a split issues. -/
def issued (kind : CopyKind) (f : CopyForm) (c : Iss) (s : State) : Copy :=
  Copy.make kind f (s.shape c.gid f.shape) (srcRec f c s) (dstRec f c s) (firstTeam kind f c s)

/-- The operation of an issued copy in engine slot `sl`, entered from `u`. -/
def copyOp (i : Instr) (kind : CopyKind) (f : CopyForm) (c : Iss) (sl : Nat) (s u : State) : Op :=
  { c.op u i (some 3) with
    slot := BitVec.ofNat 16 sl, stamp := u.stampOf sl, exec := 1, unf := 1, brec := srcRec f c s, brec2 := dstRec f c s,
    shape := s.shape c.gid f.shape, regs := [firstTeam kind f c s, (arriveAt f c s).toNat, 0, (u.domain f.vb.toNat).gen],
    sent := if kind == .multi && !CopyForm.memDst f then (issued kind f c s).dests.map ((issued kind f c s).destTeam s c.blk.lid c.tid) else [] }

/-! ## Starting an operation in an engine slot -/

/-- Enter operation `mk` under the next identifier, in engine slot `sl`, and go past the instruction, which counts `events`. -/
def seat (c : Iss) (sl events : Nat) (mk : State → Op) : Act := .fresh fun id =>
  .all [advanceSlot sl, .read fun u => .put .ops id (mk u), c.advance, c.count events, .due [.copyChunk id]]
/-- The state in which the operation is entered: the slot has its new occupancy. -/
def occupied (sl : Nat) (s : State) : State := (advanceSlot sl).run { s with dev := { s.dev with nextId := s.dev.nextId + 1 } }

theorem count_within (c : Iss) (events : Nat) : (c.count events).within [Tab.blocks.num, Tab.groups.num] :=
  ⟨Act.within_upd _ _ _ (by simp), Act.within_upd _ _ _ (by simp)⟩
theorem past_congr (c : Iss) {u t : State} (hops : Tab.ops.get t = Tab.ops.get u) (hdev : t.dev.cycle = u.dev.cycle) : c.past t = c.past u := by
  simp only [Iss.past, Tab.at_of_get hops, hdev]

theorem occupied_same (sl : Nat) (s : State) : SameTables [Tab.icount.num, Tab.notices.num] s (occupied sl s) :=
  Act.inside_run (a := .seq (.dev fun d => { d with nextId := d.nextId + 1 }) (advanceSlot sl)) ⟨trivial, advanceSlot_inside sl⟩ s
theorem occupied_icount (sl : Nat) (s : State) : (occupied sl s).icountOf sl = s.icountOf sl + 1 := advanceSlot_icount sl _

/-- Going past the instruction, which counts `events`, with `next` due. -/
def goPast (c : Iss) (events : Nat) (next : Instr) : Act := .all [c.advance, c.count events, .due [next]]

theorem goPast_same (c : Iss) (events : Nat) (next : Instr) (v : State) :
    SameTables [Tab.splits.num, Tab.blocks.num, Tab.groups.num] v ((goPast c events next).run v) :=
  Act.inside_run (a := .seq _ (.seq _ (.seq _ .skip))) ⟨Act.within_inside (advance_within (by simp) c),
    Act.within_inside (Act.within_mono (by simp) (count_within c events)), due_inside _ _, trivial⟩ v
theorem goPast_due (c : Iss) (events : Nat) (next : Instr) (v : State) :
    ((goPast c events next).run v).dev = { v.dev with due := v.dev.due ++ [next] } := by
  have hdev : ((c.count events).run (c.advance.run v)).dev = v.dev :=
    (Act.within_run (count_within c events) _).1.trans (advance_same c v).1
  rw [← hdev]; rfl
theorem goPast_split (c : Iss) (events : Nat) (next : Instr) (v : State) :
    SplitIs c (c.past ((goPast c events next).run v)) v ((goPast c events next).run v) := by
  have hlast : Tab.splits.get ((goPast c events next).run v) = Tab.splits.get (c.advance.run v) :=
    Act.inside_run (a := .seq (c.count events) (.seq (.due [next]) .skip)) (ns := [Tab.blocks.num, Tab.groups.num])
      ⟨Act.within_inside (count_within c events), due_inside _ _, trivial⟩ (c.advance.run v) _ .splits (by decide)
  have hpast : c.past ((goPast c events next).run v) = c.past v :=
    past_congr c (goPast_same c events next v _ .ops (by decide)) (by rw [goPast_due])
  refine ⟨?_, fun k hk => ?_⟩
  · rw [hpast, Tab.at_of_get hlast]; exact Tab.at_put_self _ _ _ _
  · rw [Tab.at_of_get hlast]; exact (advance_moved c v).2 k hk

/-- What starting an operation in an engine slot leaves. -/
structure Seated (c : Iss) (sl : Nat) (mk : State → Op) (s t : State) : Prop where
  op : Tab.ops.at s.dev.nextId t = some (mk (occupied sl s))
  icount : t.icountOf sl = s.icountOf sl + 1
  split : SplitIs c (c.past t) s t
  due : .copyChunk s.dev.nextId ∈ t.dev.due
  rest : SameTables [Tab.splits.num, Tab.ops.num, Tab.blocks.num, Tab.groups.num, Tab.icount.num, Tab.notices.num] s t

theorem seat_run (c : Iss) (sl events : Nat) (mk : State → Op) (s : State) :
    (seat c sl events mk).run s =
      (goPast c events (.copyChunk s.dev.nextId)).run (Tab.ops.put s.dev.nextId (mk (occupied sl s)) (occupied sl s)) := by
  simp only [seat, goPast, occupied, Act.fresh, Act.run_read, Act.run_seq, Act.run_dev, Act.run_all_cons, Act.run_put]
theorem seat_seated (c : Iss) (sl events : Nat) (mk : State → Op) (s : State) : Seated c sl mk s ((seat c sl events mk).run s) := by
  rw [seat_run]
  have hsame := occupied_same sl s
  have hicount := occupied_icount sl s
  generalize hu : occupied sl s = u at *
  have hput : SameTables [Tab.ops.num] u (Tab.ops.put s.dev.nextId (mk u) u) := Act.inside_run (a := .put _ _ _) (by simp [Act.inside]) u
  have hop : Tab.ops.at s.dev.nextId (Tab.ops.put s.dev.nextId (mk u) u) = some (mk u) := Tab.at_put_self _ _ _ _
  generalize Tab.ops.put s.dev.nextId (mk u) u = v at *
  have hpast := goPast_same c events (.copyChunk s.dev.nextId) v
  have hdue := goPast_due c events (.copyChunk s.dev.nextId) v
  obtain ⟨hmine, hothers⟩ := goPast_split c events (.copyChunk s.dev.nextId) v
  generalize (goPast c events (.copyChunk s.dev.nextId)).run v = t at *
  constructor
  · rw [hu, Tab.at_of_get (hpast _ .ops (by decide)), hop]
  · rw [icountOf_of_get (hpast _ .icount (by decide)), icountOf_of_get (hput _ .icount (by decide)), hicount]
  · refine ⟨hmine, fun k hk => (hothers k hk).trans (Tab.at_of_get ?_ k)⟩
    exact (hput _ .splits (by decide)).trans (hsame _ .splits (by decide))
  · rw [hdue]; exact List.mem_append_right _ (List.mem_singleton_self _)
  · exact (hsame.mono (by simp)).trans ((hput.mono (by simp)).trans (hpast.mono (by simp)))

/-! ## A copy whose checks pass -/

/-- The checks of a copy pass, and it may take engine slot `sl` (R44, R92, R128, R186, R190). -/
structure Admitted (kind : CopyKind) (f : CopyForm) (sl : Nat) (c : Iss) (s : State) : Prop where
  shape : (issued kind f c s).shapeBad (s.shape c.gid f.shape) = false
  lanes : c.execMask s f.head ≠ 0
  checks : copyStop s c.lau.ctx c.lau.inc c.tid c.blk.lid c.sp.fmt (issued kind f c s) (arriveAt f c s) = none
  counter : s.counter c.gid 3 < 63
  engine : s.freeEngine c.core = some sl
  slot : s.mayAdvance sl = true
  tslot : s.mayAdvanceT c.tid (tslotOfEngine c.lau c.blk sl) = true

/-- The events that an issued copy counts for the journal (R423). -/
def copyEvents (kind : CopyKind) (f : CopyForm) (c : Iss) (s : State) : Nat :=
  b2n (c.lau.journals && kind == .reduce && 2 ≤ f.rtype.toNat && !(issued kind f c s).fixed)

theorem copyIssue_seats {i : Instr} {kind : CopyKind} {f : CopyForm} {sl : Nat} {c : Iss} {s : State} (hi : s.issuer i = some c)
    (h : Admitted kind f sl c s) :
    copyIssue i kind f s = .next ((seat c sl (copyEvents kind f c s) (copyOp i kind f c sl s)).run s) := by
  obtain ⟨hshape, hlanes, hchecks, hcounter, hengine, hslot, htslot⟩ := h
  simp only [issued] at hshape hchecks
  simp only [copyIssue, issue_next hi, Act.run_read, srcRec_eq, dstRec_eq, firstTeam_eq, arriveAt_eq, hshape, beq_iff_eq, hlanes, hchecks,
    Nat.not_le.mpr hcounter, hengine, hslot, htslot, Bool.false_eq_true, if_false, Bool.not_true, Bool.or_self]
  rfl

/-- An issued copy is in flight, and the split goes on after the 28 bytes of its instruction. -/
theorem copyIssue_starts {i : Instr} {kind : CopyKind} {f : CopyForm} {sl : Nat} {c : Iss} {s : State} (hi : s.issuer i = some c)
    (hlen : (encode i).length = 7) (h : Admitted kind f sl c s) : ∃ t, copyIssue i kind f s = .next t ∧
      Flying i c s t (fun o => o.path = some 3 ∧ o.phase = .running ∧ o.slot = BitVec.ofNat 16 sl ∧ o.stamp = (s.icountOf sl + 1).setWidth 16 ∧
        o.brec = srcRec f c s ∧ o.brec2 = dstRec f c s ∧ o.shape = s.shape c.gid f.shape ∧ o.prog = 0 ∧
        o.regs = [firstTeam kind f c s, (arriveAt f c s).toNat, 0, (s.domain f.vb.toNat).gen]) ∧
      t.icountOf sl = s.icountOf sl + 1 ∧ GoesOn 28 none c s t ∧ .copyChunk s.dev.nextId ∈ t.dev.due ∧ SameMemory s t ∧
      SameTables [Tab.splits.num, Tab.ops.num, Tab.blocks.num, Tab.groups.num, Tab.icount.num, Tab.notices.num] s t := by
  refine ⟨_, copyIssue_seats hi h, ?_⟩
  obtain ⟨hop, hicount, hsplit, hdue, hrest⟩ := seat_seated c sl (copyEvents kind f c s) (copyOp i kind f c sl s) s
  generalize (seat c sl (copyEvents kind f c s) (copyOp i kind f c sl s)).run s = t at *
  have hstamp : (occupied sl s).stampOf sl = (s.icountOf sl + 1).setWidth 16 := by
    rw [State.stampOf, occupied_icount, BitVec.setWidth_eq_extractLsb' (by decide)]
  have hgen : ((occupied sl s).domain f.vb.toNat).gen = (s.domain f.vb.toNat).gen :=
    congrArg Domain.gen (Tab.val_of_get (occupied_same sl s _ .domains (by decide)) _ _)
  obtain ⟨-, -, -, -, -, hbytes⟩ := State.issuer_some hi
  refine ⟨⟨_, hop, rfl, rfl, rfl, rfl, rfl, rfl, rfl, rfl, hstamp, rfl, rfl, rfl, rfl, ?_⟩, hicount, ?_, hdue, hrest.memory (by decide), hrest⟩
  · rw [← hgen]; rfl
  · simpa only [GoesOn, Iss.past, hbytes, hlen] using hsplit

end Sys2Proof.Machine.CopyEngine

open Sys2Proof Sys2Proof.Machine Sys2Proof.Machine.CopyEngine

/-- Settles O35: the three instructions issue alike; each enters its operation in the free engine slot and goes on. -/
theorem copyIssue : Obligations.CopyIssue := by
  unfold Obligations.CopyIssue
  intro f slot starts
  have hstarts : ∀ i kind, (∀ s, exec i s = Machine.copyIssue i kind f s) → (encode i).length = 7 → starts i kind := by
    intro i kind hexec hlen s c _ hi ⟨hshape, hlanes, hchecks, hcounter, hengine, hslot, htslot⟩
    rw [hexec]
    exact copyIssue_starts hi hlen ⟨hshape, hlanes, hchecks, hcounter, hengine, hslot, htslot⟩
  exact ⟨hstarts _ _ (fun _ => rfl) rfl, hstarts _ _ (fun _ => rfl) rfl, hstarts _ _ (fun _ => rfl) rfl⟩

end

section
/-! PROOFS. A chunk notes the rows that it writes on the block that its operation names (R191, R399). -/

namespace Sys2Proof.Machine.CopyRows

open Sys2Proof

/-! ## A copy whose operation names a landed block that is not its group's -/

/-- A launch with a window of one row for each team, and a landing area. -/
def landingLaunch : Launch := { placedLaunch with ctx := 0, gal := 1024, land := true }
def homeTeam : Team :=
  { lid := 0, tag := 0, index := 0, cluster := 0, rows := 1, bankRows := List.replicate 32 0, state := .resident, blocks := [1, 3],
    bar := Barrier.open_ }
/-- The block of group 0: it has no area of the landing pool. -/
def homeBlock : Block :=
  { lid := 0, tid := 2, linear := 0, core := 0, gids := [0], bar := Barrier.open_, escaped := false, landSlot := none, rowsCopied := [],
    rowsWritten := [], adopt := none, seq := 0, rolled := false, landed := false }
/-- Another block of the team, with area 0 of the landing pool. -/
def landedBlock : Block := { homeBlock with gids := [], landSlot := some 0 }
def homeGroup : Group := Group.start 1 0 0 0 (fullMask 32) 1
/-- CPY of one byte from offset 0 to offset 256 of the window. -/
def byteCopy : CopyForm :=
  { head := { s := false, la := 0, neg := false, guard := 7 }, arv := false, rel := false, acq := false, scope := .team, dir := 3, rtype := 0,
    vd := 0, va := 0, vb := 0, vc := 0, x32 := 0, shape := { w0 := 0, w1 := 256, w2 := 1, w3 := 0 } }
/-- That copy in flight for group 0. It names block 3, where the group stands in block 1. -/
def strayCopy : Op :=
  { gid := 0, split := 0, bid := 3, ctx := 0, inc := 0, slot := 96, stamp := 1, instr := .cpy byteCopy, pc := 0, site := 0, fmt := 0,
    path := some 3, dest := none, phase := .running, blocking := false, exec := 1, unf := 1, zeroed := 0, brec := 0, brec2 := 0, lanes := [],
    lines := [], secs := [], results := [], flags := 0, fail := none, shape := byteCopy.shape, regs := [0, 0, 0, 0], prog := 0, rows := 0,
    snap := [], sent := [], seq := 0, remote := false, jseq := 0 }
def strayState : State :=
  { State.reset with launches := [(0, landingLaunch)], teams := [(2, homeTeam)], blocks := [(1, homeBlock), (3, landedBlock)],
                     groups := [(0, homeGroup)], ops := [(0, strayCopy)] }

/-- The copy stands before its first chunk: row 0, line 2. -/
theorem strayState_before_chunk :
    Tab.ops.at 0 strayState = some strayCopy ∧ strayCopy.phase = .running ∧
    copyOf strayCopy = some (Copy.make .plain byteCopy byteCopy.shape 0 0 0) ∧ strayState.group? 0 = some homeGroup ∧
    strayState.block? homeGroup.bid = some homeBlock ∧ strayState.launch? homeBlock.lid = some landingLaunch :=
  ⟨rfl, rfl, rfl, rfl, rfl, rfl⟩
theorem strayState_chunk : (Copy.make .plain byteCopy byteCopy.shape 0 0 0).chunk strayCopy.prog = some (0, 2) := by decide +kernel
theorem strayState_undisturbed :
    staleOp strayState strayCopy = false ∧ strayState.frozen 0 = false ∧ strayState.stale (.gallery homeTeam.cluster) 0 0 = false := by
  decide +kernel
theorem strayState_unmarked : strayState.unmarked := ⟨rfl, fun _ => rfl⟩

/-- The chunk notes row 0 of the window on block 3. -/
theorem strayState_notes_row : ((copyStep 0).run strayState).block? 3 = some { landedBlock with rowsWritten := [0] } := by decide +kernel
theorem strayState_no_row : strayState.block? 3 = some landedBlock := rfl

end Sys2Proof.Machine.CopyRows

open Sys2Proof Sys2Proof.Machine Sys2Proof.Machine.CopyRows

/-- Refutes O36, in what a chunk within a window may change. It asks that the block of the copy's group has no area of the landing pool, but a chunk
notes the rows that it writes on the block that the operation names (`o.bid`, R399), and the statement, which ranges over every state, does
not say that the two are one. With the operation in a block that has such an area, that block's rows written change, in a table that the statement
says is as before. -/
theorem not_copySteps : ¬ Obligations.CopySteps := by
  unfold Obligations.CopySteps
  intro h
  obtain ⟨hchunk, -⟩ := h 0 strayCopy byteCopy (Copy.make .plain byteCopy byteCopy.shape 0 0 0) homeBlock landingLaunch homeGroup homeTeam
  obtain ⟨hstale, hfrozen, hgallery⟩ := strayState_undisturbed
  obtain ⟨t, hexec, -, -, -, -, hsame⟩ := hchunk 0 2 rfl strayState
    ⟨strayState_before_chunk, rfl, strayState_chunk, rfl, hstale, hfrozen, strayState_unmarked, rfl, rfl, rfl, hgallery⟩
  have ht : (copyStep 0).run strayState = t := Host.Outcome.next.inj hexec
  have hblock : t.block? 3 = strayState.block? 3 := Tab.at_of_get (hsame _ .blocks (by decide)) 3
  rw [← ht, strayState_notes_row, strayState_no_row] at hblock
  exact absurd hblock (by decide)

end
